-- ==== Sys2Proof/Word.lean ====
section
/-! DEFINITION. The word types of the block and the plainest arithmetic over them
(spec/00_scope.md R10, R11; spec/30_encoding.md R102). -/

namespace Sys2Proof

/-- A register or a command word: 32 bits, bit 0 least significant (R10). -/
abbrev Word := BitVec 32

/-- A byte (R10). -/
abbrev Byte := BitVec 8

/-- A binary64 bit pattern (R103). -/
abbrev F64 := BitVec 64

/-- An RGB colour, channels in the order red, green, blue (R102). The rules compute with channels as
mathematical integers (R11), so they are natural numbers here. -/
structure Rgb where
  r : Nat
  g : Nat
  b : Nat
deriving DecidableEq, Repr, Inhabited

/-- `ceil(a / b)` of R11. -/
def ceilDiv (a b : Nat) : Nat := (a + b - 1) / b

end Sys2Proof
end

