-- ==== Sys2Proof/Config.lean ====
section
/-! DEFINITION. What one piece of hardware fixes (spec/00_scope.md R8) and what nothing fixes (R15).
The parameters are plain data, so that a state that carries them can be compared and written out; the
free values are constants without a body. -/

namespace Sys2Proof

/-- The axes of a generalized box (R146). -/
inductive Axis where
  | red
  | green
  | blue
deriving DecidableEq, Repr, Inhabited

/-- A box of the generalized histogram: three inclusive ranges of bins (R144). -/
structure GenBox where
  r0 : Nat
  r1 : Nat
  g0 : Nat
  g1 : Nat
  b0 : Nat
  b1 : Nat
deriving DecidableEq, Repr, Inhabited

/-- `UNIFORM_FG` (R8, R221): the foreground of a one-colour cell. -/
inductive UniformFg where
  | bg
  | zero
deriving DecidableEq, Repr, Inhabited

/-- The parameters of R8. A level table is given by its 14 intermediate values: levels 0 and 15 are
constants (R7). `axisTable` lists the boxes whose axis differs from the default of R146, and
`tieTable` the sets of equal-cost pairs whose chosen position differs from the default of R197. -/
structure Params where
  levelR : List Nat
  levelG : List Nat
  levelB : List Nat
  wmax : Nat
  hmax : Nat
  kmax : Nat
  tcap : Nat
  ccap : Nat
  fcap : Nat
  vcap : Nat
  rleMaxRun : Nat
  uniformFg : UniformFg
  pastelHigh : Bool
  palLoFirst : Bool
  axisTable : List (GenBox × Axis)
  tieTable : List (List (Nat × Nat) × Nat)
deriving DecidableEq, Repr, Inhabited

/-- The intermediate values of a level table (R131): 14 of them, strictly between 0 and 255 and
strictly increasing. -/
abbrev levelsLawful (t : List Nat) : Prop :=
  t.length = 14 ∧ (∀ v ∈ t, 0 < v ∧ v < 255) ∧ t.Pairwise (· < ·)

/-- The constraints of R8 and R131. That a stream capacity fits the 32 bits of its length register is
DEDUCED from R33 (log 5). -/
abbrev Params.Lawful (p : Params) : Prop :=
  levelsLawful p.levelR ∧ levelsLawful p.levelG ∧ levelsLawful p.levelB ∧
  (1 ≤ p.wmax ∧ p.wmax ≤ 2048) ∧ (1 ≤ p.hmax ∧ p.hmax ≤ 2048) ∧ 1 ≤ p.kmax ∧
  (1 ≤ p.tcap ∧ p.tcap < 2 ^ 32) ∧ (1 ≤ p.ccap ∧ p.ccap < 2 ^ 32) ∧
  (1 ≤ p.fcap ∧ p.fcap < 2 ^ 32) ∧ 1 ≤ p.vcap ∧
  (2 ≤ p.rleMaxRun ∧ p.rleMaxRun ≤ 255)

/-- The example table T17 of spec/95_test_vectors.md: level `k` is `17 * k`. It is an example, not
the hardware's table. -/
def Config.levels17 : List Nat :=
  [17, 34, 51, 68, 85, 102, 119, 136, 153, 170, 187, 204, 221, 238]

/-- Lawful parameters to test with: T17, the defaults of R8 and the capacities that
spec/95_test_vectors.md section 0 assumes. They are an example, not the hardware's. -/
def Config.example17 : Params where
  levelR := Config.levels17
  levelG := Config.levels17
  levelB := Config.levels17
  wmax := 320
  hmax := 200
  kmax := 4
  tcap := 8000
  ccap := 16002
  fcap := 16054
  vcap := 1
  rleMaxRun := 255
  uniformFg := .bg
  pastelHigh := true
  palLoFirst := true
  axisTable := []
  tieTable := []

/-- The parameters a board was built with: unknown (R8, U5 to U7). -/
opaque Config.board : Params

/-- The hardware's parameters: those of the board where they keep R8's constraints. Every lawful
choice is possible, and nothing but lawfulness can be proved of them (log 4). -/
def Config.hw : Params :=
  if Config.board.Lawful then Config.board else Config.example17

/-- FILL_DRAW (R15, R151, U4): the `n`-th draw. Nothing fixes it. -/
opaque Config.fillDraw : Nat → Nat

/-- What the `n`-th draw gives for an element that nothing has written (U1a). Nothing fixes it. -/
opaque Config.freeElement : Nat → BitVec 32

end Sys2Proof
end

