-- ==== Sys2Proof/Syntax.lean ====
section
/-! DEFINITION. The 17 commands of the block as syntax: one constructor per row of
spec/opcode_table.json (spec/30_encoding.md R90, R91, R92, R97). -/

namespace Sys2Proof

/-- A command with its operands. An operand has exactly the bits of its field (R91). -/
inductive Instr where
  /-- NOP (R135). -/
  | nop
  /-- LATRD idx (R136). -/
  | latrd (idx : BitVec 12)
  /-- SNAP r, g, b (R173). -/
  | snap (r g b : BitVec 8)
  /-- SNAPU r, g, b (R174). -/
  | snapu (r g b : BitVec 8)
  /-- UCLR (R175). -/
  | uclr
  /-- UMARK idx (R176). -/
  | umark (idx : BitVec 12)
  /-- QGEN (R155). -/
  | qgen
  /-- QLAT (R160). -/
  | qlat
  /-- PSNAPU (R180). -/
  | psnapu
  /-- PSNAPN (R183). -/
  | psnapn
  /-- DISP (R205). -/
  | disp
  /-- VERIFY (R216). -/
  | verify
  /-- BLKENC (R223). -/
  | blkenc
  /-- XPOSE plane (R238): `p` is 0 SHP, 1 COLA, 2 COLB; 3 is reserved (R92). -/
  | xpose (p : BitVec 2)
  /-- RLE t, a (R250). -/
  | rle (t a : Bool)
  /-- CONT (R262). -/
  | cont
  /-- RAWF plane (R266): `p` as for XPOSE. -/
  | rawf (p : BitVec 2)
deriving DecidableEq, Repr

end Sys2Proof
end

