-- ==== Sys2Proof/WellFormed.lean ====
section
/-! DEFINITION. Which commands are legal: the plane selector of XPOSE and RAWF is not 3
(spec/30_encoding.md R92, R98 (c)). Every other operand value is legal. -/

namespace Sys2Proof

/-- The plane selector is one of SHP, COLA, COLB (R92). -/
def planeSelOk (p : BitVec 2) : Bool := p != 3

/-- A legal command (R98). -/
def Instr.wellFormed : Instr → Bool
  | .nop => true
  | .latrd _ => true
  | .snap _ _ _ => true
  | .snapu _ _ _ => true
  | .uclr => true
  | .umark _ => true
  | .qgen => true
  | .qlat => true
  | .psnapu => true
  | .psnapn => true
  | .disp => true
  | .verify => true
  | .blkenc => true
  | .xpose p => planeSelOk p
  | .rle _ _ => true
  | .cont => true
  | .rawf p => planeSelOk p

end Sys2Proof
end

