-- ==== Sys2Proof/Decode.lean ====
section
/-! DEFINITION. Decoding a command word, total and rejecting by name, and encoding a command
(spec/30_encoding.md R90, R91, R92, R97, R98). -/

namespace Sys2Proof

/-- Why a word is illegal (R98). -/
inductive DecodeError where
  /-- R98 (a): `w[31:24]` is not one of the 17 opcodes. -/
  | unknownOpcode
  /-- R98 (b): a bit the format marks "must be 0" is 1. -/
  | mustBeZero
  /-- R98 (c): format P with `p = 3`. -/
  | planeReserved
deriving DecidableEq, Repr

/-- The formats of R91. -/
inductive Format where
  | z
  | i12
  | rgb
  | p
  | rl
deriving DecidableEq, Repr

/-- A row of R97: mnemonic, format, match. -/
structure OpcodeRow where
  mnemonic : String
  format : Format
  matchWord : Word
deriving DecidableEq, Repr

/-- The mask of a row is decided by its format (R97). -/
def Format.mask : Format → Word
  | .z => 0xFFFFFFFF
  | .i12 => 0xFFFFF000
  | .rgb => 0xFF000000
  | .p => 0xFFFFFFFC
  | .rl => 0xFFFFFFFC

/-- The 17 rows of R97. -/
def opcodeTable : List OpcodeRow :=
  [⟨"NOP", .z, 0x00000000⟩, ⟨"LATRD", .i12, 0x01000000⟩, ⟨"SNAP", .rgb, 0x02000000⟩,
   ⟨"SNAPU", .rgb, 0x03000000⟩, ⟨"UCLR", .z, 0x04000000⟩, ⟨"UMARK", .i12, 0x05000000⟩] ++
  [⟨"QGEN", .z, 0x10000000⟩, ⟨"QLAT", .z, 0x11000000⟩, ⟨"PSNAPU", .z, 0x12000000⟩,
   ⟨"PSNAPN", .z, 0x13000000⟩] ++
  [⟨"DISP", .z, 0x20000000⟩, ⟨"VERIFY", .z, 0x21000000⟩, ⟨"BLKENC", .z, 0x22000000⟩] ++
  [⟨"XPOSE", .p, 0x30000000⟩, ⟨"RLE", .rl, 0x31000000⟩, ⟨"CONT", .z, 0x32000000⟩,
   ⟨"RAWF", .p, 0x33000000⟩]

/-- Format Z (R91): the whole operand field must be 0. -/
def decodeZ (w : Word) (i : Instr) : Except DecodeError Instr :=
  if w.extractLsb' 0 24 = 0 then .ok i else .error .mustBeZero

/-- Format I12 (R91): `idx = w[11:0]`, `w[23:12]` must be 0. -/
def decodeI12 (w : Word) (mk : BitVec 12 → Instr) : Except DecodeError Instr :=
  if w.extractLsb' 12 12 = 0 then .ok (mk (w.extractLsb' 0 12)) else .error .mustBeZero

/-- Format RGB (R91): `r = w[7:0]`, `g = w[15:8]`, `b = w[23:16]`. -/
def decodeRgb (w : Word) (mk : BitVec 8 → BitVec 8 → BitVec 8 → Instr) : Except DecodeError Instr :=
  .ok (mk (w.extractLsb' 0 8) (w.extractLsb' 8 8) (w.extractLsb' 16 8))

/-- Format P (R91): `p = w[1:0]`, `w[23:2]` must be 0, `p` must not be 3 (R98 (c)). -/
def decodeP (w : Word) (mk : BitVec 2 → Instr) : Except DecodeError Instr :=
  if w.extractLsb' 2 22 = 0 then
    if planeSelOk (w.extractLsb' 0 2) then .ok (mk (w.extractLsb' 0 2)) else .error .planeReserved
  else .error .mustBeZero

/-- Format RL (R91): `t = w[0]`, `a = w[1]`, `w[23:2]` must be 0. -/
def decodeRl (w : Word) (mk : Bool → Bool → Instr) : Except DecodeError Instr :=
  if w.extractLsb' 2 22 = 0 then .ok (mk (w.getLsbD 0) (w.getLsbD 1)) else .error .mustBeZero

/-- The decoder of R90: the opcode `w[31:24]` picks the row, the row's format checks the
must-be-0 bits and extracts the fields. -/
def decodeWord (w : Word) : Except DecodeError Instr :=
  match (w.extractLsb' 24 8).toNat with
  | 0x00 => decodeZ w .nop
  | 0x01 => decodeI12 w .latrd
  | 0x02 => decodeRgb w .snap
  | 0x03 => decodeRgb w .snapu
  | 0x04 => decodeZ w .uclr
  | 0x05 => decodeI12 w .umark
  | 0x10 => decodeZ w .qgen
  | 0x11 => decodeZ w .qlat
  | 0x12 => decodeZ w .psnapu
  | 0x13 => decodeZ w .psnapn
  | 0x20 => decodeZ w .disp
  | 0x21 => decodeZ w .verify
  | 0x22 => decodeZ w .blkenc
  | 0x30 => decodeP w .xpose
  | 0x31 => decodeRl w .rle
  | 0x32 => decodeZ w .cont
  | 0x33 => decodeP w .rawf
  | _ => .error .unknownOpcode

/-- The instruction the decoder reads from a table row's bits: a command word arrives whole, so the
word is the number itself; a number of more than 32 bits is no word. -/
def decodeTableWord (nbits w : Nat) : Option Instr :=
  if nbits ≤ 32 ∧ w < 2 ^ 32 then
    match decodeWord (BitVec.ofNat 32 (w % 2 ^ nbits)) with
    | .ok i => some i
    | .error _ => none
  else none

/-- A word from its opcode and its operand field (R90). -/
def packWord (opcode : BitVec 8) (field : BitVec 24) : Word := opcode ++ field

/-- The word of a command (R118). -/
def encode : Instr → Word
  | .nop => packWord 0x00 0
  | .latrd idx => packWord 0x01 ((0 : BitVec 12) ++ idx)
  | .snap r g b => packWord 0x02 (b ++ g ++ r)
  | .snapu r g b => packWord 0x03 (b ++ g ++ r)
  | .uclr => packWord 0x04 0
  | .umark idx => packWord 0x05 ((0 : BitVec 12) ++ idx)
  | .qgen => packWord 0x10 0
  | .qlat => packWord 0x11 0
  | .psnapu => packWord 0x12 0
  | .psnapn => packWord 0x13 0
  | .disp => packWord 0x20 0
  | .verify => packWord 0x21 0
  | .blkenc => packWord 0x22 0
  | .xpose p => packWord 0x30 ((0 : BitVec 22) ++ p)
  | .rle t a => packWord 0x31 ((0 : BitVec 22) ++ (BitVec.ofBool a ++ BitVec.ofBool t))
  | .cont => packWord 0x32 0
  | .rawf p => packWord 0x33 ((0 : BitVec 22) ++ p)

end Sys2Proof
end

