-- ==== Sys2Proof/Machine/State.lean ====
section
/-! DEFINITION. The state of the block (spec/10_state.md), the host's actions (spec/20_memory.md R60),
the reasons a step of the model can stop, and the state after reset (spec/70_reset_and_hazards.md R310).
A register's field has exactly the bits that its rule says are stored. -/

namespace Sys2Proof.Machine

/-- A buffer of `w`-bit elements (R36): the elements that hold a value, by rising index. An index that
is not listed holds no defined value (R50). A buffer of bytes is a list of `Host.Cell`. -/
abbrev Buf (w : Nat) := List (Nat × BitVec w)

/-- The 13 buffers of R36, in the order of their identifiers 0 to 12. -/
inductive BufId where
  | img
  | ext
  | pal
  | used
  | krn
  | idx
  | shp
  | cola
  | colb
  | tbuf
  | cbuf
  | fbuf
  | vlog
deriving DecidableEq, Repr

/-- The element width of a buffer (R36). -/
def BufId.width : BufId → Nat
  | .img => 8
  | .ext => 8
  | .pal => 12
  | .used => 1
  | .krn => 32
  | .idx => 4
  | .shp => 8
  | .cola => 8
  | .colb => 8
  | .tbuf => 8
  | .cbuf => 8
  | .fbuf => 8
  | .vlog => 32

/-- The host's column of R36: FBUF and VLOG ignore window writes (R65). -/
def BufId.hostWrites : BufId → Bool
  | .fbuf => false
  | .vlog => false
  | .img | .ext | .pal | .used | .krn | .idx | .shp | .cola | .colb | .tbuf | .cbuf => true

/-- What the outside does to the block, one action at a time (R6, R60, R310): a read or a write at a
byte offset from `BASE`, with its width in bytes, and reset. -/
inductive HostAction where
  /-- `MemRead(BASE + off, bytes)`. -/
  | read (off bytes : Nat)
  /-- `MemWrite(BASE + off, bytes, v)`. -/
  | write (off bytes : Nat) (v : Word)
  /-- The platform applies reset (R310). -/
  | reset
deriving DecidableEq, Repr

/-- The whole state. -/
structure State where
  /-- STATUS.FAULT (R25). -/
  fault : Bool
  /-- STATUS.WFILL (R25). -/
  wfill : Bool
  /-- STATUS.WVIOL (R25). -/
  wviol : Bool
  /-- VALID.PALV (R26). -/
  palv : Bool
  /-- VALID.IDXV (R26). -/
  idxv : Bool
  /-- VALID.PLNV (R26). -/
  plnv : Bool
  /-- FCAUSE (R27). -/
  fcause : BitVec 8
  /-- FINFO (R28). -/
  finfo : Word
  /-- CANVAS (R24). -/
  canvas : Word
  /-- KLEN (R29). -/
  klen : BitVec 16
  /-- RES (R30). -/
  res : Word
  /-- NCUBE (R31). -/
  ncube : BitVec 5
  /-- VCOUNT (R32). -/
  vcount : Word
  /-- TLEN (R33). -/
  tlen : Word
  /-- CLEN (R33). -/
  clen : Word
  /-- FLEN (R33). -/
  flen : Word
  /-- MODE0 (R34). -/
  mode0 : Word
  /-- MODE1 (R34). -/
  mode1 : BitVec 8
  /-- BUFSEL (R35). -/
  bufsel : BitVec 4
  /-- BUFADDR (R35). -/
  bufaddr : BitVec 24
  /-- IMG (R37). -/
  img : Buf 8
  /-- EXT (R38). -/
  ext : Buf 8
  /-- PAL (R39). -/
  pal : Buf 12
  /-- USED (R40). -/
  used : Buf 1
  /-- KRN (R41). -/
  krn : Buf 32
  /-- IDX (R42). -/
  idx : Buf 4
  /-- SHP (R43). -/
  shp : Buf 8
  /-- COLA (R43). -/
  cola : Buf 8
  /-- COLB (R43). -/
  colb : Buf 8
  /-- TBUF (R44). -/
  tbuf : Buf 8
  /-- CBUF (R44). -/
  cbuf : Buf 8
  /-- FBUF (R44). -/
  fbuf : Buf 8
  /-- VLOG (R45). -/
  vlog : Buf 32
  /-- ERR (R47): element `3 * (y * W + x) + ch` is `ERR[y][x][ch]`, a binary64 pattern. Hidden. -/
  err : Buf 64
  /-- The model's own: the hardware's parameters (R8); no step changes them. -/
  cfg : Params
  /-- The model's own: the host's actions to come, in the one order of R74. -/
  host : List HostAction
  /-- The model's own: the value the host's last register read returned. -/
  readData : Word
  /-- The model's own: how many free values have been drawn (R15, U1a). -/
  draws : Nat
deriving DecidableEq, Repr

/-- The model's stops. They are not the block's own faults, which are next states (R284). -/
inductive Fault where
  /-- A command read an element of `buf` that neither the host nor a command has written since reset:
  "no defined result" (R50; U1, treatment `fault`). Raised by every command that reads a buffer.
  Safe: the block itself goes on with unspecified data, and no claim can be proved of that run. -/
  | unwrittenElement (buf : BufId)
deriving DecidableEq, Repr

/-- Why the model gives an action no meaning. -/
inductive Refusal where
  /-- An instruction without a meaning yet. Safe. No arm of this model answers it. -/
  | notModelled (mnemonic : String)
  /-- A host access that is not 4 bytes wide, not aligned, or outside the 256-byte region: "not an
  action of this interface" (R61; U2, treatment `refuse`). Raised by the step. Safe. -/
  | notAnAccess (off bytes : Nat)
deriving DecidableEq, Repr

/-- The outcome of a step or of a command. -/
abbrev Out := Host.Outcome State Fault Refusal

/-- The block right after reset (R49, R310), no host action pending. -/
def State.reset : State where
  fault := false
  wfill := false
  wviol := false
  palv := false
  idxv := false
  plnv := false
  fcause := 0
  finfo := 0
  canvas := 0
  klen := 0
  res := 0
  ncube := 0
  vcount := 0
  tlen := 0
  clen := 0
  flen := 0
  mode0 := 0
  mode1 := 0
  bufsel := 0
  bufaddr := 0
  img := []
  ext := []
  pal := []
  used := []
  krn := []
  idx := []
  shp := []
  cola := []
  colb := []
  tbuf := []
  cbuf := []
  fbuf := []
  vlog := []
  err := []
  cfg := Config.hw
  host := []
  readData := 0
  draws := 0

end Sys2Proof.Machine
end

