-- ==== Sys2Proof/Machine/Ops.lean ====
section
/-! DEFINITION. The operations every command and every host action is written over: buffer elements,
fault entry and the way out of it, and the checks of a command (spec/20_memory.md,
spec/60_exceptions.md). -/

namespace Sys2Proof.Machine

/-! ### Buffers -/

/-- Element `i`, if it holds a value (R50). -/
def bufGet {w : Nat} (b : Buf w) (i : Nat) : Option (BitVec w) :=
  (b.find? (fun c => c.1 == i)).map (·.2)

/-- The cells of a run of values from index `o` on. -/
def runCells {w : Nat} : Nat → List (BitVec w) → Buf w
  | _, [] => []
  | o, v :: vs => (o, v) :: runCells (o + 1) vs

/-- Store the values `vs` at the indices from `o` on; everything else stays. -/
def bufWriteRun {w : Nat} (b : Buf w) (o : Nat) (vs : List (BitVec w)) : Buf w :=
  b.filter (fun c => decide (c.1 < o)) ++ runCells o vs ++
    b.filter (fun c => decide (o + vs.length ≤ c.1))

/-- `B.NAME[i] <- v` (R13). -/
def bufSet {w : Nat} (b : Buf w) (i : Nat) (v : BitVec w) : Buf w := bufWriteRun b i [v]

/-- The `n` elements from index `o` on, if every one of them holds a value (R50). -/
def bufReadRun {w : Nat} (b : Buf w) : Nat → Nat → Option (List (BitVec w))
  | _, 0 => some []
  | o, n + 1 =>
    match bufGet b o with
    | none => none
    | some v => (bufReadRun b (o + 1) n).map (v :: ·)

/-- The canonical form of a buffer: indices strictly rising. No entry can equal what an unlisted index
reads as, since that is no value at all. -/
abbrev bufSorted {w : Nat} (b : Buf w) : Prop := b.Pairwise (fun c d => c.1 < d.1)

/-- The canonical form within a capacity. -/
abbrev bufWf {w : Nat} (b : Buf w) (cap : Nat) : Prop := bufSorted b ∧ ∀ c ∈ b, c.1 < cap

/-- The capacity of a buffer (R36). -/
def bufCap (p : Params) : BufId → Nat
  | .img => 3 * p.wmax * p.hmax
  | .ext => 48
  | .pal => 16
  | .used => 4096
  | .krn => 4 * p.kmax
  | .idx => p.wmax * p.hmax
  | .shp => ceilDiv p.wmax 8 * p.hmax
  | .cola => ceilDiv p.wmax 8 * p.hmax
  | .colb => ceilDiv p.wmax 8 * p.hmax
  | .tbuf => p.tcap
  | .cbuf => p.ccap
  | .fbuf => p.fcap
  | .vlog => p.vcap

/-- The contents of a buffer. -/
def bufOf (s : State) : (b : BufId) → Buf b.width
  | .img => s.img
  | .ext => s.ext
  | .pal => s.pal
  | .used => s.used
  | .krn => s.krn
  | .idx => s.idx
  | .shp => s.shp
  | .cola => s.cola
  | .colb => s.colb
  | .tbuf => s.tbuf
  | .cbuf => s.cbuf
  | .fbuf => s.fbuf
  | .vlog => s.vlog

/-- The state with a buffer's contents replaced. -/
def withBuf (s : State) : (b : BufId) → Buf b.width → State
  | .img, m => { s with img := m }
  | .ext, m => { s with ext := m }
  | .pal, m => { s with pal := m }
  | .used, m => { s with used := m }
  | .krn, m => { s with krn := m }
  | .idx, m => { s with idx := m }
  | .shp, m => { s with shp := m }
  | .cola, m => { s with cola := m }
  | .colb, m => { s with colb := m }
  | .tbuf, m => { s with tbuf := m }
  | .cbuf, m => { s with cbuf := m }
  | .fbuf, m => { s with fbuf := m }
  | .vlog, m => { s with vlog := m }

/-- Read one element of a buffer by its identifier. -/
def readElem (s : State) (b : BufId) (i : Nat) : Option (BitVec b.width) := bufGet (bufOf s b) i

/-! ### Faults -/

/-- The cause codes of R283. -/
inductive Cause where
  | illcmd
  | notready
  | badgeom
  | alloc
  | nocand
  | kernel
  | numeric
  | sizeovf
  | badlen
deriving DecidableEq, Repr

/-- The value of `FCAUSE[7:0]` (R283). -/
def causeCode : Cause → BitVec 8
  | .illcmd => 1
  | .notready => 2
  | .badgeom => 3
  | .alloc => 4
  | .nocand => 5
  | .kernel => 6
  | .numeric => 7
  | .sizeovf => 8
  | .badlen => 9

/-- Fault entry (R284): `w` is the command word whose execution faulted. There is no handler, no saved
program counter, no saved status and no mode to change. -/
def raiseFault (c : Cause) (w : Word) (s : State) : State :=
  { s with fault := true, fcause := causeCode c, finfo := w }

/-- Reset (R310): the only way out of a fault (R300). The configuration is the hardware's, and the
host's pending actions, the last value read and the count of draws are the model's own. -/
def resetBlock (s : State) : State :=
  { State.reset with cfg := s.cfg, host := s.host, readData := s.readData, draws := s.draws }

/-! ### The checks of a command -/

/-- The gate (R285): a faulted block executes nothing and changes nothing. -/
def gated (s : State) (k : Out) : Out := if s.fault then .next s else k

/-- A check before any state change (R296): where it fails, the fault is entered. -/
def needs (ok : Bool) (c : Cause) (w : Word) (s : State) (k : Out) : Out :=
  if ok then k else .next (raiseFault c w s)

/-- A command's input: where an element of it holds no value the run has no meaning (R50, U1). -/
def needsRead {α : Type} (r : Option α) (b : BufId) (k : α → Out) : Out :=
  match r with
  | none => .fault (.unwrittenElement b)
  | some a => k a

end Sys2Proof.Machine
end

