-- ==== Sys2Proof/Machine/Flags.lean ====
section
/-! DEFINITION. STATUS and VALID as the host reads them, and how commands and the host write their
fields (spec/10_state.md R24, R25, R26; spec/60_exceptions.md R298). -/

namespace Sys2Proof.Machine

/-- One bit of a word, at position `i`. -/
def bitAt (b : Bool) (i : Nat) : Word := (BitVec.ofBool b).setWidth 32 <<< i

/-- STATUS as read (R25): bit 0 FAULT, bit 1 WFILL, bit 2 WVIOL, the rest 0. -/
def statusWord (s : State) : Word := bitAt s.fault 0 ||| bitAt s.wfill 1 ||| bitAt s.wviol 2

/-- VALID as read (R26): bit 0 PALV, bit 1 IDXV, bit 2 PLNV, the rest 0. -/
def validWord (s : State) : Word := bitAt s.palv 0 ||| bitAt s.idxv 1 ||| bitAt s.plnv 2

/-- The host writes VALID (R26): bits 2:0 are stored, the rest ignored. -/
def writeValid (v : Word) (s : State) : State :=
  { s with palv := v.getLsbD 0, idxv := v.getLsbD 1, plnv := v.getLsbD 2 }

/-- The host writes CANVAS (R24): all 32 bits are stored, and IDXV and PLNV are cleared whatever the
value. -/
def writeCanvas (v : Word) (s : State) : State :=
  { s with canvas := v, idxv := false, plnv := false }

end Sys2Proof.Machine
end

