-- ==== Sys2Proof/Machine/Operands.lean ====
section
/-! DEFINITION. Where a command's operands come from (spec/30_encoding.md R92): the canvas and what is
derived from it (spec/00_scope.md R9), the target colour of the command word, and the live parts of
the buffers (spec/10_state.md R36 to R44). -/

namespace Sys2Proof.Machine

/-! ### The canvas -/

/-- `W` (R24). -/
def canvasW (s : State) : Nat := (s.canvas.extractLsb' 0 16).toNat

/-- `H` (R24). -/
def canvasH (s : State) : Nat := (s.canvas.extractLsb' 16 16).toNat

/-- The geometry check (R288): `1 <= W <= WMAX and 1 <= H <= HMAX`. -/
def geomOk (s : State) : Bool :=
  decide (1 ≤ canvasW s) && decide (1 ≤ canvasH s) &&
    decide (canvasW s ≤ s.cfg.wmax) && decide (canvasH s ≤ s.cfg.hmax)

/-- `C`, the number of cells in a row (R9). -/
def cellCols (W : Nat) : Nat := ceilDiv W 8

/-- `H8`, the number of rows after padding (R9). -/
def paddedRows (H : Nat) : Nat := 8 * ceilDiv H 8

/-- The pixel columns of cell column `cx` (R9): `8*cx .. min(8*cx + 8, W) - 1`. -/
def cellXs (W cx : Nat) : List Nat := List.range' (8 * cx) (min 8 (W - 8 * cx))

/-- The cells in scan order (R196, R216): rows in order, and in a row the cells in order. -/
def cellList (W H : Nat) : List (Nat × Nat) :=
  (List.range H).flatMap fun y => (List.range (cellCols W)).map fun cx => (cx, y)

/-! ### Operands in the command word -/

/-- The target colour of an RGB command (R92). -/
def targetColor (r g b : BitVec 8) : Rgb := ⟨r.toNat, g.toNat, b.toNat⟩

/-! ### Live parts of buffers -/

/-- Three bytes make a colour, red first (R37, R38). -/
def colorsOf : List Byte → List Rgb
  | r :: g :: b :: rest => ⟨r.toNat, g.toNat, b.toNat⟩ :: colorsOf rest
  | _ => []

/-- The pixels of the live part of IMG, row by row (R37). -/
def readImage (s : State) : Option (List Rgb) :=
  (bufReadRun s.img 0 (3 * canvasW s * canvasH s)).map colorsOf

/-- The 16 colours of EXT (R38). -/
def readExt (s : State) : Option (List Rgb) := (bufReadRun s.ext 0 48).map colorsOf

/-- The 16 lattice indices of PAL (R39). -/
def readPal (s : State) : Option (List (BitVec 12)) := bufReadRun s.pal 0 16

/-- The live part of IDX, row by row (R42): the palette indices of the canvas. -/
def readIndices (s : State) : Option (List Nat) :=
  (bufReadRun s.idx 0 (canvasW s * canvasH s)).map (·.map BitVec.toNat)

/-- The palette indices of a cell, left to right (R220). -/
def cellIndices (W : Nat) (indices : List Nat) (c : Nat × Nat) : List Nat :=
  (cellXs W c.1).map fun x => indices.getD (c.2 * W + x) 0

/-- The buffer a plane selector names (R92): 0 SHP, 1 COLA, 2 COLB. -/
def planeId (p : BitVec 2) : BufId :=
  match p.toNat with
  | 0 => .shp
  | 1 => .cola
  | _ => .colb

/-- The contents of the selected plane. -/
def planeBuf (s : State) (p : BitVec 2) : Buf 8 :=
  match p.toNat with
  | 0 => s.shp
  | 1 => s.cola
  | _ => s.colb

/-- The live part of the selected plane: `C * H` bytes, row by row (R43). -/
def readPlane (s : State) (p : BitVec 2) : Option (List Byte) :=
  bufReadRun (planeBuf s p) 0 (cellCols (canvasW s) * canvasH s)

end Sys2Proof.Machine
end

