-- ==== Sys2Proof/Machine/BlockEncoder.lean ====
section
/-! DEFINITION. The hardware block encoder and the command BLKENC (spec/45_block_encoder.md, with the
cell encodings of spec/30_encoding.md R104 to R106). -/

namespace Sys2Proof.Machine

/-- The background of a cell (R221): its first index. -/
def cellBg (q : List Nat) : Nat := q.headD 0

/-- The foreground of a cell (R221): the first index that differs from the background, and for a
one-colour cell what `UNIFORM_FG` says. -/
def cellFg (p : Params) (q : List Nat) : Nat :=
  match q.find? (fun k => k != cellBg q) with
  | some k => k
  | none =>
    match p.uniformFg with
    | .bg => cellBg q
    | .zero => 0

/-- The shape byte (R104, R222): the leftmost pixel in bit 7; a missing pixel's bit is 0. -/
def shapeByte (fg : Nat) (q : List Nat) : Byte :=
  BitVec.ofNat 8 ((q.zipIdx.map fun e => if e.1 = fg then 2 ^ (7 - e.2) else 0).sum)

/-- The pastel flag of variant A (R105). -/
def pastelFlag (p : Params) (k : Nat) : BitVec 1 :=
  BitVec.ofBool (if p.pastelHigh then k.testBit 3 else !k.testBit 3)

/-- The colour byte, variant A (R105). -/
def colorByteA (p : Params) (fg bg : Nat) : Byte :=
  pastelFlag p fg ++ pastelFlag p bg ++ BitVec.ofNat 3 fg ++ BitVec.ofNat 3 bg

/-- The colour byte, variant B (R106). -/
def colorByteB (fg bg : Nat) : Byte := BitVec.ofNat 4 fg ++ BitVec.ofNat 4 bg

/-- The palette indices of every cell, in the order of the planes (R43). -/
def planeCells (W H : Nat) (indices : List Nat) : List (List Nat) :=
  (cellList W H).map (cellIndices W indices)

/-- BLKENC (R223): all three planes are written (R228). -/
def execBlkenc (s : State) : Out :=
  gated s <| needs (geomOk s) .badgeom (encode .blkenc) s <|
    needs s.idxv .notready (encode .blkenc) s <|
      needsRead (readIndices s) .idx fun indices =>
        let cells := planeCells (canvasW s) (canvasH s) indices
        .next { s with
          shp := bufWriteRun s.shp 0 (cells.map fun q => shapeByte (cellFg s.cfg q) q)
          cola := bufWriteRun s.cola 0
            (cells.map fun q => colorByteA s.cfg (cellFg s.cfg q) (cellBg q))
          colb := bufWriteRun s.colb 0
            (cells.map fun q => colorByteB (cellFg s.cfg q) (cellBg q))
          plnv := true }

end Sys2Proof.Machine
end

