-- ==== Sys2Proof/Machine/Binary64.lean ====
section
/-! DEFINITION. IEEE 754 binary64 on bit patterns: addition, subtraction and multiplication, each the
exact result rounded once to nearest even, and the comparisons (spec/00_scope.md R12,
spec/30_encoding.md R103). -/

namespace Sys2Proof.Machine

/-- The sign bit `f[63]` (R103). -/
def f64Neg (a : F64) : Bool := a.getLsbD 63

/-- The biased exponent `f[62:52]` (R103). -/
def f64Exp (a : F64) : Nat := (a.extractLsb' 52 11).toNat

/-- The fraction `f[51:0]` (R103). -/
def f64Frac (a : F64) : Nat := (a.extractLsb' 0 52).toNat

/-- Finite exactly when the exponent field is not 0x7FF (R103). -/
def f64Finite (a : F64) : Bool := f64Exp a != 0x7FF

/-- A NaN: exponent field 0x7FF, fraction not 0. -/
def f64Nan (a : F64) : Bool := f64Exp a == 0x7FF && f64Frac a != 0

/-- The magnitude of a finite pattern, as a multiple of 2^-1074; an infinity's is above every finite
one's. -/
def f64Mag (a : F64) : Nat :=
  if f64Exp a = 0 then f64Frac a else (2 ^ 52 + f64Frac a) * 2 ^ (f64Exp a - 1)

/-- The value of a finite pattern, as a multiple of 2^-1074. -/
def f64Int (a : F64) : Int := if f64Neg a then -(f64Mag a : Int) else (f64Mag a : Int)

/-- The infinity of a sign. -/
def f64Inf (neg : Bool) : F64 := BitVec.ofBool neg ++ (0x7FF : BitVec 11) ++ (0 : BitVec 52)

/-- The NaN an invalid operation gives. PRESUMED: IEEE 754 leaves its fraction open; no rule of the
spec lets a NaN arise (R201; log 15). -/
def f64QuietNan : F64 := 0x7FF8000000000000

/-- Divide by `2 ^ u`, rounding to nearest, ties to even (R12). -/
def roundShift (m u : Nat) : Nat :=
  let q := m / 2 ^ u
  let r := m % 2 ^ u
  if 2 * r > 2 ^ u ∨ (2 * r = 2 ^ u ∧ q % 2 = 1) then q + 1 else q

/-- The magnitude bits of `m * 2^-2148` rounded to nearest even: the last place kept is that of the
53rd significant bit, but never below 2^-1074; a carry out of the significand raises the exponent,
and what passes the largest finite number becomes an infinity. -/
def roundBits (m : Nat) : Nat :=
  let u := max (Nat.log2 m + 1 - 53) 1074
  min ((u - 1074) * 2 ^ 52 + roundShift m u) (0x7FF * 2 ^ 52)

/-- The pattern of the signed number of magnitude `m * 2^-2148`, rounded once. -/
def f64Round (neg : Bool) (m : Nat) : F64 :=
  BitVec.ofBool neg ++ BitVec.ofNat 63 (roundBits m)

/-- `f64(n)` (R12): an integer, exactly representable for the bytes it is used on. -/
def f64OfNat (n : Nat) : F64 := f64Round false (n * 2 ^ 2148)

/-- `a +. b` (R12). An exact zero sum is +0 unless both operands are negative. -/
def f64Add (a b : F64) : F64 :=
  if f64Nan a || f64Nan b then f64QuietNan
  else if !f64Finite a then
    if !f64Finite b && f64Neg a != f64Neg b then f64QuietNan else a
  else if !f64Finite b then b
  else
    let x := f64Int a + f64Int b
    if x = 0 then f64Round (f64Neg a && f64Neg b) 0
    else f64Round (decide (x < 0)) (x.natAbs * 2 ^ 1074)

/-- The sign flipped. -/
def f64Negate (a : F64) : F64 := a ^^^ 0x8000000000000000

/-- `a -. b` (R12). -/
def f64Sub (a b : F64) : F64 := f64Add a (f64Negate b)

/-- `a *. b` (R12). -/
def f64Mul (a b : F64) : F64 :=
  if f64Nan a || f64Nan b then f64QuietNan
  else if !f64Finite a || !f64Finite b then
    if f64Mag a = 0 ∨ f64Mag b = 0 then f64QuietNan else f64Inf (f64Neg a != f64Neg b)
  else f64Round (f64Neg a != f64Neg b) (f64Mag a * f64Mag b)

/-- `a <. b` (R12): false with a NaN. -/
def f64Lt (a b : F64) : Bool := !f64Nan a && !f64Nan b && decide (f64Int a < f64Int b)

/-- `a <=. b` (R12): false with a NaN. -/
def f64Le (a b : F64) : Bool := !f64Nan a && !f64Nan b && decide (f64Int a ≤ f64Int b)

end Sys2Proof.Machine
end

