-- ==== Sys2Proof/Machine/Lattice.lean ====
section
/-! DEFINITION. The colour lattice and the commands NOP and LATRD (spec/40_lattice.md). -/

namespace Sys2Proof.Machine

/-- A level table (R131): level 0 is 0, level 15 is 255 (R7), the rest are the parameter's. -/
def levelOf (t : List Nat) (k : Nat) : Nat :=
  if k = 0 then 0 else if k = 15 then 255 else t.getD (k - 1) 0

/-- `LAT(i)` (R132), with the index layout of R100. -/
def lat (p : Params) (i : Nat) : Rgb :=
  ⟨levelOf p.levelR (i % 16), levelOf p.levelG (i / 16 % 16), levelOf p.levelB (i / 256 % 16)⟩

/-- The index of a level triple (R132). -/
def latIndex (rl gl bl : Nat) : Nat := rl + 16 * gl + 256 * bl

/-- A colour as RES holds it after LATRD (R30): red low. -/
def packRgb (c : Rgb) : Word :=
  BitVec.ofNat 32 c.r ||| (BitVec.ofNat 32 c.g <<< 8) ||| (BitVec.ofNat 32 c.b <<< 16)

/-- NOP (R135). -/
def execNop (s : State) : Out := gated s (.next s)

/-- LATRD idx (R136). -/
def execLatrd (idx : BitVec 12) (s : State) : Out :=
  gated s (.next { s with res := packRgb (lat s.cfg idx.toNat) })

end Sys2Proof.Machine
end

