-- ==== Sys2Proof/Machine/Snapper.lean ====
section
/-! DEFINITION. The palette snapper, the used set, and the commands SNAP, SNAPU, UCLR, UMARK, PSNAPU
and PSNAPN (spec/42_snapper.md). -/

namespace Sys2Proof.Machine

/-- Squared Euclidean RGB distance, exact (R170). -/
def dist (t c : Rgb) : Int :=
  ((t.r : Int) - c.r) ^ 2 + ((t.g : Int) - c.g) ^ 2 + ((t.b : Int) - c.b) ^ 2

/-- The scan of R171 over a list of candidate indices, from the best found so far: an index of the
used set is skipped, and only a strictly smaller distance replaces the best. -/
def snapScan (p : Params) (t : Rgb) (used : Nat → Bool) :
    List Nat → Option (Nat × Int) → Option Nat
  | [], none => none
  | [], some (b, _) => some b
  | i :: is, none =>
    if used i then snapScan p t used is none
    else snapScan p t used is (some (i, dist t (lat p i)))
  | i :: is, some (b, bd) =>
    if used i then snapScan p t used is (some (b, bd))
    else if dist t (lat p i) < bd then snapScan p t used is (some (i, dist t (lat p i)))
    else snapScan p t used is (some (b, bd))

/-- `snap(t, U)` (R171): no answer where every index is used. -/
def snap (p : Params) (t : Rgb) (used : Nat → Bool) : Option Nat :=
  snapScan p t used (List.range 4096) none

/-- The empty used set. -/
def noneUsed (_ : Nat) : Bool := false

/-- The used set as buffer USED holds it (R174). -/
def usedSet (u : Buf 1) (i : Nat) : Bool := bufGet u i == some 1

/-- Snap a sequence of targets, each result joining the used set (R150, R180). `picks` are the results
so far, the used set's members. -/
def snapAll (p : Params) : List Rgb → List Nat → Option (List Nat)
  | [], picks => some picks
  | t :: ts, picks => (snap p t picks.contains).bind fun i => snapAll p ts (picks ++ [i])

/-- USED with exactly the indices `picks` set (R150, R180): all 4096 elements are written. -/
def usedCells (picks : List Nat) : List (BitVec 1) :=
  (List.range 4096).map fun i => if picks.contains i then 1 else 0

/-- PAL from its 16 lattice indices. -/
def palCells (picks : List Nat) : List (BitVec 12) := picks.map (BitVec.ofNat 12)

/-- SNAP r, g, b (R173). -/
def execSnap (r g b : BitVec 8) (s : State) : Out :=
  gated s
    (match snap s.cfg (targetColor r g b) noneUsed with
     | none => .next (raiseFault .nocand (encode (.snap r g b)) s)
     | some i => .next { s with res := BitVec.ofNat 32 i })

/-- SNAPU r, g, b (R174): reads all of USED; NOCAND where every index is used (R291). -/
def execSnapu (r g b : BitVec 8) (s : State) : Out :=
  gated s <| needsRead (bufReadRun s.used 0 4096) .used fun _ =>
    match snap s.cfg (targetColor r g b) (usedSet s.used) with
    | none => .next (raiseFault .nocand (encode (.snapu r g b)) s)
    | some i => .next { s with res := BitVec.ofNat 32 i }

/-- UCLR (R175). -/
def execUclr (s : State) : Out :=
  gated s (.next { s with used := bufWriteRun s.used 0 (List.replicate 4096 0) })

/-- UMARK idx (R176). -/
def execUmark (idx : BitVec 12) (s : State) : Out :=
  gated s (.next { s with used := bufSet s.used idx.toNat 1 })

/-- PSNAPU (R180). -/
def execPsnapu (s : State) : Out :=
  gated s <| needsRead (readExt s) .ext fun colors =>
    match snapAll s.cfg colors [] with
    | none => .next (raiseFault .nocand (encode .psnapu) s)
    | some picks =>
      .next { s with
        pal := bufWriteRun s.pal 0 (palCells picks)
        used := bufWriteRun s.used 0 (usedCells picks)
        palv := true }

/-- PSNAPN (R183). -/
def execPsnapn (s : State) : Out :=
  gated s <| needsRead (readExt s) .ext fun colors =>
    match colors.mapM (fun t => snap s.cfg t noneUsed) with
    | none => .next (raiseFault .nocand (encode .psnapn) s)
    | some picks =>
      .next { s with pal := bufWriteRun s.pal 0 (palCells picks), palv := true }

end Sys2Proof.Machine
end

