-- ==== Sys2Proof/Machine/Disperser.lean ====
section
/-! DEFINITION. The block disperser and the command DISP (spec/43_disperser.md). Every floating-point
operation stands in the order the rules write it (R194, R197, R199, R200). -/

namespace Sys2Proof.Machine

/-- Three binary64 values, one per channel. -/
structure Color64 where
  r : F64
  g : F64
  b : F64
deriving DecidableEq, Repr

/-- A kernel entry as DISP reads it (R191). -/
structure KernelEntry where
  dx : Int
  dy : Int
  weight : F64
deriving DecidableEq, Repr

/-- What DISP reads and does not change: the canvas, the palette's colours and the kernel (R190), and
the hardware's parameters. -/
structure DispInput where
  cfg : Params
  width : Nat
  height : Nat
  colors : List Color64
  kernel : List KernelEntry
deriving DecidableEq, Repr

/-- What DISP works on: ERR and IDX. -/
structure DispWork where
  err : Buf 64
  idx : Buf 4
deriving DecidableEq, Repr

/-! ### Numbers -/

/-- A colour converted exactly (R190, R12). -/
def color64Of (c : Rgb) : Color64 := ⟨f64OfNat c.r, f64OfNat c.g, f64OfNat c.b⟩

/-- `clamp` (R194). -/
def f64Clamp (v : F64) : F64 :=
  if f64Lt v (f64OfNat 0) then f64OfNat 0
  else if f64Lt (f64OfNat 255) v then f64OfNat 255
  else v

/-- A difference, squared. -/
def f64SqDiff (a b : F64) : F64 := f64Mul (f64Sub a b) (f64Sub a b)

/-- `D(e, k)` (R194), `c` being `P[k]`: red plus green, then plus blue. -/
def distance64 (e c : Color64) : F64 :=
  f64Add (f64Add (f64SqDiff e.r c.r) (f64SqDiff e.g c.g)) (f64SqDiff e.b c.b)

/-- `P[k]`. -/
def colorAt (colors : List Color64) (k : Nat) : Color64 :=
  colors.getD k ⟨f64OfNat 0, f64OfNat 0, f64OfNat 0⟩

/-! ### ERR -/

/-- The index of `ERR[y][x][0]`. -/
def errIndex (W x y : Nat) : Nat := 3 * (y * W + x)

/-- Element `i` of ERR. DISP seeds every element it reads (R195). -/
def errGet (err : Buf 64) (i : Nat) : F64 := (bufGet err i).getD 0

/-- The effective colour of a pixel (R197, R199): ERR clamped. -/
def effective (err : Buf 64) (W x y : Nat) : Color64 :=
  let i := errIndex W x y
  ⟨f64Clamp (errGet err i), f64Clamp (errGet err (i + 1)), f64Clamp (errGet err (i + 2))⟩

/-- The values ERR is seeded with (R195). -/
def seedValues (image : List Rgb) : List F64 :=
  image.flatMap fun c => [f64OfNat c.r, f64OfNat c.g, f64OfNat c.b]

/-! ### The pair search -/

/-- The 136 pairs `i <= j` in search order (R197). -/
def allPairs : List (Nat × Nat) :=
  (List.range 16).flatMap fun i => (List.range' i (16 - i)).map fun j => (i, j)

/-- The cost of a pair over the effective colours of a cell, in pixel order from `+0.0` (R197). -/
def pairCost (colors : List Color64) (es : List Color64) (q : Nat × Nat) : F64 :=
  es.foldl (fun cost e =>
    let da := distance64 e (colorAt colors q.1)
    let db := distance64 e (colorAt colors q.2)
    f64Add cost (if f64Le da db then da else db)) (f64OfNat 0)

/-- Each pair with its cost, in search order. -/
def pairCosts (colors : List Color64) (es : List Color64) : List ((Nat × Nat) × F64) :=
  allPairs.map fun q => (q, pairCost colors es q)

/-- The search of R197 over costed pairs: only a strictly smaller cost replaces the best. -/
def firstMinimum : List ((Nat × Nat) × F64) → Option ((Nat × Nat) × F64) →
    Option ((Nat × Nat) × F64)
  | [], best => best
  | c :: cs, none => firstMinimum cs (some c)
  | c :: cs, some b => if f64Lt c.2 b.2 then firstMinimum cs (some c) else firstMinimum cs (some b)

/-- The pairs of minimal cost, in search order, given the first of them. -/
def minimalPairs (costs : List ((Nat × Nat) × F64)) (best : (Nat × Nat) × F64) :
    List (Nat × Nat) :=
  (costs.filter fun c => f64Le c.2 best.2).map (·.1)

/-- `PAIR_TIEBREAK` (R8, R197): the position of the chosen pair among the minimal ones; the default is
the first, but for the sets the hardware's table lists. -/
def tieBreak (p : Params) (minimal : List (Nat × Nat)) : Nat :=
  match p.tieTable.find? (fun e => e.1 == minimal) with
  | none => 0
  | some e => e.2 % minimal.length

/-- The pair of a cell (R197); an empty cell falls back to (0, 1) (R198). -/
def choosePair (p : Params) (colors : List Color64) (es : List Color64) : Nat × Nat :=
  match es with
  | [] => (0, 1)
  | _ :: _ =>
    match firstMinimum (pairCosts colors es) none with
    | none => (0, 1)
    | some best =>
      let minimal := minimalPairs (pairCosts colors es) best
      minimal.getD (tieBreak p minimal) best.1

/-! ### Diffusion -/

/-- When a kernel entry applies at a pixel (R192). -/
def entryApplies (W H x y : Nat) (k : KernelEntry) : Bool :=
  decide (0 ≤ k.dy) && decide (0 ≤ (x : Int) + k.dx) && decide ((x : Int) + k.dx < W) &&
    decide ((y : Int) + k.dy < H)

/-- The additions one entry asks for (R200): for each channel the ERR index, `q[ch]` and the weight. -/
def entryUpdates (W x y : Nat) (q : Color64) (k : KernelEntry) : List (Nat × F64 × F64) :=
  let i := errIndex W ((x : Int) + k.dx).toNat ((y : Int) + k.dy).toNat
  [(i, q.r, k.weight), (i + 1, q.g, k.weight), (i + 2, q.b, k.weight)]

/-- The additions a pixel asks for, entries in list order (R200). -/
def pixelUpdates (c : DispInput) (x y : Nat) (q : Color64) : List (Nat × F64 × F64) :=
  (c.kernel.filter (entryApplies c.width c.height x y)).flatMap (entryUpdates c.width x y q)

/-- Perform the additions in order (R200); stop before the first one whose result is not finite, with
what was stored so far (R201 (b)). -/
def addErrors (err : Buf 64) : List (Nat × F64 × F64) → Except (Buf 64) (Buf 64)
  | [] => .ok err
  | u :: us =>
    let v := f64Add (errGet err u.1) (f64Mul u.2.1 u.2.2)
    if f64Finite v then addErrors (bufSet err u.1 v) us else .error err

/-! ### The pass -/

/-- The choice for a pixel (R199): the first of the pair if it is not farther than the second. -/
def chooseIndex (colors : List Color64) (ab : Nat × Nat) (e : Color64) : Nat :=
  if f64Le (distance64 e (colorAt colors ab.1)) (distance64 e (colorAt colors ab.2))
  then ab.1 else ab.2

/-- One pixel (R199, R200): its effective colour is read now, its index recorded, its error spread. -/
def dispPixel (c : DispInput) (ab : Nat × Nat) (y x : Nat) (wk : DispWork) :
    Except DispWork DispWork :=
  let e := effective wk.err c.width x y
  let k := chooseIndex c.colors ab e
  let P := colorAt c.colors k
  let q : Color64 := ⟨f64Sub e.r P.r, f64Sub e.g P.g, f64Sub e.b P.b⟩
  let idx := bufSet wk.idx (y * c.width + x) (BitVec.ofNat 4 k)
  match addErrors wk.err (pixelUpdates c x y q) with
  | .ok err => .ok ⟨err, idx⟩
  | .error err => .error ⟨err, idx⟩

/-- The pixels of a cell, left to right (R196). -/
def dispPixels (c : DispInput) (ab : Nat × Nat) (y : Nat) :
    List Nat → DispWork → Except DispWork DispWork
  | [], wk => .ok wk
  | x :: xs, wk =>
    match dispPixel c ab y x wk with
    | .ok wk' => dispPixels c ab y xs wk'
    | .error wk' => .error wk'

/-- One cell (R196): the pair search over the whole cell, then its pixels. -/
def dispCell (c : DispInput) (cell : Nat × Nat) (wk : DispWork) : Except DispWork DispWork :=
  let xs := cellXs c.width cell.1
  let ab := choosePair c.cfg c.colors (xs.map fun x => effective wk.err c.width x cell.2)
  dispPixels c ab cell.2 xs wk

/-- The cells, in order (R196). -/
def dispCells (c : DispInput) : List (Nat × Nat) → DispWork → Except DispWork DispWork
  | [], wk => .ok wk
  | cell :: cells, wk =>
    match dispCell c cell wk with
    | .ok wk' => dispCells c cells wk'
    | .error wk' => .error wk'

/-- The whole pass, from the seeded ERR (R195, R196): `.ok` when it completes, `.error` with the work
so far when a value to be stored is not finite. -/
def dispPass (c : DispInput) (image : List Rgb) (err : Buf 64) (idx : Buf 4) :
    Except DispWork DispWork :=
  dispCells c (cellList c.width c.height) ⟨bufWriteRun err 0 (seedValues image), idx⟩

/-! ### The kernel in KRN -/

/-- The weights of entries `t, t+1, ..` (R191): elements `4t+1` (low word) and `4t+2` (high word). -/
def readWeights (krn : Buf 32) : Nat → Nat → Option (List F64)
  | _, 0 => some []
  | t, n + 1 =>
    match bufGet krn (4 * t + 1), bufGet krn (4 * t + 2) with
    | some lo, some hi => (readWeights krn (t + 1) n).map ((hi ++ lo) :: ·)
    | _, _ => none

/-- The offsets of entries `t, t+1, ..` (R191): `dx` low half, `dy` high half, two's complement. -/
def readOffsets (krn : Buf 32) : Nat → Nat → Option (List (Int × Int))
  | _, 0 => some []
  | t, n + 1 =>
    match bufGet krn (4 * t) with
    | none => none
    | some o =>
      (readOffsets krn (t + 1) n).map
        (((o.extractLsb' 0 16).toInt, (o.extractLsb' 16 16).toInt) :: ·)

/-- The kernel's entries, in order (R191). -/
def kernelOf (offsets : List (Int × Int)) (weights : List F64) : List KernelEntry :=
  List.zipWith (fun o w => ⟨o.1, o.2, w⟩) offsets weights

/-- The colours of the palette (R190): `P[k] = LAT(B.PAL[k])`, in binary64. -/
def paletteColors (p : Params) (pal : List (BitVec 12)) : List Color64 :=
  pal.map fun i => color64Of (lat p i.toNat)

/-- DISP's input from the state and what was read from PAL and KRN. -/
def dispInputOf (s : State) (pal : List (BitVec 12)) (offsets : List (Int × Int))
    (weights : List F64) : DispInput :=
  { cfg := s.cfg
    width := canvasW s
    height := canvasH s
    colors := paletteColors s.cfg pal
    kernel := kernelOf offsets weights }

/-- The operation of DISP after its checks (R205): IDXV is cleared at the start and set at the end, so
a NUMERIC fault leaves it 0 (R293). -/
def dispRun (s : State) (c : DispInput) (image : List Rgb) : Out :=
  match dispPass c image s.err s.idx with
  | .ok wk => .next { s with err := wk.err, idx := wk.idx, idxv := true }
  | .error wk =>
    .next (raiseFault .numeric (encode .disp)
      { s with err := wk.err, idx := wk.idx, idxv := false })

/-- DISP (R205). -/
def execDisp (s : State) : Out :=
  gated s <| needs (geomOk s) .badgeom (encode .disp) s <|
    needs s.palv .notready (encode .disp) s <|
      needs (decide (s.klen.toNat ≤ s.cfg.kmax)) .kernel (encode .disp) s <|
        needsRead (readWeights s.krn 0 s.klen.toNat) .krn fun weights =>
          needs (weights.all f64Finite) .kernel (encode .disp) s <|
            needsRead (readOffsets s.krn 0 s.klen.toNat) .krn fun offsets =>
              needsRead (readPal s) .pal fun pal =>
                needsRead (readImage s) .img fun image =>
                  dispRun s (dispInputOf s pal offsets weights) image

end Sys2Proof.Machine
end

