-- ==== Sys2Proof/Machine/Quantizer.lean ====
section
/-! DEFINITION. The palette synthesizer: the box-splitting core and the commands QGEN and QLAT
(spec/41_quantizer.md). The core is written once over a histogram domain. -/

namespace Sys2Proof.Machine

/-! ### Moments, variance, gain -/

/-- The moments of a box (R141). -/
structure Moments where
  n : Nat
  sr : Nat
  sg : Nat
  sb : Nat
  sq : Nat
deriving DecidableEq, Repr

/-- The moments of the samples whose bin lies in a box (R141), as direct sums (R143). A sample is a
bin and a colour value. -/
def momentsOf {κ : Type} (inBox : κ → Bool) (samples : List (κ × Rgb)) : Moments :=
  let l := (samples.filter fun s => inBox s.1).map (·.2)
  { n := l.length
    sr := (l.map Rgb.r).sum
    sg := (l.map Rgb.g).sum
    sb := (l.map Rgb.b).sum
    sq := (l.map fun c => c.r * c.r + c.g * c.g + c.b * c.b).sum }

/-- The variance of a box (R142), an exact rational; 0 for an empty box. -/
def varianceOf (m : Moments) : ℚ :=
  if m.n = 0 then 0 else (m.sq : ℚ) - ((m.sr ^ 2 + m.sg ^ 2 + m.sb ^ 2 : Nat) : ℚ) / (m.n : ℚ)

/-- A histogram domain: which bins a box of type `β` contains, and its candidate cuts in the order
they are tried (R144 to R146). -/
structure Domain (κ β : Type) where
  contains : β → κ → Bool
  cuts : β → List (β × β)

/-- The variance of a box over the samples. -/
def boxVariance {κ β : Type} (D : Domain κ β) (samples : List (κ × Rgb)) (X : β) : ℚ :=
  varianceOf (momentsOf (D.contains X) samples)

/-- The gain of a candidate (R147). -/
def gainOf {κ β : Type} (D : Domain κ β) (samples : List (κ × Rgb)) (X A B : β) : ℚ :=
  boxVariance D samples X - boxVariance D samples A - boxVariance D samples B

/-! ### The splitting loop -/

/-- A candidate split: the box's place in the list, its lower and upper child, its gain. -/
structure Split (β : Type) where
  at_ : Nat
  lower : β
  upper : β
  gain : ℚ
deriving DecidableEq

/-- Every candidate of every box, boxes in list order and the cuts of a box in their order (R148). -/
def allSplits {κ β : Type} (D : Domain κ β) (samples : List (κ × Rgb)) (boxes : List β) :
    List (Split β) :=
  boxes.zipIdx.flatMap fun X =>
    (D.cuts X.1).map fun c => ⟨X.2, c.1, c.2, gainOf D samples X.1 c.1 c.2⟩

/-- The candidate of greatest gain, the first among equals, if its gain is strictly above the best so
far and above 0 (R148). -/
def pickSplit {β : Type} : List (Split β) → Option (Split β) → Option (Split β)
  | [], best => best
  | c :: cs, none => if 0 < c.gain then pickSplit cs (some c) else pickSplit cs none
  | c :: cs, some b => if b.gain < c.gain then pickSplit cs (some c) else pickSplit cs (some b)

/-- The loop of R148, at most as many passes as the first argument says: the lower child takes the
parent's place, the upper child goes to the end. -/
def splitLoop {κ β : Type} (D : Domain κ β) (samples : List (κ × Rgb)) : Nat → List β → List β
  | 0, boxes => boxes
  | k + 1, boxes =>
    match pickSplit (allSplits D samples boxes) none with
    | none => boxes
    | some c => splitLoop D samples k (boxes.set c.at_ c.lower ++ [c.upper])

/-- The final list of boxes: from one box, 15 passes reach the maximum of 16 (R7, R148). -/
def finalBoxes {κ β : Type} (D : Domain κ β) (samples : List (κ × Rgb)) (first : β) : List β :=
  splitLoop D samples 15 [first]

/-- The ideal colour of a box (R149): each channel of the mean rounded down. -/
def idealOf (m : Moments) : Rgb := ⟨m.sr / m.n, m.sg / m.n, m.sb / m.n⟩

/-- The ideal colours of the final boxes, in list order (R149). -/
def idealsOf {κ β : Type} (D : Domain κ β) (samples : List (κ × Rgb)) (first : β) : List Rgb :=
  (finalBoxes D samples first).map fun X => idealOf (momentsOf (D.contains X) samples)

/-! ### Fill -/

/-- The unused lattice indices (R151). -/
def unusedOf (picks : List Nat) : List Nat :=
  (List.range 4096).filter fun i => !picks.contains i

/-- One draw (R151): a free choice among the unused indices. Every one of them is possible. -/
def drawUnused (picks : List Nat) (d : Nat) : Nat :=
  let u := unusedOf picks
  u.getD (Config.fillDraw d % u.length) 0

/-- Fill `k` more palette slots, each by a draw from the indices unused at that moment (R151); `d` is
the number of the next draw. -/
def fillSlots : Nat → Nat → List Nat → List Nat
  | 0, _, picks => picks
  | k + 1, d, picks => fillSlots k (d + 1) (picks ++ [drawUnused picks d])

/-- From ideal colours to the palette (R150, R151) and the registers of R155. -/
def synthesize (w : Word) (s : State) (ideals : List Rgb) : Out :=
  match snapAll s.cfg ideals [] with
  | none => .next (raiseFault .nocand w s)
  | some snapped =>
    let m := ideals.length
    let picks := fillSlots (16 - m) s.draws snapped
    .next { s with
      pal := bufWriteRun s.pal 0 (palCells picks)
      used := bufWriteRun s.used 0 (usedCells picks)
      ncube := BitVec.ofNat 5 m
      wfill := decide (m < 16)
      palv := true
      draws := s.draws + (16 - m) }

/-! ### The generalized domain -/

/-- The length of an inclusive range. -/
def rangeLen (lo hi : Nat) : Nat := hi + 1 - lo

/-- The default `AXIS_RULE` (R146): the longest axis in bins, ties to red, then green. -/
def defaultAxis (X : GenBox) : Axis :=
  let lr := rangeLen X.r0 X.r1
  let lg := rangeLen X.g0 X.g1
  let lb := rangeLen X.b0 X.b1
  if lr ≥ lg ∧ lr ≥ lb then .red else if lg ≥ lb then .green else .blue

/-- `AXIS_RULE` (R8): the default, but for the boxes the hardware's table lists. -/
def axisOf (p : Params) (X : GenBox) : Axis :=
  match p.axisTable.find? (fun e => e.1 == X) with
  | none => defaultAxis X
  | some e => e.2

/-- The cut positions of an inclusive range (R146): `lo .. hi - 1`, ascending. -/
def cutPoints (lo hi : Nat) : List Nat := List.range' lo (hi - lo)

/-- The candidate cuts of a generalized box (R146). -/
def genCuts (p : Params) (X : GenBox) : List (GenBox × GenBox) :=
  match axisOf p X with
  | .red => (cutPoints X.r0 X.r1).map fun c => ({ X with r1 := c }, { X with r0 := c + 1 })
  | .green => (cutPoints X.g0 X.g1).map fun c => ({ X with g1 := c }, { X with g0 := c + 1 })
  | .blue => (cutPoints X.b0 X.b1).map fun c => ({ X with b1 := c }, { X with b0 := c + 1 })

/-- Whether a generalized box contains a bin (R144). -/
def genContains (X : GenBox) (k : Nat × Nat × Nat) : Bool :=
  decide (X.r0 ≤ k.1 ∧ k.1 ≤ X.r1) && decide (X.g0 ≤ k.2.1 ∧ k.2.1 ≤ X.g1) &&
    decide (X.b0 ≤ k.2.2 ∧ k.2.2 ≤ X.b1)

/-- The generalized domain (R144, R146). -/
def genDomain (p : Params) : Domain (Nat × Nat × Nat) GenBox where
  contains := genContains
  cuts := genCuts p

/-- The first generalized box (R144). -/
def genFirst : GenBox := ⟨0, 15, 0, 15, 0, 15⟩

/-- A pixel's bin and colour value in the generalized domain (R144). -/
def genSample (px : Rgb) : (Nat × Nat × Nat) × Rgb := ((px.r / 16, px.g / 16, px.b / 16), px)

/-- The ideal colours QGEN finds for an image. -/
def genIdeals (p : Params) (image : List Rgb) : List Rgb :=
  idealsOf (genDomain p) (image.map genSample) genFirst

/-! ### The lattice-aware domain -/

/-- The lattice-aware domain (R145, R146): inclusive ranges of lattice indices. -/
def latDomain : Domain Nat (Nat × Nat) where
  contains X i := decide (X.1 ≤ i ∧ i ≤ X.2)
  cuts X := (cutPoints X.1 X.2).map fun c => ((X.1, c), (c + 1, X.2))

/-- The first lattice-aware box (R145). -/
def latFirst : Nat × Nat := (0, 4095)

/-- A pixel's bin and colour value in the lattice-aware domain (R145): the nearest lattice index and
the colour of that index. `snap` with an empty used set always answers. -/
def latSample (p : Params) (px : Rgb) : Option (Nat × Rgb) :=
  (snap p px noneUsed).map fun i => (i, lat p i)

/-- The ideal colours QLAT finds for an image. -/
def latIdeals (p : Params) (image : List Rgb) : Option (List Rgb) :=
  (image.mapM (latSample p)).map fun samples => idealsOf latDomain samples latFirst

/-! ### The commands -/

/-- QGEN (R155). -/
def execQgen (s : State) : Out :=
  gated s <| needs (geomOk s) .badgeom (encode .qgen) s <|
    needsRead (readImage s) .img fun image =>
      synthesize (encode .qgen) s (genIdeals s.cfg image)

/-- QLAT (R160). -/
def execQlat (s : State) : Out :=
  gated s <| needs (geomOk s) .badgeom (encode .qlat) s <|
    needsRead (readImage s) .img fun image =>
      match latIdeals s.cfg image with
      | none => .next (raiseFault .nocand (encode .qlat) s)
      | some ideals => synthesize (encode .qlat) s ideals

end Sys2Proof.Machine
end

