-- ==== Sys2Proof/Machine/RleContainer.lean ====
section
/-! DEFINITION. The transposer, the run-length encoder, the container writer and the raw files: the
commands XPOSE, RLE, CONT and RAWF (spec/46_rle_container.md, spec/30_encoding.md R108 to R116). -/

namespace Sys2Proof.Machine

/-! ### Transposition -/

/-- A plane transposed and padded (R108, R238): column by column, each of `H8` bytes. -/
def transposed (W H : Nat) (plane : List Byte) : List Byte :=
  (List.range (cellCols W)).flatMap fun cx =>
    (List.range (paddedRows H)).map fun y =>
      if y < H then plane.getD (y * cellCols W + cx) 0 else 0

/-- XPOSE plane (R238). -/
def execXpose (p : BitVec 2) (s : State) : Out :=
  gated s <| needs (planeSelOk p) .illcmd (encode (.xpose p)) s <|
    needs (geomOk s) .badgeom (encode (.xpose p)) s <|
      needs s.plnv .notready (encode (.xpose p)) s <|
        needs (decide (cellCols (canvasW s) * paddedRows (canvasH s) ≤ s.cfg.tcap)) .alloc
          (encode (.xpose p)) { s with tlen := 0 } <|
          needsRead (readPlane s p) (planeId p) fun plane =>
            .next { s with
              tbuf := bufWriteRun s.tbuf 0 (transposed (canvasW s) (canvasH s) plane)
              tlen := BitVec.ofNat 32 (cellCols (canvasW s) * paddedRows (canvasH s)) }

/-! ### Run-length compression -/

/-- `flush()` (R250, R246 (b)): what a pending literal segment is emitted as. -/
def flushSegment (seg : List Byte) : List Byte :=
  match seg with
  | [] => []
  | [b] => [0x01, b]
  | _ => 0x00 :: BitVec.ofNat 8 seg.length :: seg

/-- The length of the run at the head of `v :: rest`, cut at `RLE_MAX_RUN` (R246 (c), (d)). -/
def runLength (maxRun : Nat) (v : Byte) (rest : List Byte) : Nat :=
  1 + min (rest.takeWhile (· == v)).length (maxRun - 1)

/-- The loop of R250 from a position of the input, with the pending segment: the bytes it emits. The
first argument bounds the passes; the input's length is enough. -/
def rleLoop (maxRun : Nat) : Nat → List Byte → List Byte → List Byte
  | _, [], seg => flushSegment seg
  | 0, _ :: _, seg => flushSegment seg
  | k + 1, v :: rest, seg =>
    let run := runLength maxRun v rest
    if 2 ≤ run then
      flushSegment seg ++ [BitVec.ofNat 8 run, v] ++ rleLoop maxRun k (rest.drop (run - 1)) []
    else if (seg ++ [v]).length = 254 then
      flushSegment (seg ++ [v]) ++ rleLoop maxRun k rest []
    else rleLoop maxRun k rest (seg ++ [v])

/-- The tokens of an input, without terminator (R250). -/
def rleTokens (maxRun : Nat) (input : List Byte) : List Byte :=
  rleLoop maxRun input.length input []

/-- The terminator (R111), where `t` asks for it. -/
def rleTerminator (t : Bool) : List Byte := if t then [0x00, 0x00] else []

/-- The output of RLE t over an input (R250). -/
def rleOutput (maxRun : Nat) (t : Bool) (input : List Byte) : List Byte :=
  rleTokens maxRun input ++ rleTerminator t

/-- The output position RLE starts from (R250): append or replace. -/
def rleStart (a : Bool) (s : State) : Nat := if a then s.clen.toNat else 0

/-- Emit bytes to CBUF from position `o` (R250): where they do not all fit, the ones that fit are
written, CLEN is 0 and the fault is ALLOC (R290, R297). -/
def emitToCbuf (w : Word) (o : Nat) (out : List Byte) (s : State) : Out :=
  if o + out.length ≤ s.cfg.ccap then
    .next { s with
      cbuf := bufWriteRun s.cbuf o out
      clen := BitVec.ofNat 32 (o + out.length) }
  else
    .next (raiseFault .alloc w { s with
      cbuf := bufWriteRun s.cbuf o (out.take (s.cfg.ccap - o))
      clen := 0 })

/-- RLE t, a (R250). -/
def execRle (t a : Bool) (s : State) : Out :=
  gated s <| needs (decide (s.tlen.toNat ≤ s.cfg.tcap)) .badlen (encode (.rle t a)) s <|
    needs (decide (rleStart a s ≤ s.cfg.ccap)) .badlen (encode (.rle t a)) s <|
      needsRead (bufReadRun s.tbuf 0 s.tlen.toNat) .tbuf fun input =>
        emitToCbuf (encode (.rle t a)) (rleStart a s) (rleOutput s.cfg.rleMaxRun t input) s

/-- The reference decoder of R258, used to state R259; not a unit of the block. The first argument
bounds the tokens read; the stream's length is enough. A stream that ends inside a token, where R258
reads past the end, is the model's choice (DESIGN CHOICE, log 20): a lone last byte stands for nothing,
and a literal token cut short for the bytes that are left. -/
def rleDecodeLoop : Nat → List Byte → List Byte
  | 0, _ => []
  | _ + 1, [] => []
  | _ + 1, [_] => []
  | k + 1, c :: d :: rest =>
    if c ≠ 0 then List.replicate c.toNat d ++ rleDecodeLoop k rest
    else if d = 0 then []
    else rest.take d.toNat ++ rleDecodeLoop k (rest.drop d.toNat)

/-- `decode` (R258). -/
def rleDecode (stream : List Byte) : List Byte := rleDecodeLoop stream.length stream

/-! ### The container -/

/-- `S` (R263): the header's size field for a payload of `L` bytes. -/
def sizeField (L : Nat) : Nat := L + L % 2 + 42

/-- A 16-bit value low byte first (R67). -/
def lowFirst (v : BitVec 16) : List Byte := [v.extractLsb' 0 8, v.extractLsb' 8 8]

/-- A palette word of the 39-byte block (R114). -/
def paletteWord (p : Params) (i : BitVec 12) : List Byte :=
  if p.palLoFirst then lowFirst (i.setWidth 16) else (lowFirst (i.setWidth 16)).reverse

/-- The container header (R112). -/
def containerHeader (W H L : Nat) : List Byte :=
  [0x00, 0x00] ++ lowFirst (BitVec.ofNat 16 (sizeField L)) ++
    [0x00, 0x00, BitVec.ofNat 8 (cellCols W - 1), BitVec.ofNat 8 ((H - 1) / 8)]

/-- The five bytes `M[0..4]` (R34). -/
def modeBytes (s : State) : List Byte :=
  [s.mode0.extractLsb' 0 8, s.mode0.extractLsb' 8 8, s.mode0.extractLsb' 16 8,
   s.mode0.extractLsb' 24 8, s.mode1]

/-- The palette/mode block (R114). -/
def paletteBlock (s : State) (pal : List (BitVec 12)) : List Byte :=
  modeBytes s ++ pal.flatMap (paletteWord s.cfg) ++ [0xA5, 0x5A]

/-- The footer (R115). -/
def fileFooter : List Byte := [0xFF, 0x00, 0x00, 0x00, 0x00]

/-- The container (R113, R262). -/
def containerImage (s : State) (payload : List Byte) (pal : List (BitVec 12)) : List Byte :=
  containerHeader (canvasW s) (canvasH s) payload.length ++ payload ++
    List.replicate (payload.length % 2) 0x00 ++ paletteBlock s pal ++ fileFooter

/-- A finished file in FBUF, from element 0 (R262, R266, R267). -/
def writeFile (F : List Byte) (s : State) : State :=
  { s with fbuf := bufWriteRun s.fbuf 0 F, flen := BitVec.ofNat 32 F.length }

/-- CONT (R262). -/
def execCont (s : State) : Out :=
  gated s <| needs (geomOk s) .badgeom (encode .cont) s <|
    needs s.palv .notready (encode .cont) s <|
      needs (decide (s.clen.toNat ≤ s.cfg.ccap)) .badlen (encode .cont) s <|
        needs (decide (sizeField s.clen.toNat ≤ 65535)) .sizeovf (encode .cont)
          { s with flen := 0 } <|
          needs (decide (sizeField s.clen.toNat + 10 ≤ s.cfg.fcap)) .alloc (encode .cont)
            { s with flen := 0 } <|
            needsRead (bufReadRun s.cbuf 0 s.clen.toNat) .cbuf fun payload =>
              needsRead (readPal s) .pal fun pal =>
                .next (writeFile (containerImage s payload pal) s)

/-! ### Raw files -/

/-- A raw file (R116): the header is constant. -/
def rawImage (plane : List Byte) : List Byte :=
  [0x00, 0x1F, 0x40, 0x00, 0x00] ++ plane ++ fileFooter

/-- RAWF plane (R266). -/
def execRawf (p : BitVec 2) (s : State) : Out :=
  gated s <| needs (planeSelOk p) .illcmd (encode (.rawf p)) s <|
    needs (geomOk s) .badgeom (encode (.rawf p)) s <|
      needs s.plnv .notready (encode (.rawf p)) s <|
        needs (decide (cellCols (canvasW s) * canvasH s + 10 ≤ s.cfg.fcap)) .alloc
          (encode (.rawf p)) { s with flen := 0 } <|
          needsRead (readPlane s p) (planeId p) fun plane =>
            .next (writeFile (rawImage plane) s)

end Sys2Proof.Machine
end

