-- ==== Sys2Proof/Machine/Verifier.lean ====
section
/-! DEFINITION. The constraint verifier and the command VERIFY (spec/44_verifier.md). -/

namespace Sys2Proof.Machine

/-- The number of distinct palette indices in a cell (R215). A palette index is 0..15. -/
def distinctCount (q : List Nat) : Nat := (List.range 16).countP fun k => q.contains k

/-- A log entry (R45): `cx` in 11:0, `y` in 27:12, the count in 31:28. -/
def logEntry (cx y d : Nat) : Word :=
  BitVec.ofNat 4 d ++ BitVec.ofNat 16 y ++ BitVec.ofNat 12 cx

/-- The log entries of the violating cells, in scan order (R216). -/
def violations (W H : Nat) (indices : List Nat) : List Word :=
  (cellList W H).filterMap fun c =>
    let d := distinctCount (cellIndices W indices c)
    if 2 < d then some (logEntry c.1 c.2 d) else none

/-- VERIFY (R216). -/
def execVerify (s : State) : Out :=
  gated s <| needs (geomOk s) .badgeom (encode .verify) s <|
    needs s.idxv .notready (encode .verify) s <|
      needsRead (readIndices s) .idx fun indices =>
        let v := violations (canvasW s) (canvasH s) indices
        .next { s with
          vlog := bufWriteRun s.vlog 0 (v.take s.cfg.vcap)
          vcount := BitVec.ofNat 32 v.length
          wviol := decide (0 < v.length) }

end Sys2Proof.Machine
end

