-- ==== Sys2Proof/Machine/Dispatch.lean ====
section
/-! DEFINITION. The meaning of every command: one arm per constructor of Instr. -/

namespace Sys2Proof.Machine

def exec (i : Instr) (s : State) : Host.Outcome State Fault Refusal :=
  match i with
  | .nop => Sys2Proof.Machine.execNop s
  | .latrd idx => Sys2Proof.Machine.execLatrd idx s
  | .snap r g b => Sys2Proof.Machine.execSnap r g b s
  | .snapu r g b => Sys2Proof.Machine.execSnapu r g b s
  | .uclr => Sys2Proof.Machine.execUclr s
  | .umark idx => Sys2Proof.Machine.execUmark idx s
  | .qgen => Sys2Proof.Machine.execQgen s
  | .qlat => Sys2Proof.Machine.execQlat s
  | .psnapu => Sys2Proof.Machine.execPsnapu s
  | .psnapn => Sys2Proof.Machine.execPsnapn s
  | .disp => Sys2Proof.Machine.execDisp s
  | .verify => Sys2Proof.Machine.execVerify s
  | .blkenc => Sys2Proof.Machine.execBlkenc s
  | .xpose p => Sys2Proof.Machine.execXpose p s
  | .rle t a => Sys2Proof.Machine.execRle t a s
  | .cont => Sys2Proof.Machine.execCont s
  | .rawf p => Sys2Proof.Machine.execRawf p s

end Sys2Proof.Machine
end

