-- ==== Sys2Proof/Machine/HostAccess.lean ====
section
/-! DEFINITION. What a host action does: the register file, the buffer window and a command word
written to CMD (spec/10_state.md R22 to R35, spec/20_memory.md R60 to R71, spec/60_exceptions.md R285
to R287). -/

namespace Sys2Proof.Machine

/-- The 18 registers of R22. -/
inductive Reg where
  | cmd
  | status
  | valid
  | fcause
  | finfo
  | canvas
  | klen
  | res
  | ncube
  | vcount
  | tlen
  | clen
  | flen
  | mode0
  | mode1
  | bufsel
  | bufaddr
  | bufdata
deriving DecidableEq, Repr

/-- The register at a byte offset (R22); none at a reserved offset. -/
def regAt (off : Nat) : Option Reg :=
  match off with
  | 0x00 => some .cmd
  | 0x04 => some .status
  | 0x08 => some .valid
  | 0x0C => some .fcause
  | 0x10 => some .finfo
  | 0x14 => some .canvas
  | 0x18 => some .klen
  | 0x1C => some .res
  | 0x20 => some .ncube
  | 0x24 => some .vcount
  | 0x28 => some .tlen
  | 0x2C => some .clen
  | 0x30 => some .flen
  | 0x34 => some .mode0
  | 0x38 => some .mode1
  | 0x3C => some .bufsel
  | 0x40 => some .bufaddr
  | 0x44 => some .bufdata
  | _ => none

/-- An access the interface admits (R60, R61). -/
def accessOk (off bytes : Nat) : Bool :=
  decide (bytes = 4) && decide (off % 4 = 0) && decide (off < 256)

/-! ### The buffer window -/

/-- The buffer an identifier names (R36); 13 to 15 are reserved. -/
def bufIdOf (sel : BitVec 4) : Option BufId :=
  match sel.toNat with
  | 0 => some .img
  | 1 => some .ext
  | 2 => some .pal
  | 3 => some .used
  | 4 => some .krn
  | 5 => some .idx
  | 6 => some .shp
  | 7 => some .cola
  | 8 => some .colb
  | 9 => some .tbuf
  | 10 => some .cbuf
  | 11 => some .fbuf
  | 12 => some .vlog
  | _ => none

/-- The buffer the window points into, if its element exists (R62 to R64): the bound is the capacity. -/
def windowTarget (s : State) : Option BufId :=
  match bufIdOf s.bufsel with
  | none => none
  | some b => if s.bufaddr.toNat < bufCap s.cfg b then some b else none

/-- BUFADDR after a window access (R62, R63): one more, modulo 2^24. -/
def advance (s : State) : State := { s with bufaddr := s.bufaddr + 1 }

/-- A free value for an element that nothing has written (U1a), as wide as the element. -/
def freeWord (b : BufId) (d : Nat) : Word := ((Config.freeElement d).setWidth b.width).setWidth 32

/-- A window read (R62): the element zero-extended, 0 where there is none, a free value where nothing
has written it (U1a). -/
def windowRead (s : State) : State :=
  match windowTarget s with
  | none => advance { s with readData := 0 }
  | some b =>
    match readElem s b s.bufaddr.toNat with
    | some v => advance { s with readData := v.setWidth 32 }
    | none => advance { s with readData := freeWord b s.draws, draws := s.draws + 1 }

/-- A window write (R63): the low bits of the word into the element, nothing where there is none or
where the host may not write. -/
def windowWrite (v : Word) (s : State) : State :=
  match windowTarget s with
  | none => advance s
  | some b =>
    if b.hostWrites then
      advance (withBuf s b (bufSet (bufOf s b) s.bufaddr.toNat (v.setWidth b.width)))
    else advance s

/-! ### Registers -/

/-- A register as it reads (R22 to R35); BUFDATA reads through the window and is not here. -/
def regValue (s : State) : Reg → Word
  | .cmd => 0
  | .status => statusWord s
  | .valid => validWord s
  | .fcause => s.fcause.setWidth 32
  | .finfo => s.finfo
  | .canvas => s.canvas
  | .klen => s.klen.setWidth 32
  | .res => s.res
  | .ncube => s.ncube.setWidth 32
  | .vcount => s.vcount
  | .tlen => s.tlen
  | .clen => s.clen
  | .flen => s.flen
  | .mode0 => s.mode0
  | .mode1 => s.mode1.setWidth 32
  | .bufsel => s.bufsel.setWidth 32
  | .bufaddr => s.bufaddr.setWidth 32
  | .bufdata => 0

/-- A host read of an offset of the region (R22, R71). -/
def hostRead (off : Nat) (s : State) : State :=
  match regAt off with
  | none => { s with readData := 0 }
  | some .bufdata => windowRead s
  | some r => { s with readData := regValue s r }

/-- A host write of a register other than CMD (R22 to R35): read-only registers and reserved bits
ignore it. -/
def regWrite (r : Reg) (v : Word) (s : State) : State :=
  match r with
  | .cmd => s
  | .status => s
  | .valid => writeValid v s
  | .fcause => s
  | .finfo => s
  | .canvas => writeCanvas v s
  | .klen => { s with klen := v.setWidth 16 }
  | .res => s
  | .ncube => s
  | .vcount => s
  | .tlen => { s with tlen := v }
  | .clen => { s with clen := v }
  | .flen => s
  | .mode0 => { s with mode0 := v }
  | .mode1 => { s with mode1 := v.setWidth 8 }
  | .bufsel => { s with bufsel := v.setWidth 4 }
  | .bufaddr => { s with bufaddr := v.setWidth 24 }
  | .bufdata => windowWrite v s

/-! ### Commands and actions -/

/-- A word written to CMD (R23): the gate comes before decoding (R285); an illegal word faults
(R287). -/
def runCommand (w : Word) (s : State) : Out :=
  gated s <|
    match decodeWord w with
    | .error _ => .next (raiseFault .illcmd w s)
    | .ok i => exec i s

/-- A host write of an offset of the region (R22, R71). -/
def hostWrite (off : Nat) (v : Word) (s : State) : Out :=
  match regAt off with
  | none => .next s
  | some .cmd => runCommand v s
  | some r => .next (regWrite r v s)

/-- One action of the outside (R60, R61, R310). -/
def hostAct (a : HostAction) (s : State) : Out :=
  match a with
  | .read off bytes =>
    if accessOk off bytes then .next (hostRead off s) else .refused (.notAnAccess off bytes)
  | .write off bytes v =>
    if accessOk off bytes then hostWrite off v s else .refused (.notAnAccess off bytes)
  | .reset => .next (resetBlock s)

/-- The action that delivers a command word (R21, R23). -/
def cmdWrite (w : Word) : HostAction := .write 0x00 4 w

end Sys2Proof.Machine
end

