-- ==== Sys2Proof/Machine/Step.lean ====
section
/-! DEFINITION. One step of the machine: the next action of the host, a whole command being one step
(spec/00_scope.md R6). -/

namespace Sys2Proof.Machine

/-- The next host action takes effect completely (R74); with none pending the block is idle and keeps
all its state (R303). -/
def step (s : State) : Host.Outcome State Fault Refusal :=
  match s.host with
  | [] => .next s
  | a :: rest => hostAct a { s with host := rest }

/-- The block fetches nothing (R21): a command word is delivered by the host's write of CMD, so the
instruction the next step runs is the word of the first pending action (log 1). -/
def State.withFetchWord (s : State) (nbits w : Nat) : State :=
  { s with host := cmdWrite (BitVec.ofNat 32 (w % 2 ^ nbits)) :: s.host }

end Sys2Proof.Machine
end

