-- ==== Sys2Proof/Safety.lean ====
section
/-! DEFINITION. The terms of the claims: the invariant of a reachable state, the causes a command can
raise, which commands use the canvas or a validity flag, inputs that were written, and what the rules
say of a snapped colour, of a synthesized palette and of a run-length stream. -/

namespace Sys2Proof.Machine

/-- Every buffer in canonical form within its capacity (R36, R64), and ERR within the largest canvas
(R47). -/
structure BuffersWf (s : State) : Prop where
  visible : ∀ b : BufId, bufWf (bufOf s b) (bufCap s.cfg b)
  hidden : bufWf s.err (3 * s.cfg.wmax * s.cfg.hmax)

/-- The status registers agree with one another: a cause exactly while faulted (R27, R28, R283), the
result registers within their ranges (R30 to R33), each warning in step with its count (R25, R298). -/
structure StatusWf (s : State) : Prop where
  causeWhileFaulted : s.fault = true → 1 ≤ s.fcause.toNat ∧ s.fcause.toNat ≤ 9
  clearWhileNot : s.fault = false → s.fcause = 0 ∧ s.finfo = 0
  resRange : s.res.toNat < 2 ^ 24
  ncubeRange : s.ncube.toNat ≤ 16
  fillWarning : s.wfill = true → 1 ≤ s.ncube.toNat ∧ s.ncube.toNat < 16
  violWarning : s.wviol = decide (0 < s.vcount.toNat)
  vcountRange : s.vcount.toNat ≤ 2 ^ 19
  flenRange : s.flen.toNat ≤ s.cfg.fcap

/-- The invariant that every step keeps. -/
structure StateWf (s : State) : Prop where
  config : s.cfg.Lawful
  buffers : BuffersWf s
  status : StatusWf s

/-- Which commands raise which cause, by the table of R283; ILLCMD is any illegal word's. -/
def mayRaise : Instr → Cause → Bool
  | .xpose _, c => c == .illcmd || c == .badgeom || c == .notready || c == .alloc
  | .rawf _, c => c == .illcmd || c == .badgeom || c == .notready || c == .alloc
  | .snapu _ _ _, c => c == .nocand
  | .qgen, c => c == .badgeom
  | .qlat, c => c == .badgeom
  | .disp, c => c == .badgeom || c == .notready || c == .kernel || c == .numeric
  | .verify, c => c == .badgeom || c == .notready
  | .blkenc, c => c == .badgeom || c == .notready
  | .rle _ _, c => c == .badlen || c == .alloc
  | .cont, c =>
    c == .badgeom || c == .notready || c == .badlen || c == .sizeovf || c == .alloc
  | .nop, _ => false
  | .latrd _, _ => false
  | .snap _ _ _, _ => false
  | .uclr, _ => false
  | .umark _, _ => false
  | .psnapu, _ => false
  | .psnapn, _ => false

/-- The commands that use the canvas (R288). -/
def usesCanvas : Instr → Bool
  | .qgen => true
  | .qlat => true
  | .disp => true
  | .verify => true
  | .blkenc => true
  | .xpose _ => true
  | .cont => true
  | .rawf _ => true
  | .nop => false
  | .latrd _ => false
  | .snap _ _ _ => false
  | .snapu _ _ _ => false
  | .uclr => false
  | .umark _ => false
  | .psnapu => false
  | .psnapn => false
  | .rle _ _ => false

/-- The validity flag a command requires (R289), as the state has it; true for a command that
requires none. -/
def requiredFlag (s : State) : Instr → Bool
  | .disp => s.palv
  | .cont => s.palv
  | .verify => s.idxv
  | .blkenc => s.idxv
  | .xpose _ => s.plnv
  | .rawf _ => s.plnv
  | .nop => true
  | .latrd _ => true
  | .snap _ _ _ => true
  | .snapu _ _ _ => true
  | .uclr => true
  | .umark _ => true
  | .qgen => true
  | .qlat => true
  | .psnapu => true
  | .psnapn => true
  | .rle _ _ => true

/-! ### Inputs -/

/-- Elements `0 .. n-1` of a buffer were written (R50): what R313 makes the host's duty. -/
abbrev written {w : Nat} (b : Buf w) (n : Nat) : Prop := ∀ k < n, (bufGet b k).isSome = true

/-- Colour `k` of a buffer of RGB triples (R37, R38). -/
def colorOfTriple (b : Buf 8) (k : Nat) : Rgb :=
  ⟨((bufGet b (3 * k)).getD 0).toNat, ((bufGet b (3 * k + 1)).getD 0).toNat,
    ((bufGet b (3 * k + 2)).getD 0).toNat⟩

/-! ### Snapping -/

/-- `i` is the least unused index such that no unused index is nearer (R171, its "Equivalently"). -/
def leastNearest (p : Params) (t : Rgb) (used : Nat → Bool) (i : Nat) : Prop :=
  i < 4096 ∧ used i = false ∧
  (∀ j < 4096, used j = false → dist t (lat p i) ≤ dist t (lat p j)) ∧
  ∀ j < i, used j = false → dist t (lat p i) < dist t (lat p j)

/-- `k` is the least of the 16 levels nearest to `v` in a level table (R172 (b)). -/
def leastLevel (t : List Nat) (v k : Nat) : Prop :=
  k < 16 ∧
  (∀ j < 16, ((v : Int) - levelOf t k) ^ 2 ≤ ((v : Int) - levelOf t j) ^ 2) ∧
  ∀ j < k, ((v : Int) - levelOf t k) ^ 2 < ((v : Int) - levelOf t j) ^ 2

/-- The lattice indices in the palette entries before entry `k`: the used set at that moment (R150,
R180). -/
def earlierEntries (pal : Buf 12) (k i : Nat) : Bool :=
  (List.range k).any fun j => bufGet pal j == some (BitVec.ofNat 12 i)

/-- USED holds exactly the indices of PAL (R153, R177, R181). -/
def usedIsPalette (t : State) : Prop :=
  ∀ i < 4096, (bufGet t.used i).isSome = true ∧
    (bufGet t.used i = some 1 ↔ ∃ k < 16, bufGet t.pal k = some (BitVec.ofNat 12 i))

/-- What R149 to R151 and R155 say of the state after a synthesis whose boxes have these ideal
colours. -/
structure SynthesisOf (s : State) (ideals : List Rgb) (t : State) : Prop where
  boxes : 1 ≤ ideals.length ∧ ideals.length ≤ 16
  frame : t = { s with
    pal := t.pal, used := t.used, ncube := t.ncube, wfill := t.wfill, palv := true,
    draws := t.draws }
  count : t.ncube.toNat = ideals.length
  warning : t.wfill = decide (ideals.length < 16)
  snapped : ∀ k c, ideals[k]? = some c → ∃ v : BitVec 12, bufGet t.pal k = some v ∧
    leastNearest s.cfg c (earlierEntries t.pal k) v.toNat
  drawn : ∀ k, ideals.length ≤ k → k < 16 → ∃ v : BitVec 12, bufGet t.pal k = some v ∧
    earlierEntries t.pal k v.toNat = false
  palBeyond : ∀ k, 16 ≤ k → bufGet t.pal k = bufGet s.pal k
  usedExactly : usedIsPalette t
  usedBeyond : ∀ i, 4096 ≤ i → bufGet t.used i = bufGet s.used i

/-! ### The dispersed image -/

/-- The palette's colour at position `k` (R39). -/
def paletteRgb (s : State) (k : Nat) : Rgb := lat s.cfg ((bufGet s.pal k).getD 0).toNat

/-- The pixel of the canvas in column `x`, row `y` (R37). -/
def pixelAt (s : State) (x y : Nat) : Rgb := colorOfTriple s.img (y * canvasW s + x)

/-- The cost of a pair for a cell in exact integers: what the search of R197 computes when no error is
propagated (R202 (b)). -/
def exactCost (s : State) (cx y : Nat) (q : Nat × Nat) : Int :=
  ((cellXs (canvasW s) cx).map fun x =>
    min (dist (pixelAt s x y) (paletteRgb s q.1)) (dist (pixelAt s x y) (paletteRgb s q.2))).sum

/-! ### The pass of DISP on coordinates

The pseudocode of R191 to R201 read on coordinates: ERR and IDX as tables over `(y, x)`, one value at a
time. It shares with the machine the arithmetic (R12, R194) and the pair search (R197) alone. -/

/-- The low half of a number, as a two's complement integer of 16 bits (R191: `sext`). -/
def signedHalf (n : Nat) : Int :=
  if n % 65536 < 32768 then ((n % 65536 : Nat) : Int) else ((n % 65536 : Nat) : Int) - 65536

/-- Word `i` of kernel entry `k` (R41). -/
def kernelWord (krn : Buf 32) (k i : Nat) : Nat := ((bufGet krn (4 * k + i)).getD 0).toNat

/-- Entry `k` as R191 reads it: `dx` in the low half and `dy` in the high half of word 0, the weight's
pattern in words 1 (low) and 2 (high). -/
def kernelEntryAt (krn : Buf 32) (k : Nat) : KernelEntry where
  dx := signedHalf (kernelWord krn k 0)
  dy := signedHalf (kernelWord krn k 0 / 65536)
  weight := BitVec.ofNat 64 (kernelWord krn k 2 * 2 ^ 32 + kernelWord krn k 1)

/-- Where DISP's pass stands: `err y x ch` is `ERR[y][x][ch]`, `idx y x` the index recorded for a pixel,
and `stopped` says that a value to be stored was not finite (R201 (b)). -/
structure PassView where
  err : Nat → Nat → Nat → F64
  idx : Nat → Nat → Option (BitVec 4)
  stopped : Bool

/-- One addition of R200: `ERR[y][x][ch] +. amount`, stored if it is finite. -/
def PassView.add (y x ch : Nat) (amount : F64) (v : PassView) : PassView :=
  if v.stopped then v
  else if f64Finite (f64Add (v.err y x ch) amount) then
    { v with err := fun y' x' ch' =>
        if y' = y ∧ x' = x ∧ ch' = ch then f64Add (v.err y x ch) amount else v.err y' x' ch' }
  else { v with stopped := true }

/-- What kernel entry `e` does with the error `q` of pixel `(x, y)` (R192, R200): nothing where its
target is off the canvas or above the row, else `ERR[y + dy][x + dx][ch] +. (q[ch] *. w)` for the three
channels in order. -/
def PassView.spread (W H x y : Nat) (q : Color64) (v : PassView) (e : KernelEntry) : PassView :=
  if 0 ≤ e.dy ∧ 0 ≤ (x : Int) + e.dx ∧ (x : Int) + e.dx < W ∧ (y : Int) + e.dy < H then
    let ty := ((y : Int) + e.dy).toNat
    let tx := ((x : Int) + e.dx).toNat
    ((v.add ty tx 0 (f64Mul q.r e.weight)).add ty tx 1 (f64Mul q.g e.weight)).add ty tx 2
      (f64Mul q.b e.weight)
  else v

/-- The effective colour of pixel `(x, y)` now (R197, R199). -/
def PassView.effectiveAt (v : PassView) (y x : Nat) : Color64 :=
  ⟨f64Clamp (v.err y x 0), f64Clamp (v.err y x 1), f64Clamp (v.err y x 2)⟩

/-- The palette's colours in binary64 (R190). -/
def paletteColors64 (s : State) : List Color64 :=
  (List.range 16).map fun k => color64Of (paletteRgb s k)

/-- Pixel `(x, y)` with the cell's pair `ab` (R199, R200): the nearer of the two, the first on a tie, is
recorded, and effective minus chosen is spread by every entry in list order. -/
def PassView.pixel (s : State) (ab : Nat × Nat) (y : Nat) (v : PassView) (x : Nat) : PassView :=
  if v.stopped then v
  else
    let e := v.effectiveAt y x
    let P := colorAt (paletteColors64 s)
    let k := if f64Le (distance64 e (P ab.1)) (distance64 e (P ab.2)) then ab.1 else ab.2
    let q : Color64 := ⟨f64Sub e.r (P k).r, f64Sub e.g (P k).g, f64Sub e.b (P k).b⟩
    ((List.range s.klen.toNat).map (kernelEntryAt s.krn)).foldl
      (PassView.spread (canvasW s) (canvasH s) x y q)
      { v with idx := fun y' x' =>
          if y' = y ∧ x' = x then some (BitVec.ofNat 4 k) else v.idx y' x' }

/-- Cell `cx` of row `y` (R196): its pair from the effective colours at its start, then its pixels. -/
def PassView.cell (s : State) (y : Nat) (v : PassView) (cx : Nat) : PassView :=
  if v.stopped then v
  else
    let xs := cellXs (canvasW s) cx
    xs.foldl (PassView.pixel s (choosePair s.cfg (paletteColors64 s) (xs.map (v.effectiveAt y))) y) v

/-- ERR seeded with the image (R195), IDX as it stands. -/
def passStart (s : State) : PassView where
  err y x ch := f64OfNat ((bufGet s.img (3 * (y * canvasW s + x) + ch)).getD 0).toNat
  idx y x := bufGet s.idx (y * canvasW s + x)
  stopped := false

/-- The whole pass: rows in order, in a row the cells in order (R196). -/
def passEnd (s : State) : PassView :=
  (List.range (canvasH s)).foldl
    (fun v y => (List.range (cellCols (canvasW s))).foldl (PassView.cell s y) v) (passStart s)

/-! ### The cuts of a box -/

/-- The cuts of a box along an axis, ascending (R146): the lower child ends where the upper begins. -/
def cutsAlong (X : GenBox) : Axis → List (GenBox × GenBox)
  | .red => (List.range (X.r1 - X.r0)).map fun i =>
      ({ X with r1 := X.r0 + i }, { X with r0 := X.r0 + i + 1 })
  | .green => (List.range (X.g1 - X.g0)).map fun i =>
      ({ X with g1 := X.g0 + i }, { X with g0 := X.g0 + i + 1 })
  | .blue => (List.range (X.b1 - X.b0)).map fun i =>
      ({ X with b1 := X.b0 + i }, { X with b0 := X.b0 + i + 1 })

/-- The mean of some colours, each channel rounded down (R149). -/
def meanColor (l : List Rgb) : Rgb :=
  ⟨(l.map Rgb.r).sum / l.length, (l.map Rgb.g).sum / l.length, (l.map Rgb.b).sum / l.length⟩

/-! ### Run-length streams -/

/-- A sequence of repeat and literal tokens without terminator, and the bytes it stands for (R109 to
R111). -/
inductive TokenStream : List Byte → List Byte → Prop where
  | done : TokenStream [] []
  | repeats (c v : Byte) (s x : List Byte) (hc : c ≠ 0) (h : TokenStream s x) :
    TokenStream (c :: v :: s) (List.replicate c.toNat v ++ x)
  | literals (d s x : List Byte) (hlo : 1 ≤ d.length) (hhi : d.length ≤ 254)
    (h : TokenStream s x) :
    TokenStream (0 :: BitVec.ofNat 8 d.length :: (d ++ s)) (d ++ x)

/-- A token as RLE emits them (R255): a repeat token, or a literal token. -/
inductive RleToken where
  | run (count : Nat) (value : Byte)
  | segment (bytes : List Byte)
deriving DecidableEq, Repr

/-- The bytes of a token (R109, R110). -/
def tokenBytes : RleToken → List Byte
  | .run count value => [BitVec.ofNat 8 count, value]
  | .segment bytes => 0 :: BitVec.ofNat 8 bytes.length :: bytes

/-- What a token stands for (R109, R110). -/
def tokenExpansion : RleToken → List Byte
  | .run count value => List.replicate count value
  | .segment bytes => bytes

/-- The bounds of R255. -/
def tokenInBounds (maxRun : Nat) : RleToken → Prop
  | .run count _ => 1 ≤ count ∧ count ≤ maxRun
  | .segment bytes => 2 ≤ bytes.length ∧ bytes.length ≤ 254

/-- A literal segment, whichever token carries it: a run of count 1 is a segment of one byte (R246 (b),
R255). -/
def isLiteral : RleToken → Bool
  | .run count _ => count == 1
  | .segment _ => true

/-- No two neighbours inside a literal token are equal: an equal pair would have been a run (R246
(d)). -/
def segmentHasNoRun : RleToken → Prop
  | .run _ _ => True
  | .segment bytes => bytes.IsChain (· ≠ ·)

/-- Which token may follow which (R246 (a), (d)): the next byte differs from the last one, unless a run
was cut at `maxRun`; and a literal segment follows a literal segment only when that one is full. -/
def greedyNext (maxRun : Nat) (k next : RleToken) : Prop :=
  ((tokenExpansion k).getLast? = (tokenExpansion next).head? → ∃ v, k = .run maxRun v) ∧
  (isLiteral k = true → isLiteral next = true → (tokenExpansion k).length = 254)

end Sys2Proof.Machine
end

