-- ==== Sys2Proof/Certificates/Slice0/Obligations.lean ====
section
/-! DEFINITION. The statements for the provers, each from the numbered rules of spec/. -/

open Sys2Proof Sys2Proof.Machine

/-! ### Delivery and encoding of commands -/

/-- A step is the host's next action with that action consumed (the queue is the model's, log 1); and
where that action writes a word that decodes to `i` to CMD, the step is `exec i` (R21, R23, R90). It
holds in a faulted block too: `exec` begins with the gate. -/
def Obligations.StepRunsTheDecodedCommand : Prop :=
  (∀ (s : State) (a : HostAction) (rest : List HostAction),
    s.host = a :: rest → step s = hostAct a { s with host := rest }) ∧
  ∀ (s : State) (w : Word) (rest : List HostAction) (i : Instr),
    s.host = cmdWrite w :: rest → decodeWord w = .ok i → i.wellFormed = true →
    step s = exec i { s with host := rest }

/-- A few command words of R118 decode as spec/95_test_vectors.md section 2 says. -/
def Obligations.SampleWordsDecode : Prop :=
  decodeWord 0x00000000 = .ok .nop ∧ decodeWord 0x01000FFF = .ok (.latrd 0xFFF) ∧
  decodeWord 0x023264C8 = .ok (.snap 0xC8 0x64 0x32) ∧
  decodeWord 0x30000002 = .ok (.xpose 2) ∧ decodeWord 0x31000001 = .ok (.rle true false) ∧
  decodeWord 0x31000002 = .ok (.rle false true) ∧
  decodeWord 0x30000003 = .error .planeReserved ∧
  decodeWord 0x01001000 = .error .mustBeZero ∧ decodeWord 0x06000000 = .error .unknownOpcode

/-- A word decodes to `i` exactly when `i` is legal and `w` is its word: no bit of a command is
dropped, and no command has two words (R90, R91, R118). -/
def Obligations.DecodeInvertsEncode : Prop :=
  ∀ (w : Word) (i : Instr), decodeWord w = .ok i ↔ i.wellFormed = true ∧ encode i = w

/-- The decoder rejects exactly the illegal words of R98: (a) no row has the opcode, (b) the row's
must-be-0 bits are not all 0, (c) format P with `p = 3`. -/
def Obligations.RejectedWordsAreTheIllegalOnes : Prop :=
  ∀ w : Word,
    (∃ e, decodeWord w = .error e) ↔
      ((∀ r ∈ opcodeTable, w.extractLsb' 24 8 ≠ r.matchWord.extractLsb' 24 8) ∨
       (∃ r ∈ opcodeTable, w.extractLsb' 24 8 = r.matchWord.extractLsb' 24 8 ∧
          w &&& r.format.mask ≠ r.matchWord) ∨
       (∃ r ∈ opcodeTable, r.format = .p ∧
          w.extractLsb' 24 8 = r.matchWord.extractLsb' 24 8 ∧ w.extractLsb' 0 2 = 3))

/-! ### Faults -/

/-- R287: an illegal word written to CMD of an unfaulted block changes STATUS.FAULT, FCAUSE and FINFO
and nothing else. -/
def Obligations.IllegalWordFaults : Prop :=
  ∀ (s : State) (w : Word) (e : DecodeError), decodeWord w = .error e → s.fault = false →
    hostAct (cmdWrite w) s = .next { s with fault := true, fcause := 1, finfo := w }

/-- R285: while FAULT is 1 a write to CMD changes nothing, whatever the word, and so does every
command. -/
def Obligations.FaultedBlockIgnoresCommands : Prop :=
  (∀ (s : State) (w : Word), s.fault = true → hostAct (cmdWrite w) s = .next s) ∧
  ∀ (i : Instr) (s : State), s.fault = true → exec i s = .next s

/-- R300: nothing but reset clears a fault, and the first fault's cause and word stay. -/
def Obligations.FaultStaysUntilReset : Prop :=
  (∀ (s t : State) (a : HostAction) (rest : List HostAction),
    s.fault = true → s.host = a :: rest → a ≠ .reset → step s = .next t →
    t.fault = true ∧ t.fcause = s.fcause ∧ t.finfo = s.finfo) ∧
  ∀ (s : State) (rest : List HostAction), s.host = .reset :: rest →
    ∃ t, step s = .next t ∧ t.fault = false ∧ t.fcause = 0 ∧ t.finfo = 0

/-- R283, R284, R297: a command that faults raises one of the causes the table gives it, records the
cause and its own word, and leaves everything else but what R297 names: a length register set to 0
with ALLOC and SIZEOVF (and the bytes of CBUF already written by RLE), IDXV cleared and the live parts
of IDX and ERR partly written with NUMERIC, every element beyond them kept (that ERR can be seen after
DISP is the model's choice, log 13). -/
def Obligations.FaultEntryIsPrecise : Prop :=
  ∀ (i : Instr) (s t : State),
    s.fault = false → exec i s = .next t → t.fault = true →
    ∃ c : Cause, mayRaise i c = true ∧
      t = { s with
        fault := true, fcause := causeCode c, finfo := encode i,
        tlen := t.tlen, clen := t.clen, flen := t.flen, cbuf := t.cbuf,
        idx := t.idx, err := t.err, idxv := t.idxv } ∧
      (c ≠ .alloc → c ≠ .sizeovf →
        t.tlen = s.tlen ∧ t.clen = s.clen ∧ t.flen = s.flen ∧ t.cbuf = s.cbuf) ∧
      (c ≠ .numeric → t.idx = s.idx ∧ t.err = s.err ∧ t.idxv = s.idxv) ∧
      (c = .numeric → t.idxv = false ∧
        (∀ j, canvasW s * canvasH s ≤ j → bufGet t.idx j = bufGet s.idx j) ∧
        ∀ j, 3 * canvasW s * canvasH s ≤ j → bufGet t.err j = bufGet s.err j) ∧
      (c = .alloc ∨ c = .sizeovf →
        (∀ p, i = .xpose p →
          t.tlen = 0 ∧ t.clen = s.clen ∧ t.flen = s.flen ∧ t.cbuf = s.cbuf) ∧
        (∀ b a, i = .rle b a → t.clen = 0 ∧ t.tlen = s.tlen ∧ t.flen = s.flen ∧
          ∀ j, j < rleStart a s ∨ s.cfg.ccap ≤ j → bufGet t.cbuf j = bufGet s.cbuf j) ∧
        ((i = .cont ∨ ∃ p, i = .rawf p) →
          t.flen = 0 ∧ t.tlen = s.tlen ∧ t.clen = s.clen ∧ t.cbuf = s.cbuf))

/-- R288: every command that uses the canvas raises BADGEOM on a bad geometry, before anything
changes, and no other command raises it. -/
def Obligations.BadGeometryFaults : Prop :=
  (∀ (i : Instr) (s : State),
    i.wellFormed = true → usesCanvas i = true → s.fault = false →
    ¬ (1 ≤ (s.canvas.extractLsb' 0 16).toNat ∧
        (s.canvas.extractLsb' 0 16).toNat ≤ s.cfg.wmax ∧
        1 ≤ (s.canvas.extractLsb' 16 16).toNat ∧
        (s.canvas.extractLsb' 16 16).toNat ≤ s.cfg.hmax) →
    exec i s = .next { s with fault := true, fcause := 3, finfo := encode i }) ∧
  ∀ (i : Instr) (s t : State),
    usesCanvas i = false → s.fault = false → exec i s = .next t → t.fault = true → t.fcause ≠ 3

/-- R289: a command whose required flag is 0 raises NOTREADY and changes nothing else. -/
def Obligations.MissingInputFaults : Prop :=
  ∀ (i : Instr) (s : State),
    i.wellFormed = true → s.fault = false → geomOk s = true → requiredFlag s i = false →
    exec i s = .next { s with fault := true, fcause := 2, finfo := encode i }

/-- R290: an output that does not fit raises ALLOC with the length register of its buffer zeroed; RLE
keeps in CBUF the bytes that fitted (R297). -/
def Obligations.OutputThatDoesNotFitFaults : Prop :=
  (∀ (p : BitVec 2) (s : State),
    p ≠ 3 → s.fault = false → geomOk s = true → s.plnv = true →
    s.cfg.tcap < cellCols (canvasW s) * paddedRows (canvasH s) →
    exec (.xpose p) s =
      .next { s with fault := true, fcause := 4, finfo := encode (.xpose p), tlen := 0 }) ∧
  (∀ (p : BitVec 2) (s : State),
    p ≠ 3 → s.fault = false → geomOk s = true → s.plnv = true →
    s.cfg.fcap < cellCols (canvasW s) * canvasH s + 10 →
    exec (.rawf p) s =
      .next { s with fault := true, fcause := 4, finfo := encode (.rawf p), flen := 0 }) ∧
  (∀ s : State,
    s.fault = false → geomOk s = true → s.palv = true → s.clen.toNat ≤ s.cfg.ccap →
    sizeField s.clen.toNat ≤ 65535 → s.cfg.fcap < sizeField s.clen.toNat + 10 →
    exec .cont s =
      .next { s with fault := true, fcause := 4, finfo := encode .cont, flen := 0 }) ∧
  ∀ (t a : Bool) (s : State) (input : List Byte),
    s.fault = false → s.tlen.toNat ≤ s.cfg.tcap → rleStart a s ≤ s.cfg.ccap →
    bufReadRun s.tbuf 0 s.tlen.toNat = some input →
    s.cfg.ccap < rleStart a s + (rleOutput s.cfg.rleMaxRun t input).length →
    ∃ u, exec (.rle t a) s = .next u ∧
      u = { s with
        fault := true, fcause := 4, finfo := encode (.rle t a), clen := 0, cbuf := u.cbuf } ∧
      ∀ j, bufGet u.cbuf j =
        if rleStart a s ≤ j ∧ j < s.cfg.ccap
        then (rleOutput s.cfg.rleMaxRun t input)[j - rleStart a s]?
        else bufGet s.cbuf j

/-- R295: a length above its buffer's capacity raises BADLEN and changes nothing else; only the host
can make it so, since a command leaves TLEN and CLEN as they were or within the capacity. -/
def Obligations.BadLengthFaults : Prop :=
  (∀ (t a : Bool) (s : State), s.fault = false →
    (s.cfg.tcap < s.tlen.toNat ∨ (a = true ∧ s.cfg.ccap < s.clen.toNat)) →
    exec (.rle t a) s =
      .next { s with fault := true, fcause := 9, finfo := encode (.rle t a) }) ∧
  (∀ s : State, s.fault = false → geomOk s = true → s.palv = true →
    s.cfg.ccap < s.clen.toNat →
    exec .cont s = .next { s with fault := true, fcause := 9, finfo := encode .cont }) ∧
  ∀ (i : Instr) (s t : State), exec i s = .next t →
    (t.tlen = s.tlen ∨ t.tlen.toNat ≤ s.cfg.tcap) ∧
    (t.clen = s.clen ∨ t.clen.toNat ≤ s.cfg.ccap)

/-- R292: too many kernel entries, or a weight whose exponent field is 0x7FF, raises KERNEL before
DISP changes anything. The exponent field `f[62:52]` is `[30:20]` of a weight's high word (R41). -/
def Obligations.BadKernelFaults : Prop :=
  (∀ s : State, s.fault = false → geomOk s = true → s.palv = true →
    s.cfg.kmax < s.klen.toNat →
    exec .disp s = .next { s with fault := true, fcause := 6, finfo := encode .disp }) ∧
  ∀ (s : State) (k : Nat) (hi : BitVec 32),
    s.fault = false → geomOk s = true → s.palv = true → s.klen.toNat ≤ s.cfg.kmax →
    (∀ j < s.klen.toNat, (bufGet s.krn (4 * j + 1)).isSome = true ∧
      (bufGet s.krn (4 * j + 2)).isSome = true) →
    k < s.klen.toNat → bufGet s.krn (4 * k + 2) = some hi → hi.extractLsb' 20 11 = 0x7FF →
    exec .disp s = .next { s with fault := true, fcause := 6, finfo := encode .disp }

/-- R294: the size field passes 65535 exactly from CLEN = 65493 on; from there on a CONT that reaches
the check raises SIZEOVF with FLEN zeroed, and below it no CONT raises SIZEOVF. -/
def Obligations.SizeOverflowFaults : Prop :=
  (∀ L : Nat, 65535 < sizeField L ↔ 65493 ≤ L) ∧
  (∀ s : State, s.fault = false → geomOk s = true → s.palv = true →
    s.clen.toNat ≤ s.cfg.ccap → 65493 ≤ s.clen.toNat →
    exec .cont s =
      .next { s with fault := true, fcause := 8, finfo := encode .cont, flen := 0 }) ∧
  ∀ s t : State, s.fault = false → s.clen.toNat < 65493 → exec .cont s = .next t →
    t.fault = true → t.fcause ≠ 8

/-! ### Reset, and the invariant -/

/-- R49: after reset every register that holds state reads 0 (BUFDATA holds none). That no buffer element
holds a value is how the model has "unspecified" (the model's choice, log 10), and that the host's
other pending actions and the configuration stay is the model's choice too (log 3). `State.reset` is
such a state. -/
def Obligations.ResetClearsEverything : Prop :=
  (∀ (s : State) (rest : List HostAction), s.host = .reset :: rest →
    ∃ t, step s = .next t ∧ (∀ r : Reg, r ≠ .bufdata → regValue t r = 0) ∧
      (∀ (b : BufId) (i : Nat), readElem t b i = none) ∧ t.cfg = s.cfg ∧ t.host = rest) ∧
  (∀ r : Reg, r ≠ .bufdata → regValue State.reset r = 0) ∧
  ∀ (b : BufId) (i : Nat), readElem State.reset b i = none

/-- The invariant holds at reset. -/
def Obligations.InvariantHoldsAtReset : Prop := StateWf State.reset

/-- Every step keeps the invariant: every buffer in canonical form within its capacity, a cause
recorded exactly while faulted, the warnings in step with their counts, the result registers in their
ranges, the configuration lawful. No step changes the configuration, so the lattice is a constant
(R46, R133). -/
def Obligations.StepKeepsTheInvariant : Prop :=
  ∀ s t : State, StateWf s → step s = .next t →
    StateWf t ∧ t.cfg = s.cfg ∧ ∀ i, lat t.cfg i = lat s.cfg i

/-! ### The host's accesses -/

/-- R22, R25 to R35: what a read of each offset but BUFDATA returns, and that it changes nothing
else. -/
def Obligations.RegisterReads : Prop :=
  ∀ (s : State) (rest : List HostAction) (off : Nat),
    s.host = .read off 4 :: rest → off % 4 = 0 → off < 256 → off ≠ 0x44 →
    ∃ v : Word, step s = .next { s with host := rest, readData := v } ∧
      v.toNat =
        if off = 0x04 then s.fault.toNat + 2 * s.wfill.toNat + 4 * s.wviol.toNat
        else if off = 0x08 then s.palv.toNat + 2 * s.idxv.toNat + 4 * s.plnv.toNat
        else if off = 0x0C then s.fcause.toNat
        else if off = 0x10 then s.finfo.toNat
        else if off = 0x14 then s.canvas.toNat
        else if off = 0x18 then s.klen.toNat
        else if off = 0x1C then s.res.toNat
        else if off = 0x20 then s.ncube.toNat
        else if off = 0x24 then s.vcount.toNat
        else if off = 0x28 then s.tlen.toNat
        else if off = 0x2C then s.clen.toNat
        else if off = 0x30 then s.flen.toNat
        else if off = 0x34 then s.mode0.toNat
        else if off = 0x38 then s.mode1.toNat
        else if off = 0x3C then s.bufsel.toNat
        else if off = 0x40 then s.bufaddr.toNat
        else 0

/-- R24, R26, R29, R33 to R35, R71: a write of a writable register stores its bits and changes nothing
else (but for CANVAS, which clears IDXV and PLNV), and a read right after it returns those bits and
changes nothing. The queue is the model's (log 1). -/
def Obligations.WrittenRegisterReadsBack : Prop :=
  ∀ (s : State) (rest : List HostAction) (off : Nat) (v mask : Word),
    s.host = .write off 4 v :: .read off 4 :: rest →
    (off, mask) ∈ ([(0x08, 0x7), (0x14, 0xFFFFFFFF), (0x18, 0xFFFF), (0x28, 0xFFFFFFFF),
      (0x2C, 0xFFFFFFFF), (0x34, 0xFFFFFFFF), (0x38, 0xFF), (0x3C, 0xF),
      (0x40, 0xFFFFFF)] : List (Nat × Word)) →
    let s' := { s with host := .read off 4 :: rest }
    let t : State :=
      if off = 0x08 then
        { s' with palv := v.getLsbD 0, idxv := v.getLsbD 1, plnv := v.getLsbD 2 }
      else if off = 0x14 then { s' with canvas := v, idxv := false, plnv := false }
      else if off = 0x18 then { s' with klen := v.extractLsb' 0 16 }
      else if off = 0x28 then { s' with tlen := v }
      else if off = 0x2C then { s' with clen := v }
      else if off = 0x34 then { s' with mode0 := v }
      else if off = 0x38 then { s' with mode1 := v.extractLsb' 0 8 }
      else if off = 0x3C then { s' with bufsel := v.extractLsb' 0 4 }
      else { s' with bufaddr := v.extractLsb' 0 24 }
    step s = .next t ∧ step t = .next { t with host := rest, readData := v &&& mask }

/-- R22: a write of a read-only register or of a reserved offset changes nothing. -/
def Obligations.ReadOnlyWritesAreIgnored : Prop :=
  ∀ (s : State) (rest : List HostAction) (off : Nat) (v : Word),
    s.host = .write off 4 v :: rest → off % 4 = 0 → off < 256 →
    (off ∈ [0x04, 0x0C, 0x10, 0x1C, 0x20, 0x24, 0x30] ∨ 0x48 ≤ off) →
    step s = .next { s with host := rest }

/-- R24: a write of CANVAS stores all 32 bits and clears IDXV and PLNV, whatever the value; nothing
else changes. -/
def Obligations.CanvasWriteClearsResults : Prop :=
  ∀ (s : State) (rest : List HostAction) (v : Word),
    s.host = .write 0x14 4 v :: rest →
    step s = .next { s with host := rest, canvas := v, idxv := false, plnv := false }

/-- R63, R66: a window write stores the low bits of the word into the one element it names, if there
is one and the host may write it, and advances BUFADDR modulo 2^24; nothing else changes. -/
def Obligations.WindowWriteStoresOneElement : Prop :=
  ∀ (s : State) (v : Word),
    (∀ b : BufId, bufIdOf s.bufsel = some b → b.hostWrites = true →
      s.bufaddr.toNat < bufCap s.cfg b →
      ∃ t, hostAct (.write 0x44 4 v) s = .next t ∧
        t = withBuf { s with bufaddr := s.bufaddr + 1 } b (bufOf t b) ∧
        ∀ i, readElem t b i =
          if i = s.bufaddr.toNat then some (v.setWidth b.width) else readElem s b i) ∧
    ((∀ b : BufId, bufIdOf s.bufsel = some b → b.hostWrites = true →
      bufCap s.cfg b ≤ s.bufaddr.toNat) →
      hostAct (.write 0x44 4 v) s = .next { s with bufaddr := s.bufaddr + 1 })

/-- R62, R64, R66: a window read returns the element zero-extended, or 0 where there is none, and
changes BUFADDR only; where nothing has written the element, some value of the element's width (U1a),
which takes one draw. -/
def Obligations.WindowReadReturnsTheElement : Prop :=
  ∀ (s : State) (rest : List HostAction), s.host = .read 0x44 4 :: rest →
    (∀ (b : BufId) (e : BitVec b.width), bufIdOf s.bufsel = some b →
      s.bufaddr.toNat < bufCap s.cfg b → readElem s b s.bufaddr.toNat = some e →
      step s = .next { s with
        host := rest, bufaddr := s.bufaddr + 1, readData := e.setWidth 32 }) ∧
    ((∀ b : BufId, bufIdOf s.bufsel = some b → bufCap s.cfg b ≤ s.bufaddr.toNat) →
      step s = .next { s with host := rest, bufaddr := s.bufaddr + 1, readData := 0 }) ∧
    (∀ b : BufId, bufIdOf s.bufsel = some b → s.bufaddr.toNat < bufCap s.cfg b →
      readElem s b s.bufaddr.toNat = none →
      ∃ v : Word, v.toNat < 2 ^ b.width ∧ step s = .next { s with
        host := rest, bufaddr := s.bufaddr + 1, readData := v, draws := s.draws + 1 })

/-- An access that is not 4 bytes wide, not aligned or outside the region is no action of the interface
(R61), and the model refuses it by name (the model's choice, log 2, which U2 asks for). -/
def Obligations.OtherAccessesAreRefused : Prop :=
  ∀ (s : State) (rest : List HostAction) (off bytes : Nat) (v : Word),
    ¬ (bytes = 4 ∧ off % 4 = 0 ∧ off < 256) →
    (s.host = .read off bytes :: rest → step s = .refused (.notAnAccess off bytes)) ∧
    (s.host = .write off bytes v :: rest → step s = .refused (.notAnAccess off bytes))

/-- R286: a faulted block answers the host's accesses exactly as an unfaulted one: but for a command
word and a read of STATUS, flipping FAULT before the access flips it after and changes nothing
else. -/
def Obligations.FaultedBlockStillAnswers : Prop :=
  ∀ (s t : State) (a : HostAction) (rest : List HostAction),
    s.host = a :: rest → a ≠ .reset → a ≠ .read 0x04 4 → (∀ w, a ≠ cmdWrite w) →
    step s = .next t →
    step { s with fault := !s.fault } = .next { t with fault := !t.fault }

/-! ### Lattice -/

/-- R137: for every admissible choice of the level tables the eight corners are as listed, a channel
is 0 or 255 only through level 0 or 15, and distinct indices have distinct colours. -/
def Obligations.LatticeFacts : Prop :=
  ∀ p : Params, p.Lawful →
    (lat p 0x000 = ⟨0, 0, 0⟩ ∧ lat p 0x00F = ⟨255, 0, 0⟩ ∧ lat p 0x0F0 = ⟨0, 255, 0⟩ ∧
      lat p 0x0FF = ⟨255, 255, 0⟩ ∧ lat p 0xF00 = ⟨0, 0, 255⟩ ∧ lat p 0xF0F = ⟨255, 0, 255⟩ ∧
      lat p 0xFF0 = ⟨0, 255, 255⟩ ∧ lat p 0xFFF = ⟨255, 255, 255⟩) ∧
    (∀ i < 4096,
      ((lat p i).r = 0 → i % 16 = 0) ∧ ((lat p i).r = 255 → i % 16 = 15) ∧
      ((lat p i).g = 0 → i / 16 % 16 = 0) ∧ ((lat p i).g = 255 → i / 16 % 16 = 15) ∧
      ((lat p i).b = 0 → i / 256 = 0) ∧ ((lat p i).b = 255 → i / 256 = 15)) ∧
    ∀ i < 4096, ∀ j < 4096, lat p i = lat p j → i = j

/-- NOP completes and changes nothing (R135). -/
def Obligations.NopCompletes : Prop := ∀ s : State, exec .nop s = .next s

/-- LATRD completes: RES is `r + 256 g + 65536 b` of the lattice colour, and nothing else changes
(R136, R30). -/
def Obligations.LatrdCompletes : Prop :=
  ∀ (idx : BitVec 12) (s : State), s.cfg.Lawful → s.fault = false →
    ∃ v : Word, exec (.latrd idx) s = .next { s with res := v } ∧
      v.toNat = levelOf s.cfg.levelR (idx.extractLsb' 0 4).toNat +
        256 * levelOf s.cfg.levelG (idx.extractLsb' 4 4).toNat +
        65536 * levelOf s.cfg.levelB (idx.extractLsb' 8 4).toNat

/-! ### Snapper -/

/-- R171: `snap(t, U)` is the least index not in `U` at the least distance, and there is none exactly
when every index is in `U`. -/
def Obligations.SnapIsTheLeastNearest : Prop :=
  ∀ (p : Params) (t : Rgb) (used : Nat → Bool),
    (∀ i, snap p t used = some i ↔ leastNearest p t used i) ∧
    (snap p t used = none ↔ ∀ i < 4096, used i = true)

/-- R172 (a), (b): a lattice colour snaps to its own index while that is unused, and with the empty
used set `snap` separates by channel. -/
def Obligations.SnapSeparatesByChannel : Prop :=
  (∀ (p : Params) (used : Nat → Bool) (i : Nat), p.Lawful → i < 4096 → used i = false →
    snap p (lat p i) used = some i) ∧
  ∀ (p : Params) (t : Rgb) (a b c : Nat),
    leastLevel p.levelR t.r a → leastLevel p.levelG t.g b → leastLevel p.levelB t.b c →
    snap p t (fun _ => false) = some (a + 16 * b + 256 * c)

/-- SNAP completes with the nearest lattice index in RES; USED and everything else is unchanged
(R173). -/
def Obligations.SnapCompletes : Prop :=
  ∀ (r g b : BitVec 8) (s : State), s.fault = false →
    ∃ i, leastNearest s.cfg ⟨r.toNat, g.toNat, b.toNat⟩ (fun _ => false) i ∧
      exec (.snap r g b) s = .next { s with res := BitVec.ofNat 32 i }

/-- R174, R291: SNAPU completes with the nearest index that USED does not hold, and changes only RES;
when USED holds all 4096 it raises NOCAND and RES is unchanged. -/
def Obligations.SnapuCompletes : Prop :=
  ∀ (r g b : BitVec 8) (s : State), s.fault = false → written s.used 4096 →
    ((∃ i < 4096, bufGet s.used i = some 0) →
      ∃ i, leastNearest s.cfg ⟨r.toNat, g.toNat, b.toNat⟩
          (fun j => decide (bufGet s.used j = some 1)) i ∧
        exec (.snapu r g b) s = .next { s with res := BitVec.ofNat 32 i }) ∧
    ((∀ i < 4096, bufGet s.used i = some 1) →
      exec (.snapu r g b) s =
        .next { s with fault := true, fcause := 5, finfo := encode (.snapu r g b) })

/-- R175, R176: UCLR sets all 4096 elements of USED to 0, UMARK sets one to 1, and nothing else
changes. -/
def Obligations.UsedSetCommandsComplete : Prop :=
  (∀ s : State, s.fault = false →
    ∃ t, exec .uclr s = .next t ∧ t = { s with used := t.used } ∧
      ∀ i, bufGet t.used i = if i < 4096 then some 0 else bufGet s.used i) ∧
  ∀ (idx : BitVec 12) (s : State), s.fault = false →
    ∃ t, exec (.umark idx) s = .next t ∧ t = { s with used := t.used } ∧
      ∀ i, bufGet t.used i = if i = idx.toNat then some 1 else bufGet s.used i

/-- R180: PSNAPU completes; each entry of PAL is the snap of its colour with the earlier entries used,
USED holds exactly PAL, PALV is set, and nothing else changes. -/
def Obligations.PsnapuCompletes : Prop :=
  ∀ s : State, s.fault = false → written s.ext 48 →
    ∃ t, exec .psnapu s = .next t ∧
      t = { s with pal := t.pal, used := t.used, palv := true } ∧
      (∀ k < 16, ∃ v : BitVec 12, bufGet t.pal k = some v ∧
        leastNearest s.cfg (colorOfTriple s.ext k) (earlierEntries t.pal k) v.toNat) ∧
      usedIsPalette t ∧
      (∀ k, 16 ≤ k → bufGet t.pal k = bufGet s.pal k) ∧
      ∀ i, 4096 ≤ i → bufGet t.used i = bufGet s.used i

/-- R183: PSNAPN completes; each entry of PAL is the snap of its own colour with no used set, PALV is
set, and USED and everything else is unchanged. -/
def Obligations.PsnapnCompletes : Prop :=
  ∀ s : State, s.fault = false → written s.ext 48 →
    ∃ t, exec .psnapn s = .next t ∧ t = { s with pal := t.pal, palv := true } ∧
      (∀ k < 16, ∃ v : BitVec 12, bufGet t.pal k = some v ∧
        leastNearest s.cfg (colorOfTriple s.ext k) (fun _ => false) v.toNat) ∧
      ∀ k, 16 ≤ k → bufGet t.pal k = bufGet s.pal k

/-- R153, R181: after QGEN, QLAT or PSNAPU completes, no two entries of PAL are equal, USED holds
exactly the 16 indices of PAL, and with lawful level tables the 16 colours are distinct. -/
def Obligations.PaletteIsUnique : Prop :=
  ∀ (i : Instr) (s t : State),
    i = .qgen ∨ i = .qlat ∨ i = .psnapu →
    s.fault = false → exec i s = .next t → t.fault = false →
    (∀ k < 16, (bufGet t.pal k).isSome = true) ∧
    (∀ j < 16, ∀ k < 16, j ≠ k → bufGet t.pal j ≠ bufGet t.pal k) ∧
    usedIsPalette t ∧
    (s.cfg.Lawful → ∀ j < 16, ∀ k < 16, j ≠ k → paletteRgb t j ≠ paletteRgb t k)

/-! ### Quantizer -/

/-- R144, R149, R155: QGEN completes on every image that was written, with the palette that R149 to R151
make from the ideal colours of its boxes; the boxes are those the loop makes from the first box, and
the ideal colour of a box is the mean of the pixels whose bin it contains, each channel rounded
down. -/
def Obligations.QgenCompletes : Prop :=
  ∀ (s : State) (image : List Rgb), s.fault = false → geomOk s = true →
    readImage s = some image →
    let boxes := finalBoxes (genDomain s.cfg)
      (image.map fun c => ((c.r / 16, c.g / 16, c.b / 16), c)) ⟨0, 15, 0, 15, 0, 15⟩
    (genIdeals s.cfg image).length = boxes.length ∧
    (∀ (k : Nat) (X : GenBox), boxes[k]? = some X →
      (genIdeals s.cfg image)[k]? = some (meanColor (image.filter fun c => decide
        ((X.r0 ≤ c.r / 16 ∧ c.r / 16 ≤ X.r1) ∧ (X.g0 ≤ c.g / 16 ∧ c.g / 16 ≤ X.g1) ∧
          (X.b0 ≤ c.b / 16 ∧ c.b / 16 ≤ X.b1))))) ∧
    ∃ t, exec .qgen s = .next t ∧ SynthesisOf s (genIdeals s.cfg image) t

/-- R145, R149, R160: QLAT completes on every image that was written, with the palette that R149 to R151
make from the ideal colours of its boxes; a pixel's bin is its nearest lattice index and its value that
index's colour, the boxes are those the loop makes from the range of all indices, and the ideal colour
of a box is the mean of the values whose bin it contains, each channel rounded down. -/
def Obligations.QlatCompletes : Prop :=
  ∀ (s : State) (image : List Rgb), s.fault = false → geomOk s = true →
    readImage s = some image →
    ∃ (bins : List Nat) (ideals : List Rgb) (t : State),
      bins.length = image.length ∧
      (∀ (k : Nat) (c : Rgb) (i : Nat), image[k]? = some c → bins[k]? = some i →
        leastNearest s.cfg c (fun _ => false) i) ∧
      (let boxes := finalBoxes latDomain (bins.map fun i => (i, lat s.cfg i)) (0, 4095)
       ideals.length = boxes.length ∧
       ∀ (k : Nat) (X : Nat × Nat), boxes[k]? = some X →
        ideals[k]? = some (meanColor
          ((bins.filter fun i => decide (X.1 ≤ i ∧ i ≤ X.2)).map (lat s.cfg)))) ∧
      latIdeals s.cfg image = some ideals ∧ exec .qlat s = .next t ∧ SynthesisOf s ideals t

/-- R140, R154 (a), (b): in both strategies the loop ends with 1 to 16 boxes, every box holds a pixel,
and every pixel lies in exactly one box, whatever `AXIS_RULE` is. -/
def Obligations.BoxesPartitionTheImage : Prop :=
  (∀ (p : Params) (image : List Rgb), image ≠ [] →
    (∀ c ∈ image, c.r < 256 ∧ c.g < 256 ∧ c.b < 256) →
    let boxes := finalBoxes (genDomain p) (image.map genSample) genFirst
    1 ≤ boxes.length ∧ boxes.length ≤ 16 ∧
    (∀ X ∈ boxes, ∃ c ∈ image, genContains X (genSample c).1 = true) ∧
    ∀ c ∈ image, (boxes.filter fun X => genContains X (genSample c).1).length = 1) ∧
  ∀ samples : List (Nat × Rgb), samples ≠ [] → (∀ x ∈ samples, x.1 < 4096) →
    let boxes := finalBoxes latDomain samples latFirst
    1 ≤ boxes.length ∧ boxes.length ≤ 16 ∧
    (∀ X ∈ boxes, ∃ x ∈ samples, X.1 ≤ x.1 ∧ x.1 ≤ X.2) ∧
    ∀ x ∈ samples, (boxes.filter fun X => decide (X.1 ≤ x.1 ∧ x.1 ≤ X.2)).length = 1

/-- R146, R147 (by the spec's own inference from R142): in every histogram domain, the gain of cutting
a box `X` into disjoint `A` and `B` is never negative, is 0 when one of them holds no pixel, is positive
exactly when both hold pixels and their mean colours differ, and equals `N(A) N(B) / N(X)` times the
squared distance of the means. Every candidate cut of either strategy is such a cut. -/
def Obligations.GainOfACut : Prop :=
  (∀ (κ β : Type) (D : Domain κ β) (samples : List (κ × Rgb)) (X A B : β),
    (∀ k, D.contains X k = (D.contains A k || D.contains B k)) →
    (∀ k, ¬ (D.contains A k = true ∧ D.contains B k = true)) →
    let mA := momentsOf (D.contains A) samples
    let mB := momentsOf (D.contains B) samples
    let mX := momentsOf (D.contains X) samples
    let gain := gainOf D samples X A B
    let apart : ℚ :=
      ((mA.sr : ℚ) / mA.n - mB.sr / mB.n) ^ 2 + ((mA.sg : ℚ) / mA.n - mB.sg / mB.n) ^ 2 +
        ((mA.sb : ℚ) / mA.n - mB.sb / mB.n) ^ 2
    0 ≤ gain ∧ (mA.n = 0 ∨ mB.n = 0 → gain = 0) ∧
    (0 < mA.n → 0 < mB.n → gain = (mA.n : ℚ) * mB.n / mX.n * apart) ∧
    (0 < gain ↔ 0 < mA.n ∧ 0 < mB.n ∧ apart ≠ 0)) ∧
  (∀ (p : Params) (X A B : GenBox), (A, B) ∈ (genDomain p).cuts X → ∀ k,
    genContains X k = (genContains A k || genContains B k) ∧
    ¬ (genContains A k = true ∧ genContains B k = true)) ∧
  ∀ X A B : Nat × Nat, (A, B) ∈ latDomain.cuts X → ∀ k,
    latDomain.contains X k = (latDomain.contains A k || latDomain.contains B k) ∧
    ¬ (latDomain.contains A k = true ∧ latDomain.contains B k = true)

/-- R146, R148: the splitting loop, in any histogram domain. The candidates are those of every box, boxes
in list order and the cuts of a box in their order; the search takes the first of greatest gain, and
only a gain strictly above 0; the lower child takes the parent's place and the upper child goes to the
end; the loop stops at 16 boxes or where no candidate has a gain. A box of QLAT is cut between any two
neighbouring indices, ascending; a box of QGEN likewise along one axis, by default the longest, red
before green before blue. -/
def Obligations.SplitSearchTakesTheFirstMaximum : Prop :=
  (∀ (β : Type) (l : List (Split β)),
    (pickSplit l none = none ↔ ∀ c ∈ l, c.gain ≤ 0) ∧
    ∀ c, pickSplit l none = some c ↔
      0 < c.gain ∧ ∃ i : Nat, l[i]? = some c ∧ (∀ d ∈ l, d.gain ≤ c.gain) ∧
        ∀ (j : Nat) (d : Split β), j < i → l[j]? = some d → d.gain < c.gain) ∧
  (∀ (κ β : Type) (D : Domain κ β) (samples : List (κ × Rgb)),
    (allSplits D samples [] = [] ∧ ∀ (boxes : List β) (X : β),
      allSplits D samples (boxes ++ [X]) = allSplits D samples boxes ++
        (D.cuts X).map fun c => ⟨boxes.length, c.1, c.2, gainOf D samples X c.1 c.2⟩) ∧
    (∀ (n : Nat) (boxes : List β) (c : Split β),
      pickSplit (allSplits D samples boxes) none = some c →
      ∃ next : List β, splitLoop D samples (n + 1) boxes = splitLoop D samples n next ∧
        next.length = boxes.length + 1 ∧ c.at_ < boxes.length ∧
        next[c.at_]? = some c.lower ∧ next[boxes.length]? = some c.upper ∧
        ∀ j < boxes.length, j ≠ c.at_ → next[j]? = boxes[j]?) ∧
    ∀ first : β, (finalBoxes D samples first).length = 16 ∨
      pickSplit (allSplits D samples (finalBoxes D samples first)) none = none) ∧
  (∀ X : Nat × Nat, latDomain.cuts X =
    (List.range (X.2 - X.1)).map fun i => ((X.1, X.1 + i), (X.1 + i + 1, X.2))) ∧
  ∀ (p : Params) (X : GenBox), X.r0 ≤ X.r1 → X.g0 ≤ X.g1 → X.b0 ≤ X.b1 →
    (∃ a : Axis, (genDomain p).cuts X = cutsAlong X a) ∧
    (p.axisTable = [] → (genDomain p).cuts X = cutsAlong X
      (if X.g1 - X.g0 ≤ X.r1 - X.r0 ∧ X.b1 - X.b0 ≤ X.r1 - X.r0 then .red
       else if X.b1 - X.b0 ≤ X.g1 - X.g0 then .green else .blue))

/-- R155, R160, corner case: an image of one colour gives one box, whose ideal colour is that colour
for QGEN and the colour of its lattice index for QLAT. -/
def Obligations.OneColourImageGivesOneBox : Prop :=
  ∀ (p : Params) (c : Rgb) (n i : Nat), 0 < n →
    c.r < 256 ∧ c.g < 256 ∧ c.b < 256 → snap p c (fun _ => false) = some i →
    genIdeals p (List.replicate n c) = [c] ∧
    latIdeals p (List.replicate n c) = some [lat p i]

/-! ### Disperser -/

/-- R12: a sum and a product are the exact result rounded once to the nearest finite binary64, to the
even significand between two equally near, and overflow exactly from half a last place above the
largest finite number on. `f64Int` counts in units of 2^-1074. -/
def Obligations.BinaryArithmeticRoundsToNearestEven : Prop :=
  ∀ a b : F64, f64Finite a = true → f64Finite b = true →
    ((f64Finite (f64Add a b) = true ↔
        |f64Int a + f64Int b| < (2 ^ 54 - 1) * 2 ^ 2044) ∧
      (f64Finite (f64Add a b) = true → ∀ c : F64, f64Finite c = true →
        |f64Int (f64Add a b) - (f64Int a + f64Int b)| ≤ |f64Int c - (f64Int a + f64Int b)| ∧
        (f64Int c ≠ f64Int (f64Add a b) →
          |f64Int (f64Add a b) - (f64Int a + f64Int b)| = |f64Int c - (f64Int a + f64Int b)| →
          f64Frac (f64Add a b) % 2 = 0))) ∧
    ((f64Finite (f64Mul a b) = true ↔
        |f64Int a * f64Int b| < (2 ^ 54 - 1) * 2 ^ 3118) ∧
      (f64Finite (f64Mul a b) = true → ∀ c : F64, f64Finite c = true →
        |f64Int (f64Mul a b) * 2 ^ 1074 - f64Int a * f64Int b| ≤
          |f64Int c * 2 ^ 1074 - f64Int a * f64Int b| ∧
        (f64Int c ≠ f64Int (f64Mul a b) →
          |f64Int (f64Mul a b) * 2 ^ 1074 - f64Int a * f64Int b| =
            |f64Int c * 2 ^ 1074 - f64Int a * f64Int b| →
          f64Frac (f64Mul a b) % 2 = 0)))

/-- R202 (a), (b): bytes convert exactly, differences of bytes are exact, and the distance of two byte
colours is the exact integer distance. -/
def Obligations.ByteArithmeticIsExact : Prop :=
  (∀ a < 256, ∀ b < 256,
    f64Int (f64OfNat a) = a * 2 ^ 1074 ∧
    f64Int (f64Sub (f64OfNat a) (f64OfNat b)) = ((a : Int) - b) * 2 ^ 1074) ∧
  ∀ c d : Rgb, c.r < 256 ∧ c.g < 256 ∧ c.b < 256 → d.r < 256 ∧ d.g < 256 ∧ d.b < 256 →
    f64Finite (distance64 (color64Of c) (color64Of d)) = true ∧
    f64Int (distance64 (color64Of c) (color64Of d)) = dist c d * 2 ^ 1074

/-- R197, R198: for a cell whose effective colours and palette colours lie in [0, 255], the chosen pair
is one of the 136, no pair costs less, and with the default `PAIR_TIEBREAK` every pair before it in
search order costs more; an empty cell gets (0, 1). -/
def Obligations.PairSearchIsMinimal : Prop :=
  ∀ (p : Params) (colors es : List Color64), es.length ≤ 8 →
    (∀ e ∈ colors ++ es,
      (f64Le (f64OfNat 0) e.r = true ∧ f64Le e.r (f64OfNat 255) = true) ∧
      (f64Le (f64OfNat 0) e.g = true ∧ f64Le e.g (f64OfNat 255) = true) ∧
      (f64Le (f64OfNat 0) e.b = true ∧ f64Le e.b (f64OfNat 255) = true)) →
    let q := choosePair p colors es
    q ∈ allPairs ∧
    (∀ q' ∈ allPairs, f64Le (pairCost colors es q) (pairCost colors es q') = true) ∧
    (es ≠ [] → p.tieTable = [] → ∀ (k j : Nat) (q' : Nat × Nat), allPairs[k]? = some q → j < k →
      allPairs[j]? = some q' → f64Lt (pairCost colors es q) (pairCost colors es q') = true) ∧
    (es = [] → q = (0, 1))

/-- R193, R202 (b), R205: with KLEN = 0 DISP completes, and the pass is the same algorithm over exact
integers: each cell has a pair of least cost among all pairs, and each of its pixels gets the nearer of
the two, the first on a tie. Only live IDX, ERR and IDXV change. -/
def Obligations.DispWithoutKernelIsExact : Prop :=
  ∀ s : State, s.cfg.Lawful → s.fault = false → geomOk s = true → s.palv = true →
    s.klen = 0 → written s.pal 16 → written s.img (3 * canvasW s * canvasH s) →
    ∃ t, exec .disp s = .next t ∧ t = { s with idx := t.idx, err := t.err, idxv := true } ∧
      (∀ j, canvasW s * canvasH s ≤ j → bufGet t.idx j = bufGet s.idx j) ∧
      ∀ cx y, cx < cellCols (canvasW s) → y < canvasH s →
        ∃ a b, a ≤ b ∧ b < 16 ∧
          (∀ i j, i ≤ j → j < 16 → exactCost s cx y (a, b) ≤ exactCost s cx y (i, j)) ∧
          ∀ x ∈ cellXs (canvasW s) cx,
            bufGet t.idx (y * canvasW s + x) = some (BitVec.ofNat 4
              (if dist (pixelAt s x y) (paletteRgb s a) ≤ dist (pixelAt s x y) (paletteRgb s b)
               then a else b))

/-- R191 to R201, R205, R293, R297: with its inputs written and its kernel finite, DISP does what the
pass on coordinates does. It completes, or raises NUMERIC exactly where a value to be stored is not
finite; IDX holds the recorded indices and its other elements are kept; ERR holds the values stored
(that ERR can be seen after DISP, and its elements beyond the live part, are the model's choice, log
13); nothing else changes. With weights of magnitude at most 1 it completes and writes every live
element of IDX (a magnitude of 2^1074 units is 1). -/
def Obligations.DispRunsItsKernel : Prop :=
  ∀ s : State, s.fault = false → geomOk s = true → s.palv = true →
    s.klen.toNat ≤ s.cfg.kmax → written s.pal 16 →
    written s.img (3 * canvasW s * canvasH s) →
    (∀ k < s.klen.toNat, (∀ i < 3, (bufGet s.krn (4 * k + i)).isSome = true) ∧
      f64Finite (kernelEntryAt s.krn k).weight = true) →
    (∃ t, exec .disp s = .next t ∧
      (if (passEnd s).stopped then
        t = { s with
          fault := true, fcause := 7, finfo := encode .disp
          idx := t.idx, err := t.err, idxv := false }
       else t = { s with idx := t.idx, err := t.err, idxv := true }) ∧
      (∀ x y, x < canvasW s → y < canvasH s →
        bufGet t.idx (y * canvasW s + x) = (passEnd s).idx y x) ∧
      (∀ j, canvasW s * canvasH s ≤ j → bufGet t.idx j = bufGet s.idx j) ∧
      (∀ x y ch, x < canvasW s → y < canvasH s → ch < 3 →
        bufGet t.err (3 * (y * canvasW s + x) + ch) = some ((passEnd s).err y x ch)) ∧
      ∀ j, 3 * canvasW s * canvasH s ≤ j → bufGet t.err j = bufGet s.err j) ∧
    (s.cfg.Lawful → (∀ k < s.klen.toNat, f64Mag (kernelEntryAt s.krn k).weight ≤ 2 ^ 1074) →
      ∃ t, exec .disp s = .next t ∧ t = { s with idx := t.idx, err := t.err, idxv := true } ∧
        ∀ j < canvasW s * canvasH s, (bufGet t.idx j).isSome = true)

/-- R207: after DISP completes, every cell holds at most two palette indices, for every image, kernel,
level table and tie-break, and VERIFY then gives VCOUNT 0. -/
def Obligations.ClashInvariant : Prop :=
  ∀ s t : State, s.fault = false → exec .disp s = .next t → t.fault = false →
    (∀ cx y, cx < cellCols (canvasW s) → y < canvasH s →
      ∃ a b : BitVec 4, ∀ x ∈ cellXs (canvasW s) cx,
        bufGet t.idx (y * canvasW s + x) = some a ∨ bufGet t.idx (y * canvasW s + x) = some b) ∧
    ∃ u, exec .verify t = .next u ∧ u.vcount = 0

/-- R217: after a DISP that completed, in any later unfaulted state with the same IDX, CANVAS and
hardware and IDXV still set, VERIFY gives VCOUNT 0 and WVIOL 0 without a fault. -/
def Obligations.VerifyAfterDispFindsNothing : Prop :=
  ∀ s t later : State, s.fault = false → exec .disp s = .next t → t.fault = false →
    later.idx = t.idx → later.canvas = t.canvas → later.cfg = t.cfg → later.idxv = true →
    later.fault = false →
    ∃ u, exec .verify later = .next u ∧ u.vcount = 0 ∧ u.wviol = false ∧ u.fault = false

/-- R208. A cell reached with its source colours in ERR, all of them the colour of palette entry `c`, the
lowest entry of that colour, gets one index of that colour at every pixel, the error there is 0 and ERR
is changed nowhere in value; the index is `c` with the default tie-break or when no other entry has that colour. So in the
state after DISP: of every cell with no kernel, and of the first cell of the canvas with any kernel.
That ERR can be seen is the model's choice (log 13). -/
def Obligations.UniformCellIsStable : Prop :=
  (∀ (d : DispInput) (wk : DispWork) (cell : Nat × Nat) (color : Rgb) (c : Nat),
    color.r < 256 ∧ color.g < 256 ∧ color.b < 256 →
    (∀ k < 16, ∃ e : Rgb, e.r < 256 ∧ e.g < 256 ∧ e.b < 256 ∧
      colorAt d.colors k = color64Of e) →
    (∀ e ∈ d.kernel, f64Finite e.weight = true) →
    (∀ j < 3 * d.width * d.height, f64Finite (errGet wk.err j) = true) →
    c < 16 → colorAt d.colors c = color64Of color →
    (∀ k < c, colorAt d.colors k ≠ color64Of color) →
    (∀ x ∈ cellXs d.width cell.1, effective wk.err d.width x cell.2 = color64Of color ∧
      errGet wk.err (3 * (cell.2 * d.width + x)) = f64OfNat color.r ∧
      errGet wk.err (3 * (cell.2 * d.width + x) + 1) = f64OfNat color.g ∧
      errGet wk.err (3 * (cell.2 * d.width + x) + 2) = f64OfNat color.b) →
    ∃ (wk' : DispWork) (k : Nat), dispCell d cell wk = .ok wk' ∧ k < 16 ∧
      (cellXs d.width cell.1 ≠ [] → colorAt d.colors k = color64Of color) ∧
      (∀ x ∈ cellXs d.width cell.1,
        bufGet wk'.idx (cell.2 * d.width + x) = some (BitVec.ofNat 4 k)) ∧
      (∀ x ∈ cellXs d.width cell.1,
        let e := effective wk'.err d.width x cell.2
        let P := colorAt d.colors k
        f64Sub e.r P.r = 0 ∧ f64Sub e.g P.g = 0 ∧ f64Sub e.b P.b = 0) ∧
      (∀ j, f64Int (errGet wk'.err j) = f64Int (errGet wk.err j)) ∧
      (cellXs d.width cell.1 ≠ [] →
        d.cfg.tieTable = [] ∨ (∀ i < 16, i ≠ c → colorAt d.colors i ≠ color64Of color) → k = c)) ∧
  ∀ (s t : State) (cx y c : Nat), s.cfg.Lawful → s.fault = false →
    s.klen = 0 ∨ (cx = 0 ∧ y = 0) →
    exec .disp s = .next t → t.fault = false →
    cx < cellCols (canvasW s) → y < canvasH s → c < 16 →
    (∀ x ∈ cellXs (canvasW s) cx, pixelAt s x y = paletteRgb s c) →
    (∀ k < c, paletteRgb s k ≠ paletteRgb s c) →
    (s.cfg.tieTable = [] ∨ ∀ k < 16, k ≠ c → paletteRgb s k ≠ paletteRgb s c) →
    ∀ x ∈ cellXs (canvasW s) cx,
      bufGet t.idx (y * canvasW s + x) = some (BitVec.ofNat 4 c)

/-- R201: every live element of ERR is a finite number where DISP ends, completed or stopped by NUMERIC.
That ERR can be seen after DISP is the model's choice (log 13): R47 leaves its contents undefined
then. -/
def Obligations.ErrorBufferStaysFinite : Prop :=
  ∀ s t : State, s.fault = false → exec .disp s = .next t →
    t.fault = false ∨ t.fcause = causeCode .numeric →
    ∀ j < 3 * canvasW s * canvasH s,
      ∃ v, bufGet t.err j = some v ∧ f64Finite v = true

/-! ### Verifier and block encoder -/

/-- R215, R216: VERIFY completes; VCOUNT is the number of cells with more than 2 distinct indices,
WVIOL says whether there is one, VLOG holds the first VCAP of them in scan order in the format of R45,
and nothing else changes. -/
def Obligations.VerifyCompletes : Prop :=
  ∀ s : State, s.cfg.Lawful → s.fault = false → geomOk s = true → s.idxv = true →
    written s.idx (canvasW s * canvasH s) →
    let distinct := fun c : Nat × Nat =>
      ((cellXs (canvasW s) c.1).map fun x => bufGet s.idx (c.2 * canvasW s + x)).toFinset.card
    let bad := (cellList (canvasW s) (canvasH s)).filter fun c => decide (2 < distinct c)
    ∃ t, exec .verify s = .next t ∧
      t = { s with vlog := t.vlog, vcount := t.vcount, wviol := t.wviol } ∧
      t.vcount.toNat = bad.length ∧ t.wviol = decide (0 < bad.length) ∧
      (∀ k c, k < s.cfg.vcap → bad[k]? = some c → ∃ e : BitVec 32, bufGet t.vlog k = some e ∧
        (e.extractLsb' 0 12).toNat = c.1 ∧ (e.extractLsb' 12 16).toNat = c.2 ∧
        (e.extractLsb' 28 4).toNat = distinct c) ∧
      ∀ k, min bad.length s.cfg.vcap ≤ k → bufGet t.vlog k = bufGet s.vlog k

/-- R221 to R223: BLKENC completes; every cell's shape byte and colour bytes are as the rules say, PLNV
is set, and nothing else changes. -/
def Obligations.BlkencCompletes : Prop :=
  ∀ s : State, s.fault = false → geomOk s = true → s.idxv = true →
    written s.idx (canvasW s * canvasH s) →
    ∃ t, exec .blkenc s = .next t ∧
      t = { s with shp := t.shp, cola := t.cola, colb := t.colb, plnv := true } ∧
      (∀ cx y, cx < cellCols (canvasW s) → y < canvasH s →
        let q := (cellXs (canvasW s) cx).map fun x =>
          ((bufGet s.idx (y * canvasW s + x)).getD 0).toNat
        let at_ := y * cellCols (canvasW s) + cx
        ∃ (bg fg : Nat) (shape a b : Byte),
          q[0]? = some bg ∧
          ((∃ i : Nat, q[i]? = some fg ∧ fg ≠ bg ∧ ∀ j : Nat, j < i → q[j]? = some bg) ∨
            ((∀ k ∈ q, k = bg) ∧
              ((s.cfg.uniformFg = .bg ∧ fg = bg) ∨ (s.cfg.uniformFg = .zero ∧ fg = 0)))) ∧
          bufGet t.shp at_ = some shape ∧ bufGet t.cola at_ = some a ∧
          bufGet t.colb at_ = some b ∧
          (∀ i : Nat, i < 8 → shape.getLsbD (7 - i) = decide (q[i]? = some fg)) ∧
          a.getLsbD 7 = (if s.cfg.pastelHigh then fg.testBit 3 else !fg.testBit 3) ∧
          a.getLsbD 6 = (if s.cfg.pastelHigh then bg.testBit 3 else !bg.testBit 3) ∧
          (a.extractLsb' 3 3).toNat = fg % 8 ∧ (a.extractLsb' 0 3).toNat = bg % 8 ∧
          b.toNat = fg * 16 + bg) ∧
      ∀ j, cellCols (canvasW s) * canvasH s ≤ j →
        bufGet t.shp j = bufGet s.shp j ∧ bufGet t.cola j = bufGet s.cola j ∧
        bufGet t.colb j = bufGet s.colb j

/-- R227: a cell with at most two distinct indices is recovered from its shape byte and variant B, and
with active-high flags from its shape byte and variant A, under both values of `UNIFORM_FG`. -/
def Obligations.CellsAreDecodable : Prop :=
  ∀ (p : Params) (q : List Nat) (a b : Nat),
    1 ≤ q.length → q.length ≤ 8 → (∀ k ∈ q, k < 16 ∧ (k = a ∨ k = b)) →
    let shape := shapeByte (cellFg p q) q
    let va := colorByteA p (cellFg p q) (cellBg q)
    let vb := colorByteB (cellFg p q) (cellBg q)
    ∀ i k, q[i]? = some k →
      (if shape.getLsbD (7 - i) then vb.extractLsb' 4 4 else vb.extractLsb' 0 4).toNat = k ∧
      (p.pastelHigh = true →
        (if shape.getLsbD (7 - i)
         then 8 * (va.extractLsb' 7 1).toNat + (va.extractLsb' 3 3).toNat
         else 8 * (va.extractLsb' 6 1).toNat + (va.extractLsb' 0 3).toNat) = k)

/-! ### Transposer, run-length encoder, writers -/

/-- R108, R238: XPOSE completes; TBUF holds the plane column by column, each column closed by zeros up
to `H8` rows, TLEN is `C * H8`, and nothing else changes. -/
def Obligations.XposeCompletes : Prop :=
  ∀ (p : BitVec 2) (s : State), p ≠ 3 → s.cfg.Lawful → s.fault = false → geomOk s = true →
    s.plnv = true → written (planeBuf s p) (cellCols (canvasW s) * canvasH s) →
    cellCols (canvasW s) * paddedRows (canvasH s) ≤ s.cfg.tcap →
    ∃ t, exec (.xpose p) s = .next t ∧ t = { s with tbuf := t.tbuf, tlen := t.tlen } ∧
      t.tlen.toNat = cellCols (canvasW s) * paddedRows (canvasH s) ∧
      (∀ cx y, cx < cellCols (canvasW s) → y < paddedRows (canvasH s) →
        bufGet t.tbuf (cx * paddedRows (canvasH s) + y) =
          if y < canvasH s then bufGet (planeBuf s p) (y * cellCols (canvasW s) + cx)
          else some 0) ∧
      ∀ j, cellCols (canvasW s) * paddedRows (canvasH s) ≤ j →
        bufGet t.tbuf j = bufGet s.tbuf j

/-- R250, R257: RLE completes whenever `2 * TLEN + 2` more bytes fit; the output stands from the start
position on, is at most that long, is a sequence of repeat and literal tokens that stands for the input,
followed by the terminator exactly when `t` asks for it, and decodes to the input; only CBUF and CLEN
change, and CBUF only in the output's place. -/
def Obligations.RleCompletes : Prop :=
  ∀ (t a : Bool) (s : State), s.cfg.Lawful → s.fault = false →
    s.tlen.toNat ≤ s.cfg.tcap → written s.tbuf s.tlen.toNat →
    rleStart a s + (2 * s.tlen.toNat + 2) ≤ s.cfg.ccap →
    ∃ u input tokens, exec (.rle t a) s = .next u ∧
      u = { s with cbuf := u.cbuf, clen := u.clen } ∧
      bufReadRun s.tbuf 0 s.tlen.toNat = some input ∧
      TokenStream tokens input ∧ tokens.length ≤ 2 * s.tlen.toNat ∧
      let out := tokens ++ (if t then [0, 0] else [])
      out = rleOutput s.cfg.rleMaxRun t input ∧ rleDecode out = input ∧
      u.clen.toNat = rleStart a s + out.length ∧
      ∀ j, bufGet u.cbuf j =
        if rleStart a s ≤ j ∧ j < rleStart a s + out.length then out[j - rleStart a s]?
        else bufGet s.cbuf j

/-- R259: decoding what RLE left in CBUF gives TBUF back; appended to a stream without terminator, it
decodes to that stream's bytes and then TBUF; and decoding stops at a terminator. -/
def Obligations.RleRoundTrip : Prop :=
  (∀ (t : Bool) (s u : State), s.cfg.Lawful → s.fault = false →
    exec (.rle t false) s = .next u → u.fault = false →
    ∃ input stream, bufReadRun s.tbuf 0 s.tlen.toNat = some input ∧
      bufReadRun u.cbuf 0 u.clen.toNat = some stream ∧ rleDecode stream = input) ∧
  (∀ (t : Bool) (s u : State) (pre x : List Byte), s.cfg.Lawful → s.fault = false →
    bufReadRun s.cbuf 0 s.clen.toNat = some pre → TokenStream pre x →
    exec (.rle t true) s = .next u → u.fault = false →
    ∃ input stream, bufReadRun s.tbuf 0 s.tlen.toNat = some input ∧
      bufReadRun u.cbuf 0 u.clen.toNat = some stream ∧ rleDecode stream = x ++ input) ∧
  ∀ pre x rest : List Byte, TokenStream pre x → rleDecode (pre ++ [0, 0] ++ rest) = x

/-- R246, R250, R255, R257: RLE's output is the one sequence of tokens that the greedy rule gives: repeat
tokens of 1 to `RLE_MAX_RUN` and literal tokens of 2 to 254 bytes, in input order, whose expansions
concatenate to the input. No two neighbours in a literal token are equal; a token is followed by its own
last byte only after a run cut at `RLE_MAX_RUN`; a count of 1 is a literal segment of one byte, and a
literal segment follows a literal segment only when that one has 254 bytes. No other sequence of tokens
has all this, and the output is at most twice as long as the input. -/
def Obligations.RleOutputShape : Prop :=
  ∀ (maxRun : Nat) (input : List Byte), 2 ≤ maxRun → maxRun ≤ 255 →
    (rleTokens maxRun input).length ≤ 2 * input.length ∧
    ∃ tokens : List RleToken,
      ((∀ k ∈ tokens, tokenInBounds maxRun k ∧ segmentHasNoRun k) ∧
        tokens.IsChain (greedyNext maxRun) ∧ tokens.flatMap tokenExpansion = input) ∧
      rleTokens maxRun input = tokens.flatMap tokenBytes ∧
      ∀ others : List RleToken,
        (∀ k ∈ others, tokenInBounds maxRun k ∧ segmentHasNoRun k) →
        others.IsChain (greedyNext maxRun) → others.flatMap tokenExpansion = input →
        others = tokens

/-- R34, R112 to R115, R262, R263: CONT completes; the file is header, payload, pad byte, palette/mode
block and footer, `S + 10` bytes and of even length, and only FBUF and FLEN change. -/
def Obligations.ContCompletes : Prop :=
  ∀ (s : State) (payload : List Byte) (pal : List (BitVec 12)),
    s.cfg.Lawful → s.fault = false → geomOk s = true → s.palv = true →
    s.clen.toNat ≤ s.cfg.ccap → sizeField s.clen.toNat ≤ 65535 →
    sizeField s.clen.toNat + 10 ≤ s.cfg.fcap →
    bufReadRun s.cbuf 0 s.clen.toNat = some payload → bufReadRun s.pal 0 16 = some pal →
    let L := s.clen.toNat
    let S := L + L % 2 + 42
    let at_ := 8 + L + L % 2
    ∃ t, exec .cont s = .next t ∧ t = { s with fbuf := t.fbuf, flen := t.flen } ∧
      t.flen.toNat = S + 10 ∧ t.flen.toNat % 2 = 0 ∧
      (∀ j v, [0, 0, BitVec.ofNat 8 S, BitVec.ofNat 8 (S / 256), 0, 0,
          BitVec.ofNat 8 (cellCols (canvasW s) - 1), BitVec.ofNat 8 ((canvasH s - 1) / 8)][j]?
            = some v → bufGet t.fbuf j = some v) ∧
      (∀ j v, payload[j]? = some v → bufGet t.fbuf (8 + j) = some v) ∧
      (L % 2 = 1 → bufGet t.fbuf (8 + L) = some 0) ∧
      (∀ j < 4, bufGet t.fbuf (at_ + j) = some (s.mode0.extractLsb' (8 * j) 8)) ∧
      bufGet t.fbuf (at_ + 4) = some s.mode1 ∧
      (∀ k v, pal[k]? = some v →
        bufGet t.fbuf (at_ + 5 + 2 * k + (if s.cfg.palLoFirst then 0 else 1)) =
          some (v.extractLsb' 0 8) ∧
        bufGet t.fbuf (at_ + 5 + 2 * k + (if s.cfg.palLoFirst then 1 else 0)) =
          some ((v.extractLsb' 8 4).setWidth 8)) ∧
      (∀ j v, [0xA5, 0x5A, 0xFF, 0, 0, 0, 0][j]? = some v →
        bufGet t.fbuf (at_ + 37 + j) = some v) ∧
      ∀ j, S + 10 ≤ j → bufGet t.fbuf j = bufGet s.fbuf j

/-- R116, R266: RAWF completes; the file is the constant header, the plane as it stands and the footer,
`C * H + 10` bytes, and only FBUF and FLEN change. -/
def Obligations.RawfCompletes : Prop :=
  ∀ (p : BitVec 2) (s : State), p ≠ 3 → s.cfg.Lawful → s.fault = false → geomOk s = true →
    s.plnv = true → written (planeBuf s p) (cellCols (canvasW s) * canvasH s) →
    cellCols (canvasW s) * canvasH s + 10 ≤ s.cfg.fcap →
    let n := cellCols (canvasW s) * canvasH s
    ∃ t, exec (.rawf p) s = .next t ∧ t = { s with fbuf := t.fbuf, flen := t.flen } ∧
      t.flen.toNat = n + 10 ∧
      (∀ j v, [0x00, 0x1F, 0x40, 0x00, 0x00][j]? = some v → bufGet t.fbuf j = some v) ∧
      (∀ j < n, bufGet t.fbuf (5 + j) = bufGet (planeBuf s p) j) ∧
      (∀ j v, [0xFF, 0x00, 0x00, 0x00, 0x00][j]? = some v →
        bufGet t.fbuf (5 + n + j) = some v) ∧
      ∀ j, n + 10 ≤ j → bufGet t.fbuf j = bufGet s.fbuf j
end

