-- ==== Sys2Proof/Laws/Buffers.lean ====
section
/-! SUPPORT. The buffer operations: a read after a store, the canonical form kept by every store, and
what a run of reads answers (spec/10_state.md R36, R50; spec/20_memory.md R66). -/

namespace Sys2Proof.Machine

variable {w : Nat}

/-! ### One element of a list of cells -/

@[simp] theorem bufGet_nil (i : Nat) : bufGet ([] : Buf w) i = none := rfl

theorem bufGet_cons (c : Nat × BitVec w) (b : Buf w) (i : Nat) :
    bufGet (c :: b) i = if c.1 = i then some c.2 else bufGet b i := by
  unfold bufGet
  by_cases h : c.1 = i <;> simp [h]

theorem bufGet_append (a b : Buf w) (i : Nat) :
    bufGet (a ++ b) i = (bufGet a i).or (bufGet b i) := by
  unfold bufGet
  cases h : a.find? (fun c => c.1 == i) <;> simp [List.find?_append, h]

/-- Filtering cells by a test on the index keeps the elements the test accepts and drops the rest. -/
theorem bufGet_filter (b : Buf w) (keep : Nat → Bool) (i : Nat) :
    bufGet (b.filter fun c => keep c.1) i = if keep i then bufGet b i else none := by
  induction b with
  | nil => simp
  | cons c b ih =>
    by_cases hc : keep c.1
    · rw [List.filter_cons_of_pos (by simpa using hc), bufGet_cons, bufGet_cons, ih]
      by_cases hi : c.1 = i
      · subst hi; simp [hc]
      · simp [hi]
    · rw [List.filter_cons_of_neg (by simpa using hc), bufGet_cons, ih]
      by_cases hi : c.1 = i
      · subst hi; simp [hc]
      · simp [hi]

theorem bufGet_runCells (vs : List (BitVec w)) (o i : Nat) :
    bufGet (runCells o vs) i = if o ≤ i then vs[i - o]? else none := by
  induction vs generalizing o with
  | nil => simp [runCells]
  | cons v vs ih =>
    rw [runCells, bufGet_cons, ih]
    by_cases h : o = i
    · subst h; simp
    · by_cases h' : o ≤ i
      · have h1 : o + 1 ≤ i := by omega
        have h2 : i - o = (i - (o + 1)) + 1 := by omega
        simp [h, h', h1, h2]
      · have h1 : ¬ o + 1 ≤ i := by omega
        simp [h, h', h1]

/-- A read after a store of a run: the stored values inside the run, the old elements outside. -/
theorem bufGet_bufWriteRun (b : Buf w) (o : Nat) (vs : List (BitVec w)) (i : Nat) :
    bufGet (bufWriteRun b o vs) i =
      if o ≤ i ∧ i < o + vs.length then vs[i - o]? else bufGet b i := by
  unfold bufWriteRun
  rw [bufGet_append, bufGet_append, bufGet_runCells,
    bufGet_filter b (fun n => decide (n < o)) i,
    bufGet_filter b (fun n => decide (o + vs.length ≤ n)) i]
  by_cases h1 : i < o
  · have h2 : ¬ o ≤ i := by omega
    have h3 : ¬ o + vs.length ≤ i := by omega
    simp [h1, h2, h3]
  · by_cases h2 : i < o + vs.length
    · have h3 : o ≤ i := by omega
      have h4 : i - o < vs.length := by omega
      simp [h1, h2, h3, h4]
    · have h3 : o ≤ i := by omega
      have h4 : o + vs.length ≤ i := by omega
      have h5 : vs.length ≤ i - o := by omega
      simp [h1, h2, h3, h4, List.getElem?_eq_none h5]

@[simp] theorem bufGet_bufSet (b : Buf w) (i : Nat) (v : BitVec w) (j : Nat) :
    bufGet (bufSet b i v) j = if j = i then some v else bufGet b j := by
  unfold bufSet
  rw [bufGet_bufWriteRun]
  by_cases h : j = i
  · subst h; simp
  · have : ¬ (i ≤ j ∧ j < i + [v].length) := by simp; omega
    rw [if_neg this, if_neg h]

/-! ### The canonical form -/

theorem mem_runCells {vs : List (BitVec w)} {o : Nat} {c : Nat × BitVec w}
    (h : c ∈ runCells o vs) : o ≤ c.1 ∧ c.1 < o + vs.length := by
  induction vs generalizing o with
  | nil => simp [runCells] at h
  | cons v vs ih =>
    rcases List.mem_cons.1 h with rfl | h
    · simp
    · have := ih h
      simp only [List.length_cons]
      omega

theorem runCells_sorted (vs : List (BitVec w)) (o : Nat) : bufSorted (runCells o vs) := by
  induction vs generalizing o with
  | nil => exact List.Pairwise.nil
  | cons v vs ih =>
    refine List.Pairwise.cons (fun c hc => ?_) (ih (o + 1))
    have := mem_runCells hc
    omega

/-- Every store keeps the canonical form. -/
theorem bufWriteRun_sorted {b : Buf w} (h : bufSorted b) (o : Nat) (vs : List (BitVec w)) :
    bufSorted (bufWriteRun b o vs) := by
  unfold bufWriteRun bufSorted
  rw [List.pairwise_append, List.pairwise_append]
  refine ⟨⟨h.filter _, runCells_sorted vs o, fun c hc d hd => ?_⟩, h.filter _, fun c hc d hd => ?_⟩
  · have h1 := (List.mem_filter.1 hc).2
    have h2 := mem_runCells hd
    simp only [decide_eq_true_eq] at h1
    omega
  · have h2 := (List.mem_filter.1 hd).2
    simp only [decide_eq_true_eq] at h2
    rcases List.mem_append.1 hc with hc | hc
    · have h1 := (List.mem_filter.1 hc).2
      simp only [decide_eq_true_eq] at h1
      omega
    · have h1 := mem_runCells hc
      omega

/-- A store within the capacity keeps the canonical form within the capacity. -/
theorem bufWriteRun_wf {b : Buf w} {cap : Nat} (h : bufWf b cap) {o : Nat} {vs : List (BitVec w)}
    (hc : o + vs.length ≤ cap) : bufWf (bufWriteRun b o vs) cap := by
  refine ⟨bufWriteRun_sorted h.1 o vs, fun c hm => ?_⟩
  unfold bufWriteRun at hm
  rcases List.mem_append.1 hm with hm | hm
  · rcases List.mem_append.1 hm with hm | hm
    · exact h.2 c (List.mem_filter.1 hm).1
    · have := mem_runCells hm
      omega
  · exact h.2 c (List.mem_filter.1 hm).1

theorem bufSet_sorted {b : Buf w} (h : bufSorted b) (i : Nat) (v : BitVec w) :
    bufSorted (bufSet b i v) := bufWriteRun_sorted h i [v]

theorem bufSet_wf {b : Buf w} {cap : Nat} (h : bufWf b cap) {i : Nat} (hi : i < cap)
    (v : BitVec w) : bufWf (bufSet b i v) cap := bufWriteRun_wf h (by simpa using hi)

theorem bufWf_nil (cap : Nat) : bufWf ([] : Buf w) cap := ⟨List.Pairwise.nil, by simp⟩

/-- Two canonical buffers with the same elements are the same list. -/
theorem bufSorted_ext {a b : Buf w} (ha : bufSorted a) (hb : bufSorted b)
    (h : ∀ i, bufGet a i = bufGet b i) : a = b := by
  induction a generalizing b with
  | nil =>
    cases b with
    | nil => rfl
    | cons d b => have := h d.1; simp [bufGet_cons] at this
  | cons c a ih =>
    cases b with
    | nil => have := h c.1; simp [bufGet_cons] at this
    | cons d b =>
      have lowA : ∀ i, i ≤ c.1 → bufGet a i = none := fun i hi => by
        unfold bufGet
        rw [Option.map_eq_none_iff, List.find?_eq_none]
        intro e he
        have := (List.pairwise_cons.1 ha).1 e he
        simp only [beq_iff_eq]
        omega
      have lowB : ∀ i, i ≤ d.1 → bufGet b i = none := fun i hi => by
        unfold bufGet
        rw [Option.map_eq_none_iff, List.find?_eq_none]
        intro e he
        have := (List.pairwise_cons.1 hb).1 e he
        simp only [beq_iff_eq]
        omega
      have key : c.1 = d.1 := by
        by_contra hne
        rcases Nat.lt_or_gt_of_ne hne with hlt | hlt
        · have := h c.1
          rw [bufGet_cons, bufGet_cons, if_pos rfl, if_neg (by omega), lowB _ (by omega)] at this
          cases this
        · have := h d.1
          rw [bufGet_cons, bufGet_cons, if_neg (by omega), if_pos rfl, lowA _ (by omega)] at this
          cases this
      have hv : c = d := by
        have := h c.1
        rw [bufGet_cons, bufGet_cons, if_pos rfl, if_pos key.symm] at this
        exact Prod.ext key (Option.some.inj this)
      subst hv
      congr 1
      refine ih (List.pairwise_cons.1 ha).2 (List.pairwise_cons.1 hb).2 fun i => ?_
      by_cases hi : c.1 = i
      · subst hi; rw [lowA _ le_rfl, lowB _ le_rfl]
      · have := h i
        rwa [bufGet_cons, bufGet_cons, if_neg hi, if_neg hi] at this

/-! ### Reading a run -/

/-- A run of reads answers exactly when every element of the run holds a value, and then gives those
values in order. -/
theorem bufReadRun_eq_some {b : Buf w} {o n : Nat} {l : List (BitVec w)} :
    bufReadRun b o n = some l ↔ l.length = n ∧ ∀ k < n, bufGet b (o + k) = l[k]? := by
  induction n generalizing o l with
  | zero =>
    simp only [bufReadRun, Option.some.injEq]
    exact ⟨fun h => by subst h; simp, fun h => (List.length_eq_zero_iff.1 h.1).symm⟩
  | succ n ih =>
    rw [bufReadRun]
    constructor
    · intro h
      split at h
      · cases h
      · next v hv =>
        obtain ⟨l', hl', rfl⟩ := Option.map_eq_some_iff.1 h
        obtain ⟨hlen, hget⟩ := ih.1 hl'
        refine ⟨by simp [hlen], fun k hk => ?_⟩
        cases k with
        | zero => simpa using hv
        | succ k =>
          have := hget k (by omega)
          rw [List.getElem?_cons_succ, ← this]
          congr 1
          omega
    · rintro ⟨hlen, hget⟩
      cases l with
      | nil => simp at hlen
      | cons v l =>
        have h0 := hget 0 (by omega)
        simp only [Nat.add_zero, List.getElem?_cons_zero] at h0
        rw [h0]
        have : bufReadRun b (o + 1) n = some l := ih.2 ⟨by simpa using hlen, fun k hk => by
          have := hget (k + 1) (by omega)
          rw [List.getElem?_cons_succ] at this
          rw [← this]
          congr 1
          omega⟩
        simp [this]

theorem bufReadRun_length {b : Buf w} {o n : Nat} {l : List (BitVec w)}
    (h : bufReadRun b o n = some l) : l.length = n := (bufReadRun_eq_some.1 h).1

/-- A run of reads has no answer exactly when some element of the run holds no value. -/
theorem bufReadRun_eq_none {b : Buf w} {o n : Nat} :
    bufReadRun b o n = none ↔ ∃ k < n, bufGet b (o + k) = none := by
  induction n generalizing o with
  | zero => simp [bufReadRun]
  | succ n ih =>
    rw [bufReadRun]
    cases hv : bufGet b o with
    | none => simp only [true_iff]; exact ⟨0, by omega, by simpa using hv⟩
    | some v =>
      simp only [Option.map_eq_none_iff, ih]
      constructor
      · rintro ⟨k, hk, h⟩
        exact ⟨k + 1, by omega, by rw [← h]; congr 1; omega⟩
      · rintro ⟨k, hk, h⟩
        cases k with
        | zero => rw [Nat.add_zero, hv] at h; cases h
        | succ k => exact ⟨k, by omega, by rw [← h]; congr 1; omega⟩

/-- Reading back a run just stored. -/
theorem bufReadRun_bufWriteRun (b : Buf w) (o : Nat) (vs : List (BitVec w)) :
    bufReadRun (bufWriteRun b o vs) o vs.length = some vs := by
  refine bufReadRun_eq_some.2 ⟨rfl, fun k hk => ?_⟩
  rw [bufGet_bufWriteRun, if_pos (by omega), Nat.add_sub_cancel_left]

end Sys2Proof.Machine
end

