-- ==== Sys2Proof/Laws/State.lean ====
section
/-! SUPPORT. One lemma per field per named update of the state, true by rfl, so that no later proof
unfolds a record update. -/

namespace Sys2Proof.Machine

/-! ### Fault entry -/

@[simp] theorem raiseFault_fault (c : Cause) (w : Word) (s : State) :
    (raiseFault c w s).fault = true := rfl
@[simp] theorem raiseFault_wfill (c : Cause) (w : Word) (s : State) :
    (raiseFault c w s).wfill = s.wfill := rfl
@[simp] theorem raiseFault_wviol (c : Cause) (w : Word) (s : State) :
    (raiseFault c w s).wviol = s.wviol := rfl
@[simp] theorem raiseFault_palv (c : Cause) (w : Word) (s : State) :
    (raiseFault c w s).palv = s.palv := rfl
@[simp] theorem raiseFault_idxv (c : Cause) (w : Word) (s : State) :
    (raiseFault c w s).idxv = s.idxv := rfl
@[simp] theorem raiseFault_plnv (c : Cause) (w : Word) (s : State) :
    (raiseFault c w s).plnv = s.plnv := rfl
@[simp] theorem raiseFault_fcause (c : Cause) (w : Word) (s : State) :
    (raiseFault c w s).fcause = causeCode c := rfl
@[simp] theorem raiseFault_finfo (c : Cause) (w : Word) (s : State) :
    (raiseFault c w s).finfo = w := rfl
@[simp] theorem raiseFault_canvas (c : Cause) (w : Word) (s : State) :
    (raiseFault c w s).canvas = s.canvas := rfl
@[simp] theorem raiseFault_klen (c : Cause) (w : Word) (s : State) :
    (raiseFault c w s).klen = s.klen := rfl
@[simp] theorem raiseFault_res (c : Cause) (w : Word) (s : State) :
    (raiseFault c w s).res = s.res := rfl
@[simp] theorem raiseFault_ncube (c : Cause) (w : Word) (s : State) :
    (raiseFault c w s).ncube = s.ncube := rfl
@[simp] theorem raiseFault_vcount (c : Cause) (w : Word) (s : State) :
    (raiseFault c w s).vcount = s.vcount := rfl
@[simp] theorem raiseFault_tlen (c : Cause) (w : Word) (s : State) :
    (raiseFault c w s).tlen = s.tlen := rfl
@[simp] theorem raiseFault_clen (c : Cause) (w : Word) (s : State) :
    (raiseFault c w s).clen = s.clen := rfl
@[simp] theorem raiseFault_flen (c : Cause) (w : Word) (s : State) :
    (raiseFault c w s).flen = s.flen := rfl
@[simp] theorem raiseFault_mode0 (c : Cause) (w : Word) (s : State) :
    (raiseFault c w s).mode0 = s.mode0 := rfl
@[simp] theorem raiseFault_mode1 (c : Cause) (w : Word) (s : State) :
    (raiseFault c w s).mode1 = s.mode1 := rfl
@[simp] theorem raiseFault_bufsel (c : Cause) (w : Word) (s : State) :
    (raiseFault c w s).bufsel = s.bufsel := rfl
@[simp] theorem raiseFault_bufaddr (c : Cause) (w : Word) (s : State) :
    (raiseFault c w s).bufaddr = s.bufaddr := rfl
@[simp] theorem raiseFault_img (c : Cause) (w : Word) (s : State) :
    (raiseFault c w s).img = s.img := rfl
@[simp] theorem raiseFault_ext (c : Cause) (w : Word) (s : State) :
    (raiseFault c w s).ext = s.ext := rfl
@[simp] theorem raiseFault_pal (c : Cause) (w : Word) (s : State) :
    (raiseFault c w s).pal = s.pal := rfl
@[simp] theorem raiseFault_used (c : Cause) (w : Word) (s : State) :
    (raiseFault c w s).used = s.used := rfl
@[simp] theorem raiseFault_krn (c : Cause) (w : Word) (s : State) :
    (raiseFault c w s).krn = s.krn := rfl
@[simp] theorem raiseFault_idx (c : Cause) (w : Word) (s : State) :
    (raiseFault c w s).idx = s.idx := rfl
@[simp] theorem raiseFault_shp (c : Cause) (w : Word) (s : State) :
    (raiseFault c w s).shp = s.shp := rfl
@[simp] theorem raiseFault_cola (c : Cause) (w : Word) (s : State) :
    (raiseFault c w s).cola = s.cola := rfl
@[simp] theorem raiseFault_colb (c : Cause) (w : Word) (s : State) :
    (raiseFault c w s).colb = s.colb := rfl
@[simp] theorem raiseFault_tbuf (c : Cause) (w : Word) (s : State) :
    (raiseFault c w s).tbuf = s.tbuf := rfl
@[simp] theorem raiseFault_cbuf (c : Cause) (w : Word) (s : State) :
    (raiseFault c w s).cbuf = s.cbuf := rfl
@[simp] theorem raiseFault_fbuf (c : Cause) (w : Word) (s : State) :
    (raiseFault c w s).fbuf = s.fbuf := rfl
@[simp] theorem raiseFault_vlog (c : Cause) (w : Word) (s : State) :
    (raiseFault c w s).vlog = s.vlog := rfl
@[simp] theorem raiseFault_err (c : Cause) (w : Word) (s : State) :
    (raiseFault c w s).err = s.err := rfl
@[simp] theorem raiseFault_cfg (c : Cause) (w : Word) (s : State) :
    (raiseFault c w s).cfg = s.cfg := rfl
@[simp] theorem raiseFault_host (c : Cause) (w : Word) (s : State) :
    (raiseFault c w s).host = s.host := rfl
@[simp] theorem raiseFault_readData (c : Cause) (w : Word) (s : State) :
    (raiseFault c w s).readData = s.readData := rfl
@[simp] theorem raiseFault_draws (c : Cause) (w : Word) (s : State) :
    (raiseFault c w s).draws = s.draws := rfl

/-! ### Reset -/

@[simp] theorem resetBlock_fault (s : State) :
    (resetBlock s).fault = false := rfl
@[simp] theorem resetBlock_wfill (s : State) :
    (resetBlock s).wfill = false := rfl
@[simp] theorem resetBlock_wviol (s : State) :
    (resetBlock s).wviol = false := rfl
@[simp] theorem resetBlock_palv (s : State) :
    (resetBlock s).palv = false := rfl
@[simp] theorem resetBlock_idxv (s : State) :
    (resetBlock s).idxv = false := rfl
@[simp] theorem resetBlock_plnv (s : State) :
    (resetBlock s).plnv = false := rfl
@[simp] theorem resetBlock_fcause (s : State) :
    (resetBlock s).fcause = 0 := rfl
@[simp] theorem resetBlock_finfo (s : State) :
    (resetBlock s).finfo = 0 := rfl
@[simp] theorem resetBlock_canvas (s : State) :
    (resetBlock s).canvas = 0 := rfl
@[simp] theorem resetBlock_klen (s : State) :
    (resetBlock s).klen = 0 := rfl
@[simp] theorem resetBlock_res (s : State) :
    (resetBlock s).res = 0 := rfl
@[simp] theorem resetBlock_ncube (s : State) :
    (resetBlock s).ncube = 0 := rfl
@[simp] theorem resetBlock_vcount (s : State) :
    (resetBlock s).vcount = 0 := rfl
@[simp] theorem resetBlock_tlen (s : State) :
    (resetBlock s).tlen = 0 := rfl
@[simp] theorem resetBlock_clen (s : State) :
    (resetBlock s).clen = 0 := rfl
@[simp] theorem resetBlock_flen (s : State) :
    (resetBlock s).flen = 0 := rfl
@[simp] theorem resetBlock_mode0 (s : State) :
    (resetBlock s).mode0 = 0 := rfl
@[simp] theorem resetBlock_mode1 (s : State) :
    (resetBlock s).mode1 = 0 := rfl
@[simp] theorem resetBlock_bufsel (s : State) :
    (resetBlock s).bufsel = 0 := rfl
@[simp] theorem resetBlock_bufaddr (s : State) :
    (resetBlock s).bufaddr = 0 := rfl
@[simp] theorem resetBlock_img (s : State) :
    (resetBlock s).img = [] := rfl
@[simp] theorem resetBlock_ext (s : State) :
    (resetBlock s).ext = [] := rfl
@[simp] theorem resetBlock_pal (s : State) :
    (resetBlock s).pal = [] := rfl
@[simp] theorem resetBlock_used (s : State) :
    (resetBlock s).used = [] := rfl
@[simp] theorem resetBlock_krn (s : State) :
    (resetBlock s).krn = [] := rfl
@[simp] theorem resetBlock_idx (s : State) :
    (resetBlock s).idx = [] := rfl
@[simp] theorem resetBlock_shp (s : State) :
    (resetBlock s).shp = [] := rfl
@[simp] theorem resetBlock_cola (s : State) :
    (resetBlock s).cola = [] := rfl
@[simp] theorem resetBlock_colb (s : State) :
    (resetBlock s).colb = [] := rfl
@[simp] theorem resetBlock_tbuf (s : State) :
    (resetBlock s).tbuf = [] := rfl
@[simp] theorem resetBlock_cbuf (s : State) :
    (resetBlock s).cbuf = [] := rfl
@[simp] theorem resetBlock_fbuf (s : State) :
    (resetBlock s).fbuf = [] := rfl
@[simp] theorem resetBlock_vlog (s : State) :
    (resetBlock s).vlog = [] := rfl
@[simp] theorem resetBlock_err (s : State) :
    (resetBlock s).err = [] := rfl
@[simp] theorem resetBlock_cfg (s : State) :
    (resetBlock s).cfg = s.cfg := rfl
@[simp] theorem resetBlock_host (s : State) :
    (resetBlock s).host = s.host := rfl
@[simp] theorem resetBlock_readData (s : State) :
    (resetBlock s).readData = s.readData := rfl
@[simp] theorem resetBlock_draws (s : State) :
    (resetBlock s).draws = s.draws := rfl

/-! ### A host write of VALID -/

@[simp] theorem writeValid_fault (v : Word) (s : State) :
    (writeValid v s).fault = s.fault := rfl
@[simp] theorem writeValid_wfill (v : Word) (s : State) :
    (writeValid v s).wfill = s.wfill := rfl
@[simp] theorem writeValid_wviol (v : Word) (s : State) :
    (writeValid v s).wviol = s.wviol := rfl
@[simp] theorem writeValid_palv (v : Word) (s : State) :
    (writeValid v s).palv = v.getLsbD 0 := rfl
@[simp] theorem writeValid_idxv (v : Word) (s : State) :
    (writeValid v s).idxv = v.getLsbD 1 := rfl
@[simp] theorem writeValid_plnv (v : Word) (s : State) :
    (writeValid v s).plnv = v.getLsbD 2 := rfl
@[simp] theorem writeValid_fcause (v : Word) (s : State) :
    (writeValid v s).fcause = s.fcause := rfl
@[simp] theorem writeValid_finfo (v : Word) (s : State) :
    (writeValid v s).finfo = s.finfo := rfl
@[simp] theorem writeValid_canvas (v : Word) (s : State) :
    (writeValid v s).canvas = s.canvas := rfl
@[simp] theorem writeValid_klen (v : Word) (s : State) :
    (writeValid v s).klen = s.klen := rfl
@[simp] theorem writeValid_res (v : Word) (s : State) :
    (writeValid v s).res = s.res := rfl
@[simp] theorem writeValid_ncube (v : Word) (s : State) :
    (writeValid v s).ncube = s.ncube := rfl
@[simp] theorem writeValid_vcount (v : Word) (s : State) :
    (writeValid v s).vcount = s.vcount := rfl
@[simp] theorem writeValid_tlen (v : Word) (s : State) :
    (writeValid v s).tlen = s.tlen := rfl
@[simp] theorem writeValid_clen (v : Word) (s : State) :
    (writeValid v s).clen = s.clen := rfl
@[simp] theorem writeValid_flen (v : Word) (s : State) :
    (writeValid v s).flen = s.flen := rfl
@[simp] theorem writeValid_mode0 (v : Word) (s : State) :
    (writeValid v s).mode0 = s.mode0 := rfl
@[simp] theorem writeValid_mode1 (v : Word) (s : State) :
    (writeValid v s).mode1 = s.mode1 := rfl
@[simp] theorem writeValid_bufsel (v : Word) (s : State) :
    (writeValid v s).bufsel = s.bufsel := rfl
@[simp] theorem writeValid_bufaddr (v : Word) (s : State) :
    (writeValid v s).bufaddr = s.bufaddr := rfl
@[simp] theorem writeValid_img (v : Word) (s : State) :
    (writeValid v s).img = s.img := rfl
@[simp] theorem writeValid_ext (v : Word) (s : State) :
    (writeValid v s).ext = s.ext := rfl
@[simp] theorem writeValid_pal (v : Word) (s : State) :
    (writeValid v s).pal = s.pal := rfl
@[simp] theorem writeValid_used (v : Word) (s : State) :
    (writeValid v s).used = s.used := rfl
@[simp] theorem writeValid_krn (v : Word) (s : State) :
    (writeValid v s).krn = s.krn := rfl
@[simp] theorem writeValid_idx (v : Word) (s : State) :
    (writeValid v s).idx = s.idx := rfl
@[simp] theorem writeValid_shp (v : Word) (s : State) :
    (writeValid v s).shp = s.shp := rfl
@[simp] theorem writeValid_cola (v : Word) (s : State) :
    (writeValid v s).cola = s.cola := rfl
@[simp] theorem writeValid_colb (v : Word) (s : State) :
    (writeValid v s).colb = s.colb := rfl
@[simp] theorem writeValid_tbuf (v : Word) (s : State) :
    (writeValid v s).tbuf = s.tbuf := rfl
@[simp] theorem writeValid_cbuf (v : Word) (s : State) :
    (writeValid v s).cbuf = s.cbuf := rfl
@[simp] theorem writeValid_fbuf (v : Word) (s : State) :
    (writeValid v s).fbuf = s.fbuf := rfl
@[simp] theorem writeValid_vlog (v : Word) (s : State) :
    (writeValid v s).vlog = s.vlog := rfl
@[simp] theorem writeValid_err (v : Word) (s : State) :
    (writeValid v s).err = s.err := rfl
@[simp] theorem writeValid_cfg (v : Word) (s : State) :
    (writeValid v s).cfg = s.cfg := rfl
@[simp] theorem writeValid_host (v : Word) (s : State) :
    (writeValid v s).host = s.host := rfl
@[simp] theorem writeValid_readData (v : Word) (s : State) :
    (writeValid v s).readData = s.readData := rfl
@[simp] theorem writeValid_draws (v : Word) (s : State) :
    (writeValid v s).draws = s.draws := rfl

/-! ### A host write of CANVAS -/

@[simp] theorem writeCanvas_fault (v : Word) (s : State) :
    (writeCanvas v s).fault = s.fault := rfl
@[simp] theorem writeCanvas_wfill (v : Word) (s : State) :
    (writeCanvas v s).wfill = s.wfill := rfl
@[simp] theorem writeCanvas_wviol (v : Word) (s : State) :
    (writeCanvas v s).wviol = s.wviol := rfl
@[simp] theorem writeCanvas_palv (v : Word) (s : State) :
    (writeCanvas v s).palv = s.palv := rfl
@[simp] theorem writeCanvas_idxv (v : Word) (s : State) :
    (writeCanvas v s).idxv = false := rfl
@[simp] theorem writeCanvas_plnv (v : Word) (s : State) :
    (writeCanvas v s).plnv = false := rfl
@[simp] theorem writeCanvas_fcause (v : Word) (s : State) :
    (writeCanvas v s).fcause = s.fcause := rfl
@[simp] theorem writeCanvas_finfo (v : Word) (s : State) :
    (writeCanvas v s).finfo = s.finfo := rfl
@[simp] theorem writeCanvas_canvas (v : Word) (s : State) :
    (writeCanvas v s).canvas = v := rfl
@[simp] theorem writeCanvas_klen (v : Word) (s : State) :
    (writeCanvas v s).klen = s.klen := rfl
@[simp] theorem writeCanvas_res (v : Word) (s : State) :
    (writeCanvas v s).res = s.res := rfl
@[simp] theorem writeCanvas_ncube (v : Word) (s : State) :
    (writeCanvas v s).ncube = s.ncube := rfl
@[simp] theorem writeCanvas_vcount (v : Word) (s : State) :
    (writeCanvas v s).vcount = s.vcount := rfl
@[simp] theorem writeCanvas_tlen (v : Word) (s : State) :
    (writeCanvas v s).tlen = s.tlen := rfl
@[simp] theorem writeCanvas_clen (v : Word) (s : State) :
    (writeCanvas v s).clen = s.clen := rfl
@[simp] theorem writeCanvas_flen (v : Word) (s : State) :
    (writeCanvas v s).flen = s.flen := rfl
@[simp] theorem writeCanvas_mode0 (v : Word) (s : State) :
    (writeCanvas v s).mode0 = s.mode0 := rfl
@[simp] theorem writeCanvas_mode1 (v : Word) (s : State) :
    (writeCanvas v s).mode1 = s.mode1 := rfl
@[simp] theorem writeCanvas_bufsel (v : Word) (s : State) :
    (writeCanvas v s).bufsel = s.bufsel := rfl
@[simp] theorem writeCanvas_bufaddr (v : Word) (s : State) :
    (writeCanvas v s).bufaddr = s.bufaddr := rfl
@[simp] theorem writeCanvas_img (v : Word) (s : State) :
    (writeCanvas v s).img = s.img := rfl
@[simp] theorem writeCanvas_ext (v : Word) (s : State) :
    (writeCanvas v s).ext = s.ext := rfl
@[simp] theorem writeCanvas_pal (v : Word) (s : State) :
    (writeCanvas v s).pal = s.pal := rfl
@[simp] theorem writeCanvas_used (v : Word) (s : State) :
    (writeCanvas v s).used = s.used := rfl
@[simp] theorem writeCanvas_krn (v : Word) (s : State) :
    (writeCanvas v s).krn = s.krn := rfl
@[simp] theorem writeCanvas_idx (v : Word) (s : State) :
    (writeCanvas v s).idx = s.idx := rfl
@[simp] theorem writeCanvas_shp (v : Word) (s : State) :
    (writeCanvas v s).shp = s.shp := rfl
@[simp] theorem writeCanvas_cola (v : Word) (s : State) :
    (writeCanvas v s).cola = s.cola := rfl
@[simp] theorem writeCanvas_colb (v : Word) (s : State) :
    (writeCanvas v s).colb = s.colb := rfl
@[simp] theorem writeCanvas_tbuf (v : Word) (s : State) :
    (writeCanvas v s).tbuf = s.tbuf := rfl
@[simp] theorem writeCanvas_cbuf (v : Word) (s : State) :
    (writeCanvas v s).cbuf = s.cbuf := rfl
@[simp] theorem writeCanvas_fbuf (v : Word) (s : State) :
    (writeCanvas v s).fbuf = s.fbuf := rfl
@[simp] theorem writeCanvas_vlog (v : Word) (s : State) :
    (writeCanvas v s).vlog = s.vlog := rfl
@[simp] theorem writeCanvas_err (v : Word) (s : State) :
    (writeCanvas v s).err = s.err := rfl
@[simp] theorem writeCanvas_cfg (v : Word) (s : State) :
    (writeCanvas v s).cfg = s.cfg := rfl
@[simp] theorem writeCanvas_host (v : Word) (s : State) :
    (writeCanvas v s).host = s.host := rfl
@[simp] theorem writeCanvas_readData (v : Word) (s : State) :
    (writeCanvas v s).readData = s.readData := rfl
@[simp] theorem writeCanvas_draws (v : Word) (s : State) :
    (writeCanvas v s).draws = s.draws := rfl

/-! ### A window access -/

@[simp] theorem advance_fault (s : State) :
    (advance s).fault = s.fault := rfl
@[simp] theorem advance_wfill (s : State) :
    (advance s).wfill = s.wfill := rfl
@[simp] theorem advance_wviol (s : State) :
    (advance s).wviol = s.wviol := rfl
@[simp] theorem advance_palv (s : State) :
    (advance s).palv = s.palv := rfl
@[simp] theorem advance_idxv (s : State) :
    (advance s).idxv = s.idxv := rfl
@[simp] theorem advance_plnv (s : State) :
    (advance s).plnv = s.plnv := rfl
@[simp] theorem advance_fcause (s : State) :
    (advance s).fcause = s.fcause := rfl
@[simp] theorem advance_finfo (s : State) :
    (advance s).finfo = s.finfo := rfl
@[simp] theorem advance_canvas (s : State) :
    (advance s).canvas = s.canvas := rfl
@[simp] theorem advance_klen (s : State) :
    (advance s).klen = s.klen := rfl
@[simp] theorem advance_res (s : State) :
    (advance s).res = s.res := rfl
@[simp] theorem advance_ncube (s : State) :
    (advance s).ncube = s.ncube := rfl
@[simp] theorem advance_vcount (s : State) :
    (advance s).vcount = s.vcount := rfl
@[simp] theorem advance_tlen (s : State) :
    (advance s).tlen = s.tlen := rfl
@[simp] theorem advance_clen (s : State) :
    (advance s).clen = s.clen := rfl
@[simp] theorem advance_flen (s : State) :
    (advance s).flen = s.flen := rfl
@[simp] theorem advance_mode0 (s : State) :
    (advance s).mode0 = s.mode0 := rfl
@[simp] theorem advance_mode1 (s : State) :
    (advance s).mode1 = s.mode1 := rfl
@[simp] theorem advance_bufsel (s : State) :
    (advance s).bufsel = s.bufsel := rfl
@[simp] theorem advance_bufaddr (s : State) :
    (advance s).bufaddr = s.bufaddr + 1 := rfl
@[simp] theorem advance_img (s : State) :
    (advance s).img = s.img := rfl
@[simp] theorem advance_ext (s : State) :
    (advance s).ext = s.ext := rfl
@[simp] theorem advance_pal (s : State) :
    (advance s).pal = s.pal := rfl
@[simp] theorem advance_used (s : State) :
    (advance s).used = s.used := rfl
@[simp] theorem advance_krn (s : State) :
    (advance s).krn = s.krn := rfl
@[simp] theorem advance_idx (s : State) :
    (advance s).idx = s.idx := rfl
@[simp] theorem advance_shp (s : State) :
    (advance s).shp = s.shp := rfl
@[simp] theorem advance_cola (s : State) :
    (advance s).cola = s.cola := rfl
@[simp] theorem advance_colb (s : State) :
    (advance s).colb = s.colb := rfl
@[simp] theorem advance_tbuf (s : State) :
    (advance s).tbuf = s.tbuf := rfl
@[simp] theorem advance_cbuf (s : State) :
    (advance s).cbuf = s.cbuf := rfl
@[simp] theorem advance_fbuf (s : State) :
    (advance s).fbuf = s.fbuf := rfl
@[simp] theorem advance_vlog (s : State) :
    (advance s).vlog = s.vlog := rfl
@[simp] theorem advance_err (s : State) :
    (advance s).err = s.err := rfl
@[simp] theorem advance_cfg (s : State) :
    (advance s).cfg = s.cfg := rfl
@[simp] theorem advance_host (s : State) :
    (advance s).host = s.host := rfl
@[simp] theorem advance_readData (s : State) :
    (advance s).readData = s.readData := rfl
@[simp] theorem advance_draws (s : State) :
    (advance s).draws = s.draws := rfl

/-! ### A finished file -/

@[simp] theorem writeFile_fault (F : List Byte) (s : State) :
    (writeFile F s).fault = s.fault := rfl
@[simp] theorem writeFile_wfill (F : List Byte) (s : State) :
    (writeFile F s).wfill = s.wfill := rfl
@[simp] theorem writeFile_wviol (F : List Byte) (s : State) :
    (writeFile F s).wviol = s.wviol := rfl
@[simp] theorem writeFile_palv (F : List Byte) (s : State) :
    (writeFile F s).palv = s.palv := rfl
@[simp] theorem writeFile_idxv (F : List Byte) (s : State) :
    (writeFile F s).idxv = s.idxv := rfl
@[simp] theorem writeFile_plnv (F : List Byte) (s : State) :
    (writeFile F s).plnv = s.plnv := rfl
@[simp] theorem writeFile_fcause (F : List Byte) (s : State) :
    (writeFile F s).fcause = s.fcause := rfl
@[simp] theorem writeFile_finfo (F : List Byte) (s : State) :
    (writeFile F s).finfo = s.finfo := rfl
@[simp] theorem writeFile_canvas (F : List Byte) (s : State) :
    (writeFile F s).canvas = s.canvas := rfl
@[simp] theorem writeFile_klen (F : List Byte) (s : State) :
    (writeFile F s).klen = s.klen := rfl
@[simp] theorem writeFile_res (F : List Byte) (s : State) :
    (writeFile F s).res = s.res := rfl
@[simp] theorem writeFile_ncube (F : List Byte) (s : State) :
    (writeFile F s).ncube = s.ncube := rfl
@[simp] theorem writeFile_vcount (F : List Byte) (s : State) :
    (writeFile F s).vcount = s.vcount := rfl
@[simp] theorem writeFile_tlen (F : List Byte) (s : State) :
    (writeFile F s).tlen = s.tlen := rfl
@[simp] theorem writeFile_clen (F : List Byte) (s : State) :
    (writeFile F s).clen = s.clen := rfl
@[simp] theorem writeFile_flen (F : List Byte) (s : State) :
    (writeFile F s).flen = BitVec.ofNat 32 F.length := rfl
@[simp] theorem writeFile_mode0 (F : List Byte) (s : State) :
    (writeFile F s).mode0 = s.mode0 := rfl
@[simp] theorem writeFile_mode1 (F : List Byte) (s : State) :
    (writeFile F s).mode1 = s.mode1 := rfl
@[simp] theorem writeFile_bufsel (F : List Byte) (s : State) :
    (writeFile F s).bufsel = s.bufsel := rfl
@[simp] theorem writeFile_bufaddr (F : List Byte) (s : State) :
    (writeFile F s).bufaddr = s.bufaddr := rfl
@[simp] theorem writeFile_img (F : List Byte) (s : State) :
    (writeFile F s).img = s.img := rfl
@[simp] theorem writeFile_ext (F : List Byte) (s : State) :
    (writeFile F s).ext = s.ext := rfl
@[simp] theorem writeFile_pal (F : List Byte) (s : State) :
    (writeFile F s).pal = s.pal := rfl
@[simp] theorem writeFile_used (F : List Byte) (s : State) :
    (writeFile F s).used = s.used := rfl
@[simp] theorem writeFile_krn (F : List Byte) (s : State) :
    (writeFile F s).krn = s.krn := rfl
@[simp] theorem writeFile_idx (F : List Byte) (s : State) :
    (writeFile F s).idx = s.idx := rfl
@[simp] theorem writeFile_shp (F : List Byte) (s : State) :
    (writeFile F s).shp = s.shp := rfl
@[simp] theorem writeFile_cola (F : List Byte) (s : State) :
    (writeFile F s).cola = s.cola := rfl
@[simp] theorem writeFile_colb (F : List Byte) (s : State) :
    (writeFile F s).colb = s.colb := rfl
@[simp] theorem writeFile_tbuf (F : List Byte) (s : State) :
    (writeFile F s).tbuf = s.tbuf := rfl
@[simp] theorem writeFile_cbuf (F : List Byte) (s : State) :
    (writeFile F s).cbuf = s.cbuf := rfl
@[simp] theorem writeFile_fbuf (F : List Byte) (s : State) :
    (writeFile F s).fbuf = bufWriteRun s.fbuf 0 F := rfl
@[simp] theorem writeFile_vlog (F : List Byte) (s : State) :
    (writeFile F s).vlog = s.vlog := rfl
@[simp] theorem writeFile_err (F : List Byte) (s : State) :
    (writeFile F s).err = s.err := rfl
@[simp] theorem writeFile_cfg (F : List Byte) (s : State) :
    (writeFile F s).cfg = s.cfg := rfl
@[simp] theorem writeFile_host (F : List Byte) (s : State) :
    (writeFile F s).host = s.host := rfl
@[simp] theorem writeFile_readData (F : List Byte) (s : State) :
    (writeFile F s).readData = s.readData := rfl
@[simp] theorem writeFile_draws (F : List Byte) (s : State) :
    (writeFile F s).draws = s.draws := rfl

/-! ### Placing a command -/

@[simp] theorem withFetchWord_fault (s : State) (n w : Nat) :
    (s.withFetchWord n w).fault = s.fault := rfl
@[simp] theorem withFetchWord_wfill (s : State) (n w : Nat) :
    (s.withFetchWord n w).wfill = s.wfill := rfl
@[simp] theorem withFetchWord_wviol (s : State) (n w : Nat) :
    (s.withFetchWord n w).wviol = s.wviol := rfl
@[simp] theorem withFetchWord_palv (s : State) (n w : Nat) :
    (s.withFetchWord n w).palv = s.palv := rfl
@[simp] theorem withFetchWord_idxv (s : State) (n w : Nat) :
    (s.withFetchWord n w).idxv = s.idxv := rfl
@[simp] theorem withFetchWord_plnv (s : State) (n w : Nat) :
    (s.withFetchWord n w).plnv = s.plnv := rfl
@[simp] theorem withFetchWord_fcause (s : State) (n w : Nat) :
    (s.withFetchWord n w).fcause = s.fcause := rfl
@[simp] theorem withFetchWord_finfo (s : State) (n w : Nat) :
    (s.withFetchWord n w).finfo = s.finfo := rfl
@[simp] theorem withFetchWord_canvas (s : State) (n w : Nat) :
    (s.withFetchWord n w).canvas = s.canvas := rfl
@[simp] theorem withFetchWord_klen (s : State) (n w : Nat) :
    (s.withFetchWord n w).klen = s.klen := rfl
@[simp] theorem withFetchWord_res (s : State) (n w : Nat) :
    (s.withFetchWord n w).res = s.res := rfl
@[simp] theorem withFetchWord_ncube (s : State) (n w : Nat) :
    (s.withFetchWord n w).ncube = s.ncube := rfl
@[simp] theorem withFetchWord_vcount (s : State) (n w : Nat) :
    (s.withFetchWord n w).vcount = s.vcount := rfl
@[simp] theorem withFetchWord_tlen (s : State) (n w : Nat) :
    (s.withFetchWord n w).tlen = s.tlen := rfl
@[simp] theorem withFetchWord_clen (s : State) (n w : Nat) :
    (s.withFetchWord n w).clen = s.clen := rfl
@[simp] theorem withFetchWord_flen (s : State) (n w : Nat) :
    (s.withFetchWord n w).flen = s.flen := rfl
@[simp] theorem withFetchWord_mode0 (s : State) (n w : Nat) :
    (s.withFetchWord n w).mode0 = s.mode0 := rfl
@[simp] theorem withFetchWord_mode1 (s : State) (n w : Nat) :
    (s.withFetchWord n w).mode1 = s.mode1 := rfl
@[simp] theorem withFetchWord_bufsel (s : State) (n w : Nat) :
    (s.withFetchWord n w).bufsel = s.bufsel := rfl
@[simp] theorem withFetchWord_bufaddr (s : State) (n w : Nat) :
    (s.withFetchWord n w).bufaddr = s.bufaddr := rfl
@[simp] theorem withFetchWord_img (s : State) (n w : Nat) :
    (s.withFetchWord n w).img = s.img := rfl
@[simp] theorem withFetchWord_ext (s : State) (n w : Nat) :
    (s.withFetchWord n w).ext = s.ext := rfl
@[simp] theorem withFetchWord_pal (s : State) (n w : Nat) :
    (s.withFetchWord n w).pal = s.pal := rfl
@[simp] theorem withFetchWord_used (s : State) (n w : Nat) :
    (s.withFetchWord n w).used = s.used := rfl
@[simp] theorem withFetchWord_krn (s : State) (n w : Nat) :
    (s.withFetchWord n w).krn = s.krn := rfl
@[simp] theorem withFetchWord_idx (s : State) (n w : Nat) :
    (s.withFetchWord n w).idx = s.idx := rfl
@[simp] theorem withFetchWord_shp (s : State) (n w : Nat) :
    (s.withFetchWord n w).shp = s.shp := rfl
@[simp] theorem withFetchWord_cola (s : State) (n w : Nat) :
    (s.withFetchWord n w).cola = s.cola := rfl
@[simp] theorem withFetchWord_colb (s : State) (n w : Nat) :
    (s.withFetchWord n w).colb = s.colb := rfl
@[simp] theorem withFetchWord_tbuf (s : State) (n w : Nat) :
    (s.withFetchWord n w).tbuf = s.tbuf := rfl
@[simp] theorem withFetchWord_cbuf (s : State) (n w : Nat) :
    (s.withFetchWord n w).cbuf = s.cbuf := rfl
@[simp] theorem withFetchWord_fbuf (s : State) (n w : Nat) :
    (s.withFetchWord n w).fbuf = s.fbuf := rfl
@[simp] theorem withFetchWord_vlog (s : State) (n w : Nat) :
    (s.withFetchWord n w).vlog = s.vlog := rfl
@[simp] theorem withFetchWord_err (s : State) (n w : Nat) :
    (s.withFetchWord n w).err = s.err := rfl
@[simp] theorem withFetchWord_cfg (s : State) (n w : Nat) :
    (s.withFetchWord n w).cfg = s.cfg := rfl
@[simp] theorem withFetchWord_host (s : State) (n w : Nat) :
    (s.withFetchWord n w).host = cmdWrite (BitVec.ofNat 32 (w % 2 ^ n)) :: s.host := rfl
@[simp] theorem withFetchWord_readData (s : State) (n w : Nat) :
    (s.withFetchWord n w).readData = s.readData := rfl
@[simp] theorem withFetchWord_draws (s : State) (n w : Nat) :
    (s.withFetchWord n w).draws = s.draws := rfl

/-! ### Replacing one buffer -/

@[simp] theorem withBuf_fault (s : State) (b : BufId) (m : Buf b.width) :
    (withBuf s b m).fault = s.fault := by cases b <;> rfl
@[simp] theorem withBuf_wfill (s : State) (b : BufId) (m : Buf b.width) :
    (withBuf s b m).wfill = s.wfill := by cases b <;> rfl
@[simp] theorem withBuf_wviol (s : State) (b : BufId) (m : Buf b.width) :
    (withBuf s b m).wviol = s.wviol := by cases b <;> rfl
@[simp] theorem withBuf_palv (s : State) (b : BufId) (m : Buf b.width) :
    (withBuf s b m).palv = s.palv := by cases b <;> rfl
@[simp] theorem withBuf_idxv (s : State) (b : BufId) (m : Buf b.width) :
    (withBuf s b m).idxv = s.idxv := by cases b <;> rfl
@[simp] theorem withBuf_plnv (s : State) (b : BufId) (m : Buf b.width) :
    (withBuf s b m).plnv = s.plnv := by cases b <;> rfl
@[simp] theorem withBuf_fcause (s : State) (b : BufId) (m : Buf b.width) :
    (withBuf s b m).fcause = s.fcause := by cases b <;> rfl
@[simp] theorem withBuf_finfo (s : State) (b : BufId) (m : Buf b.width) :
    (withBuf s b m).finfo = s.finfo := by cases b <;> rfl
@[simp] theorem withBuf_canvas (s : State) (b : BufId) (m : Buf b.width) :
    (withBuf s b m).canvas = s.canvas := by cases b <;> rfl
@[simp] theorem withBuf_klen (s : State) (b : BufId) (m : Buf b.width) :
    (withBuf s b m).klen = s.klen := by cases b <;> rfl
@[simp] theorem withBuf_res (s : State) (b : BufId) (m : Buf b.width) :
    (withBuf s b m).res = s.res := by cases b <;> rfl
@[simp] theorem withBuf_ncube (s : State) (b : BufId) (m : Buf b.width) :
    (withBuf s b m).ncube = s.ncube := by cases b <;> rfl
@[simp] theorem withBuf_vcount (s : State) (b : BufId) (m : Buf b.width) :
    (withBuf s b m).vcount = s.vcount := by cases b <;> rfl
@[simp] theorem withBuf_tlen (s : State) (b : BufId) (m : Buf b.width) :
    (withBuf s b m).tlen = s.tlen := by cases b <;> rfl
@[simp] theorem withBuf_clen (s : State) (b : BufId) (m : Buf b.width) :
    (withBuf s b m).clen = s.clen := by cases b <;> rfl
@[simp] theorem withBuf_flen (s : State) (b : BufId) (m : Buf b.width) :
    (withBuf s b m).flen = s.flen := by cases b <;> rfl
@[simp] theorem withBuf_mode0 (s : State) (b : BufId) (m : Buf b.width) :
    (withBuf s b m).mode0 = s.mode0 := by cases b <;> rfl
@[simp] theorem withBuf_mode1 (s : State) (b : BufId) (m : Buf b.width) :
    (withBuf s b m).mode1 = s.mode1 := by cases b <;> rfl
@[simp] theorem withBuf_bufsel (s : State) (b : BufId) (m : Buf b.width) :
    (withBuf s b m).bufsel = s.bufsel := by cases b <;> rfl
@[simp] theorem withBuf_bufaddr (s : State) (b : BufId) (m : Buf b.width) :
    (withBuf s b m).bufaddr = s.bufaddr := by cases b <;> rfl
@[simp] theorem withBuf_err (s : State) (b : BufId) (m : Buf b.width) :
    (withBuf s b m).err = s.err := by cases b <;> rfl
@[simp] theorem withBuf_cfg (s : State) (b : BufId) (m : Buf b.width) :
    (withBuf s b m).cfg = s.cfg := by cases b <;> rfl
@[simp] theorem withBuf_host (s : State) (b : BufId) (m : Buf b.width) :
    (withBuf s b m).host = s.host := by cases b <;> rfl
@[simp] theorem withBuf_readData (s : State) (b : BufId) (m : Buf b.width) :
    (withBuf s b m).readData = s.readData := by cases b <;> rfl
@[simp] theorem withBuf_draws (s : State) (b : BufId) (m : Buf b.width) :
    (withBuf s b m).draws = s.draws := by cases b <;> rfl

@[simp] theorem bufOf_withBuf (s : State) (b : BufId) (m : Buf b.width) :
    bufOf (withBuf s b m) b = m := by cases b <;> rfl

theorem bufOf_withBuf_of_ne (s : State) {b c : BufId} (h : c ≠ b) (m : Buf b.width) :
    bufOf (withBuf s b m) c = bufOf s c := by
  cases b <;> cases c <;> first | rfl | exact absurd rfl h

@[simp] theorem withBuf_bufOf (s : State) (b : BufId) : withBuf s b (bufOf s b) = s := by
  cases b <;> rfl

@[simp] theorem bufOf_raiseFault (c : Cause) (w : Word) (s : State) (b : BufId) :
    bufOf (raiseFault c w s) b = bufOf s b := by cases b <;> rfl

@[simp] theorem bufOf_advance (s : State) (b : BufId) : bufOf (advance s) b = bufOf s b := by
  cases b <;> rfl

end Sys2Proof.Machine
end

