-- ==== Sys2Proof/Laws/Ops.lean ====
section
/-! SUPPORT. What each shared operation can do, said once: the checks of a command, fault entry, the
window, the register file, a command word, a host action. -/

namespace Sys2Proof.Machine

/-! ### The checks of a command -/

@[simp] theorem gated_of_faulted {s : State} (h : s.fault = true) (k : Out) :
    gated s k = .next s := by simp [gated, h]

@[simp] theorem gated_of_clear {s : State} (h : s.fault = false) (k : Out) : gated s k = k := by
  simp [gated, h]

/-- The gate answers a next state in two ways: nothing happened, or the command's own answer. -/
theorem gated_next {s t : State} {k : Out} (h : gated s k = .next t) :
    (s.fault = true ∧ t = s) ∨ (s.fault = false ∧ k = .next t) := by
  cases hf : s.fault with
  | true => rw [gated_of_faulted hf] at h; exact .inl ⟨rfl, (Host.Outcome.next.inj h).symm⟩
  | false => rw [gated_of_clear hf] at h; exact .inr ⟨rfl, h⟩

@[simp] theorem needs_true (c : Cause) (w : Word) (s : State) (k : Out) :
    needs true c w s k = k := rfl

@[simp] theorem needs_false (c : Cause) (w : Word) (s : State) (k : Out) :
    needs false c w s k = .next (raiseFault c w s) := rfl

/-- A check answers a next state in two ways: it failed and the fault is entered, or it held and what
follows answered. -/
theorem needs_next {ok : Bool} {c : Cause} {w : Word} {s t : State} {k : Out}
    (h : needs ok c w s k = .next t) :
    (ok = false ∧ t = raiseFault c w s) ∨ (ok = true ∧ k = .next t) := by
  cases ok with
  | false => exact .inl ⟨rfl, (Host.Outcome.next.inj h).symm⟩
  | true => exact .inr ⟨rfl, h⟩

@[simp] theorem needsRead_some {α : Type} (a : α) (b : BufId) (k : α → Out) :
    needsRead (some a) b k = k a := rfl

@[simp] theorem needsRead_none {α : Type} (b : BufId) (k : α → Out) :
    needsRead none b k = .fault (.unwrittenElement b) := rfl

/-- An input answers a next state only where all of it was written. -/
theorem needsRead_next {α : Type} {r : Option α} {b : BufId} {k : α → Out} {t : State}
    (h : needsRead r b k = .next t) : ∃ a, r = some a ∧ k a = .next t := by
  cases r with
  | none => cases h
  | some a => exact ⟨a, rfl, h⟩

/-! ### Fault entry -/

/-- A cause code is 1 to 9 (R283). -/
theorem causeCode_range (c : Cause) : 1 ≤ (causeCode c).toNat ∧ (causeCode c).toNat ≤ 9 := by
  cases c <;> decide

theorem causeCode_injective {c d : Cause} (h : causeCode c = causeCode d) : c = d := by
  revert h
  cases c <;> cases d <;> decide

/-- Outside the three registers of R284 fault entry changes nothing. -/
theorem raiseFault_frame (c : Cause) (w : Word) (s : State) :
    raiseFault c w s =
      { s with
        fault := (raiseFault c w s).fault
        fcause := (raiseFault c w s).fcause
        finfo := (raiseFault c w s).finfo } := rfl

/-! ### The window -/

/-- The window points at a buffer only below its capacity. -/
theorem windowTarget_eq_some {s : State} {b : BufId} (h : windowTarget s = some b) :
    bufIdOf s.bufsel = some b ∧ s.bufaddr.toNat < bufCap s.cfg b := by
  unfold windowTarget at h
  split at h
  · cases h
  · next c hc =>
    split at h
    · next hlt => cases h; exact ⟨hc, hlt⟩
    · cases h

/-- What a window read can do: the value read, BUFADDR advanced, and for an element nothing has written
one draw. -/
theorem windowRead_cases (s : State) :
    (windowTarget s = none ∧ windowRead s = advance { s with readData := 0 }) ∨
    (∃ b v, windowTarget s = some b ∧ readElem s b s.bufaddr.toNat = some v ∧
      windowRead s = advance { s with readData := v.setWidth 32 }) ∨
    (∃ b, windowTarget s = some b ∧ readElem s b s.bufaddr.toNat = none ∧
      windowRead s =
        advance { s with readData := freeWord b s.draws, draws := s.draws + 1 }) := by
  unfold windowRead
  cases ht : windowTarget s with
  | none => exact .inl ⟨rfl, rfl⟩
  | some b =>
    cases hv : readElem s b s.bufaddr.toNat with
    | none => exact .inr (.inr ⟨b, rfl, hv, by simp [hv]⟩)
    | some v => exact .inr (.inl ⟨b, v, rfl, hv, by simp [hv]⟩)

/-- What a window write can do: nothing but advance, or store one element and advance. -/
theorem windowWrite_cases (v : Word) (s : State) :
    windowWrite v s = advance s ∨
    ∃ b, windowTarget s = some b ∧ b.hostWrites = true ∧
      windowWrite v s =
        advance (withBuf s b (bufSet (bufOf s b) s.bufaddr.toNat (v.setWidth b.width))) := by
  unfold windowWrite
  cases ht : windowTarget s with
  | none => exact .inl rfl
  | some b =>
    cases hw : b.hostWrites with
    | false => exact .inl (by simp [hw])
    | true => exact .inr ⟨b, rfl, hw, by simp [hw]⟩

/-! ### The register file -/

theorem regAt_lt {off : Nat} {r : Reg} (h : regAt off = some r) : off ≤ 0x44 := by
  unfold regAt at h
  split at h <;> first | omega | cases h

/-- What a host read can do: through the window, or one register's value returned and nothing else
changed. -/
theorem hostRead_cases (off : Nat) (s : State) :
    (regAt off = some .bufdata ∧ hostRead off s = windowRead s) ∨
    ∃ v, hostRead off s = { s with readData := v } := by
  unfold hostRead
  split
  · exact .inr ⟨0, rfl⟩
  · next h => exact .inl ⟨h, rfl⟩
  · next r _ _ => exact .inr ⟨regValue s r, rfl⟩

/-- What a host write of a register other than CMD leaves alone: the fault registers, the results, the
configuration, the actions to come and the count of draws. -/
theorem regWrite_frame (r : Reg) (v : Word) (s : State) :
    (regWrite r v s).fault = s.fault ∧ (regWrite r v s).fcause = s.fcause ∧
    (regWrite r v s).finfo = s.finfo ∧ (regWrite r v s).wfill = s.wfill ∧
    (regWrite r v s).wviol = s.wviol ∧ (regWrite r v s).res = s.res ∧
    (regWrite r v s).ncube = s.ncube ∧ (regWrite r v s).vcount = s.vcount ∧
    (regWrite r v s).flen = s.flen ∧ (regWrite r v s).err = s.err ∧
    (regWrite r v s).cfg = s.cfg ∧ (regWrite r v s).host = s.host ∧
    (regWrite r v s).readData = s.readData ∧ (regWrite r v s).draws = s.draws := by
  cases r
  case bufdata =>
    rcases windowWrite_cases v s with h | ⟨b, _, _, h⟩ <;> simp [regWrite, h]
  all_goals exact ⟨rfl, rfl, rfl, rfl, rfl, rfl, rfl, rfl, rfl, rfl, rfl, rfl, rfl, rfl⟩

/-! ### Commands and actions -/

/-- What a word written to CMD can do: ignored while faulted, illegal, or the decoded command. -/
theorem runCommand_next {w : Word} {s t : State} (h : runCommand w s = .next t) :
    (s.fault = true ∧ t = s) ∨
    (s.fault = false ∧ (∃ e, decodeWord w = .error e) ∧ t = raiseFault .illcmd w s) ∨
    (s.fault = false ∧ ∃ i, decodeWord w = .ok i ∧ exec i s = .next t) := by
  rcases gated_next h with ⟨hf, ht⟩ | ⟨hf, hk⟩
  · exact .inl ⟨hf, ht⟩
  · cases hd : decodeWord w with
    | error e => rw [hd] at hk; exact .inr (.inl ⟨hf, ⟨e, rfl⟩, (Host.Outcome.next.inj hk).symm⟩)
    | ok i => rw [hd] at hk; exact .inr (.inr ⟨hf, i, rfl, hk⟩)

/-- What a host write can do. -/
theorem hostWrite_next {off : Nat} {v : Word} {s t : State} (h : hostWrite off v s = .next t) :
    (regAt off = none ∧ t = s) ∨ (regAt off = some .cmd ∧ runCommand v s = .next t) ∨
    ∃ r, regAt off = some r ∧ r ≠ .cmd ∧ t = regWrite r v s := by
  unfold hostWrite at h
  split at h
  · next hr => exact .inl ⟨hr, (Host.Outcome.next.inj h).symm⟩
  · next hr => exact .inr (.inl ⟨hr, h⟩)
  · next r hne hr =>
    exact .inr (.inr ⟨r, hr, fun he => hne he, (Host.Outcome.next.inj h).symm⟩)

/-- What one host action can do. -/
theorem hostAct_next {a : HostAction} {s t : State} (h : hostAct a s = .next t) :
    (∃ off, a = .read off 4 ∧ t = hostRead off s) ∨
    (∃ off v, a = .write off 4 v ∧ hostWrite off v s = .next t) ∨
    (a = .reset ∧ t = resetBlock s) := by
  cases a with
  | reset => exact .inr (.inr ⟨rfl, (Host.Outcome.next.inj h).symm⟩)
  | read off bytes =>
    simp only [hostAct] at h
    split at h
    · next hok =>
      simp only [accessOk, Bool.and_eq_true, decide_eq_true_eq] at hok
      exact .inl ⟨off, by rw [hok.1.1], (Host.Outcome.next.inj h).symm⟩
    · cases h
  | write off bytes v =>
    simp only [hostAct] at h
    split at h
    · next hok =>
      simp only [accessOk, Bool.and_eq_true, decide_eq_true_eq] at hok
      exact .inr (.inl ⟨off, v, by rw [hok.1.1], h⟩)
    · cases h

/-- What a step can do: idle, or the next host action. -/
theorem step_next {s t : State} (h : step s = .next t) :
    (s.host = [] ∧ t = s) ∨
    ∃ a rest, s.host = a :: rest ∧ hostAct a { s with host := rest } = .next t := by
  unfold step at h
  split at h
  · next hh => exact .inl ⟨hh, (Host.Outcome.next.inj h).symm⟩
  · next a rest hh => exact .inr ⟨a, rest, hh, h⟩

/-- A faulted block ignores every command, whichever it is (R285). -/
theorem exec_of_faulted (i : Instr) {s : State} (h : s.fault = true) : exec i s = .next s := by
  cases i <;> simp only [exec, execNop, execLatrd, execSnap, execSnapu, execUclr, execUmark,
    execQgen, execQlat, execPsnapu, execPsnapn, execDisp, execVerify, execBlkenc, execXpose,
    execRle, execCont, execRawf] <;> exact gated_of_faulted h _

/-- Emitting to CBUF: all of it and the new length, or ALLOC with length 0 (R250, R290). -/
theorem emitToCbuf_cases (w : Word) (o : Nat) (out : List Byte) (s : State) :
    (o + out.length ≤ s.cfg.ccap ∧ emitToCbuf w o out s =
      .next { s with
        cbuf := bufWriteRun s.cbuf o out
        clen := BitVec.ofNat 32 (o + out.length) }) ∨
    (s.cfg.ccap < o + out.length ∧ emitToCbuf w o out s =
      .next (raiseFault .alloc w { s with
        cbuf := bufWriteRun s.cbuf o (out.take (s.cfg.ccap - o))
        clen := 0 })) := by
  unfold emitToCbuf
  split
  · next h => exact .inl ⟨h, rfl⟩
  · next h => exact .inr ⟨Nat.lt_of_not_le h, rfl⟩

/-- DISP after its checks: the pass completed, or a value was not finite (R205, R293). -/
theorem dispRun_cases (s : State) (c : DispInput) (image : List Rgb) :
    (∃ wk, dispPass c image s.err s.idx = .ok wk ∧ dispRun s c image =
      .next { s with err := wk.err, idx := wk.idx, idxv := true }) ∨
    (∃ wk, dispPass c image s.err s.idx = .error wk ∧ dispRun s c image =
      .next (raiseFault .numeric (encode .disp)
        { s with err := wk.err, idx := wk.idx, idxv := false })) := by
  unfold dispRun
  cases h : dispPass c image s.err s.idx with
  | ok wk => exact .inl ⟨wk, rfl, rfl⟩
  | error wk => exact .inr ⟨wk, rfl, rfl⟩

end Sys2Proof.Machine
end

