-- ==== Sys2Proof/Laws/PerInstr.lean ====
section
/-! SUPPORT. The per-instruction family: the word of a legal command lies in its own row of the opcode
table. -/

namespace Sys2Proof.Laws

open Sys2Proof

/-- The row of R97 that a command belongs to, by its place in the table. -/
def rowOf : Instr → Nat
  | .nop => 0
  | .latrd _ => 1
  | .snap _ _ _ => 2
  | .snapu _ _ _ => 3
  | .uclr => 4
  | .umark _ => 5
  | .qgen => 6
  | .qlat => 7
  | .psnapu => 8
  | .psnapn => 9
  | .disp => 10
  | .verify => 11
  | .blkenc => 12
  | .xpose _ => 13
  | .rle _ _ => 14
  | .cont => 15
  | .rawf _ => 16

/-- The encoding of a legal command decodes to it, and meets the mask and match of exactly its own row
of R97. -/
def RowMatch.Statement (i : Instr) : Prop :=
  i.wellFormed = true →
    decodeWord (encode i) = .ok i ∧
    ∀ k r, opcodeTable[k]? = some r →
      (encode i &&& r.format.mask = r.matchWord ↔ k = rowOf i)

/-- Each row of the table, by its place. -/
theorem opcodeTable_cases {k : Nat} {r : OpcodeRow} {P : Nat → OpcodeRow → Prop}
    (h : opcodeTable[k]? = some r)
    (hall : ∀ e ∈ opcodeTable.zipIdx, P e.2 e.1) : P k r := by
  have := hall (r, k) (by simpa [List.mem_iff_getElem?] using h)
  simpa using this

/-- A command with finitely few words: every word is compared. -/
theorem rowMatch_closed (i : Instr) (hd : i.wellFormed = true → decodeWord (encode i) = .ok i)
    (h : ∀ e ∈ opcodeTable.zipIdx,
      (encode i &&& e.1.format.mask = e.1.matchWord ↔ e.2 = rowOf i)) :
    RowMatch.Statement i :=
  fun hw => ⟨hd hw, fun _ _ hk =>
    opcodeTable_cases (P := fun k r => encode i &&& r.format.mask = r.matchWord ↔ k = rowOf i) hk h⟩

theorem RowMatch.nop : RowMatch.Statement .nop := rowMatch_closed _ (by decide) (by decide)
theorem RowMatch.uclr : RowMatch.Statement .uclr := rowMatch_closed _ (by decide) (by decide)
theorem RowMatch.qgen : RowMatch.Statement .qgen := rowMatch_closed _ (by decide) (by decide)
theorem RowMatch.qlat : RowMatch.Statement .qlat := rowMatch_closed _ (by decide) (by decide)
theorem RowMatch.psnapu : RowMatch.Statement .psnapu := rowMatch_closed _ (by decide) (by decide)
theorem RowMatch.psnapn : RowMatch.Statement .psnapn := rowMatch_closed _ (by decide) (by decide)
theorem RowMatch.disp : RowMatch.Statement .disp := rowMatch_closed _ (by decide) (by decide)
theorem RowMatch.verify : RowMatch.Statement .verify := rowMatch_closed _ (by decide) (by decide)
theorem RowMatch.blkenc : RowMatch.Statement .blkenc := rowMatch_closed _ (by decide) (by decide)
theorem RowMatch.cont : RowMatch.Statement .cont := rowMatch_closed _ (by decide) (by decide)
theorem RowMatch.rle (t a : Bool) : RowMatch.Statement (.rle t a) :=
  rowMatch_closed _ (by revert t a; decide) (by revert t a; decide)
theorem RowMatch.xpose (p : BitVec 2) : RowMatch.Statement (.xpose p) :=
  rowMatch_closed _ (by revert p; decide) (by revert p; decide)
theorem RowMatch.rawf (p : BitVec 2) : RowMatch.Statement (.rawf p) :=
  rowMatch_closed _ (by revert p; decide) (by revert p; decide)

/-- A bit of a packed word. -/
theorem packWord_bit (op : BitVec 8) (f : BitVec 24) (j : Nat) :
    (packWord op f).getLsbD j = if j < 24 then f.getLsbD j else op.getLsbD (j - 24) := by
  have h := BitVec.getLsbD_append (x := op) (y := f) (i := j)
  unfold packWord
  exact h.trans (by split <;> simp_all)

/-- A bit of a format I12 field. -/
theorem i12_bit (idx : BitVec 12) (j : Nat) :
    (0#12 ++ idx : BitVec 24).getLsbD j = if j < 12 then idx.getLsbD j else false := by
  have h := BitVec.getLsbD_append (x := 0#12) (y := idx) (i := j)
  exact h.trans (by split <;> simp_all)

/-- A bit of a format RGB field. -/
theorem rgb_bit (r g b : BitVec 8) (j : Nat) :
    (b ++ g ++ r : BitVec 24).getLsbD j =
      if j < 8 then r.getLsbD j else if j < 16 then g.getLsbD (j - 8) else b.getLsbD (j - 16) := by
  have h := BitVec.getLsbD_append (x := b ++ g) (y := r) (i := j)
  have h' := BitVec.getLsbD_append (x := b) (y := g) (i := j - 8)
  refine h.trans ?_
  by_cases h8 : j < 8
  · simp [h8]
  · by_cases h16 : j < 16
    · simpa [h8, h16, show j - 8 < 8 by omega] using h'
    · simpa [h8, h16, show ¬ j - 8 < 8 by omega, Nat.sub_sub] using h'

/-- The opcode of a packed word. -/
theorem packWord_opcode (op : BitVec 8) (f : BitVec 24) :
    (packWord op f).extractLsb' 24 8 = op := by
  ext k hk
  simp [packWord_bit, BitVec.getLsbD_eq_getElem hk]

/-- A field of the operand part of a packed word. -/
theorem packWord_extract (op : BitVec 8) (f : BitVec 24) (o n : Nat) (h : o + n ≤ 24) :
    (packWord op f).extractLsb' o n = f.extractLsb' o n := by
  ext k hk
  have : o + k < 24 := by omega
  simp [packWord_bit, this]

/-- The opcode byte of a masked word. -/
theorem packWord_and_opcode (op : BitVec 8) (f : BitVec 24) (m : Word) :
    (packWord op f &&& m).extractLsb' 24 8 = op &&& m.extractLsb' 24 8 := by
  ext k hk
  simp [packWord_bit, BitVec.getLsbD_eq_getElem hk]

/-- A command with many words: its opcode picks the row, and its own row's mask leaves the match. -/
theorem rowMatch_open (i : Instr) (n : Nat) (hn : rowOf i = n) (op : BitVec 8) (f : BitVec 24) (he : encode i = packWord op f)
    (hd : decodeWord (encode i) = .ok i)
    (hm : ∀ e ∈ opcodeTable.zipIdx, e.1.format.mask.extractLsb' 24 8 = 0xFF)
    (hop : ∀ e ∈ opcodeTable.zipIdx, (op = e.1.matchWord.extractLsb' 24 8 → e.2 = n))
    (hown : ∀ e ∈ opcodeTable.zipIdx, e.2 = n →
      packWord op f &&& e.1.format.mask = e.1.matchWord) :
    RowMatch.Statement i :=
  rowMatch_closed i (fun _ => hd) fun e hmem => by
    rw [he, hn]
    refine ⟨fun h => hop e hmem ?_, hown e hmem⟩
    have := packWord_and_opcode op f e.1.format.mask
    rw [h, hm e hmem] at this
    rw [this]
    ext k hk
    interval_cases k <;> simp

/-- A word whose mask keeps the opcode alone. -/
theorem packWord_and_top (op : BitVec 8) (f : BitVec 24) :
    packWord op f &&& 0xFF000000 = packWord op 0 := by
  ext k hk
  have h : (0xFF000000 : Word).getLsbD k = decide (24 ≤ k) := by
    interval_cases k <;> rfl
  simp only [← BitVec.getLsbD_eq_getElem, BitVec.getLsbD_and, packWord_bit, h]
  split <;> simp_all

/-- A word whose mask keeps the opcode and the upper half of the operand field. -/
theorem packWord_and_i12 (op : BitVec 8) (idx : BitVec 12) :
    packWord op ((0 : BitVec 12) ++ idx) &&& 0xFFFFF000 = packWord op 0 := by
  ext k hk
  have h : (0xFFFFF000 : Word).getLsbD k = decide (12 ≤ k) := by
    interval_cases k <;> rfl
  simp only [← BitVec.getLsbD_eq_getElem, BitVec.getLsbD_and, packWord_bit, h]
  split
  · by_cases h12 : k < 12
    · simp [Nat.not_le.mpr h12]
    · simp [i12_bit, h12]
  · simp_all; omega

/-- The two halves of a format I12 field. -/
theorem i12_fields (op : BitVec 8) (idx : BitVec 12) :
    (packWord op ((0 : BitVec 12) ++ idx)).extractLsb' 12 12 = 0 ∧
    (packWord op ((0 : BitVec 12) ++ idx)).extractLsb' 0 12 = idx := by
  rw [packWord_extract _ _ _ _ (by omega), packWord_extract _ _ _ _ (by omega)]
  constructor <;> ext k hk <;> simp [i12_bit, hk]

/-- The three bytes of a format RGB field. -/
theorem rgb_fields (op r g b : BitVec 8) :
    (packWord op (b ++ g ++ r)).extractLsb' 0 8 = r ∧
    (packWord op (b ++ g ++ r)).extractLsb' 8 8 = g ∧
    (packWord op (b ++ g ++ r)).extractLsb' 16 8 = b := by
  rw [packWord_extract _ _ _ _ (by omega), packWord_extract _ _ _ _ (by omega),
    packWord_extract _ _ _ _ (by omega)]
  refine ⟨?_, ?_, ?_⟩ <;> ext k hk
  · simp [rgb_bit, hk]
  · simp [rgb_bit, show 8 + k < 16 by omega, BitVec.getLsbD_eq_getElem hk]
  · simp [rgb_bit, show ¬ 16 + k < 8 by omega, BitVec.getLsbD_eq_getElem hk]

theorem RowMatch.latrd (idx : BitVec 12) : RowMatch.Statement (.latrd idx) :=
  rowMatch_open _ 1 rfl 0x01 _ rfl
    (by simp only [encode, decodeWord, packWord_opcode, decodeI12, i12_fields]; rfl)
    (by decide) (by decide)
    (fun e he h => by
      have : e.1.format.mask = 0xFFFFF000 ∧ e.1.matchWord = packWord 0x01 0 := by
        revert e; decide
      rw [this.1, this.2]; exact packWord_and_i12 _ _)
theorem RowMatch.umark (idx : BitVec 12) : RowMatch.Statement (.umark idx) :=
  rowMatch_open _ 5 rfl 0x05 _ rfl
    (by simp only [encode, decodeWord, packWord_opcode, decodeI12, i12_fields]; rfl)
    (by decide) (by decide)
    (fun e he h => by
      have : e.1.format.mask = 0xFFFFF000 ∧ e.1.matchWord = packWord 0x05 0 := by
        revert e; decide
      rw [this.1, this.2]; exact packWord_and_i12 _ _)
theorem RowMatch.snap (r g b : BitVec 8) : RowMatch.Statement (.snap r g b) :=
  rowMatch_open _ 2 rfl 0x02 _ rfl
    (by simp only [encode, decodeWord, packWord_opcode, decodeRgb, rgb_fields]; rfl)
    (by decide) (by decide)
    (fun e he h => by
      have : e.1.format.mask = 0xFF000000 ∧ e.1.matchWord = packWord 0x02 0 := by
        revert e; decide
      rw [this.1, this.2]; exact packWord_and_top _ _)
theorem RowMatch.snapu (r g b : BitVec 8) : RowMatch.Statement (.snapu r g b) :=
  rowMatch_open _ 3 rfl 0x03 _ rfl
    (by simp only [encode, decodeWord, packWord_opcode, decodeRgb, rgb_fields]; rfl)
    (by decide) (by decide)
    (fun e he h => by
      have : e.1.format.mask = 0xFF000000 ∧ e.1.matchWord = packWord 0x03 0 := by
        revert e; decide
      rw [this.1, this.2]; exact packWord_and_top _ _)

end Sys2Proof.Laws
end

