-- ==== Sys2Proof/Laws/Units.lean ====
section
/-! SUPPORT. For the operations of the units one lemma each that says what they can answer: the
snapper's scan and sequence, the splitting loop, the fill, the synthesis, the cells and the files. -/

namespace Sys2Proof.Machine

/-! ### Configuration -/

/-- The hardware's parameters keep the constraints of R8. -/
theorem Config.hw_lawful : Config.hw.Lawful := by
  unfold Config.hw
  split
  · assumption
  · decide

/-! ### Snapping -/

/-- The scan answers the best so far, or an unused candidate. -/
theorem snapScan_some {p : Params} {t : Rgb} {used : Nat → Bool} {l : List Nat}
    {best : Option (Nat × Int)} {i : Nat} (h : snapScan p t used l best = some i) :
    (i ∈ l ∧ used i = false) ∨ ∃ d, best = some (i, d) := by
  induction l generalizing best with
  | nil =>
    cases best with
    | none => cases h
    | some b => exact .inr ⟨b.2, by cases h; rfl⟩
  | cons j js ih =>
    have keep : ∀ {best}, snapScan p t used js best = some i →
        (i ∈ j :: js ∧ used i = false) ∨ ∃ d, best = some (i, d) := fun h' =>
      (ih h').imp_left fun h' => ⟨List.mem_cons_of_mem _ h'.1, h'.2⟩
    have take : used j = false → snapScan p t used js (some (j, dist t (lat p j))) = some i →
        i ∈ j :: js ∧ used i = false := fun hu h' => by
      rcases keep h' with h'' | ⟨d, hd⟩
      · exact h''
      · cases hd; exact ⟨List.mem_cons_self, hu⟩
    cases hu : used j with
    | true => cases best <;> simp only [snapScan, hu, if_true] at h <;> exact keep h
    | false =>
      cases best with
      | none => simp only [snapScan, hu, Bool.false_eq_true, if_false] at h; exact .inl (take hu h)
      | some b =>
        simp only [snapScan, hu, Bool.false_eq_true, if_false] at h
        split at h
        · exact .inl (take hu h)
        · exact keep h

/-- The scan has no answer exactly when there is no best so far and every candidate is used. -/
theorem snapScan_eq_none {p : Params} {t : Rgb} {used : Nat → Bool} {l : List Nat}
    {best : Option (Nat × Int)} :
    snapScan p t used l best = none ↔ best = none ∧ ∀ i ∈ l, used i = true := by
  induction l generalizing best with
  | nil => cases best <;> simp [snapScan]
  | cons j js ih =>
    cases hu : used j with
    | true => cases best <;> simp [snapScan, hu, ih]
    | false =>
      cases best with
      | none => simp [snapScan, hu, ih]
      | some b =>
        simp only [snapScan, hu, Bool.false_eq_true, if_false]
        split <;> simp [ih]

/-- A snapped index is a lattice index and unused. -/
theorem snap_some {p : Params} {t : Rgb} {used : Nat → Bool} {i : Nat}
    (h : snap p t used = some i) : i < 4096 ∧ used i = false := by
  rcases snapScan_some h with h | ⟨_, h⟩
  · exact ⟨List.mem_range.1 h.1, h.2⟩
  · cases h

/-- With an unused index there is an answer. -/
theorem exists_snap {p : Params} (t : Rgb) {used : Nat → Bool} {i : Nat} (hi : i < 4096)
    (hu : used i = false) : ∃ k, snap p t used = some k := by
  refine Option.ne_none_iff_exists'.1 fun h => ?_
  have := (snapScan_eq_none.1 h).2 i (List.mem_range.2 hi)
  simp [hu] at this

/-- Fewer than 4096 indices leave one unused. -/
theorem exists_not_mem {picks : List Nat} (h : picks.length < 4096) :
    ∃ i < 4096, i ∉ picks := by
  by_contra hc
  push Not at hc
  have hs : Finset.range 4096 ⊆ picks.toFinset := fun i hi => by
    simpa using hc i (Finset.mem_range.1 hi)
  have h1 := Finset.card_le_card hs
  have h2 := List.toFinset_card_le picks
  simp only [Finset.card_range] at h1
  omega

/-- What a sequence of snaps can answer: the picks so far, then as many new indices, all of the
lattice and all different from what was picked before (R150, R153, R180). -/
theorem snapAll_some {p : Params} {ts : List Rgb} {picks out : List Nat}
    (h : snapAll p ts picks = some out) :
    ∃ new, out = picks ++ new ∧ new.length = ts.length ∧ (∀ i ∈ new, i < 4096) ∧
      (picks.Nodup → out.Nodup) := by
  induction ts generalizing picks with
  | nil => cases h; exact ⟨[], by simp⟩
  | cons t ts ih =>
    rw [snapAll] at h
    obtain ⟨i, hi, h⟩ := Option.bind_eq_some_iff.1 h
    obtain ⟨hlt, hu⟩ := snap_some hi
    obtain ⟨new, rfl, hl, hm, hn⟩ := ih h
    refine ⟨i :: new, by simp, by simp [hl], ?_, fun hp => hn ?_⟩
    · intro k hk
      rcases List.mem_cons.1 hk with rfl | hk
      · exact hlt
      · exact hm k hk
    · refine List.nodup_append.2 ⟨hp, by simp, fun a ha b hb => ?_⟩
      rw [List.mem_singleton.1 hb]
      rintro rfl
      simp [ha] at hu

/-- A sequence of snaps has an answer while the lattice has an index for every target. -/
theorem exists_snapAll {p : Params} (ts : List Rgb) (picks : List Nat)
    (h : picks.length + ts.length ≤ 4096) : ∃ out, snapAll p ts picks = some out := by
  induction ts generalizing picks with
  | nil => exact ⟨picks, rfl⟩
  | cons t ts ih =>
    simp only [List.length_cons] at h
    obtain ⟨k, hk, hm⟩ := exists_not_mem (picks := picks) (by omega)
    obtain ⟨i, hi⟩ := exists_snap (p := p) t (used := picks.contains) hk (by simp [hm])
    rw [snapAll, hi]
    exact ih _ (by simp only [List.length_append, List.length_singleton]; omega)

/-! ### Fill -/

theorem mem_unusedOf {picks : List Nat} {i : Nat} : i ∈ unusedOf picks ↔ i < 4096 ∧ i ∉ picks := by
  simp [unusedOf]

/-- A draw is an unused lattice index, whatever the draw (R151). -/
theorem drawUnused_mem {picks : List Nat} (d : Nat) (h : picks.length < 4096) :
    drawUnused picks d < 4096 ∧ drawUnused picks d ∉ picks := by
  obtain ⟨k, hk, hm⟩ := exists_not_mem h
  have hpos : 0 < (unusedOf picks).length := List.length_pos_of_mem (mem_unusedOf.2 ⟨hk, hm⟩)
  have hlt : Config.fillDraw d % (unusedOf picks).length < (unusedOf picks).length :=
    Nat.mod_lt _ hpos
  refine mem_unusedOf.1 ?_
  simp only [drawUnused, List.getD_eq_getElem?_getD, List.getElem?_eq_getElem hlt, Option.getD_some]
  exact List.getElem_mem hlt

/-- What a fill does: as many new indices, all of the lattice and all different (R151, R153). -/
theorem fillSlots_spec (k d : Nat) (picks : List Nat) (h : picks.length + k ≤ 4096) :
    ∃ new, fillSlots k d picks = picks ++ new ∧ new.length = k ∧ (∀ i ∈ new, i < 4096) ∧
      (picks.Nodup → (fillSlots k d picks).Nodup) := by
  induction k generalizing d picks with
  | zero => exact ⟨[], by simp [fillSlots]⟩
  | succ k ih =>
    obtain ⟨hlt, hm⟩ := drawUnused_mem (picks := picks) d (by omega)
    obtain ⟨new, he, hl, hn, hd⟩ :=
      ih (d + 1) (picks ++ [drawUnused picks d]) (by simp; omega)
    refine ⟨drawUnused picks d :: new, by simp [fillSlots, he], by simp [hl], ?_, fun hp => hd ?_⟩
    · intro i hi
      rcases List.mem_cons.1 hi with h' | hi
      · rw [h']; exact hlt
      · exact hn i hi
    · refine List.nodup_append.2 ⟨hp, by simp, fun a ha b hb hab => hm ?_⟩
      rw [List.mem_singleton.1 hb] at hab
      exact hab ▸ ha

/-! ### The splitting loop -/

/-- The loop adds at most one box a pass and takes none away (R148). -/
theorem splitLoop_length {κ β : Type} (D : Domain κ β) (samples : List (κ × Rgb)) (k : Nat)
    (boxes : List β) :
    boxes.length ≤ (splitLoop D samples k boxes).length ∧
      (splitLoop D samples k boxes).length ≤ boxes.length + k := by
  induction k generalizing boxes with
  | zero => simp [splitLoop]
  | succ k ih =>
    simp only [splitLoop]
    split
    · omega
    · next c _ =>
      have := ih (boxes.set c.at_ c.lower ++ [c.upper])
      simp only [List.length_append, List.length_set, List.length_singleton] at this
      omega

/-- There are 1 to 16 final boxes (R7, R148). -/
theorem finalBoxes_length {κ β : Type} (D : Domain κ β) (samples : List (κ × Rgb)) (first : β) :
    1 ≤ (finalBoxes D samples first).length ∧ (finalBoxes D samples first).length ≤ 16 := by
  have := splitLoop_length D samples 15 [first]
  simp only [List.length_singleton] at this
  unfold finalBoxes
  omega

/-- There are 1 to 16 ideal colours (R149). -/
theorem idealsOf_length {κ β : Type} (D : Domain κ β) (samples : List (κ × Rgb)) (first : β) :
    1 ≤ (idealsOf D samples first).length ∧ (idealsOf D samples first).length ≤ 16 := by
  simpa [idealsOf] using finalBoxes_length D samples first

/-- What a synthesis does with at most 16 ideal colours: 16 different lattice indices become PAL and
USED, and the registers of R155 are set. -/
theorem synthesize_next (w : Word) (s : State) {ideals : List Rgb} (h : ideals.length ≤ 16) :
    ∃ snapped picks, snapAll s.cfg ideals [] = some snapped ∧
      picks = fillSlots (16 - ideals.length) s.draws snapped ∧
      picks.length = 16 ∧ picks.Nodup ∧ (∀ i ∈ picks, i < 4096) ∧
      synthesize w s ideals = .next { s with
        pal := bufWriteRun s.pal 0 (palCells picks)
        used := bufWriteRun s.used 0 (usedCells picks)
        ncube := BitVec.ofNat 5 ideals.length
        wfill := decide (ideals.length < 16)
        palv := true
        draws := s.draws + (16 - ideals.length) } := by
  obtain ⟨snapped, hs⟩ := exists_snapAll (p := s.cfg) ideals [] (by simp; omega)
  obtain ⟨new, hnew, hl, hm, hn⟩ := snapAll_some hs
  rw [List.nil_append] at hnew
  subst hnew
  obtain ⟨more, he, hml, hmm, hd⟩ :=
    fillSlots_spec (16 - ideals.length) s.draws snapped (by omega)
  refine ⟨snapped, _, hs, rfl, by rw [he]; simp; omega, hd (hn List.nodup_nil), ?_, ?_⟩
  · rw [he]
    intro i hi
    rcases List.mem_append.1 hi with hi | hi
    · exact hm i hi
    · exact hmm i hi
  · simp only [synthesize, hs]

/-- A synthesis with at most 16 ideal colours raises no fault. -/
theorem synthesize_completes (w : Word) (s : State) {ideals : List Rgb} (h : ideals.length ≤ 16) :
    ∃ t, synthesize w s ideals = .next t ∧ t.fault = s.fault := by
  obtain ⟨_, _, _, _, _, _, _, hs⟩ := synthesize_next w s h
  exact ⟨_, hs, rfl⟩

/-- QGEN past its checks is a synthesis from the ideal colours of its boxes (R155). -/
theorem exec_qgen_eq {s : State} {image : List Rgb} (hf : s.fault = false)
    (hg : geomOk s = true) (himg : readImage s = some image) :
    exec .qgen s = synthesize (encode .qgen) s (genIdeals s.cfg image) := by
  simp only [exec, execQgen, gated_of_clear hf, hg, himg, needs_true, needsRead_some]

/-! ### Cells -/

/-- The cells of a canvas (R9, R196). -/
theorem mem_cellList {W H : Nat} {c : Nat × Nat} :
    c ∈ cellList W H ↔ c.1 < cellCols W ∧ c.2 < H := by
  obtain ⟨cx, y⟩ := c
  simp only [cellList, List.mem_flatMap, List.mem_range, List.mem_map, Prod.mk.injEq]
  constructor
  · rintro ⟨_, hy, _, hx, rfl, rfl⟩
    exact ⟨hx, hy⟩
  · rintro ⟨hx, hy⟩
    exact ⟨y, hy, cx, hx, rfl, rfl⟩

theorem cellList_length (W H : Nat) : (cellList W H).length = cellCols W * H := by
  simp [cellList, List.length_flatMap, Nat.mul_comm]

/-- The pixel columns of a cell (R9). -/
theorem mem_cellXs {W cx x : Nat} : x ∈ cellXs W cx ↔ 8 * cx ≤ x ∧ x < 8 * cx + 8 ∧ x < W := by
  simp only [cellXs, List.mem_range'_1]
  omega

/-- Every pixel lies in the cell of its column, and that cell is one of the row's. -/
theorem cell_of_column {W x : Nat} (h : x < W) : x / 8 < cellCols W ∧ x ∈ cellXs W (x / 8) := by
  rw [mem_cellXs]
  unfold cellCols ceilDiv
  omega

/-! ### Files and planes -/

theorem colorsOf_length (n : Nat) (l : List Byte) (h : l.length = 3 * n) :
    (colorsOf l).length = n := by
  induction n generalizing l with
  | zero =>
    have : l = [] := List.length_eq_zero_iff.1 (by simpa using h)
    simp [this, colorsOf]
  | succ n ih =>
    match l, h with
    | r :: g :: b :: rest, h => simp [colorsOf, ih rest (by simp at h; omega)]

theorem readImage_length {s : State} {image : List Rgb} (h : readImage s = some image) :
    image.length = canvasW s * canvasH s := by
  unfold readImage at h
  obtain ⟨l, hl, rfl⟩ := Option.map_eq_some_iff.1 h
  exact colorsOf_length _ _ (by rw [bufReadRun_length hl, Nat.mul_assoc])

theorem transposed_length (W H : Nat) (plane : List Byte) :
    (transposed W H plane).length = cellCols W * paddedRows H := by
  simp [transposed, List.length_flatMap]

/-- A container is ten bytes longer than its size field says (R263). -/
theorem containerImage_length (s : State) (payload : List Byte) {pal : List (BitVec 12)}
    (h : pal.length = 16) :
    (containerImage s payload pal).length = sizeField payload.length + 10 := by
  have hw : ∀ i, (paletteWord s.cfg i).length = 2 := fun i => by
    unfold paletteWord lowFirst
    split <;> rfl
  have hp : (pal.flatMap (paletteWord s.cfg)).length = 32 := by
    simp [List.length_flatMap, hw, h]
  simp [containerImage, containerHeader, paletteBlock, modeBytes, fileFooter, lowFirst, sizeField, hp]
  omega

theorem rawImage_length (plane : List Byte) : (rawImage plane).length = plane.length + 10 := by
  simp [rawImage, fileFooter]

/-! ### The pass of DISP -/

/-- DISP past its checks is its pass (R205). -/
theorem exec_disp_eq {s : State} {weights : List F64} {offsets : List (Int × Int)}
    {pal : List (BitVec 12)} {image : List Rgb} (hf : s.fault = false) (hg : geomOk s = true)
    (hp : s.palv = true) (hk : s.klen.toNat ≤ s.cfg.kmax)
    (hw : readWeights s.krn 0 s.klen.toNat = some weights) (hfin : weights.all f64Finite = true)
    (ho : readOffsets s.krn 0 s.klen.toNat = some offsets) (hpal : readPal s = some pal)
    (himg : readImage s = some image) :
    exec .disp s = dispRun s (dispInputOf s pal offsets weights) image := by
  simp only [exec, execDisp, gated_of_clear hf, hg, hp, hk, hw, hfin, ho, hpal, himg, decide_true,
    needs, needsRead, if_true]

/-- With an empty kernel nothing is propagated (R193). -/
theorem pixelUpdates_no_kernel {c : DispInput} (h : c.kernel = []) (x y : Nat) (q : Color64) :
    pixelUpdates c x y q = [] := by
  simp [pixelUpdates, h]

/-- Where no entry applies anywhere, the pixels of a cell complete. -/
theorem dispPixels_inert {c : DispInput} (h : ∀ x y q, pixelUpdates c x y q = [])
    (ab : Nat × Nat) (y : Nat) (xs : List Nat) (wk : DispWork) :
    ∃ wk', dispPixels c ab y xs wk = .ok wk' := by
  induction xs generalizing wk with
  | nil => exact ⟨wk, rfl⟩
  | cons x xs ih =>
    simp only [dispPixels, dispPixel, h, addErrors]
    exact ih _

/-- Where no entry applies anywhere, the pass completes. -/
theorem dispCells_inert {c : DispInput} (h : ∀ x y q, pixelUpdates c x y q = [])
    (cells : List (Nat × Nat)) (wk : DispWork) : ∃ wk', dispCells c cells wk = .ok wk' := by
  induction cells generalizing wk with
  | nil => exact ⟨wk, rfl⟩
  | cons cell cells ih =>
    obtain ⟨wk', hk⟩ := dispPixels_inert h
      (choosePair c.cfg c.colors
        ((cellXs c.width cell.1).map fun x => effective wk.err c.width x cell.2))
      cell.2 (cellXs c.width cell.1) wk
    simp only [dispCells, dispCell, hk]
    exact ih wk'

/-- The pass stops at its first pixel where an addition of that pixel overflows, whatever index the
pixel gets (R201 (b)). -/
theorem dispPass_stops_at_once {c : DispInput} {image : List Rgb} {err : Buf 64} {idx : Buf 4}
    {cell : Nat × Nat} {cells : List (Nat × Nat)} {x : Nat} {xs : List Nat} {e : Color64}
    (hl : cellList c.width c.height = cell :: cells) (hx : cellXs c.width cell.1 = x :: xs)
    (he : effective (bufWriteRun err 0 (seedValues image)) c.width x cell.2 = e)
    (h : ∀ k, ∃ err', addErrors (bufWriteRun err 0 (seedValues image))
      (pixelUpdates c x cell.2 ⟨f64Sub e.r (colorAt c.colors k).r,
        f64Sub e.g (colorAt c.colors k).g, f64Sub e.b (colorAt c.colors k).b⟩) = .error err') :
    ∃ wk, dispPass c image err idx = .error wk := by
  unfold dispPass
  rw [hl, dispCells, dispCell, hx]
  generalize choosePair c.cfg c.colors _ = ab
  obtain ⟨err', herr⟩ := h (chooseIndex c.colors ab e)
  rw [dispPixels, dispPixel]
  simp only [he, herr]
  exact ⟨_, rfl⟩

end Sys2Proof.Machine
end

