-- ==== Sys2Proof/Tests/Slice0.lean ====
section
/-! SUPPORT. The model's own tests. Expected words and values come from the rules and from
spec/95_test_vectors.md, whose ids stand in the comments; the witnesses at the end show that the
hypotheses of each statement can be met together. -/

namespace Sys2Proof.Tests

set_option Elab.async false

open Sys2Proof Sys2Proof.Machine

/-! ### Helpers -/

/-- After reset, on the example hardware T17. -/
def base : State := { State.reset with cfg := Config.example17 }

/-- Buffer contents from element 0 on. -/
def cells (w : Nat) (l : List Nat) : Buf w := runCells 0 (l.map (BitVec.ofNat w))

/-- The first elements of a buffer. -/
def firstElems {w : Nat} (b : Buf w) (n : Nat) : Option (List Nat) :=
  (bufReadRun b 0 n).map (·.map BitVec.toNat)

/-- The outcome is a next state that passes a check. -/
def runs (o : Out) (good : State → Bool) : Bool :=
  match o with
  | .next t => good t
  | .fault _ => false
  | .refused _ => false

theorem runs_next {o : Out} {good : State → Bool} (h : runs o good = true) :
    ∃ t, o = .next t ∧ good t = true := by
  cases o with
  | next t => exact ⟨t, rfl, h⟩
  | fault _ => cases h
  | refused _ => cases h

/-- The state fell into a fault with this cause and word. -/
def faulted (c w : Nat) (t : State) : Bool :=
  t.fault && decide (t.fcause.toNat = c) && decide (t.finfo.toNat = w)

/-- PAL: black, white, then black (vector DT1). -/
def twoColours : List Nat := [0x000, 0xFFF] ++ List.replicate 14 0x000

/-- A 2 x 1 image, black and white, with every validity flag and small inputs everywhere. -/
def ready : State :=
  { base with
    canvas := 0x00010002
    palv := true
    idxv := true
    plnv := true
    img := cells 8 [0, 0, 0, 255, 255, 255]
    ext := cells 8 ((List.range 16).flatMap fun k => [k, k, k])
    pal := cells 12 twoColours
    idx := cells 4 [3, 12]
    shp := cells 8 [0x40]
    cola := cells 8 [0xA3]
    colb := cells 8 [0xC3]
    tbuf := cells 8 [5, 5, 5, 5, 5, 5, 9]
    tlen := 7
    cbuf := cells 8 [6, 5, 1, 9]
    clen := 4 }

/-! ### WellFormed refuses the ill-formed -/

theorem test_wf_xpose_reserved : Instr.wellFormed (.xpose 3) = false := by decide
theorem test_wf_rawf_reserved : Instr.wellFormed (.rawf 3) = false := by decide
theorem test_wf_legal_planes : Instr.wellFormed (.xpose 2) = true ∧
    Instr.wellFormed (.rawf 0) = true ∧ Instr.wellFormed (.latrd 0xFFF) = true := by decide

/-! ### Decoding: words written out from R90, R91 and R97; section 2 of the vectors -/

theorem test_decode_nop : decodeWord 0b00000000_000000000000_000000000000 = .ok .nop := by decide
theorem test_decode_latrd :
    decodeWord 0b00000001_000000000000_111111111111 = .ok (.latrd 0xFFF) := by decide
theorem test_decode_snap :
    decodeWord 0b00000010_00110010_01100100_11001000 = .ok (.snap 200 100 50) := by decide
theorem test_decode_snapu :
    decodeWord 0b00000011_00000000_00000000_11111111 = .ok (.snapu 255 0 0) := by decide
theorem test_decode_uclr : decodeWord 0b00000100_000000000000000000000000 = .ok .uclr := by decide
theorem test_decode_umark :
    decodeWord 0b00000101_000000000000_101010111100 = .ok (.umark 0xABC) := by decide
theorem test_decode_qgen : decodeWord 0b00010000_000000000000000000000000 = .ok .qgen := by decide
theorem test_decode_qlat : decodeWord 0b00010001_000000000000000000000000 = .ok .qlat := by decide
theorem test_decode_psnapu :
    decodeWord 0b00010010_000000000000000000000000 = .ok .psnapu := by decide
theorem test_decode_psnapn :
    decodeWord 0b00010011_000000000000000000000000 = .ok .psnapn := by decide
theorem test_decode_disp : decodeWord 0b00100000_000000000000000000000000 = .ok .disp := by decide
theorem test_decode_verify :
    decodeWord 0b00100001_000000000000000000000000 = .ok .verify := by decide
theorem test_decode_blkenc :
    decodeWord 0b00100010_000000000000000000000000 = .ok .blkenc := by decide
theorem test_decode_xpose :
    decodeWord 0b00110000_0000000000000000000000_01 = .ok (.xpose 1) := by decide
theorem test_decode_rle :
    decodeWord 0b00110001_0000000000000000000000_1_0 = .ok (.rle false true) := by decide
theorem test_decode_cont : decodeWord 0b00110010_000000000000000000000000 = .ok .cont := by decide
theorem test_decode_rawf :
    decodeWord 0b00110011_0000000000000000000000_10 = .ok (.rawf 2) := by decide
theorem test_decode_illegal :
    decodeWord 0x00000001 = .error .mustBeZero ∧ decodeWord 0x01001000 = .error .mustBeZero ∧
    decodeWord 0x10000100 = .error .mustBeZero ∧ decodeWord 0x14000000 = .error .unknownOpcode ∧
    decodeWord 0x30000004 = .error .mustBeZero ∧ decodeWord 0x31000004 = .error .mustBeZero ∧
    decodeWord 0x33000003 = .error .planeReserved ∧
    decodeWord 0xFFFFFFFF = .error .unknownOpcode := by decide
theorem test_table_word : decodeTableWord 32 0x02563412 = some (.snap 0x12 0x34 0x56) ∧
    decodeTableWord 32 0x33000003 = none := by decide

/-! ### The host's side -/

/-- Section 3: a write of CANVAS clears IDXV and PLNV and keeps PALV. -/
theorem test_canvas_write :
    runs (step { ready with host := [.write 0x14 4 0x00C80140] }) (fun t =>
      decide (canvasW t = 320) && decide (canvasH t = 200) && t.palv && !t.idxv && !t.plnv)
      = true := by decide +kernel
/-- Section 3: a window write takes the element's low bits and moves on. -/
theorem test_window_write :
    runs (step { base with bufsel := 2, bufaddr := 15, host := [.write 0x44 4 0xFFFFFABC] })
      (fun t => decide (bufGet t.pal 15 = some 0xABC) && decide (t.bufaddr = 16)) = true := by
  decide +kernel
/-- Section 3: beyond PAL's capacity a read gives 0, and BUFADDR wraps modulo 2^24. -/
theorem test_window_read_beyond :
    runs (step { base with bufsel := 2, bufaddr := 0xFFFFFF, host := [.read 0x44 4] })
      (fun t => decide (t.readData = 0) && decide (t.bufaddr = 0)) = true := by decide +kernel
/-- R61: an access of another width is no action of the interface. -/
theorem test_byte_access_refused :
    step { base with host := [.read 0x04 1] } = .refused (.notAnAccess 0x04 1) := by rfl
/-- R311: reset ends a fault and keeps the host's queue. -/
theorem test_reset :
    runs (step { ready with fault := true, fcause := 3, host := [.reset, .read 4 4] })
      (fun t => !t.fault && decide (t.fcause = 0) && decide (t.img = []) && !t.palv &&
        decide (t.host = [.read 4 4])) = true := by decide +kernel

/-! ### One step per instruction -/

theorem test_nop : exec .nop base = .next base := by rfl
/-- LT5 and LT6. -/
theorem test_latrd :
    runs (exec (.latrd 0x123) base) (fun t => decide (t.res = 0x00112233)) = true ∧
    runs (exec (.latrd 0xABC) base) (fun t => decide (t.res = 0x00AABBCC)) = true := by
  decide +kernel
/-- SN8. -/
theorem test_snap :
    runs (exec (.snap 200 100 50) base) (fun t => decide (t.res = 0x36C)) = true := by
  decide +kernel
/-- SN14: of the three nearest unused indices the lowest wins. -/
theorem test_snapu_scan :
    snapScan Config.example17 ⟨0, 0, 0⟩ (fun i => i == 0) [0x000, 0x001, 0x010, 0x011, 0x100] none
      = some 0x001 := by decide +kernel
/-- U1: SNAPU needs all of USED. -/
theorem test_snapu_unwritten :
    exec (.snapu 0 0 0) base = .fault (.unwrittenElement .used) := by rfl
/-- R175. -/
theorem test_uclr :
    runs (exec .uclr { base with used := [(5, 1)] }) (fun t =>
      decide (bufGet t.used 0 = some 0) && decide (bufGet t.used 5 = some 0)) = true := by
  decide +kernel
/-- R176. -/
theorem test_umark :
    runs (exec (.umark 0xABC) { base with used := [(5, 1)] }) (fun t =>
      decide (t.used = [(5, 1), (0xABC, 1)])) = true := by decide +kernel
/-- Q6: the split at red bin 0 and the ideal colours. -/
theorem test_qgen_ideals :
    genIdeals Config.example17
      [⟨0, 0, 0⟩, ⟨0, 0, 0⟩, ⟨0, 0, 0⟩, ⟨16, 0, 0⟩, ⟨31, 0, 0⟩, ⟨31, 0, 0⟩]
      = [⟨0, 0, 0⟩, ⟨26, 0, 0⟩] := by decide +kernel
/-- Section 6, faults: BADGEOM with no canvas. -/
theorem test_qgen_badgeom :
    runs (exec .qgen base) (fun t => faulted 3 0x10000000 t && !t.palv) = true := by
  decide +kernel
/-- R288 for QLAT, one column too many. -/
theorem test_qlat_badgeom :
    runs (exec .qlat { ready with canvas := 0x00010141 }) (faulted 3 0x11000000) = true := by
  decide +kernel
/-- R151: a draw is never an index already taken, whatever it is. -/
theorem test_draw (d : Nat) : drawUnused [0x000, 0xFFF] d ∉ [0x000, 0xFFF] :=
  (drawUnused_mem d (by decide)).2
theorem test_psnapu_unwritten : exec .psnapu base = .fault (.unwrittenElement .ext) := by rfl
theorem test_psnapn_unwritten : exec .psnapn base = .fault (.unwrittenElement .ext) := by rfl
/-- R12: 255 * 255 + 0.1 is rounded once, and the largest finite number times 255 overflows. -/
theorem test_binary64 :
    f64Mul 0x406FE00000000000 0x406FE00000000000 = 0x40EFC02000000000 ∧
    f64Add 0x40EFC02000000000 0x3FB999999999999A = 0x40EFC02333333333 ∧
    f64Finite (f64Mul 0x406FE00000000000 0x7FEFFFFFFFFFFFFF) = false := by decide +kernel
/-- DF4: a weight of +infinity. -/
theorem test_disp_kernel :
    runs (exec .disp { ready with klen := 1, krn := cells 32 [1, 0, 0x7FF00000, 0] })
      (fun t => faulted 6 0x20000000 t && t.idxv && decide (t.idx = ready.idx)) = true := by
  decide +kernel
/-- V1. -/
theorem test_verify :
    runs (exec .verify { ready with
        canvas := 0x00010010, idx := cells 4 [0, 1, 2, 0, 0, 0, 0, 0, 5, 5, 5, 5, 5, 5, 5, 6] })
      (fun t => decide (t.vcount = 1) && t.wviol && decide (t.vlog = [(0, 0x30000000)])) = true := by
  decide +kernel
/-- V4: the short cell counts for itself. -/
theorem test_verify_short_cell :
    runs (exec .verify { ready with
        canvas := 0x0001000A, wviol := true, idx := cells 4 [0, 0, 0, 0, 0, 0, 0, 0, 1, 2] })
      (fun t => decide (t.vcount = 0) && !t.wviol && decide (t.vlog = [])) = true := by
  decide +kernel
/-- Section 9: 15 8 15 8 15 8 15 8. -/
theorem test_blkenc :
    runs (exec .blkenc { ready with
        canvas := 0x00010008, plnv := false, idx := cells 4 [15, 8, 15, 8, 15, 8, 15, 8] })
      (fun t => decide (t.shp = [(0, 0x55)]) && decide (t.cola = [(0, 0xC7)]) &&
        decide (t.colb = [(0, 0x8F)]) && t.plnv) = true := by decide +kernel
/-- Section 9: the short cell 7 7 7 under `UNIFORM_FG = zero`. -/
theorem test_blkenc_zero :
    runs (exec .blkenc { ready with
        cfg := { Config.example17 with uniformFg := .zero }
        canvas := 0x00010003, idx := cells 4 [7, 7, 7] })
      (fun t => decide (t.shp = [(0, 0x00)]) && decide (t.cola = [(0, 0x07)]) &&
        decide (t.colb = [(0, 0x07)])) = true := by decide +kernel
/-- Section 10: 20 x 2. -/
theorem test_xpose :
    runs (exec (.xpose 0) { ready with
        canvas := 0x00020014, shp := cells 8 [0x11, 0x12, 0x13, 0x21, 0x22, 0x23] })
      (fun t => decide (t.tlen = 24) && decide (firstElems t.tbuf 24 = some
        ([0x11, 0x21, 0, 0, 0, 0, 0, 0] ++ [0x12, 0x22, 0, 0, 0, 0, 0, 0] ++
          [0x13, 0x23, 0, 0, 0, 0, 0, 0]))) = true := by decide +kernel
/-- R92: the ill-formed selector is an illegal word. -/
theorem test_xpose_reserved :
    runs (exec (.xpose 3) ready) (faulted 1 0x30000003) = true := by decide +kernel
/-- S1, with a terminator. -/
theorem test_rle :
    runs (exec (.rle true false) ready) (fun t =>
      decide (t.clen = 6) && decide (firstElems t.cbuf 6 = some [6, 5, 1, 9, 0, 0])) = true := by
  decide +kernel
/-- Section 10, faults: CCAP = 4. -/
theorem test_rle_alloc :
    runs (exec (.rle false false) { ready with
        cfg := { Config.example17 with ccap := 4 }, tbuf := cells 8 [1, 2, 3], tlen := 3 })
      (fun t => faulted 4 0x31000000 t && decide (t.clen = 0) &&
        decide (firstElems t.cbuf 4 = some [0, 3, 1, 2])) = true := by decide +kernel
/-- CT2: an odd payload. -/
theorem test_cont :
    runs (exec .cont { ready with
        canvas := 0x00010008, cbuf := cells 8 [6, 5, 1, 9, 0], clen := 5
        mode0 := 0x04030201, mode1 := 0x05
        pal := cells 12 ((List.range 16).map fun k => 0x111 * k) })
      (fun t => decide (t.flen = 58) && decide (firstElems t.fbuf 23 = some
        ([0, 0, 0x30, 0, 0, 0, 0, 0] ++ [6, 5, 1, 9, 0, 0] ++ [1, 2, 3, 4, 5] ++
          [0x00, 0x00, 0x11, 0x01]))) = true := by decide +kernel
/-- CT6. -/
theorem test_cont_sizeovf :
    runs (exec .cont { ready with cfg := { Config.example17 with ccap := 65493 }, clen := 65493 })
      (fun t => faulted 8 0x32000000 t && decide (t.flen = 0)) = true := by decide +kernel
/-- RF1. -/
theorem test_rawf :
    runs (exec (.rawf 0) { ready with
        canvas := 0x00020010, shp := cells 8 [0x0F, 0x0F, 0x07, 0x1F] })
      (fun t => decide (t.flen = 14) && decide (firstElems t.fbuf 14 = some
        [0x00, 0x1F, 0x40, 0x00, 0x00, 0x0F, 0x0F, 0x07, 0x1F, 0xFF, 0, 0, 0, 0])) = true := by
  decide +kernel

/-! ### DISP on small images -/

/-- What DISP reads from `ready`. -/
def readyInput : DispInput :=
  dispInputOf ready (twoColours.map (BitVec.ofNat 12)) [] []

theorem exec_disp_ready :
    exec .disp ready = dispRun ready readyInput [⟨0, 0, 0⟩, ⟨255, 255, 255⟩] :=
  exec_disp_eq (weights := []) (offsets := []) rfl (by decide +kernel) rfl (by decide +kernel)
    (by decide +kernel) rfl (by decide +kernel) (by decide +kernel) (by decide +kernel)

/-- R191: word 0 is `dy` high and `dx` low, words 1 and 2 the weight's low and high half. -/
theorem test_kernel_entry :
    kernelEntryAt (cells 32 [0x0001FFFF, 1, 0x3FE00000, 0, 0xFFFE0003, 0, 0, 0]) 0
      = ⟨-1, 1, 0x3FE0000000000001⟩ ∧
    kernelEntryAt (cells 32 [0x0001FFFF, 1, 0x3FE00000, 0, 0xFFFE0003, 0, 0, 0]) 1
      = ⟨3, -2, 0⟩ := by decide +kernel
/-- R200: half of an error of 2 goes one pixel right of (0, 0), and to no other pixel. -/
theorem test_spread :
    let v := (PassView.mk (fun _ _ _ => 0) (fun _ _ => none) false).spread 2 1 0 0
      ⟨0x4000000000000000, 0, 0⟩ ⟨1, 0, 0x3FE0000000000000⟩
    v.err 0 1 0 = 0x3FF0000000000000 ∧ v.err 0 0 0 = 0 ∧ v.err 1 0 0 = 0 ∧ v.stopped = false := by
  decide +kernel

/-- DISP completes on `ready`: it has no kernel. -/
theorem disp_ready : ∃ t, exec .disp ready = .next t ∧ t.fault = false ∧ t.idxv = true := by
  obtain ⟨wk, hw⟩ : ∃ wk, dispPass readyInput [⟨0, 0, 0⟩, ⟨255, 255, 255⟩] ready.err ready.idx
      = .ok wk := dispCells_inert (pixelUpdates_no_kernel rfl) _ _
  refine ⟨{ ready with err := wk.err, idx := wk.idx, idxv := true }, ?_, rfl, rfl⟩
  rw [exec_disp_ready, dispRun, hw]

/-- DF5: two white pixels, a black palette, and the largest finite number as the weight. -/
def overflowing : State :=
  { ready with
    img := cells 8 [255, 255, 255, 255, 255, 255]
    pal := cells 12 (List.replicate 16 0)
    klen := 1
    krn := cells 32 [0x00000001, 0xFFFFFFFF, 0x7FEFFFFF, 0] }

/-- What DISP reads from `overflowing`. -/
def overflowingInput : DispInput :=
  dispInputOf overflowing (List.replicate 16 0) [(1, 0)] [0x7FEFFFFFFFFFFFFF]

theorem exec_disp_overflowing : exec .disp overflowing =
    dispRun overflowing overflowingInput [⟨255, 255, 255⟩, ⟨255, 255, 255⟩] :=
  exec_disp_eq (weights := [0x7FEFFFFFFFFFFFFF]) (offsets := [(1, 0)]) rfl (by decide +kernel)
    rfl (by decide +kernel) (by decide +kernel) (by decide +kernel) (by decide +kernel)
    (by decide +kernel) (by decide +kernel)

/-- Every palette colour is black. -/
theorem overflowing_color (k : Nat) : colorAt overflowingInput.colors k = ⟨0, 0, 0⟩ := by
  have hc : overflowingInput.colors = List.replicate 16 ⟨0, 0, 0⟩ := by decide +kernel
  have h0 : (⟨f64OfNat 0, f64OfNat 0, f64OfNat 0⟩ : Color64) = ⟨0, 0, 0⟩ := by decide +kernel
  rw [hc, colorAt, List.getD_eq_getElem?_getD, List.getElem?_replicate, h0]
  split <;> rfl

/-- ERR as DISP seeds it here. -/
def overflowingErr : Buf 64 := bufWriteRun [] 0 (seedValues [⟨255, 255, 255⟩, ⟨255, 255, 255⟩])

/-- The error of a white pixel that got black. -/
def whiteError : Color64 :=
  ⟨f64Sub 0x406FE00000000000 0, f64Sub 0x406FE00000000000 0, f64Sub 0x406FE00000000000 0⟩

/-- 255 times the largest finite number is not finite (R201). -/
theorem overflowing_add :
    addErrors overflowingErr (pixelUpdates overflowingInput 0 0 whiteError)
      = .error overflowingErr := by
  have hu : pixelUpdates overflowingInput 0 0 whiteError = (3, whiteError.r, 0x7FEFFFFFFFFFFFFF) ::
      (pixelUpdates overflowingInput 0 0 whiteError).tail := by decide +kernel
  have hf : f64Finite (f64Add (errGet overflowingErr 3) (f64Mul whiteError.r 0x7FEFFFFFFFFFFFFF))
      = false := by decide +kernel
  rw [hu, addErrors, hf]
  rfl

/-- DF5: the first addition overflows, whichever of the black entries is chosen. -/
theorem disp_overflowing :
    ∃ t, exec .disp overflowing = .next t ∧ t.fault = true ∧ t.fcause = causeCode .numeric ∧
      t.idxv = false := by
  obtain ⟨wk, hw⟩ : ∃ wk, dispPass overflowingInput [⟨255, 255, 255⟩, ⟨255, 255, 255⟩]
      overflowing.err overflowing.idx = .error wk :=
    dispPass_stops_at_once (cell := (0, 0)) (cells := []) (x := 0) (xs := [1])
      (e := ⟨0x406FE00000000000, 0x406FE00000000000, 0x406FE00000000000⟩)
      (by decide +kernel) (by decide +kernel) (by decide +kernel)
      (fun k => ⟨overflowingErr, by rw [overflowing_color k]; exact overflowing_add⟩)
  refine ⟨raiseFault .numeric (encode .disp)
    { overflowing with err := wk.err, idx := wk.idx, idxv := false }, ?_, rfl, rfl, rfl⟩
  rw [exec_disp_overflowing, dispRun, hw]

/-! ### The hypotheses of the statements can be met

One theorem per statement that has hypotheses, at boundary values where a clause has a range. -/

/-- A step with one host action pending. -/
def acting (s : State) (a : HostAction) : State := { s with host := [a] }

theorem witness_StepRunsTheDecodedCommand :
    (acting base (cmdWrite 0x01000123)).host = cmdWrite 0x01000123 :: [] ∧
    decodeWord 0x01000123 = .ok (.latrd 0x123) ∧ Instr.wellFormed (.latrd 0x123) = true :=
  ⟨rfl, by decide, rfl⟩

theorem witness_IllegalWordFaults :
    decodeWord 0x30000003 = .error .planeReserved ∧ base.fault = false := ⟨by decide, rfl⟩

theorem witness_FaultedBlockIgnoresCommands :
    ({ ready with fault := true, fcause := 3 } : State).fault = true := rfl

theorem witness_FaultStaysUntilReset :
    (∃ t, step (acting { ready with fault := true, fcause := 3 } (.write 0x08 4 0)) = .next t) ∧
    (HostAction.write 0x08 4 0 ≠ .reset) ∧ (acting ready .reset).host = .reset :: [] :=
  ⟨⟨_, rfl⟩, by decide, rfl⟩

/-- BADGEOM, NUMERIC, and the causes that zero a length. -/
theorem witness_FaultEntryIsPrecise :
    (∃ t, exec .qgen base = .next t ∧ t.fault = true) ∧
    (∃ t, exec .disp overflowing = .next t ∧ t.fault = true ∧ t.fcause = causeCode .numeric) ∧
    (∃ t, exec (.xpose 0) { ready with cfg := { Config.example17 with tcap := 7 } } = .next t ∧
      t.fault = true) ∧
    (∃ t, exec (.rle false false) { ready with cfg := { Config.example17 with ccap := 3 } } = .next t
      ∧ t.fault = true) ∧
    ∃ t, exec .cont { ready with cfg := { Config.example17 with fcap := 55 } } = .next t ∧
      t.fault = true := by
  refine ⟨runs_next (good := fun t => t.fault) (by decide +kernel), ?_,
    runs_next (good := fun t => t.fault) (by decide +kernel),
    runs_next (good := fun t => t.fault) (by decide +kernel),
    runs_next (good := fun t => t.fault) (by decide +kernel)⟩
  obtain ⟨t, h, hf, hc, _⟩ := disp_overflowing
  exact ⟨t, h, hf, hc⟩

/-- The geometry bounds of the example hardware are 320 and 200: one beyond each, and 0. -/
theorem witness_BadGeometryFaults :
    Instr.wellFormed .qgen = true ∧ usesCanvas .qgen = true ∧ base.fault = false ∧
    (([0x00010141, 0x00C90140, 0x00010000, 0x00000001] : List Word).all fun v =>
      !decide (1 ≤ (v.extractLsb' 0 16).toNat ∧ (v.extractLsb' 0 16).toNat ≤ base.cfg.wmax ∧
          1 ≤ (v.extractLsb' 16 16).toNat ∧ (v.extractLsb' 16 16).toNat ≤ base.cfg.hmax)) = true ∧
    usesCanvas (.rle false false) = false ∧
    ∃ t, exec (.rle false false) { ready with tlen := 8001 } = .next t ∧ t.fault = true :=
  ⟨rfl, rfl, rfl, by decide +kernel, rfl, runs_next (good := fun t => t.fault) (by decide +kernel)⟩

theorem witness_MissingInputFaults :
    ∀ i ∈ [Instr.disp, .verify, .blkenc, .xpose 2, .cont, .rawf 0],
      i.wellFormed = true ∧ geomOk { ready with palv := false, idxv := false, plnv := false } = true ∧
      requiredFlag { ready with palv := false, idxv := false, plnv := false } i = false := by
  decide +kernel

/-- One byte short, for each of the four buffers. -/
theorem witness_OutputThatDoesNotFitFaults :
    (geomOk ready = true ∧ ready.palv = true ∧ ready.plnv = true ∧ ready.fault = false) ∧
    7 + 1 = cellCols (canvasW ready) * paddedRows (canvasH ready) ∧
    10 + 1 = cellCols (canvasW ready) * canvasH ready + 10 ∧
    (sizeField ready.clen.toNat ≤ 65535 ∧ 55 + 1 = sizeField ready.clen.toNat + 10) ∧
    bufReadRun ready.tbuf 0 ready.tlen.toNat = some [5, 5, 5, 5, 5, 5, 9] ∧
    3 + 1 = rleStart false ready + (rleOutput 255 false [5, 5, 5, 5, 5, 5, 9]).length := by
  decide +kernel

theorem witness_BadLengthFaults :
    base.cfg.tcap < ({ ready with tlen := 8001 } : State).tlen.toNat ∧
    base.cfg.ccap < ({ ready with clen := 16003 } : State).clen.toNat ∧
    geomOk { ready with clen := 16003 } = true ∧ ready.palv = true ∧ ready.fault = false := by
  decide +kernel

/-- Four entries, the last with an infinite weight; and one entry too many. -/
def badKernel : State :=
  { ready with
    klen := 4
    krn := cells 32 [1, 0, 0, 0, 1, 0, 0, 0, 1, 0, 0, 0, 1, 0, 0x7FF00000, 0] }

theorem witness_BadKernelFaults :
    (geomOk badKernel = true ∧ badKernel.palv = true ∧ badKernel.fault = false) ∧
    badKernel.cfg.kmax < ({ badKernel with klen := 5 } : State).klen.toNat ∧
    badKernel.klen.toNat ≤ badKernel.cfg.kmax ∧
    (∀ j < badKernel.klen.toNat, (bufGet badKernel.krn (4 * j + 1)).isSome = true ∧
      (bufGet badKernel.krn (4 * j + 2)).isSome = true) ∧
    bufGet badKernel.krn (4 * 3 + 2) = some 0x7FF00000 ∧
    (0x7FF00000 : BitVec 32).extractLsb' 20 11 = 0x7FF := by decide +kernel

/-- The least length that overflows, in a CBUF that holds it. -/
def longStream : State :=
  { ready with cfg := { Config.example17 with ccap := 65493 }, clen := 65493 }

/-- One byte fewer, in a file buffer with no room for it. -/
def nearlyLongStream : State := { longStream with clen := 65492 }

theorem witness_SizeOverflowFaults :
    (longStream.fault = false ∧ geomOk longStream = true ∧ longStream.palv = true ∧
      longStream.clen.toNat ≤ longStream.cfg.ccap ∧ 65493 ≤ longStream.clen.toNat) ∧
    (nearlyLongStream.fault = false ∧ nearlyLongStream.clen.toNat < 65493 ∧
      ∃ t, exec .cont nearlyLongStream = .next t ∧ t.fault = true) :=
  ⟨by decide +kernel, rfl, by decide +kernel,
    runs_next (good := fun t => t.fault) (by decide +kernel)⟩

theorem witness_ResetClearsEverything : (acting ready .reset).host = .reset :: [] := rfl

theorem stateWf_acting (a : HostAction) : StateWf (acting base a) where
  config := by show Config.example17.Lawful; decide
  buffers := ⟨fun b => by cases b <;> exact bufWf_nil _, bufWf_nil _⟩
  status :=
    { causeWhileFaulted := fun h => by cases h
      clearWhileNot := fun _ => ⟨rfl, rfl⟩
      resRange := by show (0 : Word).toNat < _; decide
      ncubeRange := by show (0 : BitVec 5).toNat ≤ _; decide
      fillWarning := fun h => by cases h
      violWarning := rfl
      vcountRange := by show (0 : Word).toNat ≤ _; decide
      flenRange := Nat.zero_le _ }

theorem witness_StepKeepsTheInvariant :
    StateWf (acting base (cmdWrite 0x05000ABC)) ∧
    ∃ t, step (acting base (cmdWrite 0x05000ABC)) = .next t ∧ bufGet t.used 0xABC = some 1 := by
  refine ⟨stateWf_acting _, ?_⟩
  obtain ⟨t, h, hg⟩ := runs_next (o := step (acting base (cmdWrite 0x05000ABC)))
    (good := fun t => decide (bufGet t.used 0xABC = some 1)) (by decide +kernel)
  exact ⟨t, h, of_decide_eq_true hg⟩

theorem witness_RegisterReads : ∀ off ∈ [0x00, 0x04, 0x40, 0x48, 0xFC],
    (acting base (.read off 4)).host = .read off 4 :: [] ∧ off % 4 = 0 ∧ off < 256 ∧ off ≠ 0x44 := by
  decide

theorem witness_WrittenRegisterReadsBack :
    (0x40, 0xFFFFFF) ∈ ([(0x08, 0x7), (0x14, 0xFFFFFFFF), (0x18, 0xFFFF), (0x28, 0xFFFFFFFF),
      (0x2C, 0xFFFFFFFF), (0x34, 0xFFFFFFFF), (0x38, 0xFF), (0x3C, 0xF),
      (0x40, 0xFFFFFF)] : List (Nat × Word)) ∧
    ({ base with host := [.write 0x40 4 0xFFFFFFFF, .read 0x40 4] } : State).host
      = .write 0x40 4 0xFFFFFFFF :: .read 0x40 4 :: [] := ⟨by decide, rfl⟩

theorem witness_ReadOnlyWritesAreIgnored : ∀ off ∈ [0x04, 0x30, 0x48, 0xFC],
    (acting base (.write off 4 1)).host = .write off 4 1 :: [] ∧ off % 4 = 0 ∧ off < 256 ∧
    (off ∈ [0x04, 0x0C, 0x10, 0x1C, 0x20, 0x24, 0x30] ∨ 0x48 ≤ off) := by decide

theorem witness_CanvasWriteClearsResults :
    (acting ready (.write 0x14 4 0)).host = .write 0x14 4 0 :: [] := rfl

/-- PAL's last element is 15; element 16 is beyond it; no host write reaches FBUF. -/
theorem witness_WindowWriteStoresOneElement :
    (bufIdOf 2 = some .pal ∧ BufId.pal.hostWrites = true ∧ bufCap base.cfg .pal = 15 + 1) ∧
    (BufId.fbuf.hostWrites = false ∧ bufIdOf 11 = some .fbuf ∧ bufIdOf 13 = none) := by decide

theorem witness_WindowReadReturnsTheElement :
    (bufIdOf 2 = some .pal ∧ bufCap base.cfg .pal = 15 + 1) ∧
    readElem ready .pal 15 = some 0 ∧ readElem base .pal 15 = none ∧ bufIdOf 13 = none :=
  ⟨by decide, by decide +kernel, rfl, by decide⟩

theorem witness_OtherAccessesAreRefused :
    ∀ q ∈ ([(0, 2), (2, 4), (256, 4)] : List (Nat × Nat)),
      ¬ (q.2 = 4 ∧ q.1 % 4 = 0 ∧ q.1 < 256) := by decide

theorem witness_FaultedBlockStillAnswers :
    HostAction.read 0x14 4 ≠ .reset ∧ HostAction.read 0x14 4 ≠ .read 0x04 4 ∧
    (∀ w, HostAction.read 0x14 4 ≠ cmdWrite w) ∧
    ∃ t, step (acting ready (.read 0x14 4)) = .next t :=
  ⟨by decide, by decide, fun w h => HostAction.noConfusion h, ⟨_, rfl⟩⟩

theorem witness_LatticeFacts : Config.example17.Lawful := by decide

theorem witness_LatrdCompletes : base.cfg.Lawful ∧ base.fault = false := ⟨by decide +kernel, rfl⟩

theorem witness_SnapSeparatesByChannel :
    Config.example17.Lawful ∧ noneUsed 4095 = false ∧
    leastLevel Config.levels17 200 12 ∧ leastLevel Config.levels17 8 0 ∧
    leastLevel Config.levels17 255 15 := by
  refine ⟨by decide, rfl, ?_, ?_, ?_⟩ <;> unfold leastLevel <;> decide +kernel

theorem witness_SnapCompletes : base.fault = false := rfl

/-- A used set of 4096 equal elements. -/
def allUsed (v : BitVec 1) : State := { base with used := runCells 0 (List.replicate 4096 v) }

theorem allUsed_get (v : BitVec 1) {i : Nat} (h : i < 4096) :
    bufGet (allUsed v).used i = some v := by
  rw [allUsed, bufGet_runCells, if_pos (Nat.zero_le i), List.getElem?_replicate, if_pos (by omega)]

theorem witness_SnapuCompletes :
    (written (allUsed 0).used 4096 ∧ ∃ i < 4096, bufGet (allUsed 0).used i = some 0) ∧
    written (allUsed 1).used 4096 ∧ ∀ i < 4096, bufGet (allUsed 1).used i = some 1 :=
  ⟨⟨fun i h => by rw [allUsed_get 0 h]; rfl, 4095, by omega, allUsed_get 0 (by omega)⟩,
    fun i h => by rw [allUsed_get 1 h]; rfl, fun _ h => allUsed_get 1 h⟩

theorem witness_UsedSetCommandsComplete : base.fault = false := rfl

theorem witness_PsnapuCompletes : ready.fault = false ∧ written ready.ext 48 :=
  ⟨rfl, by decide +kernel⟩

theorem witness_PsnapnCompletes : ready.fault = false ∧ written ready.ext 48 :=
  witness_PsnapuCompletes

theorem readImage_ready : readImage ready = some [⟨0, 0, 0⟩, ⟨255, 255, 255⟩] := by
  decide +kernel

theorem geomOk_ready : geomOk ready = true := by decide +kernel

theorem witness_QgenCompletes :
    ready.fault = false ∧ geomOk ready = true ∧
    readImage ready = some [⟨0, 0, 0⟩, ⟨255, 255, 255⟩] := ⟨rfl, geomOk_ready, readImage_ready⟩

theorem witness_QlatCompletes :
    ready.fault = false ∧ geomOk ready = true ∧
    readImage ready = some [⟨0, 0, 0⟩, ⟨255, 255, 255⟩] := witness_QgenCompletes

theorem witness_PaletteIsUnique :
    ready.fault = false ∧ ready.cfg.Lawful ∧ ∃ t, exec .qgen ready = .next t ∧ t.fault = false := by
  obtain ⟨t, h, hf⟩ := synthesize_completes (encode .qgen) ready
    (ideals := genIdeals ready.cfg [⟨0, 0, 0⟩, ⟨255, 255, 255⟩]) (idealsOf_length _ _ _).2
  exact ⟨rfl, by decide +kernel, t,
    (exec_qgen_eq rfl geomOk_ready readImage_ready).trans h, hf⟩

theorem witness_BoxesPartitionTheImage :
    (([⟨255, 0, 16⟩] : List Rgb) ≠ [] ∧
      ∀ c ∈ ([⟨255, 0, 16⟩] : List Rgb), c.r < 256 ∧ c.g < 256 ∧ c.b < 256) ∧
    ([(4095, ⟨255, 255, 255⟩)] : List (Nat × Rgb)) ≠ [] ∧
    ∀ x ∈ ([(4095, ⟨255, 255, 255⟩)] : List (Nat × Rgb)), x.1 < 4096 := by decide

/-- Two bins, 0 and 3. -/
def twoBins : List (Nat × Rgb) := [(0, ⟨0, 0, 0⟩), (3, ⟨9, 0, 0⟩)]

/-- The last cut of the box 0..3: both children hold a pixel. And a cut of the first box of QGEN. -/
theorem witness_GainOfACut :
    (∀ k, latDomain.contains (0, 3) k =
      (latDomain.contains (0, 2) k || latDomain.contains (3, 3) k)) ∧
    (∀ k, ¬ (latDomain.contains (0, 2) k = true ∧ latDomain.contains (3, 3) k = true)) ∧
    0 < (momentsOf (latDomain.contains (0, 2)) twoBins).n ∧
    0 < (momentsOf (latDomain.contains (3, 3)) twoBins).n ∧
    ((0, 2), (3, 3)) ∈ latDomain.cuts (0, 3) ∧
    ({ genFirst with r1 := 14 }, { genFirst with r0 := 15 })
      ∈ (genDomain Config.example17).cuts genFirst := by
  refine ⟨fun k => ?_, fun k h => ?_, by decide, by decide, by decide, by decide⟩
  · simp only [latDomain, ← Bool.decide_or, decide_eq_decide]
    omega
  · simp only [latDomain, decide_eq_true_eq] at h
    omega

/-- There is a best candidate; a box of one bin on the longest axis; and the default axis. -/
theorem witness_SplitSearchTakesTheFirstMaximum :
    (∃ c, pickSplit (allSplits latDomain twoBins [(0, 3)]) none = some c ∧ c.lower = (0, 0)) ∧
    ((⟨3, 3, 4, 5, 6, 7⟩ : GenBox).r0 ≤ 3 ∧ (⟨3, 3, 4, 5, 6, 7⟩ : GenBox).g0 ≤ 5 ∧
      (⟨3, 3, 4, 5, 6, 7⟩ : GenBox).b0 ≤ 7) ∧
    Config.example17.axisTable = [] :=
  ⟨⟨⟨0, (0, 0), (1, 3), 81 / 2⟩, by decide +kernel, rfl⟩, by decide, rfl⟩

theorem witness_OneColourImageGivesOneBox :
    ∃ i, snap Config.example17 ⟨255, 255, 255⟩ (fun _ => false) = some i :=
  exists_snap _ (i := 0) (by omega) rfl

/-- The largest finite number with itself overflows, with 0 it does not. -/
theorem witness_BinaryArithmeticRoundsToNearestEven :
    f64Finite 0x7FEFFFFFFFFFFFFF = true ∧ f64Finite 0 = true ∧
    f64Finite (f64Add 0x7FEFFFFFFFFFFFFF 0x7FEFFFFFFFFFFFFF) = false ∧
    f64Finite (f64Add 0x7FEFFFFFFFFFFFFF 0) = true ∧
    f64Finite (f64Mul 0x7FEFFFFFFFFFFFFF 0x3FF0000000000000) = true :=
  ⟨by decide +kernel, by decide +kernel, by decide +kernel, by decide +kernel, by decide +kernel⟩

theorem witness_ByteArithmeticIsExact :
    (255 < 256) ∧ (⟨255, 255, 255⟩ : Rgb).r < 256 ∧ (⟨0, 0, 0⟩ : Rgb).r < 256 := by decide

theorem witness_PairSearchIsMinimal :
    (∀ e ∈ ([⟨0, 0, 0⟩, ⟨0x406FE00000000000, 0x406FE00000000000, 0⟩] : List Color64),
      (f64Le (f64OfNat 0) e.r = true ∧ f64Le e.r (f64OfNat 255) = true) ∧
      (f64Le (f64OfNat 0) e.g = true ∧ f64Le e.g (f64OfNat 255) = true) ∧
      (f64Le (f64OfNat 0) e.b = true ∧ f64Le e.b (f64OfNat 255) = true)) ∧
    Config.example17.tieTable = [] := ⟨by decide +kernel, rfl⟩

theorem written_ready : written ready.pal 16 ∧
    written ready.img (3 * canvasW ready * canvasH ready) := by decide +kernel

theorem witness_DispWithoutKernelIsExact :
    ready.cfg.Lawful ∧ ready.fault = false ∧ geomOk ready = true ∧ ready.palv = true ∧
    ready.klen = 0 ∧ written ready.pal 16 ∧
    written ready.img (3 * canvasW ready * canvasH ready) :=
  ⟨by decide +kernel, rfl, geomOk_ready, rfl, rfl, written_ready⟩

/-- One entry, of weight exactly 1. -/
def tame : State := { ready with klen := 1, krn := cells 32 [0x0001FFFF, 0, 0x3FF00000, 0] }

theorem klen_tame {k : Nat} (hk : k < tame.klen.toNat) : k = 0 := by
  have : tame.klen.toNat = 1 := by decide
  omega

/-- A kernel of weight 1 completes, one with the largest finite number does not. -/
theorem witness_DispRunsItsKernel :
    (tame.fault = false ∧ geomOk tame = true ∧ tame.palv = true ∧
      tame.klen.toNat ≤ tame.cfg.kmax ∧ written tame.pal 16 ∧
      written tame.img (3 * canvasW tame * canvasH tame) ∧
      ∀ k < tame.klen.toNat, (∀ i < 3, (bufGet tame.krn (4 * k + i)).isSome = true) ∧
        f64Finite (kernelEntryAt tame.krn k).weight = true) ∧
    (tame.cfg.Lawful ∧
      ∀ k < tame.klen.toNat, f64Mag (kernelEntryAt tame.krn k).weight ≤ 2 ^ 1074) ∧
    overflowing.fault = false ∧ geomOk overflowing = true ∧ overflowing.palv = true ∧
      overflowing.klen.toNat ≤ overflowing.cfg.kmax ∧ written overflowing.pal 16 ∧
      written overflowing.img (3 * canvasW overflowing * canvasH overflowing) ∧
      ∀ k < overflowing.klen.toNat,
        (∀ i < 3, (bufGet overflowing.krn (4 * k + i)).isSome = true) ∧
        f64Finite (kernelEntryAt overflowing.krn k).weight = true := by
  refine ⟨⟨rfl, by decide +kernel, rfl, by decide +kernel, written_ready.1, written_ready.2,
    fun k hk => ?_⟩, ⟨by decide +kernel, fun k hk => ?_⟩, rfl, by decide +kernel, rfl,
    by decide +kernel, by decide +kernel, by decide +kernel, fun k hk => ?_⟩
  · obtain rfl := klen_tame hk; decide +kernel
  · obtain rfl := klen_tame hk; decide +kernel
  · obtain rfl : k = 0 := klen_tame hk
    decide +kernel

theorem witness_ClashInvariant :
    ready.fault = false ∧ (∃ t, exec .disp ready = .next t ∧ t.fault = false) ∧
    0 < cellCols (canvasW ready) ∧ 0 < canvasH ready := by
  obtain ⟨t, h, hf, _⟩ := disp_ready
  exact ⟨rfl, ⟨t, h, hf⟩, by decide +kernel, by decide +kernel⟩

theorem witness_VerifyAfterDispFindsNothing :
    ready.fault = false ∧ ∃ t later : State, exec .disp ready = .next t ∧ t.fault = false ∧
      later.idx = t.idx ∧ later.canvas = t.canvas ∧ later.cfg = t.cfg ∧ later.idxv = true ∧
      later.fault = false ∧ later.klen = 5 := by
  obtain ⟨t, h, hf, hv⟩ := disp_ready
  exact ⟨rfl, t, { t with klen := 5 }, h, hf, rfl, rfl, rfl, hv, hf, rfl⟩

/-- Both pixels white, the colour of palette entry 1 alone. -/
def uniform : State := { ready with img := cells 8 [255, 255, 255, 255, 255, 255] }

/-- White. -/
def white : Rgb := ⟨255, 255, 255⟩

/-- What DISP reads from `uniform` with one kernel entry. -/
def uniformInput (dx dy : Int) : DispInput :=
  dispInputOf uniform (twoColours.map (BitVec.ofNat 12)) [(dx, dy)] [0x3FE0000000000000]

/-- The palette of `uniform`. -/
theorem uniform_colors (k : Nat) (h : k < 16) : colorAt (uniformInput 1 0).colors k =
    color64Of (if k = 1 then white else ⟨0, 0, 0⟩) := by
  revert k
  decide +kernel

/-- A cell with its source colours in ERR, under an entry that applies at its first pixel. -/
theorem witness_UniformCellIsStable :
    let d := uniformInput 1 0
    let wk : DispWork := ⟨bufWriteRun [] 0 (seedValues [white, white]), uniform.idx⟩
    (white.r < 256 ∧ white.g < 256 ∧ white.b < 256) ∧
    (∀ k < 16, ∃ e : Rgb, e.r < 256 ∧ e.g < 256 ∧ e.b < 256 ∧
      colorAt d.colors k = color64Of e) ∧
    (d.kernel.any (entryApplies d.width d.height 0 0) = true ∧
      ∀ e ∈ d.kernel, f64Finite e.weight = true) ∧
    (∀ j < 3 * d.width * d.height, f64Finite (errGet wk.err j) = true) ∧
    (1 < 16 ∧ colorAt d.colors 1 = color64Of white) ∧
    (∀ k < 1, colorAt d.colors k ≠ color64Of white) ∧
    cellXs d.width 0 ≠ [] ∧
    ∀ x ∈ cellXs d.width 0, effective wk.err d.width x 0 = color64Of white ∧
      errGet wk.err (3 * (0 * d.width + x)) = f64OfNat white.r ∧
      errGet wk.err (3 * (0 * d.width + x) + 1) = f64OfNat white.g ∧
      errGet wk.err (3 * (0 * d.width + x) + 2) = f64OfNat white.b :=
  ⟨by decide, fun k h => ⟨_, by split <;> decide, by split <;> decide, by split <;> decide,
      uniform_colors k h⟩,
    by decide +kernel, by decide +kernel, by decide +kernel, by decide +kernel, by decide +kernel,
    by decide +kernel⟩

/-- An entry above the row, which applies nowhere (R192). -/
def uniformUp : State := { uniform with klen := 1, krn := cells 32 [0xFFFF0000, 0, 0x3FE00000, 0] }

theorem uniformUp_inert (x y : Nat) (q : Color64) : pixelUpdates (uniformInput 0 (-1)) x y q = [] := by
  have hk : (uniformInput 0 (-1)).kernel = [⟨0, -1, 0x3FE0000000000000⟩] := rfl
  simp [pixelUpdates, hk, entryApplies]

/-- Both clauses over states: no kernel, and a kernel with the first cell. -/
theorem witness_UniformCellIsStable_state :
    (uniform.cfg.Lawful ∧ uniform.fault = false ∧ uniform.klen = 0) ∧
    (∃ t, exec .disp uniform = .next t ∧ t.fault = false) ∧
    (uniformUp.fault = false ∧ uniformUp.klen = 1 ∧
      ∃ t, exec .disp uniformUp = .next t ∧ t.fault = false) ∧
    (0 < cellCols (canvasW uniform) ∧ 0 < canvasH uniform) ∧
    (∀ x ∈ cellXs (canvasW uniform) 0, pixelAt uniform x 0 = paletteRgb uniform 1) ∧
    (∀ k < 1, paletteRgb uniform k ≠ paletteRgb uniform 1) ∧
    (uniform.cfg.tieTable = [] ∧ ∀ k < 16, k ≠ 1 → paletteRgb uniform k ≠ paletteRgb uniform 1) := by
  refine ⟨⟨by decide +kernel, rfl, rfl⟩, ?_, ⟨rfl, rfl, ?_⟩, by decide +kernel, by decide +kernel,
    by decide +kernel, rfl, by decide +kernel⟩
  · have he : exec .disp uniform = dispRun uniform
        (dispInputOf uniform (twoColours.map (BitVec.ofNat 12)) [] []) [white, white] :=
      exec_disp_eq (weights := []) (offsets := []) rfl (by decide +kernel) rfl (by decide +kernel)
        (by decide +kernel) rfl (by decide +kernel) (by decide +kernel) (by decide +kernel)
    obtain ⟨wk, hw⟩ : ∃ wk, dispPass (dispInputOf uniform (twoColours.map (BitVec.ofNat 12)) [] [])
        [white, white] uniform.err uniform.idx = .ok wk :=
      dispCells_inert (pixelUpdates_no_kernel rfl) _ _
    refine ⟨{ uniform with err := wk.err, idx := wk.idx, idxv := true }, ?_, rfl⟩
    rw [he, dispRun, hw]
  · have he : exec .disp uniformUp = dispRun uniformUp (uniformInput 0 (-1)) [white, white] :=
      exec_disp_eq (weights := [0x3FE0000000000000]) (offsets := [(0, -1)]) rfl (by decide +kernel)
        rfl (by decide +kernel) (by decide +kernel) (by decide +kernel) (by decide +kernel)
        (by decide +kernel) (by decide +kernel)
    obtain ⟨wk, hw⟩ : ∃ wk, dispPass (uniformInput 0 (-1)) [white, white] uniformUp.err
        uniformUp.idx = .ok wk := dispCells_inert uniformUp_inert _ _
    refine ⟨{ uniformUp with err := wk.err, idx := wk.idx, idxv := true }, ?_, rfl⟩
    rw [he, dispRun, hw]

theorem witness_ErrorBufferStaysFinite :
    (∃ t, exec .disp ready = .next t ∧ t.fault = false) ∧
    ∃ t, exec .disp overflowing = .next t ∧ t.fcause = causeCode .numeric := by
  obtain ⟨t, h, _, hc, _⟩ := disp_overflowing
  exact ⟨witness_ClashInvariant.2.1, t, h, hc⟩

theorem witness_VerifyCompletes :
    ready.cfg.Lawful ∧ ready.fault = false ∧ geomOk ready = true ∧ ready.idxv = true ∧
    written ready.idx (canvasW ready * canvasH ready) := by decide +kernel

theorem witness_BlkencCompletes :
    ready.fault = false ∧ geomOk ready = true ∧ ready.idxv = true ∧
    written ready.idx (canvasW ready * canvasH ready) := by decide +kernel

theorem witness_CellsAreDecodable :
    1 ≤ ([15, 0] : List Nat).length ∧ ∀ k ∈ ([15, 0] : List Nat), k < 16 ∧ (k = 15 ∨ k = 0) := by
  decide

/-- TBUF just holds the transposed plane. -/
def tightT : State := { ready with cfg := { Config.example17 with tcap := 8 } }

theorem witness_XposeCompletes :
    (2 : BitVec 2) ≠ 3 ∧ tightT.cfg.Lawful ∧ tightT.fault = false ∧ geomOk tightT = true ∧
    tightT.plnv = true ∧
    written (planeBuf tightT 2) (cellCols (canvasW tightT) * canvasH tightT) ∧
    cellCols (canvasW tightT) * paddedRows (canvasH tightT) = tightT.cfg.tcap := by decide +kernel

/-- CBUF just holds the longest output after the stream that is there. -/
def tightC : State := { ready with cfg := { Config.example17 with ccap := 20 } }

theorem witness_RleCompletes :
    tightC.cfg.Lawful ∧ tightC.fault = false ∧ tightC.tlen.toNat ≤ tightC.cfg.tcap ∧
    written tightC.tbuf tightC.tlen.toNat ∧
    rleStart true tightC + (2 * tightC.tlen.toNat + 2) = tightC.cfg.ccap := by decide +kernel

theorem witness_RleRoundTrip :
    ready.cfg.Lawful ∧ ready.fault = false ∧
    (∃ u, exec (.rle true false) ready = .next u ∧ u.fault = false) ∧
    (∃ u, exec (.rle false true) ready = .next u ∧ u.fault = false) ∧
    bufReadRun ready.cbuf 0 ready.clen.toNat = some [6, 5, 1, 9] ∧
    TokenStream [6, 5, 1, 9] [5, 5, 5, 5, 5, 5, 9] := by
  have clear : ∀ {o : Out}, runs o (fun u => !u.fault) = true → ∃ u, o = .next u ∧ u.fault = false :=
    fun h => by
      obtain ⟨u, hu, hf⟩ := runs_next h
      exact ⟨u, hu, by simpa using hf⟩
  exact ⟨by decide +kernel, rfl, clear (by decide +kernel), clear (by decide +kernel),
    by decide +kernel, .repeats 6 5 _ _ (by decide) (.repeats 1 9 _ _ (by decide) .done)⟩

/-- The tokens of S1, and of a run cut at the least `RLE_MAX_RUN`. -/
theorem witness_RleOutputShape :
    (2 ≤ 2 ∧ 2 ≤ 255 ∧ 255 ≤ 255) ∧
    ((∀ k ∈ [RleToken.run 6 5, .run 1 9], tokenInBounds 255 k ∧ segmentHasNoRun k) ∧
      [RleToken.run 6 5, .run 1 9].IsChain (greedyNext 255) ∧
      [RleToken.run 6 5, .run 1 9].flatMap tokenExpansion = [5, 5, 5, 5, 5, 5, 9]) ∧
    (∀ k ∈ [RleToken.run 2 5, .segment [5, 9]], tokenInBounds 2 k ∧ segmentHasNoRun k) ∧
      [RleToken.run 2 5, .segment [5, 9]].IsChain (greedyNext 2) ∧
      [RleToken.run 2 5, .segment [5, 9]].flatMap tokenExpansion = [5, 5, 5, 9] := by
  refine ⟨by decide, ⟨?_, ?_, by decide⟩, ?_, ?_, by decide⟩ <;>
    simp [tokenInBounds, segmentHasNoRun, greedyNext, tokenExpansion, isLiteral]

/-- FBUF just holds the container. -/
def tightF : State := { ready with cfg := { Config.example17 with fcap := 56 } }

theorem witness_ContCompletes :
    tightF.cfg.Lawful ∧ tightF.fault = false ∧ geomOk tightF = true ∧ tightF.palv = true ∧
    tightF.clen.toNat ≤ tightF.cfg.ccap ∧ sizeField tightF.clen.toNat ≤ 65535 ∧
    sizeField tightF.clen.toNat + 10 = tightF.cfg.fcap ∧
    bufReadRun tightF.cbuf 0 tightF.clen.toNat = some [6, 5, 1, 9] ∧
    bufReadRun tightF.pal 0 16 = some (twoColours.map (BitVec.ofNat 12)) := by decide +kernel

theorem witness_RawfCompletes :
    (2 : BitVec 2) ≠ 3 ∧ tightF.cfg.Lawful ∧ tightF.fault = false ∧ geomOk tightF = true ∧
    tightF.plnv = true ∧
    written (planeBuf tightF 2) (cellCols (canvasW tightF) * canvasH tightF) ∧
    cellCols (canvasW tightF) * canvasH tightF + 10 ≤ tightF.cfg.fcap := by decide +kernel

end Sys2Proof.Tests
end

/-! The invariant `StateWf`: it holds at reset and every step keeps it (spec/10_state.md R36, R46, R49). -/

namespace Sys2Proof.Machine

/-! ### The invariant under updates of the state -/

/-- The buffers' part of the invariant speaks of the buffers, ERR and the configuration alone. -/
theorem BuffersWf.congr {s t : State} (h : BuffersWf s) (hb : ∀ b, bufOf t b = bufOf s b)
    (he : t.err = s.err) (hc : t.cfg = s.cfg) : BuffersWf t where
  visible b := by rw [hb, hc]; exact h.visible b
  hidden := by rw [he, hc]; exact h.hidden

/-- Replacing one buffer by contents within its capacity. -/
theorem BuffersWf.withBuf {s : State} (h : BuffersWf s) {b : BufId} {m : Buf b.width}
    (hm : bufWf m (bufCap s.cfg b)) : BuffersWf (withBuf s b m) where
  visible c := by
    rw [withBuf_cfg]
    by_cases hcb : c = b
    · subst hcb; rw [bufOf_withBuf]; exact hm
    · rw [bufOf_withBuf_of_ne s hcb]; exact h.visible c
  hidden := by rw [withBuf_err, withBuf_cfg]; exact h.hidden

/-- Storing a run of values within a buffer's capacity. -/
theorem BuffersWf.writeRun {s : State} (h : BuffersWf s) (b : BufId) {o : Nat}
    {vs : List (BitVec b.width)} (hc : o + vs.length ≤ bufCap s.cfg b) :
    BuffersWf (Machine.withBuf s b (bufWriteRun (bufOf s b) o vs)) :=
  h.withBuf (bufWriteRun_wf (h.visible b) hc)

/-- The status registers' part of the invariant speaks of the registers it names and the
configuration alone. -/
theorem StatusWf.congr {s t : State} (h : StatusWf s) (hfault : t.fault = s.fault)
    (hcause : t.fcause = s.fcause) (hinfo : t.finfo = s.finfo) (hfill : t.wfill = s.wfill)
    (hviol : t.wviol = s.wviol) (hres : t.res = s.res) (hcube : t.ncube = s.ncube)
    (hcount : t.vcount = s.vcount) (hlen : t.flen = s.flen) (hc : t.cfg = s.cfg) :
    StatusWf t where
  causeWhileFaulted := by rw [hfault, hcause]; exact h.causeWhileFaulted
  clearWhileNot := by rw [hfault, hcause, hinfo]; exact h.clearWhileNot
  resRange := by rw [hres]; exact h.resRange
  ncubeRange := by rw [hcube]; exact h.ncubeRange
  fillWarning := by rw [hfill, hcube]; exact h.fillWarning
  violWarning := by rw [hviol, hcount]; exact h.violWarning
  vcountRange := by rw [hcount]; exact h.vcountRange
  flenRange := by rw [hlen, hc]; exact h.flenRange

theorem raiseFault_wf {s : State} (h : StateWf s) (c : Cause) (w : Word) :
    StateWf (raiseFault c w s) where
  config := h.config
  buffers := h.buffers.congr (bufOf_raiseFault c w s) rfl rfl
  status :=
    { h.status with
      causeWhileFaulted := fun _ => causeCode_range c
      clearWhileNot := fun hf => by cases hf }

/-- A block with nothing in its buffers and all registers of the invariant at 0. -/
theorem resetBlock_wf {s : State} (h : s.cfg.Lawful) : StateWf (resetBlock s) where
  config := h
  buffers := ⟨fun b => by cases b <;> exact bufWf_nil _, bufWf_nil _⟩
  status :=
    { causeWhileFaulted := fun hf => by cases hf
      clearWhileNot := fun _ => ⟨rfl, rfl⟩
      resRange := by simp
      ncubeRange := by simp
      fillWarning := fun hf => by cases hf
      violWarning := rfl
      vcountRange := by simp
      flenRange := Nat.zero_le _ }

/-- Settles O16: the reset state is what reset makes of itself. -/
theorem invariantHoldsAtReset : Obligations.InvariantHoldsAtReset :=
  resetBlock_wf (s := State.reset) Config.hw_lawful

/-! ### Outcomes that keep the invariant -/

/-- Where the outcome is a next state, the invariant holds there and the configuration is `p`. -/
def OutWf (p : Params) (o : Out) : Prop := ∀ t, o = .next t → StateWf t ∧ t.cfg = p

theorem outWf_next {p : Params} {t : State} (h : StateWf t) (hc : t.cfg = p) :
    OutWf p (.next t) := fun u hu => by cases hu; exact ⟨h, hc⟩

theorem outWf_gated {s : State} {k : Out} (h : StateWf s)
    (hk : s.fault = false → OutWf s.cfg k) : OutWf s.cfg (gated s k) := fun t ht => by
  rcases gated_next ht with ⟨_, rfl⟩ | ⟨hf, hkt⟩
  · exact ⟨h, rfl⟩
  · exact hk hf t hkt

theorem outWf_raiseFault {s : State} (h : StateWf s) (c : Cause) (w : Word) :
    OutWf s.cfg (.next (raiseFault c w s)) := outWf_next (raiseFault_wf h c w) rfl

theorem outWf_needs {s : State} {ok : Bool} {c : Cause} {w : Word} {k : Out} (h : StateWf s)
    (hk : ok = true → OutWf s.cfg k) : OutWf s.cfg (needs ok c w s k) := fun t ht => by
  rcases needs_next ht with ⟨_, rfl⟩ | ⟨hok, hkt⟩
  · exact ⟨raiseFault_wf h c w, rfl⟩
  · exact hk hok t hkt

theorem outWf_needsRead {α : Type} {p : Params} {r : Option α} {b : BufId} {k : α → Out}
    (hk : ∀ a, r = some a → OutWf p (k a)) : OutWf p (needsRead r b k) := fun t ht => by
  obtain ⟨a, ha, hkt⟩ := needsRead_next ht
  exact hk a ha t hkt

/-! ### The canvas within the hardware's limits -/

theorem geomOk_le {s : State} (h : geomOk s = true) :
    1 ≤ canvasW s ∧ 1 ≤ canvasH s ∧ canvasW s ≤ s.cfg.wmax ∧ canvasH s ≤ s.cfg.hmax := by
  simpa [geomOk, and_assoc] using h

theorem ceilDiv_le_ceilDiv {a b : Nat} (h : a ≤ b) (d : Nat) : ceilDiv a d ≤ ceilDiv b d :=
  Nat.div_le_div_right (by omega)

theorem pixels_le_cap {s : State} (h : geomOk s = true) :
    canvasW s * canvasH s ≤ s.cfg.wmax * s.cfg.hmax := by
  obtain ⟨_, _, hw, hh⟩ := geomOk_le h
  exact Nat.mul_le_mul hw hh

/-- The cells of the canvas fit a plane (R43). -/
theorem cells_le_cap {s : State} (h : geomOk s = true) :
    cellCols (canvasW s) * canvasH s ≤ ceilDiv s.cfg.wmax 8 * s.cfg.hmax := by
  obtain ⟨_, _, hw, hh⟩ := geomOk_le h
  exact Nat.mul_le_mul (ceilDiv_le_ceilDiv hw 8) hh

/-- No canvas has more than 2^19 cells (R8, R9). -/
theorem cells_le {s : State} (hp : s.cfg.Lawful) (h : geomOk s = true) :
    cellCols (canvasW s) * canvasH s ≤ 2 ^ 19 := by
  obtain ⟨_, _, _, ⟨_, hw⟩, ⟨_, hh⟩, _⟩ := hp
  refine (cells_le_cap h).trans ?_
  calc ceilDiv s.cfg.wmax 8 * s.cfg.hmax ≤ ceilDiv 2048 8 * 2048 :=
        Nat.mul_le_mul (ceilDiv_le_ceilDiv hw 8) hh
    _ = 2 ^ 19 := by decide

/-! ### Results of the lattice and the snapper -/

/-- No level passes 255 (R7, R131). -/
theorem levelOf_lt {t : List Nat} (h : levelsLawful t) (k : Nat) : levelOf t k < 256 := by
  unfold levelOf
  split
  · omega
  · split
    · omega
    · rw [List.getD_eq_getElem?_getD]
      cases hv : t[k - 1]? with
      | none => simp
      | some v =>
        have := (h.2.1 v (List.mem_of_getElem? hv)).2
        simp only [Option.getD_some]
        omega

/-- Every lattice colour has byte channels. -/
theorem lat_lt {p : Params} (h : p.Lawful) (i : Nat) :
    (lat p i).r < 256 ∧ (lat p i).g < 256 ∧ (lat p i).b < 256 := by
  obtain ⟨hr, hg, hb, _⟩ := h
  exact ⟨levelOf_lt hr _, levelOf_lt hg _, levelOf_lt hb _⟩

/-- RES after LATRD has its top byte 0 (R30). -/
theorem packRgb_lt {c : Rgb} (h : c.r < 256 ∧ c.g < 256 ∧ c.b < 256) :
    (packRgb c).toNat < 2 ^ 24 := by
  obtain ⟨hr, hg, hb⟩ := h
  simp only [packRgb, BitVec.toNat_or, BitVec.toNat_shiftLeft, BitVec.toNat_ofNat,
    Nat.shiftLeft_eq]
  refine Nat.or_lt_two_pow (Nat.or_lt_two_pow ?_ ?_) ?_ <;> omega

@[simp] theorem palCells_length (picks : List Nat) : (palCells picks).length = picks.length := by
  simp [palCells]

@[simp] theorem usedCells_length (picks : List Nat) : (usedCells picks).length = 4096 := by
  simp [usedCells]

/-- EXT holds 16 colours (R38). -/
theorem readExt_length {s : State} {l : List Rgb} (h : readExt s = some l) : l.length = 16 := by
  unfold readExt at h
  obtain ⟨bytes, hb, rfl⟩ := Option.map_eq_some_iff.1 h
  exact colorsOf_length 16 bytes (bufReadRun_length hb)

theorem mapM_length {α β : Type} {f : α → Option β} {l : List α} {out : List β}
    (h : l.mapM f = some out) : out.length = l.length := by
  induction l generalizing out with
  | nil => simp at h; simp [h]
  | cons a l ih =>
    rw [List.mapM_cons] at h
    simp only [Option.bind_eq_bind, Option.pure_def] at h
    obtain ⟨b, _, h⟩ := Option.bind_eq_some_iff.1 h
    obtain ⟨bs, hbs, h⟩ := Option.bind_eq_some_iff.1 h
    cases h
    simp [ih hbs]

/-- PAL rewritten by its 16 indices (R155, R180, R183). -/
theorem BuffersWf.writePal {s : State} (h : BuffersWf s) {picks : List Nat}
    (hl : picks.length = 16) :
    BuffersWf (Machine.withBuf s .pal (bufWriteRun s.pal 0 (palCells picks))) :=
  h.writeRun .pal (by show 0 + (palCells picks).length ≤ 16; simp [hl])

/-- PAL and USED rewritten together (R155, R180). -/
theorem BuffersWf.writePalUsed {s : State} (h : BuffersWf s) {picks : List Nat}
    (hl : picks.length = 16) :
    BuffersWf { s with
      pal := bufWriteRun s.pal 0 (palCells picks)
      used := bufWriteRun s.used 0 (usedCells picks) } :=
  (h.writePal hl).writeRun .used (vs := usedCells picks)
    (by show 0 + (usedCells picks).length ≤ 4096; simp)

/-! ### The commands keep the invariant -/

theorem execLatrd_wf {s : State} (h : StateWf s) (idx : BitVec 12) :
    OutWf s.cfg (execLatrd idx s) :=
  outWf_gated h fun _ => outWf_next
    { config := h.config
      buffers := h.buffers.congr (fun b => by cases b <;> rfl) rfl rfl
      status := { h.status with resRange := packRgb_lt (lat_lt h.config _) } } rfl

/-- RES takes any lattice index. -/
theorem withRes_wf {s : State} (h : StateWf s) {i : Nat} (hi : i < 4096) :
    StateWf { s with res := BitVec.ofNat 32 i } where
  config := h.config
  buffers := h.buffers.congr (fun b => by cases b <;> rfl) rfl rfl
  status :=
    { h.status with
      resRange := by
        show (BitVec.ofNat 32 i).toNat < 2 ^ 24
        rw [BitVec.toNat_ofNat]
        omega }

theorem execSnap_wf {s : State} (h : StateWf s) (r g b : BitVec 8) :
    OutWf s.cfg (execSnap r g b s) := by
  refine outWf_gated h fun _ => ?_
  split
  · exact outWf_raiseFault h _ _
  · next i hi => exact outWf_next (withRes_wf h (snap_some hi).1) rfl

theorem execSnapu_wf {s : State} (h : StateWf s) (r g b : BitVec 8) :
    OutWf s.cfg (execSnapu r g b s) := by
  refine outWf_gated h fun _ => outWf_needsRead fun _ _ => ?_
  split
  · exact outWf_raiseFault h _ _
  · next i hi => exact outWf_next (withRes_wf h (snap_some hi).1) rfl

theorem execUclr_wf {s : State} (h : StateWf s) : OutWf s.cfg (execUclr s) :=
  outWf_gated h fun _ => outWf_next
    { config := h.config
      buffers := h.buffers.writeRun .used (vs := List.replicate 4096 0)
        (by rw [List.length_replicate]; rfl)
      status := { h.status with } } rfl

theorem execUmark_wf {s : State} (h : StateWf s) (idx : BitVec 12) :
    OutWf s.cfg (execUmark idx s) :=
  outWf_gated h fun _ => outWf_next
    { config := h.config
      buffers := h.buffers.withBuf (b := .used) (bufSet_wf (h.buffers.visible .used) idx.isLt 1)
      status := { h.status with } } rfl

theorem execPsnapu_wf {s : State} (h : StateWf s) : OutWf s.cfg (execPsnapu s) := by
  refine outWf_gated h fun _ => outWf_needsRead fun colors hc => ?_
  split
  · exact outWf_raiseFault h _ _
  · next picks hp =>
    obtain ⟨new, hnew, hl, _⟩ := snapAll_some hp
    have hlen : picks.length = 16 := by rw [hnew, List.nil_append, hl, readExt_length hc]
    exact outWf_next
      { config := h.config
        buffers := (h.buffers.writePalUsed hlen).congr (fun b => by cases b <;> rfl) rfl rfl
        status := { h.status with } } rfl

theorem execPsnapn_wf {s : State} (h : StateWf s) : OutWf s.cfg (execPsnapn s) := by
  refine outWf_gated h fun _ => outWf_needsRead fun colors hc => ?_
  split
  · exact outWf_raiseFault h _ _
  · next picks hp =>
    have hlen : picks.length = 16 := by rw [mapM_length hp, readExt_length hc]
    exact outWf_next
      { config := h.config
        buffers := (h.buffers.writePal hlen).congr (fun b => by cases b <;> rfl) rfl rfl
        status := { h.status with } } rfl

/-- A synthesis from 1 to 16 ideal colours: NCUBE counts them, and WFILL is set below 16 (R155). -/
theorem synthesize_wf {s : State} (h : StateWf s) (w : Word) {ideals : List Rgb}
    (hl : 1 ≤ ideals.length ∧ ideals.length ≤ 16) : OutWf s.cfg (synthesize w s ideals) := by
  obtain ⟨_, picks, _, _, hlen, _, _, he⟩ := synthesize_next w s hl.2
  have hcube : (BitVec.ofNat 5 ideals.length).toNat = ideals.length := by
    rw [BitVec.toNat_ofNat]; omega
  rw [he]
  exact outWf_next
    { config := h.config
      buffers := (h.buffers.writePalUsed hlen).congr (fun b => by cases b <;> rfl) rfl rfl
      status :=
        { h.status with
          ncubeRange := hcube.trans_le hl.2
          fillWarning := fun hf => by
            rw [hcube]
            exact ⟨hl.1, of_decide_eq_true hf⟩ } } rfl

theorem latIdeals_length {p : Params} {image ideals : List Rgb}
    (h : latIdeals p image = some ideals) : 1 ≤ ideals.length ∧ ideals.length ≤ 16 := by
  obtain ⟨samples, _, rfl⟩ := Option.map_eq_some_iff.1 h
  exact idealsOf_length _ _ _

theorem execQgen_wf {s : State} (h : StateWf s) : OutWf s.cfg (execQgen s) :=
  outWf_gated h fun _ => outWf_needs h fun _ => outWf_needsRead fun _ _ =>
    synthesize_wf h _ (idealsOf_length _ _ _)

theorem execQlat_wf {s : State} (h : StateWf s) : OutWf s.cfg (execQlat s) := by
  refine outWf_gated h fun _ => outWf_needs h fun _ => outWf_needsRead fun _ _ => ?_
  split
  · exact outWf_raiseFault h _ _
  · next ideals hi => exact synthesize_wf h _ (latIdeals_length hi)

/-- VERIFY counts at most the canvas's cells. -/
theorem violations_length_le (W H : Nat) (indices : List Nat) :
    (violations W H indices).length ≤ cellCols W * H :=
  (List.length_filterMap_le _ _).trans (cellList_length W H).le

theorem execVerify_wf {s : State} (h : StateWf s) : OutWf s.cfg (execVerify s) := by
  refine outWf_gated h fun _ => outWf_needs h fun hg => outWf_needs h fun _ =>
    outWf_needsRead fun indices _ => ?_
  have hv := (violations_length_le (canvasW s) (canvasH s) indices).trans (cells_le h.config hg)
  generalize violations (canvasW s) (canvasH s) indices = v at hv
  have hcount : (BitVec.ofNat 32 v.length).toNat = v.length := by
    rw [BitVec.toNat_ofNat]; omega
  exact outWf_next
    { config := h.config
      buffers := (h.buffers.writeRun .vlog (vs := v.take s.cfg.vcap)
        ((Nat.zero_add _).trans_le (List.length_take_le _ _))).congr
          (fun b => by cases b <;> rfl) rfl rfl
      status :=
        { h.status with
          violWarning := by rw [hcount]
          vcountRange := hcount.trans_le hv } } rfl

theorem planeCells_length (W H : Nat) (indices : List Nat) :
    (planeCells W H indices).length = cellCols W * H := by
  rw [planeCells, List.length_map, cellList_length]

theorem execBlkenc_wf {s : State} (h : StateWf s) : OutWf s.cfg (execBlkenc s) := by
  refine outWf_gated h fun _ => outWf_needs h fun hg => outWf_needs h fun _ =>
    outWf_needsRead fun indices _ => ?_
  have hfit : ∀ f : List Nat → Byte, 0 + ((planeCells (canvasW s) (canvasH s) indices).map f).length
      ≤ ceilDiv s.cfg.wmax 8 * s.cfg.hmax := fun f => by
    rw [Nat.zero_add, List.length_map, planeCells_length]
    exact cells_le_cap hg
  exact outWf_next
    { config := h.config
      buffers := (((h.buffers.writeRun .shp (hfit _)).writeRun .cola (hfit _)).writeRun .colb
        (hfit _)).congr (fun b => by cases b <;> rfl) rfl rfl
      status := { h.status with } } rfl

/-- A length register that the invariant does not bound may take any value. -/
theorem withTlen_wf {s : State} (h : StateWf s) (v : Word) : StateWf { s with tlen := v } where
  config := h.config
  buffers := h.buffers.congr (fun b => by cases b <;> rfl) rfl rfl
  status := { h.status with }

theorem clearFlen_wf {s : State} (h : StateWf s) : StateWf { s with flen := 0 } where
  config := h.config
  buffers := h.buffers.congr (fun b => by cases b <;> rfl) rfl rfl
  status := { h.status with flenRange := Nat.zero_le _ }

theorem execXpose_wf {s : State} (h : StateWf s) (p : BitVec 2) :
    OutWf s.cfg (execXpose p s) :=
  outWf_gated h fun _ => outWf_needs h fun _ => outWf_needs h fun _ => outWf_needs h fun _ =>
    outWf_needs (withTlen_wf h 0) fun hfit => outWf_needsRead fun plane _ => outWf_next
      { config := h.config
        buffers := (h.buffers.writeRun .tbuf (vs := transposed (canvasW s) (canvasH s) plane)
          (((Nat.zero_add _).trans (transposed_length _ _ plane)).trans_le
            (of_decide_eq_true hfit))).congr (fun b => by cases b <;> rfl) rfl rfl
        status := { h.status with } } rfl

/-- Emitting to CBUF stays within the capacity, whether all of it fits or not (R297). -/
theorem emitToCbuf_wf {s : State} (h : StateWf s) (w : Word) {o : Nat} (out : List Byte)
    (ho : o ≤ s.cfg.ccap) : OutWf s.cfg (emitToCbuf w o out s) := by
  have hstore : ∀ (bytes : List Byte) (len : Word), o + bytes.length ≤ s.cfg.ccap →
      StateWf { s with cbuf := bufWriteRun s.cbuf o bytes, clen := len } := fun bytes len hfit =>
    { config := h.config
      buffers := (h.buffers.writeRun .cbuf (vs := bytes) hfit).congr
        (fun b => by cases b <;> rfl) rfl rfl
      status := { h.status with } }
  rcases emitToCbuf_cases w o out s with ⟨hfit, he⟩ | ⟨_, he⟩
  · rw [he]
    exact outWf_next (hstore out _ hfit) rfl
  · rw [he]
    have hcut : o + (out.take (s.cfg.ccap - o)).length ≤ s.cfg.ccap := by
      have := List.length_take_le (s.cfg.ccap - o) out
      omega
    exact outWf_raiseFault (hstore _ 0 hcut) _ _

theorem execRle_wf {s : State} (h : StateWf s) (t a : Bool) : OutWf s.cfg (execRle t a s) :=
  outWf_gated h fun _ => outWf_needs h fun _ => outWf_needs h fun ho =>
    outWf_needsRead fun _ _ => emitToCbuf_wf h _ _ (of_decide_eq_true ho)

/-- A file that fits FBUF. -/
theorem writeFile_wf {s : State} (h : StateWf s) {F : List Byte} (hfit : F.length ≤ s.cfg.fcap) :
    StateWf (writeFile F s) where
  config := h.config
  buffers := (h.buffers.writeRun .fbuf (vs := F) ((Nat.zero_add _).trans_le hfit)).congr
    (fun b => by cases b <;> rfl) rfl rfl
  status :=
    { h.status with
      flenRange := by
        show (BitVec.ofNat 32 F.length).toNat ≤ s.cfg.fcap
        rw [BitVec.toNat_ofNat]
        exact (Nat.mod_le _ _).trans hfit }

theorem execCont_wf {s : State} (h : StateWf s) : OutWf s.cfg (execCont s) :=
  outWf_gated h fun _ => outWf_needs h fun _ => outWf_needs h fun _ => outWf_needs h fun _ =>
    outWf_needs (clearFlen_wf h) fun _ => outWf_needs (clearFlen_wf h) fun hfit =>
      outWf_needsRead fun payload hp => outWf_needsRead fun pal hpal =>
        outWf_next (writeFile_wf h (by
          rw [containerImage_length s payload (bufReadRun_length hpal), bufReadRun_length hp]
          exact of_decide_eq_true hfit)) rfl

theorem execRawf_wf {s : State} (h : StateWf s) (p : BitVec 2) : OutWf s.cfg (execRawf p s) :=
  outWf_gated h fun _ => outWf_needs h fun _ => outWf_needs h fun _ => outWf_needs h fun _ =>
    outWf_needs (clearFlen_wf h) fun hfit => outWf_needsRead fun plane hp =>
      outWf_next (writeFile_wf h (by
        rw [rawImage_length, bufReadRun_length hp]
        exact of_decide_eq_true hfit)) rfl

/-! ### The pass of DISP keeps ERR and IDX within the canvas -/

/-- ERR and IDX in canonical form within their capacities. -/
structure DispWork.Wf (errCap idxCap : Nat) (wk : DispWork) : Prop where
  err : bufWf wk.err errCap
  idx : bufWf wk.idx idxCap

/-- Both answers of a pass satisfy `P`: the completed work, and the work a fault leaves. -/
def onEither {α : Type} (P : α → Prop) : Except α α → Prop
  | .ok a => P a
  | .error a => P a

theorem onEither.of_ok {α : Type} {P : α → Prop} {r : Except α α} {a : α} (h : onEither P r)
    (he : r = .ok a) : P a := by rwa [he] at h

theorem onEither.of_error {α : Type} {P : α → Prop} {r : Except α α} {a : α} (h : onEither P r)
    (he : r = .error a) : P a := by rwa [he] at h

theorem seedValues_length (image : List Rgb) : (seedValues image).length = 3 * image.length := by
  simp [seedValues, List.length_flatMap, Nat.mul_comm]

/-- The three elements of ERR of a pixel of the canvas. -/
theorem errIndex_lt {W H x y ch : Nat} (hx : x < W) (hy : y < H) (hch : ch < 3) :
    errIndex W x y + ch < 3 * W * H := by
  have hpix : y * W + x + 1 ≤ W * H := by
    calc y * W + x + 1 ≤ (y + 1) * W := by rw [Nat.add_mul]; omega
      _ ≤ H * W := Nat.mul_le_mul_right W hy
      _ = W * H := Nat.mul_comm H W
  rw [errIndex, Nat.mul_assoc]
  omega

theorem pixelIndex_lt {W H x y : Nat} (hx : x < W) (hy : y < H) : y * W + x < W * H := by
  have := errIndex_lt hx hy (show 0 < 3 by omega)
  rw [errIndex, Nat.mul_assoc] at this
  omega

/-- An entry that applies spreads to a pixel of the canvas (R192). -/
theorem entryApplies_bounds {W H x y : Nat} {k : KernelEntry} (h : entryApplies W H x y k = true) :
    ((x : Int) + k.dx).toNat < W ∧ ((y : Int) + k.dy).toNat < H := by
  simp only [entryApplies, Bool.and_eq_true, decide_eq_true_eq] at h
  omega

/-- Every addition a pixel asks for is to an element of the canvas's ERR (R192, R200). -/
theorem pixelUpdates_lt {c : DispInput} {x y : Nat} {q : Color64} {u : Nat × F64 × F64}
    (h : u ∈ pixelUpdates c x y q) : u.1 < 3 * c.width * c.height := by
  obtain ⟨k, hk, hu⟩ := List.mem_flatMap.1 h
  obtain ⟨hx, hy⟩ := entryApplies_bounds (List.mem_filter.1 hk).2
  have hch : ∀ ch < 3, errIndex c.width ((x : Int) + k.dx).toNat ((y : Int) + k.dy).toNat + ch <
      3 * c.width * c.height := fun ch => errIndex_lt hx hy
  simp only [entryUpdates, List.mem_cons, List.not_mem_nil, or_false] at hu
  rcases hu with rfl | rfl | rfl
  · exact hch 0 (by omega)
  · exact hch 1 (by omega)
  · exact hch 2 (by omega)

theorem addErrors_wf {cap : Nat} {us : List (Nat × F64 × F64)} (hu : ∀ u ∈ us, u.1 < cap)
    {err : Buf 64} (h : bufWf err cap) : onEither (bufWf · cap) (addErrors err us) := by
  induction us generalizing err with
  | nil => exact h
  | cons u us ih =>
    rw [addErrors]
    split
    · exact ih (fun v hv => hu v (List.mem_cons_of_mem _ hv))
        (bufSet_wf h (hu u List.mem_cons_self) _)
    · exact h

section Pass

variable {c : DispInput} {errCap idxCap : Nat} {wk : DispWork}
  (herr : 3 * c.width * c.height ≤ errCap) (hidx : c.width * c.height ≤ idxCap)

include herr hidx

theorem dispPixel_wf (ab : Nat × Nat) {x y : Nat} (hx : x < c.width) (hy : y < c.height)
    (h : wk.Wf errCap idxCap) : onEither (DispWork.Wf errCap idxCap) (dispPixel c ab y x wk) := by
  have hset : ∀ v, bufWf (bufSet wk.idx (y * c.width + x) v) idxCap :=
    bufSet_wf h.idx ((pixelIndex_lt hx hy).trans_le hidx)
  have hadd := fun q => addErrors_wf (us := pixelUpdates c x y q)
    (fun u hu => (pixelUpdates_lt hu).trans_le herr) h.err
  unfold dispPixel
  dsimp only
  split
  · next err he => exact ⟨(hadd _).of_ok he, hset _⟩
  · next err he => exact ⟨(hadd _).of_error he, hset _⟩

theorem dispPixels_wf (ab : Nat × Nat) {y : Nat} {xs : List Nat} (hx : ∀ x ∈ xs, x < c.width)
    (hy : y < c.height) (h : wk.Wf errCap idxCap) :
    onEither (DispWork.Wf errCap idxCap) (dispPixels c ab y xs wk) := by
  induction xs generalizing wk with
  | nil => exact h
  | cons x xs ih =>
    have hp := dispPixel_wf herr hidx ab (hx x List.mem_cons_self) hy h
    rw [dispPixels]
    split
    · next wk' he => exact ih (fun x hm => hx x (List.mem_cons_of_mem _ hm)) (hp.of_ok he)
    · next wk' he => exact hp.of_error he

theorem dispCells_wf {cells : List (Nat × Nat)} (hc : ∀ cell ∈ cells, cell.2 < c.height)
    (h : wk.Wf errCap idxCap) : onEither (DispWork.Wf errCap idxCap) (dispCells c cells wk) := by
  induction cells generalizing wk with
  | nil => exact h
  | cons cell cells ih =>
    have hp : onEither (DispWork.Wf errCap idxCap) (dispCell c cell wk) :=
      dispPixels_wf herr hidx _ (fun x hx => (mem_cellXs.1 hx).2.2) (hc cell List.mem_cons_self) h
    rw [dispCells]
    split
    · next wk' he => exact ih (fun d hm => hc d (List.mem_cons_of_mem _ hm)) (hp.of_ok he)
    · next wk' he => exact hp.of_error he

theorem dispPass_wf {image : List Rgb} (hi : image.length = c.width * c.height) {err : Buf 64}
    {idx : Buf 4} (he : bufWf err errCap) (hx : bufWf idx idxCap) :
    onEither (DispWork.Wf errCap idxCap) (dispPass c image err idx) := by
  have hseed : 0 + (seedValues image).length ≤ errCap := by
    rw [Nat.zero_add, seedValues_length, hi, ← Nat.mul_assoc]
    exact herr
  exact dispCells_wf herr hidx (fun cell hc => (mem_cellList.1 hc).2)
    ⟨bufWriteRun_wf he hseed, hx⟩

end Pass

/-- ERR and IDX replaced, with IDXV either way (R293). -/
theorem withWork_wf {s : State} (h : StateWf s) {wk : DispWork}
    (hw : wk.Wf (3 * s.cfg.wmax * s.cfg.hmax) (s.cfg.wmax * s.cfg.hmax)) (v : Bool) :
    StateWf { s with err := wk.err, idx := wk.idx, idxv := v } where
  config := h.config
  buffers :=
    { visible := (h.buffers.withBuf (b := .idx) (m := wk.idx) hw.idx).congr
        (t := { s with idx := wk.idx, idxv := v }) (fun b => by cases b <;> rfl) rfl rfl |>.visible
      hidden := hw.err }
  status := { h.status with }

theorem dispRun_wf {s : State} (h : StateWf s) {c : DispInput} {image : List Rgb}
    (hp : onEither (DispWork.Wf (3 * s.cfg.wmax * s.cfg.hmax) (s.cfg.wmax * s.cfg.hmax))
      (dispPass c image s.err s.idx)) : OutWf s.cfg (dispRun s c image) := by
  rcases dispRun_cases s c image with ⟨wk, hk, he⟩ | ⟨wk, hk, he⟩
  · rw [he]
    exact outWf_next (withWork_wf h (hp.of_ok hk) true) rfl
  · rw [he]
    exact outWf_raiseFault (withWork_wf h (hp.of_error hk) false) _ _

theorem execDisp_wf {s : State} (h : StateWf s) : OutWf s.cfg (execDisp s) :=
  outWf_gated h fun _ => outWf_needs h fun hg => outWf_needs h fun _ => outWf_needs h fun _ =>
    outWf_needsRead fun weights _ => outWf_needs h fun _ => outWf_needsRead fun offsets _ =>
      outWf_needsRead fun pal _ => outWf_needsRead fun image hi =>
        have hfit : 3 * canvasW s * canvasH s ≤ 3 * s.cfg.wmax * s.cfg.hmax := by
          rw [Nat.mul_assoc, Nat.mul_assoc]
          exact Nat.mul_le_mul_left 3 (pixels_le_cap hg)
        dispRun_wf h (dispPass_wf (c := dispInputOf s pal offsets weights) hfit (pixels_le_cap hg)
          (readImage_length hi) h.buffers.hidden (h.buffers.visible .idx))

/-! ### Every command, every host action, every step -/

/-- Every command keeps the invariant and the configuration. -/
theorem exec_wf (i : Instr) {s : State} (h : StateWf s) : OutWf s.cfg (exec i s) :=
  match i with
  | .nop => outWf_gated h fun _ => outWf_next h rfl
  | .latrd idx => execLatrd_wf h idx
  | .snap r g b => execSnap_wf h r g b
  | .snapu r g b => execSnapu_wf h r g b
  | .uclr => execUclr_wf h
  | .umark idx => execUmark_wf h idx
  | .qgen => execQgen_wf h
  | .qlat => execQlat_wf h
  | .psnapu => execPsnapu_wf h
  | .psnapn => execPsnapn_wf h
  | .disp => execDisp_wf h
  | .verify => execVerify_wf h
  | .blkenc => execBlkenc_wf h
  | .xpose p => execXpose_wf h p
  | .rle t a => execRle_wf h t a
  | .cont => execCont_wf h
  | .rawf p => execRawf_wf h p

/-- A word written to CMD, legal or not. -/
theorem runCommand_wf (w : Word) {s : State} (h : StateWf s) : OutWf s.cfg (runCommand w s) :=
  fun t ht => by
    rcases runCommand_next ht with ⟨_, rfl⟩ | ⟨_, _, rfl⟩ | ⟨_, i, _, he⟩
    · exact ⟨h, rfl⟩
    · exact ⟨raiseFault_wf h _ _, rfl⟩
    · exact exec_wf i h t he

/-- The window's pointer, the value read and the count of draws are outside the invariant. -/
theorem readUpdate_wf {s : State} (h : StateWf s) (v : Word) (a : BitVec 24) (d : Nat) :
    StateWf { s with readData := v, bufaddr := a, draws := d } where
  config := h.config
  buffers := h.buffers.congr (fun b => by cases b <;> rfl) rfl rfl
  status := { h.status with }

theorem hostRead_wf (off : Nat) {s : State} (h : StateWf s) :
    StateWf (hostRead off s) ∧ (hostRead off s).cfg = s.cfg := by
  rcases hostRead_cases off s with ⟨_, he⟩ | ⟨v, he⟩
  · rcases windowRead_cases s with ⟨_, hw⟩ | ⟨_, _, _, _, hw⟩ | ⟨_, _, _, hw⟩ <;>
      rw [he, hw] <;> exact ⟨readUpdate_wf h _ _ _, rfl⟩
  · rw [he]
    exact ⟨readUpdate_wf h _ _ _, rfl⟩

/-- A host write of a register other than CMD keeps the buffers within their capacities: the window
reaches only elements below them (R63, R64). -/
theorem regWrite_buffers (r : Reg) (v : Word) {s : State} (h : BuffersWf s) :
    BuffersWf (regWrite r v s) := by
  cases r
  case bufdata =>
    show BuffersWf (windowWrite v s)
    rcases windowWrite_cases v s with he | ⟨b, ht, _, he⟩
    · rw [he]
      exact h.congr (bufOf_advance s) rfl rfl
    · rw [he]
      exact (h.withBuf (bufSet_wf (h.visible b) (windowTarget_eq_some ht).2 _)).congr
        (bufOf_advance _) rfl rfl
  all_goals exact h.congr (fun b => by cases b <;> rfl) rfl rfl

theorem regWrite_wf (r : Reg) (v : Word) {s : State} (h : StateWf s) :
    StateWf (regWrite r v s) ∧ (regWrite r v s).cfg = s.cfg := by
  obtain ⟨hfault, hcause, hinfo, hfill, hviol, hres, hcube, hcount, hlen, _, hc, _⟩ :=
    regWrite_frame r v s
  exact ⟨{ config := hc ▸ h.config
           buffers := regWrite_buffers r v h.buffers
           status := h.status.congr hfault hcause hinfo hfill hviol hres hcube hcount hlen hc }, hc⟩

theorem hostAct_wf (a : HostAction) {s : State} (h : StateWf s) : OutWf s.cfg (hostAct a s) :=
  fun t ht => by
    rcases hostAct_next ht with ⟨off, _, rfl⟩ | ⟨off, v, _, hw⟩ | ⟨_, rfl⟩
    · exact hostRead_wf off h
    · rcases hostWrite_next hw with ⟨_, rfl⟩ | ⟨_, hrun⟩ | ⟨r, _, _, rfl⟩
      · exact ⟨h, rfl⟩
      · exact runCommand_wf v h t hrun
      · exact regWrite_wf r v h
    · exact ⟨resetBlock_wf h.config, rfl⟩

/-- Consuming an action of the queue is outside the invariant. -/
theorem withHost_wf {s : State} (h : StateWf s) (rest : List HostAction) :
    StateWf { s with host := rest } where
  config := h.config
  buffers := h.buffers.congr (fun b => by cases b <;> rfl) rfl rfl
  status := { h.status with }

theorem step_wf {s : State} (h : StateWf s) : OutWf s.cfg (step s) := fun t ht => by
  rcases step_next ht with ⟨_, rfl⟩ | ⟨a, rest, _, ha⟩
  · exact ⟨h, rfl⟩
  · exact hostAct_wf a (withHost_wf h rest) t ha

/-- Settles O17: by the kinds of step, and for a command by its checks and then what it writes. -/
theorem stepKeepsTheInvariant : Obligations.StepKeepsTheInvariant := fun s t h ht => by
  obtain ⟨hwf, hc⟩ := step_wf h t ht
  exact ⟨hwf, hc, fun i => by rw [hc]⟩

end Sys2Proof.Machine

/-! Binary64 on bit patterns (spec/00_scope.md R12, spec/30_encoding.md R103): the magnitudes in the
order of their patterns, and rounding as the choice of a nearest one. -/

namespace Sys2Proof.Machine

/-! ### Magnitudes in the order of their patterns -/

/-- The magnitude, in units of 2^-1074, of the pattern whose 63 magnitude bits are `k`. -/
def magAt (k : Nat) : Nat :=
  if k / 2 ^ 52 = 0 then k % 2 ^ 52 else (2 ^ 52 + k % 2 ^ 52) * 2 ^ (k / 2 ^ 52 - 1)

/-- A significand `q` at exponent `e`: subnormal, normal, or carried to the next exponent. -/
theorem magAt_scaled {e q : Nat} (hlow : e = 0 ∨ 2 ^ 52 ≤ q) (hhigh : q ≤ 2 ^ 53) :
    magAt (e * 2 ^ 52 + q) = q * 2 ^ e := by
  unfold magAt
  by_cases hsub : q < 2 ^ 52
  · obtain rfl : e = 0 := by omega
    rw [if_pos (by omega), Nat.pow_zero]
    omega
  · rw [if_neg (by omega)]
    by_cases hcarry : q = 2 ^ 53
    · have hexp : (e * 2 ^ 52 + q) / 2 ^ 52 - 1 = e + 1 := by omega
      have hfrac : (e * 2 ^ 52 + q) % 2 ^ 52 = 0 := by omega
      rw [hexp, hfrac, hcarry, pow_succ]
      omega
    · have hexp : (e * 2 ^ 52 + q) / 2 ^ 52 - 1 = e := by omega
      have hfrac : (e * 2 ^ 52 + q) % 2 ^ 52 = q - 2 ^ 52 := by omega
      rw [hexp, hfrac, Nat.add_sub_cancel' (by omega)]

/-- Every pattern is a significand at an exponent. -/
theorem exists_scaled (k : Nat) :
    ∃ e q, k = e * 2 ^ 52 + q ∧ (e = 0 ∨ 2 ^ 52 ≤ q) ∧ q < 2 ^ 53 :=
  ⟨k / 2 ^ 52 - 1, k - (k / 2 ^ 52 - 1) * 2 ^ 52, by omega, by omega, by omega⟩

theorem magAt_strictMono : StrictMono magAt := by
  refine strictMono_nat_of_lt_succ fun k => ?_
  obtain ⟨e, q, rfl, hlow, hhigh⟩ := exists_scaled k
  rw [Nat.add_assoc, magAt_scaled hlow hhigh.le, magAt_scaled (hlow.imp_right (by omega)) hhigh]
  exact Nat.mul_lt_mul_of_pos_right (Nat.lt_succ_self q) (Nat.two_pow_pos e)

/-! ### Rounding -/

/-- The last place that `roundBits` keeps. -/
def roundUnit (m : Nat) : Nat := max (Nat.log2 m + 1 - 53) 1074

/-- What `roundBits` gives before it cuts at infinity. -/
def roundIndex (m : Nat) : Nat := (roundUnit m - 1074) * 2 ^ 52 + roundShift m (roundUnit m)

theorem roundBits_eq (m : Nat) : roundBits m = min (roundIndex m) (0x7FF * 2 ^ 52) := rfl

theorem le_roundUnit (m : Nat) : 1074 ≤ roundUnit m := le_max_right _ _

/-- The significand has at most 53 bits. -/
theorem div_roundUnit_lt (m : Nat) : m / 2 ^ roundUnit m < 2 ^ 53 := by
  refine Nat.div_lt_of_lt_mul ?_
  rw [← pow_add]
  exact Nat.lt_log2_self.trans_le (Nat.pow_le_pow_right (by omega) (by unfold roundUnit; omega))

/-- Above the least place kept, it has exactly 53. -/
theorem le_div_roundUnit (m : Nat) :
    roundUnit m - 1074 = 0 ∨ 2 ^ 52 ≤ m / 2 ^ roundUnit m := by
  by_cases hu : roundUnit m ≤ 1074
  · exact .inl (by omega)
  · have hlog : roundUnit m + 52 = Nat.log2 m := by unfold roundUnit at *; omega
    refine .inr ((Nat.le_div_iff_mul_le (Nat.two_pow_pos _)).2 ?_)
    rw [← pow_add, Nat.add_comm, hlog]
    refine Nat.log2_self_le fun hm => ?_
    rw [hm, Nat.log2_zero] at hlog
    omega

/-- Rounding goes down or up, to the side that is not farther, and to the even one between equals. -/
theorem roundShift_cases (m u : Nat) :
    (roundShift m u = m / 2 ^ u ∧ 2 * (m % 2 ^ u) ≤ 2 ^ u ∧
      (2 * (m % 2 ^ u) = 2 ^ u → roundShift m u % 2 = 0)) ∨
    (roundShift m u = m / 2 ^ u + 1 ∧ 2 ^ u ≤ 2 * (m % 2 ^ u) ∧
      (2 * (m % 2 ^ u) = 2 ^ u → roundShift m u % 2 = 0)) := by
  unfold roundShift
  dsimp only
  split
  · exact .inr ⟨rfl, by omega, by omega⟩
  · exact .inl ⟨rfl, by omega, by omega⟩

theorem roundShift_le (m : Nat) : roundShift m (roundUnit m) ≤ 2 ^ 53 := by
  have := div_roundUnit_lt m
  rcases roundShift_cases m (roundUnit m) with ⟨h, _⟩ | ⟨h, _⟩ <;> omega

/-- The pattern of the greatest magnitude that is not above `m * 2^-2148`. -/
def roundLow (m : Nat) : Nat := (roundUnit m - 1074) * 2 ^ 52 + m / 2 ^ roundUnit m

/-- The two neighbours of `m * 2^-2148` among the magnitudes, the last place kept apart. -/
theorem magAt_neighbours (m : Nat) :
    magAt (roundLow m) * 2 ^ 1074 + m % 2 ^ roundUnit m = m ∧
      magAt (roundLow m + 1) * 2 ^ 1074 =
        magAt (roundLow m) * 2 ^ 1074 + 2 ^ roundUnit m := by
  have hlow := le_div_roundUnit m
  have hhigh := div_roundUnit_lt m
  have hpow : ∀ q, q * 2 ^ (roundUnit m - 1074) * 2 ^ 1074 = q * 2 ^ roundUnit m := fun q => by
    rw [Nat.mul_assoc, ← pow_add, Nat.sub_add_cancel (le_roundUnit m)]
  rw [roundLow, Nat.add_assoc, magAt_scaled hlow hhigh.le,
    magAt_scaled (hlow.imp_right Nat.le_succ_of_le) hhigh, hpow, hpow]
  exact ⟨Nat.div_add_mod' m _, Nat.succ_mul _ _⟩

/-- The pattern rounding gives is even where the significand is. -/
theorem roundIndex_mod_two (m : Nat) : roundIndex m % 2 = roundShift m (roundUnit m) % 2 := by
  unfold roundIndex
  omega

/-- Between two neighbours `lo` and `lo + step` of `m`, what lies outside is not nearer than the side
rounding takes. -/
theorem dist_le_of_neighbours {lo step r m c x : Nat} (hm : lo + r = m) (hr : r < step)
    (hc : c ≤ lo ∨ lo + step ≤ c) (hx : (x = lo ∧ 2 * r ≤ step) ∨ (x = lo + step ∧ step ≤ 2 * r)) :
    Nat.dist x m ≤ Nat.dist c m ∧ (c ≠ x → Nat.dist x m = Nat.dist c m → 2 * r = step) := by
  unfold Nat.dist
  omega

/-- No magnitude is nearer than the one rounding gives, and between two equally near ones it is the
even one (R12). -/
theorem roundIndex_nearest (m c : Nat) :
    Nat.dist (magAt (roundIndex m) * 2 ^ 1074) m ≤ Nat.dist (magAt c * 2 ^ 1074) m ∧
    (magAt c ≠ magAt (roundIndex m) →
      Nat.dist (magAt (roundIndex m) * 2 ^ 1074) m = Nat.dist (magAt c * 2 ^ 1074) m →
      roundIndex m % 2 = 0) := by
  obtain ⟨hlo, hhi⟩ := magAt_neighbours m
  have hscale : ∀ {i j}, i ≤ j → magAt i * 2 ^ 1074 ≤ magAt j * 2 ^ 1074 := fun h =>
    Nat.mul_le_mul_right _ (magAt_strictMono.monotone h)
  have hout : magAt c * 2 ^ 1074 ≤ magAt (roundLow m) * 2 ^ 1074 ∨
      magAt (roundLow m) * 2 ^ 1074 + 2 ^ roundUnit m ≤ magAt c * 2 ^ 1074 := by
    rw [← hhi]
    exact (Nat.lt_or_ge c (roundLow m + 1)).imp (fun h => hscale (Nat.le_of_lt_succ h)) hscale
  have hdist := dist_le_of_neighbours (x := magAt (roundIndex m) * 2 ^ 1074) hlo
    (Nat.mod_lt _ (Nat.two_pow_pos _)) hout
  have hne : magAt c ≠ magAt (roundIndex m) →
      magAt c * 2 ^ 1074 ≠ magAt (roundIndex m) * 2 ^ 1074 := fun h he =>
    h (Nat.eq_of_mul_eq_mul_right (pow_pos two_pos _) he)
  rw [roundIndex_mod_two]
  rcases roundShift_cases m (roundUnit m) with ⟨hr, hhalf, heven⟩ | ⟨hr, hhalf, heven⟩
  · obtain ⟨hle, htie⟩ := hdist (.inl ⟨by rw [roundIndex, hr, roundLow], hhalf⟩)
    exact ⟨hle, fun h he => heven (htie (hne h) he)⟩
  · obtain ⟨hle, htie⟩ := hdist
      (.inr ⟨by rw [← hhi, roundIndex, hr, roundLow, Nat.add_assoc], hhalf⟩)
    exact ⟨hle, fun h he => heven (htie (hne h) he)⟩

/-- A number that the last place kept divides is not changed by rounding. -/
theorem magAt_roundIndex_of_dvd {m : Nat} (h : 2 ^ roundUnit m ∣ m) :
    magAt (roundIndex m) * 2 ^ 1074 = m := by
  obtain ⟨hlo, _⟩ := magAt_neighbours m
  have hmod := Nat.mod_eq_zero_of_dvd h
  rcases roundShift_cases m (roundUnit m) with ⟨hr, _⟩ | ⟨_, hhalf, _⟩
  · rw [hmod, Nat.add_zero] at hlo
    rw [roundIndex, hr, ← roundLow, hlo]
  · have := Nat.two_pow_pos (roundUnit m)
    omega

/-- A significand of at most 53 bits is exact, wherever it stands from 2^-1074 on (R12). -/
theorem magAt_roundIndex_exact {n t : Nat} (hn : n < 2 ^ 53) (ht : 1074 ≤ t) :
    magAt (roundIndex (n * 2 ^ t)) * 2 ^ 1074 = n * 2 ^ t := by
  refine magAt_roundIndex_of_dvd (Dvd.dvd.mul_left (pow_dvd_pow 2 ?_) n)
  rcases Nat.eq_zero_or_pos n with rfl | hpos
  · rw [Nat.zero_mul, roundUnit, Nat.log2_zero]
    omega
  · have hm : n * 2 ^ t ≠ 0 := (Nat.mul_pos hpos (Nat.two_pow_pos t)).ne'
    have hlog : Nat.log2 (n * 2 ^ t) < 53 + t := by
      rw [Nat.log2_lt hm, pow_add]
      exact Nat.mul_lt_mul_of_pos_right hn (Nat.two_pow_pos t)
    rw [roundUnit]
    omega

/-! ### Overflow -/

/-- Half a last place above the largest finite number, in units of 2^-2148. -/
def overflowBound : Nat := (2 ^ 54 - 1) * 2 ^ 3118

/-- Rounding passes the largest finite number exactly from half a last place above it on. -/
theorem roundIndex_lt_iff (m : Nat) : roundIndex m < 0x7FF * 2 ^ 52 ↔ m < overflowBound := by
  have hq := div_roundUnit_lt m
  have hlow := le_div_roundUnit m
  have hu := le_roundUnit m
  have hsplit := Nat.div_add_mod' m (2 ^ roundUnit m)
  have hr : m % 2 ^ roundUnit m < 2 ^ roundUnit m := Nat.mod_lt _ (Nat.two_pow_pos _)
  have hrs := roundShift_cases m (roundUnit m)
  unfold overflowBound roundIndex
  generalize roundShift m (roundUnit m) = q' at *
  generalize m / 2 ^ roundUnit m = q at *
  generalize m % 2 ^ roundUnit m = r at *
  generalize roundUnit m = u at *
  rcases lt_trichotomy u 3119 with hlt | rfl | hgt
  · have hpow : 2 ^ u ≤ 2 ^ 3118 := pow_le_pow_right₀ one_le_two (by omega)
    have hm : m < 2 ^ 53 * 2 ^ 3118 := by
      calc m < (q + 1) * 2 ^ u := by rw [Nat.succ_mul]; omega
        _ ≤ 2 ^ 53 * 2 ^ 3118 := Nat.mul_le_mul hq hpow
    refine iff_of_true (by omega) (hm.trans_le (Nat.mul_le_mul_right _ (by omega)))
  · have hpow : (2 : Nat) ^ 3119 = 2 * 2 ^ 3118 := by rw [pow_succ, Nat.mul_comm]
    rw [hpow] at hsplit hr hrs
    generalize (2 : Nat) ^ 3118 = P at hsplit hr hrs ⊢
    by_cases htop : q = 2 ^ 53 - 1
    · subst htop
      omega
    · have hm : (q + 1) * (2 * P) ≤ (2 ^ 53 - 1) * (2 * P) := Nat.mul_le_mul_right _ (by omega)
      rw [Nat.succ_mul] at hm
      omega
  · have hpow : 2 ^ 3120 ≤ 2 ^ u := pow_le_pow_right₀ one_le_two (by omega)
    have hm : 2 ^ 52 * 2 ^ 3120 ≤ m := by
      calc 2 ^ 52 * 2 ^ 3120 ≤ q * 2 ^ u := Nat.mul_le_mul (by omega) hpow
        _ ≤ m := by omega
    have hpow' : (2 : Nat) ^ 3120 = 4 * 2 ^ 3118 := by rw [pow_succ, pow_succ]; omega
    rw [hpow'] at hm
    generalize (2 : Nat) ^ 3118 = P at *
    omega

/-! ### The fields of a pattern -/

theorem f64Exp_eq (a : F64) : f64Exp a = a.toNat % 2 ^ 63 / 2 ^ 52 := by
  simp only [f64Exp, BitVec.extractLsb'_toNat, Nat.shiftRight_eq_div_pow]
  omega

theorem f64Frac_eq (a : F64) : f64Frac a = a.toNat % 2 ^ 63 % 2 ^ 52 := by
  simp only [f64Frac, BitVec.extractLsb'_toNat, Nat.shiftRight_eq_div_pow]
  omega

theorem f64Mag_eq (a : F64) : f64Mag a = magAt (a.toNat % 2 ^ 63) := by
  rw [f64Mag, magAt, f64Exp_eq, f64Frac_eq]

theorem f64Finite_iff (a : F64) : f64Finite a = true ↔ a.toNat % 2 ^ 63 < 0x7FF * 2 ^ 52 := by
  rw [f64Finite, bne_iff_ne, f64Exp_eq]
  omega

theorem f64Nan_of_finite {a : F64} (h : f64Finite a = true) : f64Nan a = false := by
  rw [f64Finite, bne_iff_ne] at h
  simp [f64Nan, h]

/-- A sign and a magnitude as an integer. -/
def signed (neg : Bool) (n : Nat) : Int := if neg then -(n : Int) else n

theorem f64Int_eq_signed (a : F64) : f64Int a = signed (f64Neg a) (f64Mag a) := rfl

@[simp] theorem signed_zero (neg : Bool) : signed neg 0 = 0 := by cases neg <;> rfl

@[simp] theorem natAbs_signed (neg : Bool) (n : Nat) : (signed neg n).natAbs = n := by
  cases neg <;> simp [signed]

theorem signed_mul (neg neg' : Bool) (m n : Nat) :
    signed neg m * signed neg' n = signed (neg != neg') (m * n) := by
  cases neg <;> cases neg' <;> simp [signed]

theorem signed_mul_nat (neg : Bool) (m n : Nat) : signed neg m * (n : Int) = signed neg (m * n) := by
  cases neg <;> simp [signed]

theorem signed_natAbs {neg : Bool} {x : Int} (h : x ≠ 0 → neg = decide (x < 0)) :
    signed neg x.natAbs = x := by
  by_cases hx : x = 0
  · cases neg <;> simp [signed, hx]
  · rw [h hx, signed]
    by_cases hlt : x < 0
    · rw [if_pos (decide_eq_true hlt)]
      omega
    · rw [if_neg (by simpa using hlt)]
      omega

theorem abs_signed_sub (neg : Bool) (m n : Nat) :
    |signed neg m - signed neg n| = (Nat.dist m n : Int) := by
  unfold Nat.dist
  cases neg <;> simp only [signed, if_true, Bool.false_eq_true, if_false] <;>
    rw [← Int.natCast_natAbs, Nat.cast_inj] <;> omega

theorem abs_signed_sub_of_ne {neg neg' : Bool} (h : neg ≠ neg') (m n : Nat) :
    |signed neg m - signed neg' n| = ((m + n : Nat) : Int) := by
  rw [← Int.natCast_natAbs, Nat.cast_inj]
  cases neg <;> cases neg' <;> simp [signed] at h ⊢ <;> omega

/-! ### A rounded number -/

theorem f64Round_toNat (neg : Bool) (m : Nat) :
    (f64Round neg m).toNat = neg.toNat * 2 ^ 63 + roundBits m := by
  have hle : roundBits m < 2 ^ 63 := by rw [roundBits_eq]; omega
  rw [f64Round, BitVec.toNat_append, BitVec.toNat_ofBool, BitVec.toNat_ofNat,
    Nat.mod_eq_of_lt hle, ← Nat.shiftLeft_add_eq_or_of_lt hle, Nat.shiftLeft_eq]

@[simp] theorem f64Neg_f64Round (neg : Bool) (m : Nat) : f64Neg (f64Round neg m) = neg := by
  have hle : roundBits m < 2 ^ 63 := by rw [roundBits_eq]; omega
  rw [f64Neg, BitVec.getLsbD, Nat.testBit_eq_decide_div_mod_eq, f64Round_toNat]
  cases neg <;> simp only [Bool.toNat_false, Bool.toNat_true, decide_eq_true_eq,
    decide_eq_false_iff_not] <;> omega

theorem f64Round_bits (neg : Bool) (m : Nat) :
    (f64Round neg m).toNat % 2 ^ 63 = roundBits m := by
  have : roundBits m < 2 ^ 63 := by rw [roundBits_eq]; omega
  rw [f64Round_toNat]
  omega

/-- Rounding overflows exactly from half a last place above the largest finite number on (R12). -/
theorem f64Finite_f64Round (neg : Bool) (m : Nat) :
    f64Finite (f64Round neg m) = true ↔ m < overflowBound := by
  rw [f64Finite_iff, f64Round_bits, roundBits_eq, ← roundIndex_lt_iff]
  omega

theorem f64Round_bits_of_finite {neg : Bool} {m : Nat} (h : f64Finite (f64Round neg m) = true) :
    (f64Round neg m).toNat % 2 ^ 63 = roundIndex m := by
  rw [f64Finite_f64Round, ← roundIndex_lt_iff] at h
  rw [f64Round_bits, roundBits_eq]
  omega

theorem f64Nan_f64Round (neg : Bool) (m : Nat) : f64Nan (f64Round neg m) = false := by
  have h : f64Exp (f64Round neg m) = 0x7FF → f64Frac (f64Round neg m) = 0 := by
    rw [f64Exp_eq, f64Frac_eq, f64Round_bits, roundBits_eq]
    omega
  simpa [f64Nan] using h

/-- No pattern is nearer to the signed number of magnitude `m * 2^-2148` than the one rounding gives,
and between two equally near ones it is the even one (R12). -/
theorem f64Round_nearest {neg : Bool} {m : Nat} (h : f64Finite (f64Round neg m) = true) (c : F64) :
    |f64Int (f64Round neg m) * 2 ^ 1074 - signed neg m| ≤ |f64Int c * 2 ^ 1074 - signed neg m| ∧
    (f64Int c ≠ f64Int (f64Round neg m) →
      |f64Int (f64Round neg m) * 2 ^ 1074 - signed neg m| = |f64Int c * 2 ^ 1074 - signed neg m| →
      f64Frac (f64Round neg m) % 2 = 0) := by
  have hscale : ∀ b n, signed b n * 2 ^ 1074 = signed b (n * 2 ^ 1074) := fun b n => by
    rw [← signed_mul_nat, Nat.cast_pow, Nat.cast_ofNat]
  have hfrac : f64Frac (f64Round neg m) % 2 = roundIndex m % 2 := by
    rw [f64Frac_eq, f64Round_bits_of_finite h]
    omega
  have hzero : magAt 0 = 0 := rfl
  rw [hfrac, f64Int_eq_signed, f64Int_eq_signed c, f64Neg_f64Round, hscale, hscale, abs_signed_sub,
    f64Mag_eq, f64Mag_eq, f64Round_bits_of_finite h]
  by_cases hneg : f64Neg c = neg
  · rw [hneg, abs_signed_sub, Nat.cast_le, Nat.cast_inj]
    obtain ⟨hle, htie⟩ := roundIndex_nearest m (c.toNat % 2 ^ 63)
    exact ⟨hle, fun hne => htie fun he => hne (by rw [he])⟩
  · obtain ⟨hle, htie⟩ := roundIndex_nearest m 0
    rw [hzero, Nat.zero_mul, Nat.dist_zero_left] at hle htie
    rw [abs_signed_sub_of_ne hneg, Nat.cast_le, Nat.cast_inj]
    refine ⟨by omega, fun hne he => htie ?_ (by omega)⟩
    have hc : magAt (c.toNat % 2 ^ 63) * 2 ^ 1074 = 0 := by omega
    have hc' := (Nat.mul_eq_zero.1 hc).resolve_right (pow_pos two_pos _).ne'
    intro hr
    rw [hc', ← hr, signed_zero, signed_zero] at hne
    exact hne rfl

/-! ### Sums and products as rounded integers -/

/-- The pattern `r` is the number `x * 2^-2148` rounded once. -/
def IsRoundOf (r : F64) (x : Int) : Prop := ∃ neg m, r = f64Round neg m ∧ signed neg m = x

theorem signed_mul_two_pow (neg : Bool) (m k : Nat) :
    signed neg m * 2 ^ k = signed neg (m * 2 ^ k) := by
  rw [← signed_mul_nat, Nat.cast_pow, Nat.cast_ofNat]

theorem natAbs_mul_two_pow (x : Int) (k : Nat) : (x * 2 ^ k).natAbs = x.natAbs * 2 ^ k := by
  rw [Int.natAbs_mul, Int.natAbs_pow]
  rfl

/-- A sum of finite numbers is the exact sum rounded once (R12). -/
theorem isRoundOf_f64Add {a b : F64} (ha : f64Finite a = true) (hb : f64Finite b = true) :
    IsRoundOf (f64Add a b) ((f64Int a + f64Int b) * 2 ^ 1074) := by
  unfold f64Add
  simp only [f64Nan_of_finite ha, f64Nan_of_finite hb, ha, hb, Bool.or_self, Bool.not_true,
    Bool.false_eq_true, if_false]
  generalize f64Int a + f64Int b = x
  by_cases hx : x = 0
  · exact ⟨_, 0, if_pos hx, by rw [signed_zero, hx, Int.zero_mul]⟩
  · exact ⟨_, _, if_neg hx, by
      rw [← signed_mul_two_pow, signed_natAbs fun _ => rfl]⟩

theorem f64Mul_of_finite {a b : F64} (ha : f64Finite a = true) (hb : f64Finite b = true) :
    f64Mul a b = f64Round (f64Neg a != f64Neg b) (f64Mag a * f64Mag b) := by
  simp [f64Mul, f64Nan_of_finite ha, f64Nan_of_finite hb, ha, hb]

/-- A product of finite numbers is the exact product rounded once (R12). -/
theorem isRoundOf_f64Mul {a b : F64} (ha : f64Finite a = true) (hb : f64Finite b = true) :
    IsRoundOf (f64Mul a b) (f64Int a * f64Int b) :=
  ⟨_, _, f64Mul_of_finite ha hb, (signed_mul _ _ _ _).symm⟩

theorem overflowBound_cast : (overflowBound : Int) = (2 ^ 54 - 1) * 2 ^ 3118 := by
  rw [overflowBound, Nat.cast_mul, Nat.cast_pow]
  rfl

theorem IsRoundOf.finite_iff {r : F64} {x : Int} (h : IsRoundOf r x) :
    f64Finite r = true ↔ |x| < overflowBound := by
  obtain ⟨neg, m, rfl, rfl⟩ := h
  rw [f64Finite_f64Round, ← Int.natCast_natAbs, natAbs_signed, Nat.cast_lt]

theorem IsRoundOf.nearest {r : F64} {x : Int} (h : IsRoundOf r x) (hf : f64Finite r = true)
    (c : F64) :
    |f64Int r * 2 ^ 1074 - x| ≤ |f64Int c * 2 ^ 1074 - x| ∧
    (f64Int c ≠ f64Int r → |f64Int r * 2 ^ 1074 - x| = |f64Int c * 2 ^ 1074 - x| →
      f64Frac r % 2 = 0) := by
  obtain ⟨neg, m, rfl, rfl⟩ := h
  exact f64Round_nearest hf c

/-- The magnitude of a number in units of 2^-1074, scaled to units of 2^-2148. -/
theorem abs_mul_two_pow (x : Int) (k : Nat) : |x * 2 ^ k| = |x| * 2 ^ k := by
  rw [abs_mul, abs_pow, abs_two]

/-- Settles O43: both results are the exact one rounded once, and rounding gives the nearest. -/
theorem binaryArithmeticRoundsToNearestEven : Obligations.BinaryArithmeticRoundsToNearestEven := by
  intro a b ha hb
  have hadd := isRoundOf_f64Add ha hb
  have hmul := isRoundOf_f64Mul ha hb
  have hpos : ∀ k : Nat, (0 : Int) < 2 ^ k := fun k => pow_pos two_pos k
  refine ⟨⟨?_, fun hf c _ => ?_⟩, ?_, fun hf c _ => hmul.nearest hf c⟩
  · have hbound : (2 ^ 54 - 1) * 2 ^ 3118 = (2 ^ 54 - 1) * 2 ^ 2044 * (2 : Int) ^ 1074 := by
      rw [mul_assoc, ← pow_add]
    rw [hadd.finite_iff, abs_mul_two_pow, overflowBound_cast, hbound,
      mul_lt_mul_iff_of_pos_right (hpos 1074)]
  · have hnear := hadd.nearest hf c
    rwa [← sub_mul, ← sub_mul, abs_mul_two_pow, abs_mul_two_pow,
      mul_le_mul_iff_of_pos_right (hpos 1074), mul_left_inj' (hpos 1074).ne'] at hnear
  · rw [hmul.finite_iff, overflowBound_cast]

/-! ### Exact integers -/

/-- A finite pattern whose value is the integer `x`. -/
structure HoldsInt (a : F64) (x : Int) : Prop where
  finite : f64Finite a = true
  value : f64Int a = x * 2 ^ 1074

theorem lt_overflowBound {n : Nat} (hn : n < 2 ^ 53) : n * 2 ^ 2148 < overflowBound :=
  calc n * 2 ^ 2148 < 2 ^ 53 * 2 ^ 2148 := Nat.mul_lt_mul_of_pos_right hn (pow_pos two_pos _)
    _ ≤ overflowBound := Nat.mul_le_mul (by omega) (pow_le_pow_right₀ one_le_two (by omega))

/-- An integer of at most 53 bits is not changed by rounding. -/
theorem IsRoundOf.holdsInt {r : F64} {x : Int} (h : IsRoundOf r (x * 2 ^ 2148))
    (hx : |x| < 2 ^ 53) : HoldsInt r x := by
  obtain ⟨neg, m, rfl, hm⟩ := h
  have hn : x.natAbs < 2 ^ 53 := by
    rw [← Int.natCast_natAbs] at hx
    exact_mod_cast hx
  have habs : m = x.natAbs * 2 ^ 2148 := by
    rw [← natAbs_signed neg m, hm, natAbs_mul_two_pow]
  have hsign : signed neg x.natAbs = x := by
    rw [habs, ← signed_mul_two_pow] at hm
    exact mul_right_cancel₀ (pow_pos two_pos _).ne' hm
  have hfin : f64Finite (f64Round neg m) = true := by
    rw [f64Finite_f64Round, habs]
    exact lt_overflowBound hn
  have hmag : f64Mag (f64Round neg m) = x.natAbs * 2 ^ 1074 := by
    refine Nat.eq_of_mul_eq_mul_right (pow_pos two_pos 1074) ?_
    rw [f64Mag_eq, f64Round_bits_of_finite hfin, habs, magAt_roundIndex_exact hn (by omega),
      Nat.mul_assoc, ← pow_add]
  exact ⟨hfin, by rw [f64Int_eq_signed, f64Neg_f64Round, hmag, ← signed_mul_two_pow, hsign]⟩

/-- `f64(n)` is exact (R12, R202 (a)). -/
theorem holdsInt_f64OfNat {n : Nat} (hn : n < 2 ^ 53) : HoldsInt (f64OfNat n) n :=
  IsRoundOf.holdsInt ⟨false, n * 2 ^ 2148, rfl, (signed_mul_two_pow false n 2148).symm⟩
    (by rw [Nat.abs_cast]; exact_mod_cast hn)

theorem HoldsInt.add {a b : F64} {x y : Int} (ha : HoldsInt a x) (hb : HoldsInt b y)
    (h : |x + y| < 2 ^ 53) : HoldsInt (f64Add a b) (x + y) := by
  have hround := isRoundOf_f64Add ha.finite hb.finite
  rw [ha.value, hb.value, ← add_mul, mul_assoc, ← pow_add] at hround
  exact hround.holdsInt h

theorem HoldsInt.mul {a b : F64} {x y : Int} (ha : HoldsInt a x) (hb : HoldsInt b y)
    (h : |x * y| < 2 ^ 53) : HoldsInt (f64Mul a b) (x * y) := by
  have hround := isRoundOf_f64Mul ha.finite hb.finite
  rw [ha.value, hb.value, mul_mul_mul_comm, ← pow_add] at hround
  exact hround.holdsInt h

theorem f64Negate_bits (a : F64) : (f64Negate a).toNat % 2 ^ 63 = a.toNat % 2 ^ 63 := by
  have hsign : (0x8000000000000000 : F64).toNat % 2 ^ 63 = 0 := by decide
  rw [f64Negate, BitVec.toNat_xor, Nat.xor_mod_two_pow, hsign, Nat.xor_zero]

theorem f64Neg_f64Negate (a : F64) : f64Neg (f64Negate a) = !f64Neg a := by
  simp [f64Neg, f64Negate]

theorem f64Finite_f64Negate (a : F64) : f64Finite (f64Negate a) = f64Finite a := by
  rw [Bool.eq_iff_iff, f64Finite_iff, f64Finite_iff, f64Negate_bits]

theorem f64Int_f64Negate (a : F64) : f64Int (f64Negate a) = -f64Int a := by
  rw [f64Int, f64Int, f64Neg_f64Negate, f64Mag_eq, f64Mag_eq, f64Negate_bits]
  cases f64Neg a <;> simp

theorem HoldsInt.sub {a b : F64} {x y : Int} (ha : HoldsInt a x) (hb : HoldsInt b y)
    (h : |x - y| < 2 ^ 53) : HoldsInt (f64Sub a b) (x - y) := by
  have hneg : HoldsInt (f64Negate b) (-y) :=
    ⟨by rw [f64Finite_f64Negate, hb.finite], by rw [f64Int_f64Negate, hb.value, neg_mul]⟩
  exact ha.add hneg h

/-! ### Bytes and distances of byte colours -/

/-- A squared difference of integers between -2^16 and 2^16 is exact. -/
theorem HoldsInt.sqDiff {a b : F64} {x y : Int} (ha : HoldsInt a x) (hb : HoldsInt b y)
    (h : |x - y| ≤ 2 ^ 16) : HoldsInt (f64SqDiff a b) ((x - y) ^ 2) := by
  have hsub := ha.sub hb (h.trans_lt (by norm_num))
  rw [sq]
  refine hsub.mul hsub ?_
  calc |(x - y) * (x - y)| = |x - y| * |x - y| := abs_mul _ _
    _ ≤ 2 ^ 16 * 2 ^ 16 := mul_le_mul h h (abs_nonneg _) (by norm_num)
    _ < 2 ^ 53 := by norm_num

theorem abs_byte_sub_le {a b : Nat} (ha : a < 256) (hb : b < 256) : |(a : Int) - b| ≤ 255 :=
  abs_le.2 ⟨by omega, by omega⟩

theorem byte_sub_sq_le {a b : Nat} (ha : a < 256) (hb : b < 256) :
    0 ≤ ((a : Int) - b) ^ 2 ∧ ((a : Int) - b) ^ 2 ≤ 255 ^ 2 :=
  ⟨sq_nonneg _, sq_le_sq' (by omega) (by omega)⟩

theorem holdsInt_sub_bytes {a b : Nat} (ha : a < 256) (hb : b < 256) :
    HoldsInt (f64Sub (f64OfNat a) (f64OfNat b)) ((a : Int) - b) :=
  (holdsInt_f64OfNat (by omega)).sub (holdsInt_f64OfNat (by omega))
    ((abs_byte_sub_le ha hb).trans_lt (by norm_num))

theorem holdsInt_sqDiff_bytes {a b : Nat} (ha : a < 256) (hb : b < 256) :
    HoldsInt (f64SqDiff (f64OfNat a) (f64OfNat b)) (((a : Int) - b) ^ 2) :=
  (holdsInt_f64OfNat (by omega)).sqDiff (holdsInt_f64OfNat (by omega))
    ((abs_byte_sub_le ha hb).trans (by norm_num))

/-- The binary64 distance of two byte colours is the integer distance (R202 (b)). -/
theorem holdsInt_distance64 {c d : Rgb} (hc : c.r < 256 ∧ c.g < 256 ∧ c.b < 256)
    (hd : d.r < 256 ∧ d.g < 256 ∧ d.b < 256) :
    HoldsInt (distance64 (color64Of c) (color64Of d)) (dist c d) := by
  obtain ⟨hcr, hcg, hcb⟩ := hc
  obtain ⟨hdr, hdg, hdb⟩ := hd
  have hr := byte_sub_sq_le hcr hdr
  have hg := byte_sub_sq_le hcg hdg
  have hb := byte_sub_sq_le hcb hdb
  exact ((holdsInt_sqDiff_bytes hcr hdr).add (holdsInt_sqDiff_bytes hcg hdg)
    (abs_lt.2 ⟨by linarith, by linarith⟩)).add (holdsInt_sqDiff_bytes hcb hdb)
    (abs_lt.2 ⟨by linarith, by linarith⟩)

/-- Settles O44: every intermediate result is an integer of at most 53 bits. -/
theorem byteArithmeticIsExact : Obligations.ByteArithmeticIsExact :=
  ⟨fun _ ha _ hb => ⟨(holdsInt_f64OfNat (by omega)).value, (holdsInt_sub_bytes ha hb).value⟩,
    fun _ _ hc hd => ⟨(holdsInt_distance64 hc hd).finite, (holdsInt_distance64 hc hd).value⟩⟩

end Sys2Proof.Machine

/-! The pair search of DISP (spec/43_disperser.md R197, R198): its costs are numbers from 0 on, which
are ordered as `f64Int` orders them, and the scan finds the first least one. -/

namespace Sys2Proof.Machine

/-! ### Comparisons of numbers that are no NaN -/

theorem f64Lt_iff {a b : F64} (ha : f64Nan a = false) (hb : f64Nan b = false) :
    f64Lt a b = true ↔ f64Int a < f64Int b := by
  simp [f64Lt, ha, hb]

theorem f64Le_iff {a b : F64} (ha : f64Nan a = false) (hb : f64Nan b = false) :
    f64Le a b = true ↔ f64Int a ≤ f64Int b := by
  simp [f64Le, ha, hb]

theorem not_nan_of_f64Le {a b : F64} (h : f64Le a b = true) :
    f64Nan a = false ∧ f64Nan b = false := by
  simp only [f64Le, Bool.and_eq_true, Bool.not_eq_true'] at h
  exact h.1

/-- Infinities and NaNs are above every finite magnitude. -/
theorem le_f64Mag_of_not_finite {a : F64} (h : f64Finite a = false) : 2 ^ 2046 ≤ f64Mag a := by
  have hexp : f64Exp a = 0x7FF := by simpa [f64Finite] using h
  have hsub : f64Exp a - 1 = 2046 := by omega
  rw [f64Mag, if_neg (by omega), hsub]
  exact Nat.le_mul_of_pos_left _ (by omega)

/-- What lies in `[0, 255]` is finite. -/
theorem f64Finite_of_range {a : F64} (hlow : f64Le (f64OfNat 0) a = true)
    (hhigh : f64Le a (f64OfNat 255) = true) : f64Finite a = true := by
  obtain ⟨hzero, hnan⟩ := not_nan_of_f64Le hlow
  rw [f64Le_iff hzero hnan, (holdsInt_f64OfNat (by omega)).value, Nat.cast_zero,
    Int.zero_mul] at hlow
  rw [f64Le_iff hnan (not_nan_of_f64Le hhigh).2, (holdsInt_f64OfNat (by omega)).value] at hhigh
  rw [← Bool.not_eq_false]
  intro hinf
  have hmag : (2 : Int) ^ 2046 ≤ f64Int a := by
    have := le_f64Mag_of_not_finite hinf
    rw [← natAbs_signed (f64Neg a) (f64Mag a), ← f64Int_eq_signed] at this
    rw [← Int.natAbs_of_nonneg hlow]
    exact_mod_cast this
  have hsmall : ((255 : Nat) : Int) * 2 ^ 1074 < 2 ^ 2046 :=
    calc ((255 : Nat) : Int) * 2 ^ 1074 < 2 ^ 8 * 2 ^ 1074 :=
          mul_lt_mul_of_pos_right (by norm_num) (pow_pos two_pos _)
      _ = 2 ^ (8 + 1074) := (pow_add _ _ _).symm
      _ ≤ 2 ^ 2046 := pow_le_pow_right₀ one_le_two (by omega)
  exact absurd (hmag.trans hhigh) (not_le.2 hsmall)

/-! ### Costs are numbers from 0 on -/

/-- Neither a NaN nor of negative sign: a sum of such numbers is one again, finite or not. -/
structure NonNeg (a : F64) : Prop where
  notNan : f64Nan a = false
  sign : f64Neg a = false

theorem nonNeg_f64Round (m : Nat) : NonNeg (f64Round false m) :=
  ⟨f64Nan_f64Round false m, f64Neg_f64Round false m⟩

theorem NonNeg.f64Int_nonneg {a : F64} (h : NonNeg a) : 0 ≤ f64Int a := by
  rw [f64Int, h.sign]
  exact Int.natCast_nonneg _

theorem NonNeg.add {a b : F64} (ha : NonNeg a) (hb : NonNeg b) : NonNeg (f64Add a b) := by
  have hpos : ¬ f64Int a + f64Int b < 0 := by
    have := ha.f64Int_nonneg
    have := hb.f64Int_nonneg
    omega
  simp only [f64Add, ha.notNan, hb.notNan, ha.sign, hb.sign, hpos, Bool.or_self, bne_self_eq_false,
    Bool.and_false, Bool.false_eq_true, if_false, decide_false]
  split
  · exact ha
  · split
    · exact hb
    · split <;> exact nonNeg_f64Round _

/-- A square is a number from 0 on, of an infinity too. -/
theorem nonNeg_f64Mul_self {a : F64} (h : f64Nan a = false) : NonNeg (f64Mul a a) := by
  cases hf : f64Finite a with
  | true =>
    rw [f64Mul_of_finite hf hf, bne_self_eq_false]
    exact nonNeg_f64Round _
  | false =>
    have hmag : f64Mag a ≠ 0 := ((pow_pos two_pos 2046).trans_le (le_f64Mag_of_not_finite hf)).ne'
    have hinf : f64Mul a a = f64Inf false := by simp [f64Mul, h, hf, hmag]
    rw [hinf]
    exact ⟨by decide, by decide⟩

/-- The three channels are finite. -/
structure Color64.Finite (c : Color64) : Prop where
  r : f64Finite c.r = true
  g : f64Finite c.g = true
  b : f64Finite c.b = true

theorem nonNeg_f64SqDiff {a b : F64} (ha : f64Finite a = true) (hb : f64Finite b = true) :
    NonNeg (f64SqDiff a b) := by
  obtain ⟨neg, m, he, _⟩ := isRoundOf_f64Add ha ((f64Finite_f64Negate b).trans hb)
  exact nonNeg_f64Mul_self (by rw [f64Sub, he]; exact f64Nan_f64Round neg m)

theorem nonNeg_distance64 {e c : Color64} (he : e.Finite) (hc : c.Finite) :
    NonNeg (distance64 e c) :=
  ((nonNeg_f64SqDiff he.r hc.r).add (nonNeg_f64SqDiff he.g hc.g)).add (nonNeg_f64SqDiff he.b hc.b)

theorem finite_colorAt {colors : List Color64} (h : ∀ c ∈ colors, c.Finite) (k : Nat) :
    (colorAt colors k).Finite := by
  rw [colorAt, List.getD_eq_getElem?_getD]
  cases hc : colors[k]? with
  | some c => exact h c (List.mem_of_getElem? hc)
  | none =>
    have hzero := (holdsInt_f64OfNat (show 0 < 2 ^ 53 by omega)).finite
    exact ⟨hzero, hzero, hzero⟩

/-- Every cost is a sum of distances from `+0.0` on (R197). -/
theorem nonNeg_pairCost {colors es : List Color64} (hc : ∀ c ∈ colors, c.Finite)
    (he : ∀ e ∈ es, e.Finite) (q : Nat × Nat) : NonNeg (pairCost colors es q) := by
  unfold pairCost
  refine List.foldlRecOn es _ (nonNeg_f64Round _) fun cost hcost e hmem => hcost.add ?_
  have hd := fun k => nonNeg_distance64 (he e hmem) (finite_colorAt hc k)
  split
  · exact hd _
  · exact hd _

/-! ### The search for a pair of least cost -/

/-- The scan answers the best so far or a costed pair of the list, with what it replaced or passed
over: everything before the answer costs more, everything after it no less (R197). -/
theorem firstMinimum_some {l : List ((Nat × Nat) × F64)} {b : (Nat × Nat) × F64}
    (hl : ∀ c ∈ b :: l, f64Nan c.2 = false) :
    ∃ best pre post, firstMinimum l (some b) = some best ∧ b :: l = pre ++ best :: post ∧
      (∀ c ∈ pre, f64Int best.2 < f64Int c.2) ∧ ∀ c ∈ post, f64Int best.2 ≤ f64Int c.2 := by
  induction l generalizing b with
  | nil => exact ⟨b, [], [], rfl, rfl, by simp, by simp⟩
  | cons c l ih =>
    have hb := hl b (by simp)
    have hc := hl c (by simp)
    have htail : ∀ d ∈ l, f64Nan d.2 = false := fun d hd => hl d (by simp [hd])
    rw [firstMinimum]
    split
    · next hlt =>
      rw [f64Lt_iff hc hb] at hlt
      obtain ⟨best, pre, post, hbest, hsplit, hpre, hpost⟩ :=
        ih (b := c) (List.forall_mem_cons.2 ⟨hc, htail⟩)
      have hle : f64Int best.2 ≤ f64Int c.2 := by
        have hmem : c ∈ pre ++ best :: post := hsplit ▸ List.mem_cons_self
        rcases List.mem_append.1 hmem with hm | hm
        · exact (hpre c hm).le
        · rcases List.mem_cons.1 hm with rfl | hm
          · exact le_rfl
          · exact hpost c hm
      exact ⟨best, b :: pre, post, hbest, by rw [hsplit, List.cons_append],
        List.forall_mem_cons.2 ⟨hle.trans_lt hlt, hpre⟩, hpost⟩
    · next hge =>
      rw [f64Lt_iff hc hb, not_lt] at hge
      obtain ⟨best, pre, post, hbest, hsplit, hpre, hpost⟩ :=
        ih (List.forall_mem_cons.2 ⟨hb, htail⟩)
      cases pre with
      | nil =>
        obtain ⟨rfl, rfl⟩ := List.cons.inj hsplit
        exact ⟨b, [], c :: l, hbest, rfl, hpre, List.forall_mem_cons.2 ⟨hge, hpost⟩⟩
      | cons d pre =>
        obtain ⟨rfl, rfl⟩ := List.cons.inj hsplit
        obtain ⟨hlt, hpre⟩ := List.forall_mem_cons.1 hpre
        exact ⟨best, b :: c :: pre, post, hbest, rfl, List.forall_mem_cons.2
          ⟨hlt, List.forall_mem_cons.2 ⟨hlt.trans_le hge, hpre⟩⟩, hpost⟩

/-- The pair the search finds: no pair costs less, and every pair before it costs more (R197). -/
structure FirstLeast (colors es : List Color64) (best : Nat × Nat) (pre post : List (Nat × Nat)) :
    Prop where
  split : allPairs = pre ++ best :: post
  before : ∀ q ∈ pre, f64Int (pairCost colors es best) < f64Int (pairCost colors es q)
  after : ∀ q ∈ post, f64Int (pairCost colors es best) ≤ f64Int (pairCost colors es q)

theorem FirstLeast.mem {colors es : List Color64} {best : Nat × Nat} {pre post : List (Nat × Nat)}
    (h : FirstLeast colors es best pre post) : best ∈ allPairs := by
  rw [h.split]
  exact List.mem_append_right _ List.mem_cons_self

theorem FirstLeast.le {colors es : List Color64} {best : Nat × Nat} {pre post : List (Nat × Nat)}
    (h : FirstLeast colors es best pre post) {q : Nat × Nat} (hq : q ∈ allPairs) :
    f64Int (pairCost colors es best) ≤ f64Int (pairCost colors es q) := by
  rw [h.split] at hq
  rcases List.mem_append.1 hq with hq | hq
  · exact (h.before q hq).le
  · rcases List.mem_cons.1 hq with rfl | hq
    · exact le_rfl
    · exact h.after q hq

/-- The search over the 136 costed pairs. -/
theorem firstMinimum_pairCosts {colors es : List Color64}
    (hn : ∀ q, f64Nan (pairCost colors es q) = false) :
    ∃ best pre post, firstMinimum (pairCosts colors es) none =
      some (best, pairCost colors es best) ∧ FirstLeast colors es best pre post := by
  obtain ⟨q, rest, hq⟩ : ∃ q rest, allPairs = q :: rest := ⟨_, _, rfl⟩
  have hcosts : pairCosts colors es = (q, pairCost colors es q) ::
      rest.map fun q => (q, pairCost colors es q) := by rw [pairCosts, hq, List.map_cons]
  obtain ⟨best, pre, post, hbest, hsplit, hpre, hpost⟩ := firstMinimum_some
    (l := rest.map fun q => (q, pairCost colors es q)) (b := (q, pairCost colors es q))
    (by
      rw [← hcosts]
      intro c hc
      obtain ⟨q', _, rfl⟩ := List.mem_map.1 hc
      exact hn q')
  rw [← hcosts, pairCosts, List.map_eq_append_iff] at hsplit
  obtain ⟨pre', tail, hall, rfl, htail⟩ := hsplit
  obtain ⟨b, post', rfl, rfl, rfl⟩ := List.map_eq_cons_iff.1 htail
  refine ⟨b, pre', post', by rw [hcosts, firstMinimum, hbest], hall, fun q' hq' => ?_,
    fun q' hq' => ?_⟩
  · exact hpre (q', _) (List.mem_map_of_mem hq')
  · exact hpost (q', _) (List.mem_map_of_mem hq')

/-- The pairs the tie-break chooses from are those of least cost. -/
theorem mem_minimalPairs {colors es : List Color64}
    (hn : ∀ q, f64Nan (pairCost colors es q) = false) {best q : Nat × Nat} :
    q ∈ minimalPairs (pairCosts colors es) (best, pairCost colors es best) ↔
      q ∈ allPairs ∧ f64Int (pairCost colors es q) ≤ f64Int (pairCost colors es best) := by
  simp only [minimalPairs, pairCosts, List.mem_map, List.mem_filter]
  constructor
  · rintro ⟨_, ⟨⟨q', hq', rfl⟩, hle⟩, rfl⟩
    exact ⟨hq', (f64Le_iff (hn _) (hn _)).1 hle⟩
  · rintro ⟨hq, hle⟩
    exact ⟨_, ⟨⟨q, hq, rfl⟩, (f64Le_iff (hn _) (hn _)).2 hle⟩, rfl⟩

/-- The tie-break's choice is one of the minimal pairs (R8, R197). -/
theorem getD_tieBreak_mem (p : Params) {minimal : List (Nat × Nat)} (h : minimal ≠ [])
    (d : Nat × Nat) : minimal.getD (tieBreak p minimal) d ∈ minimal := by
  have hpos : 0 < minimal.length := List.length_pos_iff.2 h
  have hlt : tieBreak p minimal < minimal.length := by
    unfold tieBreak
    split
    · exact hpos
    · exact Nat.mod_lt _ hpos
  rw [List.getD_eq_getElem _ _ hlt]
  exact List.getElem_mem hlt

/-- The first of the minimal pairs is the one the search found. -/
theorem minimalPairs_head {colors es : List Color64}
    (hn : ∀ q, f64Nan (pairCost colors es q) = false) {best : Nat × Nat}
    {pre post : List (Nat × Nat)} (h : FirstLeast colors es best pre post) :
    (minimalPairs (pairCosts colors es) (best, pairCost colors es best)).getD 0 best = best := by
  have hpre : (pre.map fun q => (q, pairCost colors es q)).filter
      (fun c => f64Le c.2 (pairCost colors es best)) = [] := by
    refine List.filter_eq_nil_iff.2 fun c hc => ?_
    obtain ⟨q, hq, rfl⟩ := List.mem_map.1 hc
    rw [f64Le_iff (hn _) (hn _), not_le]
    exact h.before q hq
  have hself : f64Le (pairCost colors es best) (pairCost colors es best) = true :=
    (f64Le_iff (hn _) (hn _)).2 le_rfl
  rw [minimalPairs, pairCosts, h.split, List.map_append, List.filter_append, hpre, List.map_cons,
    List.filter_cons, if_pos hself]
  rfl

theorem allPairs_nodup : allPairs.Nodup := by decide +kernel

/-- A cell with a pixel: the tie-break's choice among the minimal pairs of the first one found. -/
theorem choosePair_of_firstMinimum (p : Params) {colors es : List Color64} (hes : es ≠ [])
    {best : (Nat × Nat) × F64} (h : firstMinimum (pairCosts colors es) none = some best) :
    choosePair p colors es = (minimalPairs (pairCosts colors es) best).getD
      (tieBreak p (minimalPairs (pairCosts colors es) best)) best.1 := by
  cases es with
  | nil => exact absurd rfl hes
  | cons e es => rw [choosePair]; simp only [h]

section Choice

variable (p : Params) {colors es : List Color64}
  (hn : ∀ q, f64Nan (pairCost colors es q) = false)

include hn

/-- The chosen pair is one of the 136 and of least cost, whatever the tie-break. -/
theorem choosePair_least (hes : es ≠ []) :
    choosePair p colors es ∈ allPairs ∧ ∀ q ∈ allPairs,
      f64Int (pairCost colors es (choosePair p colors es)) ≤ f64Int (pairCost colors es q) := by
  obtain ⟨best, pre, post, hbest, hfirst⟩ := firstMinimum_pairCosts hn
  have hmin : best ∈ minimalPairs (pairCosts colors es) (best, pairCost colors es best) :=
    (mem_minimalPairs hn).2 ⟨hfirst.mem, le_rfl⟩
  have hchoice := getD_tieBreak_mem p (List.ne_nil_of_mem hmin) best
  rw [← choosePair_of_firstMinimum p hes hbest] at hchoice
  obtain ⟨hmem, hle⟩ := (mem_minimalPairs hn).1 hchoice
  exact ⟨hmem, fun q hq => hle.trans (hfirst.le hq)⟩

/-- With the default tie-break every pair before the chosen one costs more. -/
theorem choosePair_first (hes : es ≠ []) (ht : p.tieTable = []) {k j : Nat} {q : Nat × Nat}
    (hk : allPairs[k]? = some (choosePair p colors es)) (hj : j < k) (hq : allPairs[j]? = some q) :
    f64Int (pairCost colors es (choosePair p colors es)) < f64Int (pairCost colors es q) := by
  obtain ⟨best, pre, post, hbest, hfirst⟩ := firstMinimum_pairCosts hn
  have hzero : ∀ minimal, tieBreak p minimal = 0 := fun minimal => by simp [tieBreak, ht]
  have hchoice : choosePair p colors es = best := by
    rw [choosePair_of_firstMinimum p hes hbest, hzero, minimalPairs_head hn hfirst]
  rw [hchoice] at hk ⊢
  have hplace : allPairs[pre.length]? = some best := by
    rw [hfirst.split]
    simp
  obtain ⟨hlt, -⟩ := List.getElem?_eq_some_iff.1 hk
  have hkpre : k = pre.length :=
    (List.getElem?_inj hlt allPairs_nodup).1 (hk.trans hplace.symm)
  refine hfirst.before q (List.mem_of_getElem? (i := j) ?_)
  rwa [hfirst.split, List.getElem?_append_left (hkpre ▸ hj)] at hq

end Choice

/-- Settles O45: the costs are no NaN, so the scan's first minimum is one in the order of `f64Int`. -/
theorem pairSearchIsMinimal : Obligations.PairSearchIsMinimal := by
  intro p colors es _ hrange
  have hfin : ∀ e ∈ colors ++ es, e.Finite := fun e he => by
    obtain ⟨⟨hr, hr'⟩, ⟨hg, hg'⟩, hb, hb'⟩ := hrange e he
    exact ⟨f64Finite_of_range hr hr', f64Finite_of_range hg hg', f64Finite_of_range hb hb'⟩
  have hn : ∀ q, f64Nan (pairCost colors es q) = false := fun q =>
    (nonNeg_pairCost (fun c hc => hfin c (List.mem_append_left _ hc))
      (fun e he => hfin e (List.mem_append_right _ he)) q).notNan
  intro q
  by_cases hes : es = []
  · have hcost : ∀ q', pairCost colors es q' = f64OfNat 0 := fun q' => by rw [hes]; rfl
    have hq : q = (0, 1) := by simp only [q, hes, choosePair]
    refine ⟨?_, fun q' _ => ?_, fun h => absurd hes h, fun _ => hq⟩
    · rw [hq]
      decide
    · rw [f64Le_iff (hn _) (hn _), hcost, hcost]
  · obtain ⟨hmem, hle⟩ := choosePair_least p hn hes
    refine ⟨hmem, fun q' hq' => ?_, fun _ ht k j q' hk hj hq' => ?_, fun h => absurd h hes⟩
    · rw [f64Le_iff (hn _) (hn _)]
      exact hle q' hq'
    · rw [f64Lt_iff (hn _) (hn _)]
      exact choosePair_first p hn hes ht hk hj hq'

end Sys2Proof.Machine

/-! The register file and the window as the host sees them (spec/10_state.md R22 to R35,
spec/20_memory.md R60 to R71): one access is one step, and each register stores and reads its own
bits. -/

namespace Sys2Proof.Machine

/-! ### The map of the registers -/

/-- The byte offset of a register (R22). -/
def regOffset : Reg → Nat
  | .cmd => 0x00
  | .status => 0x04
  | .valid => 0x08
  | .fcause => 0x0C
  | .finfo => 0x10
  | .canvas => 0x14
  | .klen => 0x18
  | .res => 0x1C
  | .ncube => 0x20
  | .vcount => 0x24
  | .tlen => 0x28
  | .clen => 0x2C
  | .flen => 0x30
  | .mode0 => 0x34
  | .mode1 => 0x38
  | .bufsel => 0x3C
  | .bufaddr => 0x40
  | .bufdata => 0x44

@[simp] theorem regAt_regOffset (r : Reg) : regAt (regOffset r) = some r := by cases r <;> rfl

theorem regAt_eq_some_iff {off : Nat} {r : Reg} : regAt off = some r ↔ off = regOffset r := by
  refine ⟨fun h => ?_, fun h => h ▸ regAt_regOffset r⟩
  unfold regAt at h
  split at h <;> cases h <;> rfl

/-- Every aligned offset up to BUFDATA's is a register's, and the offsets from there on are
reserved. -/
theorem regAt_eq_none_iff {off : Nat} (ha : off % 4 = 0) : regAt off = none ↔ 0x44 < off := by
  constructor
  · intro h
    by_contra hle
    obtain ⟨k, rfl⟩ : ∃ k, off = 4 * k := ⟨off / 4, by omega⟩
    have hk : k ≤ 17 := by omega
    interval_cases k <;> cases h
  · intro h
    cases hr : regAt off with
    | none => rfl
    | some r => exact absurd (regAt_lt hr) (by omega)

/-- An access of a register's offset is one that the interface admits (R60, R61). -/
theorem accessOk_regOffset (r : Reg) : accessOk (regOffset r) 4 = true := by cases r <;> rfl

theorem accessOk_of_aligned {off : Nat} (ha : off % 4 = 0) (hlt : off < 256) :
    accessOk off 4 = true := by simp [accessOk, ha, hlt]

/-! ### One access as one step -/

theorem step_of_host {s : State} {a : HostAction} {rest : List HostAction}
    (h : s.host = a :: rest) : step s = hostAct a { s with host := rest } := by
  unfold step
  rw [h]

theorem step_read {s : State} {off : Nat} {rest : List HostAction}
    (h : s.host = .read off 4 :: rest) (hok : accessOk off 4 = true) :
    step s = .next (hostRead off { s with host := rest }) := by
  rw [step_of_host h, hostAct, if_pos hok]

theorem step_write {s : State} {off : Nat} {v : Word} {rest : List HostAction}
    (h : s.host = .write off 4 v :: rest) (hok : accessOk off 4 = true) :
    step s = hostWrite off v { s with host := rest } := by
  rw [step_of_host h, hostAct, if_pos hok]

theorem hostRead_regOffset {r : Reg} (hr : r ≠ .bufdata) (s : State) :
    hostRead (regOffset r) s = { s with readData := regValue s r } := by
  cases r with
  | bufdata => exact absurd rfl hr
  | _ => rfl

theorem hostRead_reserved {off : Nat} (h : regAt off = none) (s : State) :
    hostRead off s = { s with readData := 0 } := by
  unfold hostRead
  rw [h]

theorem hostWrite_regOffset {r : Reg} (hr : r ≠ .cmd) (v : Word) (s : State) :
    hostWrite (regOffset r) v s = .next (regWrite r v s) := by
  cases r with
  | cmd => exact absurd rfl hr
  | _ => rfl

theorem hostWrite_reserved {off : Nat} (h : regAt off = none) (v : Word) (s : State) :
    hostWrite off v s = .next s := by
  unfold hostWrite
  rw [h]

theorem runCommand_of_decode {w : Word} {i : Instr} (h : decodeWord w = .ok i) (s : State) :
    runCommand w s = exec i s := by
  unfold runCommand
  rw [h]
  cases hf : s.fault with
  | true => rw [gated_of_faulted hf, exec_of_faulted i hf]
  | false => rw [gated_of_clear hf]

/-- Settles O1: the gate in front of decoding and the one `exec` begins with agree. -/
theorem stepRunsTheDecodedCommand : Obligations.StepRunsTheDecodedCommand :=
  ⟨fun _ _ _ h => step_of_host h, fun _ _ _ _ h hd _ =>
    (step_write h rfl).trans (runCommand_of_decode hd _)⟩

/-! ### Reading a register -/

/-- Three flags in bits 0, 1 and 2 of a word (R25, R26). -/
theorem toNat_bitAt_or : ∀ a b c : Bool,
    (bitAt a 0 ||| bitAt b 1 ||| bitAt c 2).toNat = a.toNat + 2 * b.toNat + 4 * c.toNat := by
  decide

/-- What the bits of a register read as, a number for each (R22 to R35). -/
theorem toNat_regValue (s : State) (r : Reg) :
    (regValue s r).toNat =
      match r with
      | .cmd => 0
      | .status => s.fault.toNat + 2 * s.wfill.toNat + 4 * s.wviol.toNat
      | .valid => s.palv.toNat + 2 * s.idxv.toNat + 4 * s.plnv.toNat
      | .fcause => s.fcause.toNat
      | .finfo => s.finfo.toNat
      | .canvas => s.canvas.toNat
      | .klen => s.klen.toNat
      | .res => s.res.toNat
      | .ncube => s.ncube.toNat
      | .vcount => s.vcount.toNat
      | .tlen => s.tlen.toNat
      | .clen => s.clen.toNat
      | .flen => s.flen.toNat
      | .mode0 => s.mode0.toNat
      | .mode1 => s.mode1.toNat
      | .bufsel => s.bufsel.toNat
      | .bufaddr => s.bufaddr.toNat
      | .bufdata => 0 := by
  cases r with
  | status => exact toNat_bitAt_or ..
  | valid => exact toNat_bitAt_or ..
  | fcause | klen | ncube | mode1 | bufsel | bufaddr =>
    exact BitVec.toNat_setWidth_of_le (by decide)
  | _ => rfl

/-- Settles O18: an offset is a register's or lies behind them all. -/
theorem registerReads : Obligations.RegisterReads := by
  intro s rest off h ha hlt hdata
  have hstep := step_read h (accessOk_of_aligned ha hlt)
  cases hr : regAt off with
  | none =>
    have hoff := (regAt_eq_none_iff ha).1 hr
    refine ⟨0, by rw [hstep, hostRead_reserved hr], ?_⟩
    iterate 16 rw [if_neg (by omega)]
    rfl
  | some r =>
    obtain rfl := regAt_eq_some_iff.1 hr
    have hne : r ≠ .bufdata := fun he => hdata (he ▸ rfl)
    refine ⟨_, by rw [hstep, hostRead_regOffset hne], ?_⟩
    rw [toNat_regValue]
    cases r with
    | bufdata => exact absurd rfl hne
    | _ => rfl

/-! ### Reset -/

/-- After reset every register that holds state reads 0 (R49). -/
theorem regValue_resetBlock (s : State) {r : Reg} (hr : r ≠ .bufdata) :
    regValue (resetBlock s) r = 0 := by
  cases r with
  | bufdata => exact absurd rfl hr
  | status | valid => exact BitVec.eq_of_toNat_eq (toNat_bitAt_or ..)
  | _ => rfl

/-- After reset no element of a buffer holds a value (log 10). -/
theorem readElem_resetBlock (s : State) (b : BufId) (i : Nat) :
    readElem (resetBlock s) b i = none := by cases b <;> rfl

/-- Settles O15: the reset state is what reset makes of itself. -/
theorem resetClearsEverything : Obligations.ResetClearsEverything :=
  ⟨fun s rest h => ⟨resetBlock { s with host := rest }, step_of_host h,
      fun _ hr => regValue_resetBlock _ hr, readElem_resetBlock _, rfl, rfl⟩,
    fun _ hr => regValue_resetBlock State.reset hr, readElem_resetBlock State.reset⟩

/-! ### Writing a register -/

/-- Settles O20: a read-only register's write and a reserved offset's leave the state as it is. -/
theorem readOnlyWritesAreIgnored : Obligations.ReadOnlyWritesAreIgnored := by
  intro s rest off v h ha hlt hro
  have hstep := step_write h (accessOk_of_aligned ha hlt)
  rcases hro with hmem | hres
  · simp only [List.mem_cons, List.not_mem_nil, or_false] at hmem
    rcases hmem with rfl | rfl | rfl | rfl | rfl | rfl | rfl <;> exact hstep
  · rw [hstep, hostWrite_reserved ((regAt_eq_none_iff ha).2 (by omega))]

/-- Settles O21. -/
theorem canvasWriteClearsResults : Obligations.CanvasWriteClearsResults := fun _ _ v h =>
  (step_write h (accessOk_regOffset .canvas)).trans
    (hostWrite_regOffset (r := .canvas) (by decide) v _)

/-- The bits a host write stores in a register whose bits it then reads back (R24 to R35); none where
the register is no such one. -/
def storedMask : Reg → Option Word
  | .valid => some 0x7
  | .canvas => some 0xFFFFFFFF
  | .klen => some 0xFFFF
  | .tlen => some 0xFFFFFFFF
  | .clen => some 0xFFFFFFFF
  | .mode0 => some 0xFFFFFFFF
  | .mode1 => some 0xFF
  | .bufsel => some 0xF
  | .bufaddr => some 0xFFFFFF
  | .cmd | .status | .fcause | .finfo | .res | .ncube | .vcount | .flen | .bufdata => none

/-- The low bits of a word, zero-extended, are the word under a mask. -/
theorem setWidth_setWidth_eq_and (v : Word) {n : Nat} (hn : n ≤ 32) :
    (v.setWidth n).setWidth 32 = v &&& BitVec.ofNat 32 (2 ^ n - 1) := by
  refine BitVec.eq_of_toNat_eq ?_
  have hpow : 2 ^ n ≤ 2 ^ 32 := Nat.pow_le_pow_right (by decide) hn
  have hmask : (2 ^ n - 1) % 2 ^ 32 = 2 ^ n - 1 := Nat.mod_eq_of_lt (by omega)
  rw [BitVec.toNat_setWidth_of_le hn, BitVec.toNat_and, BitVec.toNat_ofNat, hmask,
    Nat.and_two_pow_sub_one_eq_mod, BitVec.toNat_setWidth]

/-- The three flags of VALID, each stored from its bit, read as the low three bits (R26). -/
theorem validWord_writeValid (v : Word) (s : State) : validWord (writeValid v s) = v &&& 0x7 := by
  refine BitVec.eq_of_toNat_eq ((toNat_bitAt_or ..).trans ?_)
  have hand : (v &&& 0x7).toNat = v.toNat % 8 := Nat.and_two_pow_sub_one_eq_mod v.toNat 3
  simp only [hand, writeValid, BitVec.getLsbD, Nat.toNat_testBit]
  omega

/-- A register reads back the bits that a host write stored (R71). -/
theorem regValue_regWrite {r : Reg} {mask : Word} (hm : storedMask r = some mask) (v : Word)
    (s : State) : regValue (regWrite r v s) r = v &&& mask := by
  cases r with
  | valid => cases hm; exact validWord_writeValid v s
  | canvas | tlen | clen | mode0 => cases hm; exact BitVec.and_allOnes.symm
  | klen | mode1 | bufsel | bufaddr => cases hm; exact setWidth_setWidth_eq_and v (by decide)
  | _ => cases hm

theorem regWrite_host (r : Reg) (v : Word) (s : State) : (regWrite r v s).host = s.host := by
  obtain ⟨_, _, _, _, _, _, _, _, _, _, _, hhost, _, _⟩ := regWrite_frame r v s
  exact hhost

/-- A write of a register and a read right after it, as two steps. -/
theorem step_write_read {s : State} {r : Reg} {v mask : Word} {rest : List HostAction}
    (h : s.host = .write (regOffset r) 4 v :: .read (regOffset r) 4 :: rest)
    (hm : storedMask r = some mask) {t : State}
    (ht : t = regWrite r v { s with host := .read (regOffset r) 4 :: rest }) :
    step s = .next t ∧ step t = .next { t with host := rest, readData := v &&& mask } := by
  have hcmd : r ≠ .cmd := fun he => by subst he; cases hm
  have hdata : r ≠ .bufdata := fun he => by subst he; cases hm
  have hread := regValue_regWrite hm v { s with host := .read (regOffset r) 4 :: rest }
  have hhost : t.host = .read (regOffset r) 4 :: rest := by rw [ht, regWrite_host]
  refine ⟨by rw [step_write h (accessOk_regOffset r), hostWrite_regOffset hcmd, ht], ?_⟩
  rw [step_read hhost (accessOk_regOffset r), hostRead_regOffset hdata]
  rw [← ht] at hread
  rw [← hread]
  cases r <;> rfl

/-- Settles O19: the register at the offset has the statement's mask, and the state written out is
what `regWrite` gives. -/
theorem writtenRegisterReadsBack : Obligations.WrittenRegisterReadsBack := by
  intro s rest off v mask h hmem s' t
  obtain ⟨r, rfl, hm⟩ : ∃ r, off = regOffset r ∧ storedMask r = some mask := by
    simp only [List.mem_cons, List.not_mem_nil, or_false, Prod.mk.injEq] at hmem
    rcases hmem with ⟨rfl, rfl⟩ | ⟨rfl, rfl⟩ | ⟨rfl, rfl⟩ | ⟨rfl, rfl⟩ | ⟨rfl, rfl⟩ | ⟨rfl, rfl⟩ |
      ⟨rfl, rfl⟩ | ⟨rfl, rfl⟩ | ⟨rfl, rfl⟩
    exacts [⟨.valid, rfl, rfl⟩, ⟨.canvas, rfl, rfl⟩, ⟨.klen, rfl, rfl⟩, ⟨.tlen, rfl, rfl⟩,
      ⟨.clen, rfl, rfl⟩, ⟨.mode0, rfl, rfl⟩, ⟨.mode1, rfl, rfl⟩, ⟨.bufsel, rfl, rfl⟩,
      ⟨.bufaddr, rfl, rfl⟩]
  refine step_write_read h hm ?_
  cases r with
  | valid | canvas | tlen | clen | mode0 => rfl
  | klen | mode1 | bufsel | bufaddr =>
    rw [regWrite, BitVec.setWidth_eq_extractLsb' (by decide)]
    rfl
  | _ => cases hm

/-! ### Reading the window -/

theorem windowTarget_of_lt {s : State} {b : BufId} (hb : bufIdOf s.bufsel = some b)
    (hlt : s.bufaddr.toNat < bufCap s.cfg b) : windowTarget s = some b := by
  simp [windowTarget, hb, hlt]

theorem windowTarget_eq_none {s : State}
    (h : ∀ b, bufIdOf s.bufsel = some b → bufCap s.cfg b ≤ s.bufaddr.toNat) :
    windowTarget s = none := by
  cases ht : windowTarget s with
  | none => rfl
  | some b =>
    obtain ⟨hb, hlt⟩ := windowTarget_eq_some ht
    exact absurd (h b hb) (by omega)

/-- No element is wider than a word (R36). -/
theorem width_le (b : BufId) : b.width ≤ 32 := by cases b <;> decide

/-- A free value has the element's width (U1a). -/
theorem freeWord_lt (b : BufId) (d : Nat) : (freeWord b d).toNat < 2 ^ b.width := by
  rw [freeWord, BitVec.toNat_setWidth_of_le (width_le b)]
  exact BitVec.isLt _

theorem windowRead_of_none {s : State} (h : windowTarget s = none) :
    windowRead s = advance { s with readData := 0 } := by
  unfold windowRead
  rw [h]

theorem windowRead_of_written {s : State} {b : BufId} {e : BitVec b.width}
    (h : windowTarget s = some b) (he : readElem s b s.bufaddr.toNat = some e) :
    windowRead s = advance { s with readData := e.setWidth 32 } := by
  simp only [windowRead, h, he]

theorem windowRead_of_unwritten {s : State} {b : BufId} (h : windowTarget s = some b)
    (he : readElem s b s.bufaddr.toNat = none) :
    windowRead s = advance { s with readData := freeWord b s.draws, draws := s.draws + 1 } := by
  simp only [windowRead, h, he]

theorem readElem_withHost (s : State) (rest : List HostAction) (b : BufId) (i : Nat) :
    readElem { s with host := rest } b i = readElem s b i := by cases b <;> rfl

/-- Settles O23: the three answers of a window read, by where the window points and what stands
there. -/
theorem windowReadReturnsTheElement : Obligations.WindowReadReturnsTheElement := by
  intro s rest h
  have hstep : step s = .next (windowRead { s with host := rest }) :=
    step_read h (accessOk_regOffset .bufdata)
  exact ⟨fun b e hb hlt he => hstep.trans (congrArg _
      (windowRead_of_written (windowTarget_of_lt hb hlt) ((readElem_withHost s rest b _).trans he))),
    fun hout => hstep.trans (congrArg _ (windowRead_of_none (windowTarget_eq_none hout))),
    fun b hb hlt he => ⟨freeWord b s.draws, freeWord_lt b _, hstep.trans (congrArg _
      (windowRead_of_unwritten (windowTarget_of_lt hb hlt)
        ((readElem_withHost s rest b _).trans he)))⟩⟩

end Sys2Proof.Machine

/-! Three commands that complete: LATRD (spec/40_lattice.md), VERIFY (spec/44_verifier.md) and CONT
(spec/46_rle_container.md), each with all that it leaves in the state. -/

namespace Sys2Proof.Machine

/-! ### LATRD -/

/-- Three bytes side by side in a word (R30). -/
theorem toNat_packRgb {c : Rgb} (h : c.r < 256 ∧ c.g < 256 ∧ c.b < 256) :
    (packRgb c).toNat = c.r + 256 * c.g + 65536 * c.b := by
  obtain ⟨hr, hg, hb⟩ := h
  have hlow : c.g * 256 + c.r < 2 ^ 16 := by omega
  calc (packRgb c).toNat = (c.r ||| c.g <<< 8) ||| c.b <<< 16 := by
        simp only [packRgb, BitVec.toNat_or, BitVec.toNat_shiftLeft, BitVec.toNat_ofNat,
          Nat.shiftLeft_eq]
        congr 2 <;> omega
    _ = c.b <<< 16 ||| (c.g <<< 8 ||| c.r) := by rw [Nat.or_comm, Nat.or_comm c.r]
    _ = c.b <<< 16 + (c.g <<< 8 + c.r) := by
        rw [← Nat.shiftLeft_add_eq_or_of_lt (i := 8) hr,
          ← Nat.shiftLeft_add_eq_or_of_lt (i := 16) (by rw [Nat.shiftLeft_eq]; exact hlow)]
    _ = c.r + 256 * c.g + 65536 * c.b := by simp only [Nat.shiftLeft_eq]; omega

/-- The three levels of an index are its nibbles (R100). -/
theorem lat_toNat (p : Params) (idx : BitVec 12) :
    lat p idx.toNat = ⟨levelOf p.levelR (idx.extractLsb' 0 4).toNat,
      levelOf p.levelG (idx.extractLsb' 4 4).toNat,
      levelOf p.levelB (idx.extractLsb' 8 4).toNat⟩ := by
  simp [lat, Nat.shiftRight_eq_div_pow]

/-- Settles O28: a lattice colour has byte channels, so they stand side by side in RES. -/
theorem latrdCompletes : Obligations.LatrdCompletes := by
  intro idx s hp hf
  refine ⟨packRgb (lat s.cfg idx.toNat), gated_of_clear hf _, ?_⟩
  rw [toNat_packRgb (lat_lt hp _), lat_toNat]

/-! ### VERIFY -/

/-- The log entry's fields (R45). -/
theorem logEntry_fields {cx y d : Nat} (hx : cx < 2 ^ 12) (hy : y < 2 ^ 16) (hd : d < 2 ^ 4) :
    ((logEntry cx y d).extractLsb' 0 12).toNat = cx ∧
    ((logEntry cx y d).extractLsb' 12 16).toNat = y ∧
    ((logEntry cx y d).extractLsb' 28 4).toNat = d := by
  have h : (logEntry cx y d).toNat = (d * 2 ^ 16 + y) * 2 ^ 12 + cx := by
    unfold logEntry
    rw [BitVec.toNat_append, BitVec.toNat_append, BitVec.toNat_ofNat, BitVec.toNat_ofNat,
      BitVec.toNat_ofNat, Nat.mod_eq_of_lt hx, Nat.mod_eq_of_lt hy, Nat.mod_eq_of_lt hd,
      ← Nat.shiftLeft_add_eq_or_of_lt hx, ← Nat.shiftLeft_add_eq_or_of_lt hy,
      Nat.shiftLeft_eq, Nat.shiftLeft_eq]
  simp only [BitVec.extractLsb'_toNat, h, Nat.shiftRight_eq_div_pow]
  omega

/-- Counting palette indices one by one is counting the distinct ones (R215). -/
theorem distinctCount_eq_card {q : List Nat} (h : ∀ k ∈ q, k < 16) :
    distinctCount q = q.toFinset.card := by
  have hset : ((List.range 16).filter fun k => q.contains k).toFinset = q.toFinset := by
    ext k
    simp only [List.mem_toFinset, List.mem_filter, List.mem_range, List.contains_iff_mem]
    exact ⟨And.right, fun hk => ⟨h k hk, hk⟩⟩
  rw [distinctCount, List.countP_eq_length_filter, ← hset,
    List.toFinset_card_of_nodup (List.nodup_range.filter _)]

/-- An injective map keeps the number of distinct elements. -/
theorem card_toFinset_map {α β : Type} [DecidableEq α] [DecidableEq β] {f : α → β}
    (hf : Function.Injective f) (q : List α) : (q.map f).toFinset.card = q.toFinset.card := by
  rw [← Finset.card_image_of_injective q.toFinset hf]
  congr 1
  ext b
  simp

/-- The distinct values that stand in a cell of IDX, as many as there are distinct indices. -/
theorem distinctCount_cellIndices {b : Buf 4} {W H : Nat} {l : List (BitVec 4)}
    (h : bufReadRun b 0 (W * H) = some l) {c : Nat × Nat} (hc : c ∈ cellList W H) :
    distinctCount (cellIndices W (l.map BitVec.toNat) c) =
      ((cellXs W c.1).map fun x => bufGet b (c.2 * W + x)).toFinset.card := by
  obtain ⟨hlen, hget⟩ := bufReadRun_eq_some.1 h
  have hy := (mem_cellList.1 hc).2
  set q := (cellXs W c.1).map fun x => l.getD (c.2 * W + x) 0 with hq
  have hind : cellIndices W (l.map BitVec.toNat) c = q.map BitVec.toNat := by
    rw [cellIndices, hq, List.map_map]
    exact List.map_congr_left fun x _ => List.getD_map l 0 BitVec.toNat
  have hcell : ((cellXs W c.1).map fun x => bufGet b (c.2 * W + x)) = q.map some := by
    rw [hq, List.map_map]
    refine List.map_congr_left fun x hx => ?_
    have hk : c.2 * W + x < W * H := by
      calc c.2 * W + x < (c.2 + 1) * W := by
            rw [Nat.succ_mul]
            exact Nat.add_lt_add_left (mem_cellXs.1 hx).2.2 _
        _ ≤ W * H := by rw [Nat.mul_comm W]; exact Nat.mul_le_mul_right W hy
    have := hget _ hk
    rw [Nat.zero_add] at this
    rw [this, Function.comp_apply, List.getD_eq_getElem?_getD,
      List.getElem?_eq_getElem (hlen ▸ hk), Option.getD_some]
  have hlt : ∀ k ∈ q.map BitVec.toNat, k < 16 := fun k hk => by
    obtain ⟨v, _, rfl⟩ := List.mem_map.1 hk
    exact v.isLt
  rw [hind, hcell, distinctCount_eq_card hlt, card_toFinset_map (fun _ _ => BitVec.eq_of_toNat_eq),
    card_toFinset_map (Option.some_injective _)]

/-- The log entries are those of the cells with more than two distinct indices (R216). -/
theorem violations_eq_map {W H : Nat} {indices : List Nat} {distinct : Nat × Nat → Nat}
    (h : ∀ c ∈ cellList W H, distinctCount (cellIndices W indices c) = distinct c) :
    violations W H indices = ((cellList W H).filter fun c => decide (2 < distinct c)).map
      fun c => logEntry c.1 c.2 (distinct c) := by
  rw [← List.filterMap_eq_map, List.filterMap_filter]
  refine List.filterMap_congr fun c hc => ?_
  simp only [h c hc, decide_eq_true_eq, Function.comp_apply]

/-- What VERIFY leaves, its checks and its input given (R216). -/
theorem exec_verify_eq {s : State} {indices : List Nat} (hf : s.fault = false)
    (hg : geomOk s = true) (hv : s.idxv = true) (hi : readIndices s = some indices) :
    exec .verify s = .next { s with
      vlog := bufWriteRun s.vlog 0 ((violations (canvasW s) (canvasH s) indices).take s.cfg.vcap)
      vcount := BitVec.ofNat 32 (violations (canvasW s) (canvasH s) indices).length
      wviol := decide (0 < (violations (canvasW s) (canvasH s) indices).length) } := by
  rw [exec, execVerify, gated_of_clear hf, hg, needs_true, hv, needs_true, hi, needsRead_some]

/-- A cell's place and its count fit the fields of a log entry (R8, R45). -/
theorem cell_fits_logEntry {s : State} (hp : s.cfg.Lawful) (hg : geomOk s = true) {c : Nat × Nat}
    (hc : c ∈ cellList (canvasW s) (canvasH s)) : c.1 < 2 ^ 12 ∧ c.2 < 2 ^ 16 := by
  obtain ⟨_, _, _, ⟨_, hw⟩, ⟨_, hh⟩, _⟩ := hp
  obtain ⟨_, _, hW, hH⟩ := geomOk_le hg
  obtain ⟨hx, hy⟩ := mem_cellList.1 hc
  unfold cellCols ceilDiv at hx
  omega

/-- A cell has at most 8 pixels (R9). -/
theorem cellXs_length_le (W cx : Nat) : (cellXs W cx).length ≤ 8 := by
  simp only [cellXs, List.length_range']
  omega

/-- Elements `0 .. n-1` of a written buffer can be read. -/
theorem bufReadRun_of_written {w n : Nat} {b : Buf w} (h : written b n) :
    ∃ l, bufReadRun b 0 n = some l := by
  refine Option.ne_none_iff_exists'.1 fun hn => ?_
  obtain ⟨k, hk, hnone⟩ := bufReadRun_eq_none.1 hn
  have := h k hk
  rw [Nat.zero_add] at hnone
  rw [hnone] at this
  cases this

/-- Settles O52: the log is the violating cells' entries in scan order, each field in range. -/
theorem verifyCompletes : Obligations.VerifyCompletes := by
  intro s hp hf hg hv hw distinct bad
  obtain ⟨l, hl⟩ := bufReadRun_of_written hw
  have hread : readIndices s = some (l.map BitVec.toNat) := by rw [readIndices, hl]; rfl
  have hviol : violations (canvasW s) (canvasH s) (l.map BitVec.toNat) =
      bad.map fun c => logEntry c.1 c.2 (distinct c) :=
    violations_eq_map fun c hc => distinctCount_cellIndices hl hc
  have hexec := exec_verify_eq hf hg hv hread
  rw [hviol, List.length_map] at hexec
  have hcount : bad.length < 2 ^ 32 := by
    have h1 : bad.length ≤ (cellList (canvasW s) (canvasH s)).length := List.length_filter_le _ _
    have h2 := cells_le hp hg
    rw [cellList_length] at h1
    omega
  refine ⟨_, hexec, rfl, ?_, rfl, fun k c hk hc => ⟨logEntry c.1 c.2 (distinct c), ?_, ?_⟩,
    fun k hk => ?_⟩
  · exact (BitVec.toNat_ofNat ..).trans (Nat.mod_eq_of_lt hcount)
  · have hlt : k < bad.length := (List.getElem?_eq_some_iff.1 hc).1
    have hin : 0 ≤ k ∧ k < 0 + ((bad.map fun c => logEntry c.1 c.2 (distinct c)).take
        s.cfg.vcap).length := by
      rw [List.length_take, List.length_map]
      omega
    rw [bufGet_bufWriteRun, if_pos hin, Nat.sub_zero, List.getElem?_take_of_lt hk,
      List.getElem?_map, hc]
    rfl
  · have hmem : c ∈ cellList (canvasW s) (canvasH s) :=
      List.mem_of_mem_filter (List.mem_of_getElem? hc)
    obtain ⟨hx, hy⟩ := cell_fits_logEntry hp hg hmem
    refine logEntry_fields hx hy ?_
    calc distinct c ≤ (cellXs (canvasW s) c.1).length :=
          (List.toFinset_card_le _).trans (List.length_map _).le
      _ < 2 ^ 4 := (cellXs_length_le _ _).trans_lt (by decide)
  · rw [bufGet_bufWriteRun, if_neg (by simp only [List.length_take, List.length_map]; omega)]

/-! ### A run of values standing in a buffer -/

/-- The values `vs` stand in the buffer from index `o` on. -/
def HoldsRun {w : Nat} (b : Buf w) (o : Nat) (vs : List (BitVec w)) : Prop :=
  bufReadRun b o vs.length = some vs

theorem holdsRun_iff {w : Nat} {b : Buf w} {o : Nat} {vs : List (BitVec w)} :
    HoldsRun b o vs ↔ ∀ k v, vs[k]? = some v → bufGet b (o + k) = some v := by
  rw [HoldsRun, bufReadRun_eq_some]
  constructor
  · rintro ⟨_, h⟩ k v hv
    rw [h k (List.getElem?_eq_some_iff.1 hv).1, hv]
  · intro h
    refine ⟨rfl, fun k hk => ?_⟩
    rw [List.getElem?_eq_getElem hk]
    exact h k _ (List.getElem?_eq_getElem hk)

theorem holdsRun_append {w : Nat} {b : Buf w} {o : Nat} {xs ys : List (BitVec w)} :
    HoldsRun b o (xs ++ ys) ↔ HoldsRun b o xs ∧ HoldsRun b (o + xs.length) ys := by
  simp only [holdsRun_iff]
  constructor
  · refine fun h => ⟨fun k v hv => h k v ?_, fun k v hv => ?_⟩
    · rw [List.getElem?_append_left (List.getElem?_eq_some_iff.1 hv).1, hv]
    · rw [Nat.add_assoc]
      refine h _ v ?_
      rw [List.getElem?_append_right (Nat.le_add_right _ _), Nat.add_sub_cancel_left, hv]
  · rintro ⟨hx, hy⟩ k v hv
    rw [List.getElem?_append] at hv
    split at hv
    · exact hx k v hv
    · next hk =>
      have := hy _ v hv
      rwa [show o + xs.length + (k - xs.length) = o + k by omega] at this

/-- Among items of `n` values each, item `k` stands `n * k` values further on. -/
theorem HoldsRun.flatMap {w n : Nat} {α : Type} {b : Buf w} {f : α → List (BitVec w)}
    (hn : ∀ a, (f a).length = n) {items : List α} {o : Nat} (h : HoldsRun b o (items.flatMap f))
    {k : Nat} {a : α} (ha : items[k]? = some a) : HoldsRun b (o + n * k) (f a) := by
  induction items generalizing o k with
  | nil => cases ha
  | cons x xs ih =>
    rw [List.flatMap_cons, holdsRun_append, hn] at h
    obtain ⟨hx, hxs⟩ := h
    cases k with
    | zero => cases ha; exact hx
    | succ k =>
      have := ih hxs ha
      rwa [show o + n + n * k = o + n * (k + 1) by rw [Nat.mul_succ]; omega] at this

/-- A file stored stands in FBUF (R262, R266). -/
theorem holdsRun_writeFile (F : List Byte) (s : State) : HoldsRun (writeFile F s).fbuf 0 F :=
  bufReadRun_bufWriteRun s.fbuf 0 F

theorem bufGet_writeFile_of_le {F : List Byte} (s : State) {j : Nat} (h : F.length ≤ j) :
    bufGet (writeFile F s).fbuf j = bufGet s.fbuf j := by
  rw [writeFile, bufGet_bufWriteRun, if_neg (by omega)]

/-! ### CONT -/

/-- A 16-bit value's low byte and high byte (R67). -/
theorem lowFirst_of_toNat {v : BitVec 16} {lo hi : Byte} (h : v.toNat = lo.toNat + 256 * hi.toNat) :
    lowFirst v = [lo, hi] := by
  have hlo : v.extractLsb' 0 8 = lo := BitVec.eq_of_toNat_eq (by
    rw [BitVec.extractLsb'_toNat, Nat.shiftRight_eq_div_pow]; omega)
  have hhi : v.extractLsb' 8 8 = hi := BitVec.eq_of_toNat_eq (by
    rw [BitVec.extractLsb'_toNat, Nat.shiftRight_eq_div_pow]; omega)
  rw [lowFirst, hlo, hhi]

theorem lowFirst_ofNat (n : Nat) :
    lowFirst (BitVec.ofNat 16 n) = [BitVec.ofNat 8 n, BitVec.ofNat 8 (n / 256)] :=
  lowFirst_of_toNat (by simp only [BitVec.toNat_ofNat]; omega)

/-- A lattice index as two bytes, low first: eight bits and four (R114). -/
theorem lowFirst_index (i : BitVec 12) :
    lowFirst (i.setWidth 16) = [i.extractLsb' 0 8, (i.extractLsb' 8 4).setWidth 8] :=
  lowFirst_of_toNat (by
    simp only [BitVec.toNat_setWidth, BitVec.extractLsb'_toNat, Nat.shiftRight_eq_div_pow]; omega)

theorem paletteWord_length (p : Params) (i : BitVec 12) : (paletteWord p i).length = 2 := by
  rw [paletteWord, lowFirst_index]
  split <;> rfl

/-- The two bytes of a palette word, in the order of `PALBLK_LO_FIRST` (R114). -/
theorem holdsRun_paletteWord {p : Params} {b : Buf 8} {o : Nat} {i : BitVec 12}
    (h : HoldsRun b o (paletteWord p i)) :
    bufGet b (o + if p.palLoFirst then 0 else 1) = some (i.extractLsb' 0 8) ∧
    bufGet b (o + if p.palLoFirst then 1 else 0) = some ((i.extractLsb' 8 4).setWidth 8) := by
  rw [holdsRun_iff, paletteWord, lowFirst_index] at h
  cases hlo : p.palLoFirst with
  | true => rw [hlo] at h; exact ⟨h 0 _ rfl, h 1 _ rfl⟩
  | false => rw [hlo] at h; exact ⟨h 1 _ rfl, h 0 _ rfl⟩

/-- Byte `j` of the mode bytes `M[0..3]` (R34). -/
theorem modeBytes_getElem? (s : State) {j : Nat} (hj : j < 4) :
    (modeBytes s)[j]? = some (s.mode0.extractLsb' (8 * j) 8) := by
  interval_cases j <;> rfl

/-- Where the parts of a container stand (R113): header, payload, pad byte, mode bytes, palette words,
and the marker with the footer. -/
theorem holdsRun_containerImage {b : Buf 8} {s : State} {payload : List Byte} {pal : List (BitVec 12)}
    (hpal : pal.length = 16) (h : HoldsRun b 0 (containerImage s payload pal)) {at_ : Nat}
    (hat : at_ = 8 + payload.length + payload.length % 2) :
    HoldsRun b 0 (containerHeader (canvasW s) (canvasH s) payload.length) ∧
    HoldsRun b 8 payload ∧
    HoldsRun b (8 + payload.length) (List.replicate (payload.length % 2) 0x00) ∧
    HoldsRun b at_ (modeBytes s) ∧
    HoldsRun b (at_ + 5) (pal.flatMap (paletteWord s.cfg)) ∧
    HoldsRun b (at_ + 37) ([0xA5, 0x5A] ++ fileFooter) := by
  have hwords : (pal.flatMap (paletteWord s.cfg)).length = 32 := by
    simp [List.length_flatMap, paletteWord_length, hpal]
  have hheader : (containerHeader (canvasW s) (canvasH s) payload.length).length = 8 := rfl
  have hmode : (modeBytes s).length = 5 := rfl
  rw [containerImage, paletteBlock] at h
  simp only [List.append_assoc, holdsRun_append, List.length_replicate, hheader, hmode, hwords,
    Nat.zero_add] at h ⊢
  subst hat
  exact h

/-- What CONT leaves, its checks and its inputs given (R262). -/
theorem exec_cont_eq {s : State} {payload : List Byte} {pal : List (BitVec 12)}
    (hf : s.fault = false) (hg : geomOk s = true) (hv : s.palv = true)
    (hlen : s.clen.toNat ≤ s.cfg.ccap) (hsize : sizeField s.clen.toNat ≤ 65535)
    (hfit : sizeField s.clen.toNat + 10 ≤ s.cfg.fcap)
    (hpayload : bufReadRun s.cbuf 0 s.clen.toNat = some payload) (hpal : readPal s = some pal) :
    exec .cont s = .next (writeFile (containerImage s payload pal) s) := by
  rw [exec, execCont, gated_of_clear hf, hg, needs_true, hv, needs_true, decide_eq_true hlen,
    needs_true, decide_eq_true hsize, needs_true, decide_eq_true hfit, needs_true, hpayload,
    needsRead_some, hpal, needsRead_some]

/-- Settles O59: the file is stored whole, and each part stands in its place. -/
theorem contCompletes : Obligations.ContCompletes := by
  intro s payload pal _ hf hg hv hlen hsize hfit hpayload hpal L S at_
  have hL : payload.length = L := bufReadRun_length hpayload
  have hpal16 : pal.length = 16 := bufReadRun_length hpal
  have hF : (containerImage s payload pal).length = S + 10 :=
    (containerImage_length s payload hpal16).trans (by rw [hL]; rfl)
  have hS : S ≤ 65535 := hsize
  have hflen : (writeFile (containerImage s payload pal) s).flen.toNat = S + 10 := by
    rw [writeFile, hF, BitVec.toNat_ofNat]
    omega
  have hat : at_ = 8 + payload.length + payload.length % 2 := by rw [hL]
  obtain ⟨hheader, hbody, hpad, hmode, hwords, htail⟩ :=
    holdsRun_containerImage hpal16 (holdsRun_writeFile (containerImage s payload pal) s) hat
  rw [containerHeader, sizeField, hL, lowFirst_ofNat] at hheader
  rw [hL] at hpad
  rw [holdsRun_iff] at hheader hbody hpad hmode htail
  refine ⟨_, exec_cont_eq hf hg hv hlen hsize hfit hpayload hpal, rfl, hflen, by omega,
    fun j v hj => ?_, hbody, fun hodd => ?_, fun j hj => hmode j _ (modeBytes_getElem? s hj),
    hmode 4 _ rfl, fun k v hk => ?_, htail, fun j hj => ?_⟩
  · rw [← Nat.zero_add j]
    exact hheader j v hj
  · exact hpad 0 0 (by rw [hodd]; rfl)
  · exact holdsRun_paletteWord (hwords.flatMap (paletteWord_length s.cfg) hk)
  · exact bufGet_writeFile_of_le s (hF.trans_le hj)

end Sys2Proof.Machine

/-! The rest of the host's accesses: what is no access at all (spec/20_memory.md R61), the write through
the window (R63, R66), and the accesses of a faulted block (spec/60_exceptions.md R286). -/

namespace Sys2Proof.Machine

/-! ### Accesses that are none of the interface -/

theorem accessOk_eq_true_iff {off bytes : Nat} :
    accessOk off bytes = true ↔ bytes = 4 ∧ off % 4 = 0 ∧ off < 256 := by
  simp [accessOk, and_assoc]

theorem hostAct_read_of_not_accessOk {off bytes : Nat} (h : ¬ accessOk off bytes = true)
    (s : State) : hostAct (.read off bytes) s = .refused (.notAnAccess off bytes) := if_neg h

theorem hostAct_write_of_not_accessOk {off bytes : Nat} (h : ¬ accessOk off bytes = true)
    (v : Word) (s : State) :
    hostAct (.write off bytes v) s = .refused (.notAnAccess off bytes) := if_neg h

/-- Settles O24: the step asks `accessOk` before anything else. -/
theorem otherAccessesAreRefused : Obligations.OtherAccessesAreRefused := by
  intro s rest off bytes v hbad
  have hno : ¬ accessOk off bytes = true := mt accessOk_eq_true_iff.1 hbad
  exact ⟨fun h => (step_of_host h).trans (hostAct_read_of_not_accessOk hno _),
    fun h => (step_of_host h).trans (hostAct_write_of_not_accessOk hno v _)⟩

/-! ### Writing through the window -/

theorem hostAct_write_bufdata (v : Word) (s : State) :
    hostAct (.write 0x44 4 v) s = .next (windowWrite v s) := rfl

theorem windowWrite_of_target {s : State} {b : BufId} (ht : windowTarget s = some b)
    (hw : b.hostWrites = true) (v : Word) :
    windowWrite v s =
      advance (withBuf s b (bufSet (bufOf s b) s.bufaddr.toNat (v.setWidth b.width))) := by
  simp only [windowWrite, ht, if_pos hw]

theorem advance_withBuf (s : State) (b : BufId) (m : Buf b.width) :
    advance (withBuf s b m) = withBuf (advance s) b m := by cases b <;> rfl

/-- Where the host may write no element that the window names, a write advances BUFADDR only
(R63, R65). -/
theorem windowWrite_of_no_target {s : State}
    (h : ¬ ∃ b, windowTarget s = some b ∧ b.hostWrites = true) (v : Word) :
    windowWrite v s = advance s := by
  rcases windowWrite_cases v s with he | ⟨b, ht, hw, _⟩
  · exact he
  · exact absurd ⟨b, ht, hw⟩ h

/-- Settles O22: the stored element is read back by `bufGet_bufSet`, and advancing BUFADDR does not
meet the buffer. -/
theorem windowWriteStoresOneElement : Obligations.WindowWriteStoresOneElement := by
  intro s v
  refine ⟨fun b hb hw hlt => ?_, fun hout => ?_⟩
  · have hwrite := windowWrite_of_target (windowTarget_of_lt hb hlt) hw v
    have hbuf : bufOf (windowWrite v s) b =
        bufSet (bufOf s b) s.bufaddr.toNat (v.setWidth b.width) := by
      rw [hwrite, bufOf_advance, bufOf_withBuf]
    refine ⟨windowWrite v s, hostAct_write_bufdata v s, ?_, fun i => ?_⟩
    · rw [hbuf, hwrite, advance_withBuf]
      rfl
    · rw [readElem, hbuf, bufGet_bufSet, readElem]
  · have hnone : ¬ ∃ b, windowTarget s = some b ∧ b.hostWrites = true := fun ⟨b, ht, hw⟩ => by
      obtain ⟨hb, hlt⟩ := windowTarget_eq_some ht
      exact absurd (hout b hb hw) (by omega)
    rw [hostAct_write_bufdata, windowWrite_of_no_target hnone]
    rfl

/-! ### A faulted block's accesses -/

/-- The state with STATUS.FAULT the other way. -/
def flipFault (s : State) : State := { s with fault := !s.fault }

theorem bufOf_flipFault (s : State) (b : BufId) : bufOf (flipFault s) b = bufOf s b := by
  cases b <;> rfl

theorem readElem_flipFault (s : State) (b : BufId) (i : Nat) :
    readElem (flipFault s) b i = readElem s b i := by
  rw [readElem, bufOf_flipFault, readElem]

theorem withBuf_flipFault (s : State) (b : BufId) (m : Buf b.width) :
    withBuf (flipFault s) b m = flipFault (withBuf s b m) := by cases b <;> rfl

theorem windowTarget_flipFault (s : State) : windowTarget (flipFault s) = windowTarget s := rfl

theorem windowRead_flipFault (s : State) : windowRead (flipFault s) = flipFault (windowRead s) := by
  rcases windowRead_cases s with ⟨ht, he⟩ | ⟨b, e, ht, hv, he⟩ | ⟨b, ht, hv, he⟩
  · rw [he, windowRead_of_none ((windowTarget_flipFault s).trans ht)]
    rfl
  · rw [he, windowRead_of_written ((windowTarget_flipFault s).trans ht)
      ((readElem_flipFault s b _).trans hv)]
    rfl
  · rw [he, windowRead_of_unwritten ((windowTarget_flipFault s).trans ht)
      ((readElem_flipFault s b _).trans hv)]
    rfl

theorem windowWrite_flipFault (v : Word) (s : State) :
    windowWrite v (flipFault s) = flipFault (windowWrite v s) := by
  by_cases h : ∃ b, windowTarget s = some b ∧ b.hostWrites = true
  · obtain ⟨b, ht, hw⟩ := h
    rw [windowWrite_of_target ht hw,
      windowWrite_of_target ((windowTarget_flipFault s).trans ht) hw, bufOf_flipFault,
      withBuf_flipFault]
    rfl
  · rw [windowWrite_of_no_target h, windowWrite_of_no_target (s := flipFault s) h]
    rfl

/-- STATUS alone shows the fault bit (R25). -/
theorem regValue_flipFault {r : Reg} (hr : r ≠ .status) (s : State) :
    regValue (flipFault s) r = regValue s r := by
  cases r with
  | status => exact absurd rfl hr
  | _ => rfl

theorem hostRead_flipFault {off : Nat} (hoff : off ≠ 0x04) (s : State) :
    hostRead off (flipFault s) = flipFault (hostRead off s) := by
  cases hr : regAt off with
  | none =>
    rw [hostRead_reserved hr, hostRead_reserved hr]
    rfl
  | some r =>
    obtain rfl := regAt_eq_some_iff.1 hr
    by_cases hdata : r = .bufdata
    · subst hdata
      exact windowRead_flipFault s
    · have hstatus : r ≠ .status := fun he => hoff (he ▸ rfl)
      rw [hostRead_regOffset hdata, hostRead_regOffset hdata, regValue_flipFault hstatus]
      rfl

theorem regWrite_flipFault (r : Reg) (v : Word) (s : State) :
    regWrite r v (flipFault s) = flipFault (regWrite r v s) := by
  cases r with
  | bufdata => exact windowWrite_flipFault v s
  | _ => rfl

theorem hostWrite_flipFault {off : Nat} (hoff : off ≠ 0x00) {v : Word} {s t : State}
    (h : hostWrite off v s = .next t) : hostWrite off v (flipFault s) = .next (flipFault t) := by
  rcases hostWrite_next h with ⟨hr, rfl⟩ | ⟨hr, _⟩ | ⟨r, hr, hne, rfl⟩
  · exact hostWrite_reserved hr v _
  · exact absurd (regAt_eq_some_iff.1 hr) hoff
  · obtain rfl := regAt_eq_some_iff.1 hr
    rw [hostWrite_regOffset hne, regWrite_flipFault]

/-- R286 for one action: only reset, a read of STATUS and a command word meet the fault bit. -/
theorem hostAct_flipFault {a : HostAction} (hreset : a ≠ .reset) (hstatus : a ≠ .read 0x04 4)
    (hcmd : ∀ w, a ≠ cmdWrite w) {s t : State} (h : hostAct a s = .next t) :
    hostAct a (flipFault s) = .next (flipFault t) := by
  cases a with
  | reset => exact absurd rfl hreset
  | read off bytes =>
    by_cases hok : accessOk off bytes = true
    · obtain ⟨rfl, _, _⟩ := accessOk_eq_true_iff.1 hok
      have hoff : off ≠ 0x04 := fun he => hstatus (he ▸ rfl)
      rw [hostAct, if_pos hok] at h ⊢
      rw [hostRead_flipFault hoff, Host.Outcome.next.inj h]
    · rw [hostAct_read_of_not_accessOk hok] at h
      cases h
  | write off bytes v =>
    by_cases hok : accessOk off bytes = true
    · obtain ⟨rfl, _, _⟩ := accessOk_eq_true_iff.1 hok
      have hoff : off ≠ 0x00 := fun he => hcmd v (he ▸ rfl)
      rw [hostAct, if_pos hok] at h ⊢
      exact hostWrite_flipFault hoff h
    · rw [hostAct_write_of_not_accessOk hok] at h
      cases h

/-- Settles O25: taking the action from the queue does not meet the fault bit either. -/
theorem faultedBlockStillAnswers : Obligations.FaultedBlockStillAnswers := by
  intro s t a rest hhost hreset hstatus hcmd hstep
  rw [step_of_host hhost] at hstep
  have hflip : step (flipFault s) = hostAct a (flipFault { s with host := rest }) :=
    step_of_host hhost
  exact hflip.trans (hostAct_flipFault hreset hstatus hcmd hstep)

end Sys2Proof.Machine

/-! The decoder against the encoder (spec/30_encoding.md R90, R91, R97, R98, R118): what the decoder makes
of a word by the format of its row, every legal command's word read back, and the rejected words. -/

namespace Sys2Proof.Laws

open Sys2Proof

/-! ### A word cut into its fields -/

/-- A word is its opcode and its operand field (R90). -/
theorem packWord_fields (w : Word) : packWord (w.extractLsb' 24 8) (w.extractLsb' 0 24) = w :=
  (BitVec.extractLsb'_append_extractLsb'_eq_extractLsb' rfl).trans BitVec.extractLsb'_eq_self

theorem i12_operand {w : Word} (h : w.extractLsb' 12 12 = 0) :
    (0 : BitVec 12) ++ w.extractLsb' 0 12 = w.extractLsb' 0 24 := by
  rw [← h]
  exact BitVec.extractLsb'_append_extractLsb'_eq_extractLsb' rfl

theorem rgb_operand (w : Word) :
    w.extractLsb' 16 8 ++ w.extractLsb' 8 8 ++ w.extractLsb' 0 8 = w.extractLsb' 0 24 :=
  (congrArg (fun v : BitVec 16 => v ++ w.extractLsb' 0 8)
    (BitVec.extractLsb'_append_extractLsb'_eq_extractLsb' rfl)).trans
    (BitVec.extractLsb'_append_extractLsb'_eq_extractLsb' rfl)

theorem p_operand {w : Word} (h : w.extractLsb' 2 22 = 0) :
    (0 : BitVec 22) ++ w.extractLsb' 0 2 = w.extractLsb' 0 24 := by
  rw [← h]
  exact BitVec.extractLsb'_append_extractLsb'_eq_extractLsb' rfl

/-- The two flags of format RL, side by side (R91). -/
theorem rl_flags (w : Word) :
    BitVec.ofBool (w.getLsbD 1) ++ BitVec.ofBool (w.getLsbD 0) = w.extractLsb' 0 2 := by
  have hbit : ∀ k, BitVec.ofBool (w.getLsbD k) = w.extractLsb' k 1 := fun k => by
    ext j hj
    simp [Nat.lt_one_iff.1 hj]
  rw [hbit, hbit]
  exact BitVec.extractLsb'_append_extractLsb'_eq_extractLsb' rfl

/-! ### What a format makes of a word -/

/-- How many of the operand field's bits a format uses; the bits above them must be 0 (R91). -/
def operandBits : Format → Nat
  | .z => 0
  | .i12 => 12
  | .rgb => 24
  | .p => 2
  | .rl => 2

/-- The word keeps its format's rules: the must-be-0 bits are 0 and a plane selector is not 3 (R91, R98). -/
structure KeepsFormat (w : Word) (f : Format) : Prop where
  mustBeZero : w.extractLsb' (operandBits f) (24 - operandBits f) = 0
  plane : f = .p → w.extractLsb' 0 2 ≠ 3

/-- `out` is what a format makes of the word `w`, for commands whose words have the opcode `op` (R91). -/
inductive DecodedBy (w : Word) (op : BitVec 8) : Format → Except DecodeError Instr → Prop
  | z {i : Instr} (hwf : i.wellFormed = true) (henc : encode i = packWord op 0) :
    DecodedBy w op .z (decodeZ w i)
  | i12 {mk : BitVec 12 → Instr} (hwf : ∀ idx, (mk idx).wellFormed = true)
    (henc : ∀ idx, encode (mk idx) = packWord op ((0 : BitVec 12) ++ idx)) :
    DecodedBy w op .i12 (decodeI12 w mk)
  | rgb {mk : BitVec 8 → BitVec 8 → BitVec 8 → Instr} (hwf : ∀ r g b, (mk r g b).wellFormed = true)
    (henc : ∀ r g b, encode (mk r g b) = packWord op (b ++ g ++ r)) :
    DecodedBy w op .rgb (decodeRgb w mk)
  | p {mk : BitVec 2 → Instr} (hwf : ∀ p, (mk p).wellFormed = planeSelOk p)
    (henc : ∀ p, encode (mk p) = packWord op ((0 : BitVec 22) ++ p)) :
    DecodedBy w op .p (decodeP w mk)
  | rl {mk : Bool → Bool → Instr} (hwf : ∀ t a, (mk t a).wellFormed = true)
    (henc : ∀ t a, encode (mk t a) =
      packWord op ((0 : BitVec 22) ++ (BitVec.ofBool a ++ BitVec.ofBool t))) :
    DecodedBy w op .rl (decodeRl w mk)

/-- A format accepts a word that keeps its rules, as the legal command with that word, and rejects every
other word. -/
theorem DecodedBy.cases {w : Word} {f : Format} {out : Except DecodeError Instr}
    (h : DecodedBy w (w.extractLsb' 24 8) f out) :
    (KeepsFormat w f ∧ ∃ i, out = .ok i ∧ i.wellFormed = true ∧ encode i = w) ∨
    (¬ KeepsFormat w f ∧ ∃ e, out = .error e) := by
  cases h with
  | z hwf henc =>
    unfold decodeZ
    split
    · next hz => exact .inl ⟨⟨hz, nofun⟩, _, rfl, hwf, by rw [henc, ← hz, packWord_fields]⟩
    · next hz => exact .inr ⟨fun hk => hz hk.mustBeZero, _, rfl⟩
  | i12 hwf henc =>
    unfold decodeI12
    split
    · next hz =>
      exact .inl ⟨⟨hz, nofun⟩, _, rfl, hwf _, by rw [henc, i12_operand hz, packWord_fields]⟩
    · next hz => exact .inr ⟨fun hk => hz hk.mustBeZero, _, rfl⟩
  | rgb hwf henc =>
    exact .inl ⟨⟨Subsingleton.elim (α := BitVec 0) _ _, nofun⟩, _, rfl, hwf _ _ _,
      by rw [henc, rgb_operand, packWord_fields]⟩
  | p hwf henc =>
    unfold decodeP
    split
    · next hz =>
      split
      · next hp =>
        exact .inl ⟨⟨hz, fun _ => bne_iff_ne.1 hp⟩, _, rfl, (hwf _).trans hp,
          by rw [henc, p_operand hz, packWord_fields]⟩
      · next hp => exact .inr ⟨fun hk => hp (bne_iff_ne.2 (hk.plane rfl)), _, rfl⟩
    · next hz => exact .inr ⟨fun hk => hz hk.mustBeZero, _, rfl⟩
  | rl hwf henc =>
    unfold decodeRl
    split
    · next hz =>
      exact .inl ⟨⟨hz, nofun⟩, _, rfl, hwf _ _,
        by rw [henc, rl_flags, p_operand hz, packWord_fields]⟩
    · next hz => exact .inr ⟨fun hk => hz hk.mustBeZero, _, rfl⟩

/-! ### The rows of the table -/

/-- The opcode of a row (R97). -/
def rowOpcode (r : OpcodeRow) : BitVec 8 := r.matchWord.extractLsb' 24 8

/-- The word lies in one of the rows, and `out` is what that row's format makes of it. -/
def DecodedInRow (w : Word) (out : Except DecodeError Instr) : Prop :=
  ∃ r ∈ opcodeTable, w.extractLsb' 24 8 = rowOpcode r ∧ DecodedBy w (rowOpcode r) r.format out

/-- The row with number `k` as the one that an arm of the decoder reads (R97). -/
theorem DecodedInRow.of_index {w : Word} {out : Except DecodeError Instr} (k : Nat) {r : OpcodeRow}
    (hr : opcodeTable[k]? = some r) (hop : (w.extractLsb' 24 8).toNat = (rowOpcode r).toNat)
    (h : DecodedBy w (rowOpcode r) r.format out) : DecodedInRow w out :=
  ⟨r, List.mem_of_getElem? hr, BitVec.eq_of_toNat_eq hop, h⟩

/-- The decoder reads a word by the format of its row, or no row has the word's opcode (R90). -/
theorem decodeWord_cases (w : Word) :
    DecodedInRow w (decodeWord w) ∨
    decodeWord w = .error .unknownOpcode ∧ ∀ r ∈ opcodeTable, w.extractLsb' 24 8 ≠ rowOpcode r := by
  unfold decodeWord
  split
  next hop => exact .inl (.of_index 0 rfl hop (.z rfl rfl))
  next hop => exact .inl (.of_index 1 rfl hop (.i12 (fun _ => rfl) fun _ => rfl))
  next hop => exact .inl (.of_index 2 rfl hop (.rgb (fun _ _ _ => rfl) fun _ _ _ => rfl))
  next hop => exact .inl (.of_index 3 rfl hop (.rgb (fun _ _ _ => rfl) fun _ _ _ => rfl))
  next hop => exact .inl (.of_index 4 rfl hop (.z rfl rfl))
  next hop => exact .inl (.of_index 5 rfl hop (.i12 (fun _ => rfl) fun _ => rfl))
  next hop => exact .inl (.of_index 6 rfl hop (.z rfl rfl))
  next hop => exact .inl (.of_index 7 rfl hop (.z rfl rfl))
  next hop => exact .inl (.of_index 8 rfl hop (.z rfl rfl))
  next hop => exact .inl (.of_index 9 rfl hop (.z rfl rfl))
  next hop => exact .inl (.of_index 10 rfl hop (.z rfl rfl))
  next hop => exact .inl (.of_index 11 rfl hop (.z rfl rfl))
  next hop => exact .inl (.of_index 12 rfl hop (.z rfl rfl))
  next hop => exact .inl (.of_index 13 rfl hop (.p (fun _ => rfl) fun _ => rfl))
  next hop => exact .inl (.of_index 14 rfl hop (.rl (fun _ _ => rfl) fun _ _ => rfl))
  next hop => exact .inl (.of_index 15 rfl hop (.z rfl rfl))
  next hop => exact .inl (.of_index 16 rfl hop (.p (fun _ => rfl) fun _ => rfl))
  next =>
    refine .inr ⟨rfl, fun r hr hop => ?_⟩
    have hmem : (w.extractLsb' 24 8).toNat ∈ opcodeTable.map fun e => (rowOpcode e).toNat :=
      List.mem_map.2 ⟨r, hr, congrArg BitVec.toNat hop.symm⟩
    have hops : (opcodeTable.map fun e => (rowOpcode e).toNat) =
      [0x00, 0x01, 0x02, 0x03, 0x04, 0x05, 0x10, 0x11, 0x12, 0x13, 0x20, 0x21, 0x22, 0x30, 0x31,
        0x32, 0x33] := rfl
    rw [hops] at hmem
    simp_all

/-- No two rows share an opcode (R97). -/
theorem row_eq_of_opcode : ∀ r ∈ opcodeTable, ∀ q ∈ opcodeTable, rowOpcode r = rowOpcode q → r = q := by
  decide

theorem mask_eq (f : Format) : f.mask = BitVec.allOnes 32 <<< operandBits f := by
  cases f <;> rfl

/-- A row's match is its opcode over an empty operand field (R97). -/
theorem matchWord_toNat : ∀ r ∈ opcodeTable, r.matchWord.toNat = (rowOpcode r).toNat * 2 ^ 24 := by
  decide

/-- Within its row a word meets mask and match exactly when the must-be-0 bits are 0 (R91, R97). -/
theorem mask_match_iff {w : Word} {r : OpcodeRow} (hr : r ∈ opcodeTable)
    (hop : w.extractLsb' 24 8 = rowOpcode r) :
    w &&& r.format.mask = r.matchWord ↔
      w.extractLsb' (operandBits r.format) (24 - operandBits r.format) = 0 := by
  have hopNat : w.toNat / 2 ^ 24 % 2 ^ 8 = (rowOpcode r).toNat := by
    rw [← hop, BitVec.extractLsb'_toNat, Nat.shiftRight_eq_div_pow]
  rw [mask_eq, ← BitVec.shiftLeft_ushiftRight, ← BitVec.toNat_inj, ← BitVec.toNat_inj,
    matchWord_toNat r hr, ← hopNat]
  simp only [BitVec.toNat_shiftLeft, BitVec.toNat_ushiftRight, BitVec.extractLsb'_toNat,
    Nat.shiftLeft_eq, Nat.shiftRight_eq_div_pow, BitVec.toNat_zero, BitVec.ofNat_eq_ofNat]
  have hw := w.isLt
  generalize w.toNat = n at hw
  cases r.format <;> simp only [operandBits] <;> omega

/-! ### Decoding and encoding are inverse -/

/-- Every command's word lies in its own row, and a legal command's word decodes to it. -/
theorem rowMatch (i : Instr) : RowMatch.Statement i :=
  match i with
  | .nop => RowMatch.nop
  | .latrd idx => RowMatch.latrd idx
  | .snap r g b => RowMatch.snap r g b
  | .snapu r g b => RowMatch.snapu r g b
  | .uclr => RowMatch.uclr
  | .umark idx => RowMatch.umark idx
  | .qgen => RowMatch.qgen
  | .qlat => RowMatch.qlat
  | .psnapu => RowMatch.psnapu
  | .psnapn => RowMatch.psnapn
  | .disp => RowMatch.disp
  | .verify => RowMatch.verify
  | .blkenc => RowMatch.blkenc
  | .xpose p => RowMatch.xpose p
  | .rle t a => RowMatch.rle t a
  | .cont => RowMatch.cont
  | .rawf p => RowMatch.rawf p

/-- A legal command's word decodes to it (R118). -/
theorem decode_encode {i : Instr} (h : i.wellFormed = true) : decodeWord (encode i) = .ok i :=
  (rowMatch i h).1

/-- A word that decodes is the word of the legal command it decodes to (R90, R91). -/
theorem encode_decode {w : Word} {i : Instr} (h : decodeWord w = .ok i) :
    i.wellFormed = true ∧ encode i = w := by
  rcases decodeWord_cases w with ⟨r, _, hop, hd⟩ | ⟨hd, _⟩
  · rw [← hop, h] at hd
    rcases hd.cases with ⟨_, j, hj, hwf⟩ | ⟨_, _, he⟩
    · cases hj
      exact hwf
    · cases he
  · rw [h] at hd
    cases hd

/-- Settles O3: a format accepts only the words it packs, and every legal command's word is accepted. -/
theorem decodeInvertsEncode : Obligations.DecodeInvertsEncode := fun _ _ =>
  ⟨encode_decode, fun ⟨hwf, hw⟩ => hw ▸ decode_encode hwf⟩

/-! ### The rejected words -/

/-- Within its row a word is rejected exactly when it breaks a rule of the row's format (R98). -/
theorem rejected_iff_of_row {w : Word} {r : OpcodeRow} (hr : r ∈ opcodeTable)
    (hop : w.extractLsb' 24 8 = rowOpcode r) :
    (∃ e, decodeWord w = .error e) ↔ ¬ KeepsFormat w r.format := by
  rcases decodeWord_cases w with ⟨q, hq, hopq, hd⟩ | ⟨_, hnone⟩
  · cases row_eq_of_opcode q hq r hr (hopq.symm.trans hop)
    rw [← hop] at hd
    rcases hd.cases with ⟨hk, i, hi, _⟩ | ⟨hk, e, he⟩
    · simp [hk, hi]
    · simp [hk, he]
  · exact absurd hop (hnone r hr)

/-- Settles O4: a word lies in no row, or in exactly one, whose format alone decides. -/
theorem rejectedWordsAreTheIllegalOnes : Obligations.RejectedWordsAreTheIllegalOnes := by
  intro w
  constructor
  · rintro ⟨e, he⟩
    rcases decodeWord_cases w with ⟨r, hr, hop, _⟩ | ⟨_, hnone⟩
    · have hbroken := (rejected_iff_of_row hr hop).1 ⟨e, he⟩
      by_cases hz : w &&& r.format.mask = r.matchWord
      · have hplane : ¬ (r.format = .p → w.extractLsb' 0 2 ≠ 3) := fun hp =>
          hbroken ⟨(mask_match_iff hr hop).1 hz, hp⟩
        rw [Classical.not_imp, not_not] at hplane
        obtain ⟨hformat, hthree⟩ := hplane
        exact .inr (.inr ⟨r, hr, hformat, hop, hthree⟩)
      · exact .inr (.inl ⟨r, hr, hop, hz⟩)
    · exact .inl hnone
  · rintro (hnone | ⟨r, hr, hop, hz⟩ | ⟨r, hr, hformat, hop, hthree⟩)
    · rcases decodeWord_cases w with ⟨r, hr, hop, _⟩ | ⟨he, _⟩
      · exact absurd hop (hnone r hr)
      · exact ⟨_, he⟩
    · exact (rejected_iff_of_row hr hop).2 fun hk => hz ((mask_match_iff hr hop).2 hk.mustBeZero)
    · exact (rejected_iff_of_row hr hop).2 fun hk => hk.plane hformat hthree

/-- Settles O2: the accepted words are the words of their commands, the others break one rule each. -/
theorem sampleWordsDecode : Obligations.SampleWordsDecode :=
  ⟨decode_encode (i := .nop) rfl, decode_encode (i := .latrd 0xFFF) rfl,
    decode_encode (i := .snap 0xC8 0x64 0x32) rfl, decode_encode (i := .xpose 2) rfl,
    decode_encode (i := .rle true false) rfl, decode_encode (i := .rle false true) rfl,
    rfl, rfl, rfl⟩

end Sys2Proof.Laws

/-! Two commands on a finished plane that complete: XPOSE and RAWF (spec/46_rle_container.md), each with all
that it leaves in the state. -/

namespace Sys2Proof.Machine

/-! ### The selected plane -/

theorem planeSelOk_of_ne {p : BitVec 2} (h : p ≠ 3) : planeSelOk p = true := bne_iff_ne.2 h

/-- A plane that was written can be read, byte by byte as it stands (R43). -/
theorem readPlane_of_written {p : BitVec 2} {s : State}
    (h : written (planeBuf s p) (cellCols (canvasW s) * canvasH s)) :
    ∃ plane, readPlane s p = some plane ∧ plane.length = cellCols (canvasW s) * canvasH s ∧
      ∀ k < cellCols (canvasW s) * canvasH s, bufGet (planeBuf s p) k = plane[k]? := by
  obtain ⟨plane, hplane⟩ := bufReadRun_of_written h
  obtain ⟨hlen, hget⟩ := bufReadRun_eq_some.1 hplane
  exact ⟨plane, hplane, hlen, fun k hk => by rw [← hget k hk, Nat.zero_add]⟩

/-! ### XPOSE -/

/-- What XPOSE leaves, its checks and its input given (R238). -/
theorem exec_xpose_eq {p : BitVec 2} {s : State} {plane : List Byte} (hp : p ≠ 3)
    (hf : s.fault = false) (hg : geomOk s = true) (hv : s.plnv = true)
    (hfit : cellCols (canvasW s) * paddedRows (canvasH s) ≤ s.cfg.tcap)
    (hplane : readPlane s p = some plane) :
    exec (.xpose p) s = .next { s with
      tbuf := bufWriteRun s.tbuf 0 (transposed (canvasW s) (canvasH s) plane)
      tlen := BitVec.ofNat 32 (cellCols (canvasW s) * paddedRows (canvasH s)) } := by
  rw [exec, execXpose, gated_of_clear hf, planeSelOk_of_ne hp, needs_true, hg, needs_true, hv,
    needs_true, decide_eq_true hfit, needs_true, hplane, needsRead_some]

/-- A column of the transposed plane: the rows of the canvas, then zeros (R108). -/
theorem bufGet_of_holdsRun_transposed {W H : Nat} {plane : List Byte} {b : Buf 8}
    (h : HoldsRun b 0 (transposed W H plane)) {cx y : Nat} (hx : cx < cellCols W)
    (hy : y < paddedRows H) :
    bufGet b (cx * paddedRows H + y) =
      some (if y < H then plane.getD (y * cellCols W + cx) 0 else 0) := by
  have hcol := HoldsRun.flatMap (n := paddedRows H) (fun _ => by simp) h (List.getElem?_range hx)
  rw [Nat.zero_add, Nat.mul_comm] at hcol
  exact holdsRun_iff.1 hcol y _ (by rw [List.getElem?_map, List.getElem?_range hy]; rfl)

/-- The byte of cell column `cx` in row `y` lies within the plane (R43). -/
theorem plane_index_lt {C H cx y : Nat} (hx : cx < C) (hy : y < H) : y * C + cx < C * H :=
  calc y * C + cx < y * C + C := Nat.add_lt_add_left hx _
    _ = (y + 1) * C := (Nat.succ_mul y C).symm
    _ ≤ H * C := Nat.mul_le_mul_right C hy
    _ = C * H := Nat.mul_comm H C

/-- Settles O55: TBUF holds the transposed plane, whose columns all have the padded height. -/
theorem xposeCompletes : Obligations.XposeCompletes := by
  intro p s hp hlaw hf hg hv hw hfit
  obtain ⟨_, _, _, _, _, _, ⟨_, htcap⟩, _⟩ := hlaw
  obtain ⟨plane, hplane, hlen, hget⟩ := readPlane_of_written hw
  refine ⟨_, exec_xpose_eq hp hf hg hv hfit hplane, rfl, ?_, fun cx y hx hy => ?_, fun j hj => ?_⟩
  · exact (BitVec.toNat_ofNat ..).trans (Nat.mod_eq_of_lt (hfit.trans_lt htcap))
  · rw [bufGet_of_holdsRun_transposed (bufReadRun_bufWriteRun s.tbuf 0 _) hx hy]
    split
    · next hrow =>
      have hlt := plane_index_lt hx hrow
      rw [hget _ hlt, List.getD_eq_getElem?_getD, List.getElem?_eq_getElem (hlen ▸ hlt)]
      rfl
    · rfl
  · rw [bufGet_bufWriteRun, transposed_length, if_neg (by omega)]

/-! ### RAWF -/

/-- What RAWF leaves, its checks and its input given (R266). -/
theorem exec_rawf_eq {p : BitVec 2} {s : State} {plane : List Byte} (hp : p ≠ 3)
    (hf : s.fault = false) (hg : geomOk s = true) (hv : s.plnv = true)
    (hfit : cellCols (canvasW s) * canvasH s + 10 ≤ s.cfg.fcap)
    (hplane : readPlane s p = some plane) :
    exec (.rawf p) s = .next (writeFile (rawImage plane) s) := by
  rw [exec, execRawf, gated_of_clear hf, planeSelOk_of_ne hp, needs_true, hg, needs_true, hv,
    needs_true, decide_eq_true hfit, needs_true, hplane, needsRead_some]

/-- Where the parts of a raw file stand (R116): header, plane, footer. -/
theorem holdsRun_rawImage {b : Buf 8} {plane : List Byte} (h : HoldsRun b 0 (rawImage plane)) :
    HoldsRun b 0 [0x00, 0x1F, 0x40, 0x00, 0x00] ∧ HoldsRun b 5 plane ∧
    HoldsRun b (5 + plane.length) fileFooter := by
  rw [rawImage, List.append_assoc, holdsRun_append, holdsRun_append] at h
  exact h

/-- Settles O60: the file is stored whole, and header, plane and footer stand in their places. -/
theorem rawfCompletes : Obligations.RawfCompletes := by
  intro p s hp hlaw hf hg hv hw hfit n
  obtain ⟨_, _, _, _, _, _, _, _, ⟨_, hfcap⟩, _⟩ := hlaw
  obtain ⟨plane, hplane, hlen, hget⟩ := readPlane_of_written hw
  have hF : (rawImage plane).length = n + 10 := by rw [rawImage_length, hlen]
  obtain ⟨hheader, hbody, hfooter⟩ := holdsRun_rawImage (holdsRun_writeFile (rawImage plane) s)
  rw [hlen] at hfooter
  rw [holdsRun_iff] at hheader hbody hfooter
  refine ⟨_, exec_rawf_eq hp hf hg hv hfit hplane, rfl, ?_, fun j v hj => ?_, fun j hj => ?_, hfooter,
    fun j hj => bufGet_writeFile_of_le s (hF.trans_le hj)⟩
  · rw [writeFile, hF]
    exact (BitVec.toNat_ofNat ..).trans (Nat.mod_eq_of_lt (hfit.trans_lt hfcap))
  · rw [← Nat.zero_add j]
    exact hheader j v hj
  · have hlt : j < plane.length := hlen.symm ▸ hj
    rw [hget j hj, List.getElem?_eq_getElem hlt]
    exact hbody j _ (List.getElem?_eq_getElem hlt)

end Sys2Proof.Machine

/-! The lattice (spec/40_lattice.md R131, R132, R137): a level table is strictly increasing over the levels
0 to 15, so a level is known by its value and an index by its colour. NOP (R135). -/

namespace Sys2Proof.Machine

/-! ### The level tables -/

@[simp] theorem levelOf_zero (t : List Nat) : levelOf t 0 = 0 := rfl

@[simp] theorem levelOf_fifteen (t : List Nat) : levelOf t 15 = 255 := rfl

/-- Between its ends a level table is the parameter's list (R8). -/
theorem levelOf_succ {t : List Nat} {k : Nat} (hk : k < t.length) (h14 : k < 14) :
    levelOf t (k + 1) = t[k] := by
  rw [levelOf, if_neg (by omega), if_neg (by omega), Nat.add_sub_cancel,
    List.getD_eq_getElem?_getD, List.getElem?_eq_getElem hk, Option.getD_some]

/-- R131: each level is above the one before it. -/
theorem levelOf_lt_succ {t : List Nat} (h : levelsLawful t) {k : Nat} (hk : k < 15) :
    levelOf t k < levelOf t (k + 1) := by
  obtain ⟨hlen, hrange, hincr⟩ := h
  cases k with
  | zero =>
    rw [levelOf_zero, levelOf_succ (by omega) (by omega)]
    exact (hrange _ (List.getElem_mem _)).1
  | succ k =>
    rw [levelOf_succ (by omega) (by omega)]
    rcases Nat.lt_or_ge (k + 1) 14 with hin | hend
    · rw [levelOf_succ (by omega) hin]
      exact List.pairwise_iff_getElem.1 hincr _ _ _ _ (Nat.lt_succ_self k)
    · obtain rfl : k = 13 := by omega
      rw [levelOf_fifteen]
      exact (hrange _ (List.getElem_mem _)).2

/-- R131, R137: a level table is strictly increasing. -/
theorem levelOf_strictMonoOn {t : List Nat} (h : levelsLawful t) :
    StrictMonoOn (levelOf t) (Set.Iic 15) :=
  strictMonoOn_of_lt_add_one Set.ordConnected_Iic fun _ _ _ hk =>
    levelOf_lt_succ h (Nat.lt_of_succ_le hk)

/-- So its levels are told apart by their values. -/
theorem levelOf_inj {t : List Nat} (h : levelsLawful t) {j k : Nat} (hj : j < 16) (hk : k < 16)
    (heq : levelOf t j = levelOf t k) : j = k :=
  (levelOf_strictMonoOn h).injOn (Nat.le_of_lt_succ hj) (Nat.le_of_lt_succ hk) heq

/-- The value 0 is level 0's alone. -/
theorem eq_zero_of_levelOf_eq_zero {t : List Nat} (h : levelsLawful t) {k : Nat} (hk : k < 16)
    (heq : levelOf t k = 0) : k = 0 :=
  levelOf_inj h hk (by omega) (heq.trans (levelOf_zero t).symm)

/-- The value 255 is level 15's alone. -/
theorem eq_fifteen_of_levelOf_eq {t : List Nat} (h : levelsLawful t) {k : Nat} (hk : k < 16)
    (heq : levelOf t k = 255) : k = 15 :=
  levelOf_inj h hk (by omega) (heq.trans (levelOf_fifteen t).symm)

/-! ### The lattice -/

/-- R137: distinct indices have distinct colours. -/
theorem lat_inj {p : Params} (h : p.Lawful) {i j : Nat} (hi : i < 4096) (hj : j < 4096)
    (heq : lat p i = lat p j) : i = j := by
  obtain ⟨hlr, hlg, hlb, _⟩ := h
  obtain ⟨hr, hg, hb⟩ := Rgb.mk.inj heq
  have hred : i % 16 = j % 16 := levelOf_inj hlr (by omega) (by omega) hr
  have hgreen : i / 16 % 16 = j / 16 % 16 := levelOf_inj hlg (by omega) (by omega) hg
  have hblue : i / 256 % 16 = j / 256 % 16 := levelOf_inj hlb (by omega) (by omega) hb
  omega

/-- Settles O26: the corners are the level triples of 0 and 15, and the rest is that the level tables
are strictly increasing. -/
theorem latticeFacts : Obligations.LatticeFacts := by
  intro p hp
  refine ⟨by simp [lat], fun i hi => ?_, fun i hi j hj => lat_inj hp hi hj⟩
  obtain ⟨hr, hg, hb, _⟩ := hp
  have hlow : i % 16 < 16 := by omega
  have hmid : i / 16 % 16 < 16 := by omega
  have hhigh : i / 256 % 16 < 16 := by omega
  have htop : i / 256 % 16 = i / 256 := by omega
  exact ⟨eq_zero_of_levelOf_eq_zero hr hlow, eq_fifteen_of_levelOf_eq hr hlow,
    eq_zero_of_levelOf_eq_zero hg hmid, eq_fifteen_of_levelOf_eq hg hmid,
    fun h => htop ▸ eq_zero_of_levelOf_eq_zero hb hhigh h,
    fun h => htop ▸ eq_fifteen_of_levelOf_eq hb hhigh h⟩

/-! ### NOP -/

/-- Settles O27: a faulted block ignores NOP, and an unfaulted one goes on with its state. -/
theorem nopCompletes : Obligations.NopCompletes := by
  intro s
  cases hf : s.fault with
  | true => exact exec_of_faulted .nop hf
  | false => exact gated_of_clear hf _

end Sys2Proof.Machine

/-! The splitting loop (spec/41_quantizer.md R141 to R149, R154): moments add over a cut, so its gain is the
between-means term; the search finds the first greatest gain; every split keeps the boxes a partition. -/

namespace Sys2Proof.Machine

/-! ### Moments -/

/-- The moments of two disjoint parts together (R141). -/
def Moments.plus (a b : Moments) : Moments :=
  ⟨a.n + b.n, a.sr + b.sr, a.sg + b.sg, a.sb + b.sb, a.sq + b.sq⟩

/-- The moments of one pixel (R141). -/
def Moments.ofColor (c : Rgb) : Moments := ⟨1, c.r, c.g, c.b, c.r * c.r + c.g * c.g + c.b * c.b⟩

/-- The moments of no pixel (R141). -/
def Moments.zero : Moments := ⟨0, 0, 0, 0, 0⟩

theorem Moments.plus_comm (a b : Moments) : a.plus b = b.plus a := by
  simp only [Moments.plus, Nat.add_comm]

theorem Moments.plus_assoc (a b c : Moments) : (a.plus b).plus c = a.plus (b.plus c) := by
  simp only [Moments.plus, Nat.add_assoc]

@[simp] theorem Moments.zero_plus (a : Moments) : Moments.zero.plus a = a := by
  simp only [Moments.plus, Moments.zero, Nat.zero_add]

@[simp] theorem Moments.plus_zero (a : Moments) : a.plus Moments.zero = a := rfl

section
variable {κ : Type} {inBox : κ → Bool}

@[simp] theorem momentsOf_nil : momentsOf inBox [] = Moments.zero := rfl

theorem momentsOf_cons_of_mem {x : κ × Rgb} (h : inBox x.1 = true) (samples : List (κ × Rgb)) :
    momentsOf inBox (x :: samples) = (Moments.ofColor x.2).plus (momentsOf inBox samples) := by
  simp [momentsOf, Moments.ofColor, Moments.plus, h, Nat.add_comm]

theorem momentsOf_cons_of_not_mem {x : κ × Rgb} (h : inBox x.1 = false) (samples : List (κ × Rgb)) :
    momentsOf inBox (x :: samples) = momentsOf inBox samples := by
  simp [momentsOf, h]

/-- A box without a pixel has no moments at all. -/
theorem momentsOf_of_empty {samples : List (κ × Rgb)} (h : (momentsOf inBox samples).n = 0) :
    momentsOf inBox samples = Moments.zero := by
  have hnil : (samples.filter fun x => inBox x.1).map (·.2) = [] := List.length_eq_zero_iff.1 h
  simp only [momentsOf, hnil]
  rfl

theorem momentsOf_n_pos_iff {samples : List (κ × Rgb)} :
    0 < (momentsOf inBox samples).n ↔ ∃ x ∈ samples, inBox x.1 = true := by
  simp [momentsOf, List.length_pos_iff_exists_mem]

/-- The ideal colour of a box is the mean of the colours it holds, rounded down (R149). -/
theorem idealOf_momentsOf (samples : List (κ × Rgb)) :
    idealOf (momentsOf inBox samples) =
      meanColor ((samples.filter fun x => inBox x.1).map (·.2)) := rfl

/-- Moments add over two disjoint parts. -/
theorem momentsOf_split {inA inB : κ → Bool} (hunion : ∀ k, inBox k = (inA k || inB k))
    (hdisj : ∀ k, ¬ (inA k = true ∧ inB k = true)) (samples : List (κ × Rgb)) :
    momentsOf inBox samples = (momentsOf inA samples).plus (momentsOf inB samples) := by
  induction samples with
  | nil => rfl
  | cons x samples ih =>
    cases hA : inA x.1 with
    | true =>
      have hB : inB x.1 = false := Bool.eq_false_iff.2 fun hB => hdisj x.1 ⟨hA, hB⟩
      have hX : inBox x.1 = true := by rw [hunion, hA, hB]; rfl
      rw [momentsOf_cons_of_mem hX, momentsOf_cons_of_mem hA, momentsOf_cons_of_not_mem hB, ih,
        Moments.plus_assoc]
    | false =>
      cases hB : inB x.1 with
      | true =>
        have hX : inBox x.1 = true := by rw [hunion, hA, hB]; rfl
        rw [momentsOf_cons_of_mem hX, momentsOf_cons_of_not_mem hA, momentsOf_cons_of_mem hB, ih,
          Moments.plus_comm, Moments.plus_assoc, Moments.plus_comm (momentsOf inB samples)]
      | false =>
        have hX : inBox x.1 = false := by rw [hunion, hA, hB]; rfl
        rw [momentsOf_cons_of_not_mem hX, momentsOf_cons_of_not_mem hA,
          momentsOf_cons_of_not_mem hB, ih]

end

/-! ### Variance and gain -/

/-- The squared distance of the mean colours of two boxes. -/
def meansApart (a b : Moments) : ℚ :=
  ((a.sr : ℚ) / a.n - b.sr / b.n) ^ 2 + ((a.sg : ℚ) / a.n - b.sg / b.n) ^ 2 +
    ((a.sb : ℚ) / a.n - b.sb / b.n) ^ 2

theorem meansApart_nonneg (a b : Moments) : 0 ≤ meansApart a b := by
  unfold meansApart
  positivity

@[simp] theorem varianceOf_zero : varianceOf Moments.zero = 0 := rfl

theorem varianceOf_of_pos {m : Moments} (h : 0 < m.n) :
    varianceOf m = m.sq - ((m.sr : ℚ) ^ 2 + (m.sg : ℚ) ^ 2 + (m.sb : ℚ) ^ 2) / m.n := by
  rw [varianceOf, if_neg h.ne']
  push_cast
  rfl

/-- What joining two parts that hold pixels adds to their variances (R142, R147). -/
theorem varianceOf_plus {a b : Moments} (ha : 0 < a.n) (hb : 0 < b.n) :
    varianceOf (a.plus b) - varianceOf a - varianceOf b =
      (a.n : ℚ) * b.n / (a.plus b).n * meansApart a b := by
  have hab : 0 < (a.plus b).n := Nat.add_pos_left ha _
  rw [varianceOf_of_pos hab, varianceOf_of_pos ha, varianceOf_of_pos hb]
  have hqa : (a.n : ℚ) ≠ 0 := by positivity
  have hqb : (b.n : ℚ) ≠ 0 := by positivity
  have hqab : (a.n : ℚ) + b.n ≠ 0 := by positivity
  simp only [Moments.plus, meansApart, Nat.cast_add]
  field_simp
  ring

/-- A cut of `X` into `A` and `B` (R146): together they contain what `X` contains, and no bin twice. -/
def IsCut {κ β : Type} (D : Domain κ β) (X A B : β) : Prop :=
  (∀ k, D.contains X k = (D.contains A k || D.contains B k)) ∧
    ∀ k, ¬ (D.contains A k = true ∧ D.contains B k = true)

section
variable {κ β : Type} {D : Domain κ β} {X A B : β}

theorem isCut_iff : IsCut D X A B ↔
    (∀ k, D.contains X k = true ↔ D.contains A k = true ∨ D.contains B k = true) ∧
      ∀ k, ¬ (D.contains A k = true ∧ D.contains B k = true) := by
  simp only [IsCut, ← Bool.or_eq_true, ← Bool.eq_iff_iff]

/-- A bin lies in the parent as often as in the two children together. -/
theorem IsCut.boole_eq (h : IsCut D X A B) (k : κ) :
    (if D.contains X k then 1 else 0) =
      (if D.contains A k then 1 else 0) + if D.contains B k then 1 else 0 := by
  rw [h.1 k]
  cases hA : D.contains A k with
  | true =>
    have hB : D.contains B k = false := Bool.eq_false_iff.2 fun hB => h.2 k ⟨hA, hB⟩
    simp [hB]
  | false => simp

theorem IsCut.momentsOf_eq (h : IsCut D X A B) (samples : List (κ × Rgb)) :
    momentsOf (D.contains X) samples =
      (momentsOf (D.contains A) samples).plus (momentsOf (D.contains B) samples) :=
  momentsOf_split h.1 h.2 samples

theorem IsCut.gainOf_eq (h : IsCut D X A B) (samples : List (κ × Rgb)) :
    gainOf D samples X A B =
      varianceOf ((momentsOf (D.contains A) samples).plus (momentsOf (D.contains B) samples)) -
        varianceOf (momentsOf (D.contains A) samples) -
        varianceOf (momentsOf (D.contains B) samples) := by
  rw [gainOf, boxVariance, boxVariance, boxVariance, h.momentsOf_eq]

/-- A cut with a child that holds no pixel gains nothing (R147). -/
theorem IsCut.gainOf_of_empty (h : IsCut D X A B) {samples : List (κ × Rgb)}
    (hempty : (momentsOf (D.contains A) samples).n = 0 ∨ (momentsOf (D.contains B) samples).n = 0) :
    gainOf D samples X A B = 0 := by
  rw [h.gainOf_eq]
  rcases hempty with hA | hB
  · rw [momentsOf_of_empty hA]; simp
  · rw [momentsOf_of_empty hB]; simp

/-- The between-means identity (R147). -/
theorem IsCut.gainOf_of_pos (h : IsCut D X A B) {samples : List (κ × Rgb)}
    (hA : 0 < (momentsOf (D.contains A) samples).n)
    (hB : 0 < (momentsOf (D.contains B) samples).n) :
    gainOf D samples X A B =
      ((momentsOf (D.contains A) samples).n : ℚ) * (momentsOf (D.contains B) samples).n /
        (momentsOf (D.contains X) samples).n *
        meansApart (momentsOf (D.contains A) samples) (momentsOf (D.contains B) samples) := by
  rw [h.gainOf_eq, varianceOf_plus hA hB, h.momentsOf_eq]

/-- Either a child is empty and the gain is 0, or the gain is a positive multiple of the distance of the
means. -/
theorem IsCut.gainOf_cases (h : IsCut D X A B) (samples : List (κ × Rgb)) :
    (((momentsOf (D.contains A) samples).n = 0 ∨ (momentsOf (D.contains B) samples).n = 0) ∧
      gainOf D samples X A B = 0) ∨
    (0 < (momentsOf (D.contains A) samples).n ∧ 0 < (momentsOf (D.contains B) samples).n ∧
      ∃ q : ℚ, 0 < q ∧ gainOf D samples X A B =
        q * meansApart (momentsOf (D.contains A) samples) (momentsOf (D.contains B) samples)) := by
  by_cases hempty : (momentsOf (D.contains A) samples).n = 0 ∨
      (momentsOf (D.contains B) samples).n = 0
  · exact .inl ⟨hempty, h.gainOf_of_empty hempty⟩
  · obtain ⟨hA, hB⟩ := not_or.1 hempty
    have hA := Nat.pos_of_ne_zero hA
    have hB := Nat.pos_of_ne_zero hB
    have hX : 0 < (momentsOf (D.contains X) samples).n := by
      rw [h.momentsOf_eq]; exact Nat.add_pos_left hA _
    exact .inr ⟨hA, hB, _, by positivity, h.gainOf_of_pos hA hB⟩

theorem IsCut.gainOf_nonneg (h : IsCut D X A B) (samples : List (κ × Rgb)) :
    0 ≤ gainOf D samples X A B := by
  rcases h.gainOf_cases samples with ⟨_, h0⟩ | ⟨_, _, q, hq, hgain⟩
  · exact h0.ge
  · rw [hgain]; exact mul_nonneg hq.le (meansApart_nonneg _ _)

/-- A cut gains exactly when both children hold pixels and their means differ (R147). -/
theorem IsCut.gainOf_pos_iff (h : IsCut D X A B) (samples : List (κ × Rgb)) :
    0 < gainOf D samples X A B ↔
      0 < (momentsOf (D.contains A) samples).n ∧ 0 < (momentsOf (D.contains B) samples).n ∧
        meansApart (momentsOf (D.contains A) samples) (momentsOf (D.contains B) samples) ≠ 0 := by
  rcases h.gainOf_cases samples with ⟨hempty, h0⟩ | ⟨hA, hB, q, hq, hgain⟩
  · rw [h0]
    exact ⟨fun hlt => absurd hlt (lt_irrefl 0), fun ⟨hA, hB, _⟩ => by omega⟩
  · rw [hgain, mul_pos_iff_of_pos_left hq]
    exact ⟨fun hpos => ⟨hA, hB, hpos.ne'⟩,
      fun ⟨_, _, hne⟩ => lt_of_le_of_ne (meansApart_nonneg _ _) hne.symm⟩

end

/-! ### The cuts of the two domains -/

/-- Every candidate cut of the domain is a cut: its children share no bin and lose none. -/
def CutsDisjoint {κ β : Type} (D : Domain κ β) : Prop :=
  ∀ X A B : β, (A, B) ∈ D.cuts X → IsCut D X A B

theorem cutPoints_eq (lo hi : Nat) : cutPoints lo hi = (List.range (hi - lo)).map (lo + ·) := by
  rw [cutPoints, List.range'_eq_map_range]

theorem genCuts_eq_cutsAlong (p : Params) (X : GenBox) :
    (genDomain p).cuts X = cutsAlong X (axisOf p X) := by
  show genCuts p X = _
  unfold genCuts
  cases axisOf p X <;> simp only [cutsAlong, cutPoints_eq, List.map_map] <;> rfl

theorem latCuts_eq (X : Nat × Nat) : latDomain.cuts X =
    (List.range (X.2 - X.1)).map fun i => ((X.1, X.1 + i), (X.1 + i + 1, X.2)) := by
  show (cutPoints X.1 X.2).map (fun c => ((X.1, c), (c + 1, X.2))) = _
  rw [cutPoints_eq, List.map_map]
  rfl

theorem genContains_eq_true_iff {X : GenBox} {k : Nat × Nat × Nat} :
    genContains X k = true ↔ (X.r0 ≤ k.1 ∧ k.1 ≤ X.r1) ∧ (X.g0 ≤ k.2.1 ∧ k.2.1 ≤ X.g1) ∧
      (X.b0 ≤ k.2.2 ∧ k.2.2 ≤ X.b1) := by
  simp only [genContains, Bool.and_eq_true, decide_eq_true_eq, and_assoc]

@[simp] theorem genDomain_contains (p : Params) : (genDomain p).contains = genContains := rfl

theorem latContains_eq_true_iff {X : Nat × Nat} {i : Nat} :
    latDomain.contains X i = true ↔ X.1 ≤ i ∧ i ≤ X.2 := decide_eq_true_iff

theorem isCut_of_mem_cutsAlong (p : Params) {a : Axis} {X A B : GenBox}
    (h : (A, B) ∈ cutsAlong X a) : IsCut (genDomain p) X A B := by
  rw [isCut_iff]
  simp only [genDomain_contains, genContains_eq_true_iff]
  cases a <;>
  · obtain ⟨i, hi, hcut⟩ := List.mem_map.1 h
    rw [List.mem_range] at hi
    obtain ⟨rfl, rfl⟩ := Prod.mk.inj hcut
    constructor <;> intro k <;> dsimp only <;> omega

/-- The cuts of QGEN are cuts, whatever `AXIS_RULE` is (R146). -/
theorem genDomain_cutsDisjoint (p : Params) : CutsDisjoint (genDomain p) := fun X A B h =>
  isCut_of_mem_cutsAlong p (by rwa [genCuts_eq_cutsAlong] at h)

/-- The cuts of QLAT are cuts (R146). -/
theorem latDomain_cutsDisjoint : CutsDisjoint latDomain := by
  intro X A B h
  rw [latCuts_eq] at h
  obtain ⟨i, hi, hcut⟩ := List.mem_map.1 h
  rw [List.mem_range] at hi
  obtain ⟨rfl, rfl⟩ := Prod.mk.inj hcut
  rw [isCut_iff]
  simp only [latContains_eq_true_iff]
  constructor <;> intro k <;> omega

/-- Settles O40: moments add over a cut, so its gain is the between-means term; and the cuts of both
strategies are cuts. -/
theorem gainOfACut : Obligations.GainOfACut := by
  refine ⟨fun κ β D samples X A B hunion hdisj => ?_, fun p X A B h k => ?_, fun X A B h k => ?_⟩
  · have h : IsCut D X A B := ⟨hunion, hdisj⟩
    exact ⟨h.gainOf_nonneg samples, h.gainOf_of_empty, h.gainOf_of_pos, h.gainOf_pos_iff samples⟩
  · obtain ⟨hunion, hdisj⟩ := genDomain_cutsDisjoint p X A B h
    exact ⟨hunion k, hdisj k⟩
  · obtain ⟨hunion, hdisj⟩ := latDomain_cutsDisjoint X A B h
    exact ⟨hunion k, hdisj k⟩

/-! ### The search for the greatest gain -/

/-- `c` is the first of the candidates `l` with the greatest gain (R148). -/
def FirstMax {β : Type} (l : List (Split β)) (c : Split β) : Prop :=
  ∃ i : Nat, l[i]? = some c ∧ (∀ d ∈ l, d.gain ≤ c.gain) ∧
    ∀ (j : Nat) (d : Split β), j < i → l[j]? = some d → d.gain < c.gain

section
variable {β : Type}

theorem not_firstMax_nil (c : Split β) : ¬ FirstMax [] c := by
  rintro ⟨i, hi, _⟩
  cases hi

theorem FirstMax.mem {l : List (Split β)} {c : Split β} (h : FirstMax l c) : c ∈ l :=
  let ⟨_, hi, _⟩ := h
  List.mem_of_getElem? hi

theorem FirstMax.le {l : List (Split β)} {c d : Split β} (h : FirstMax l c) (hd : d ∈ l) :
    d.gain ≤ c.gain :=
  let ⟨_, _, hmax, _⟩ := h
  hmax d hd

/-- The first greatest of a list is its head, if nothing exceeds the head, and otherwise the first
greatest of the tail. -/
theorem firstMax_cons_iff {a c : Split β} {l : List (Split β)} :
    FirstMax (a :: l) c ↔
      (a = c ∧ ∀ d ∈ l, d.gain ≤ a.gain) ∨ (a.gain < c.gain ∧ FirstMax l c) := by
  constructor
  · rintro ⟨i, hi, hmax, hfirst⟩
    cases i with
    | zero =>
      cases hi
      exact .inl ⟨rfl, fun d hd => hmax d (List.mem_cons_of_mem _ hd)⟩
    | succ i =>
      exact .inr ⟨hfirst 0 a (Nat.succ_pos i) rfl, i, hi,
        fun d hd => hmax d (List.mem_cons_of_mem _ hd),
        fun j d hj hd => hfirst (j + 1) d (Nat.succ_lt_succ hj) hd⟩
  · rintro (⟨rfl, hmax⟩ | ⟨hlt, i, hi, hmax, hfirst⟩)
    · exact ⟨0, rfl, List.forall_mem_cons.2 ⟨le_rfl, hmax⟩,
        fun j d hj => absurd hj (Nat.not_lt_zero j)⟩
    · refine ⟨i + 1, hi, List.forall_mem_cons.2 ⟨hlt.le, hmax⟩, fun j d hj hd => ?_⟩
      cases j with
      | zero => cases hd; exact hlt
      | succ j => exact hfirst j d (Nat.lt_of_succ_lt_succ hj) hd

/-- A head that the next candidate exceeds plays no part. -/
theorem firstMax_cons_cons_of_lt {a b c : Split β} {l : List (Split β)} (h : b.gain < a.gain) :
    FirstMax (b :: a :: l) c ↔ FirstMax (a :: l) c := by
  rw [firstMax_cons_iff (a := b)]
  constructor
  · rintro (⟨_, hmax⟩ | ⟨_, hc⟩)
    · exact absurd (hmax a List.mem_cons_self) (not_le.2 h)
    · exact hc
  · exact fun hc => .inr ⟨h.trans_le (hc.le List.mem_cons_self), hc⟩

/-- A candidate that does not exceed the one before it plays no part. -/
theorem firstMax_cons_cons_of_le {a b c : Split β} {l : List (Split β)} (h : a.gain ≤ b.gain) :
    FirstMax (b :: a :: l) c ↔ FirstMax (b :: l) c := by
  rw [firstMax_cons_iff (a := b), firstMax_cons_iff (a := b), firstMax_cons_iff,
    List.forall_mem_cons]
  constructor
  · rintro (⟨rfl, _, hmax⟩ | ⟨hlt, ⟨rfl, _⟩ | ⟨_, hc⟩⟩)
    · exact .inl ⟨rfl, hmax⟩
    · exact absurd hlt (not_lt.2 h)
    · exact .inr ⟨hlt, hc⟩
  · rintro (⟨rfl, hmax⟩ | ⟨hlt, hc⟩)
    · exact .inl ⟨rfl, h, hmax⟩
    · exact .inr ⟨hlt, .inr ⟨h.trans_lt hlt, hc⟩⟩

/-- With a best so far the search takes the first greatest of the best and what is left. -/
theorem pickSplit_some_iff {l : List (Split β)} {b c : Split β} :
    pickSplit l (some b) = some c ↔ FirstMax (b :: l) c := by
  induction l generalizing b with
  | nil => simp [pickSplit, firstMax_cons_iff, not_firstMax_nil]
  | cons a l ih =>
    rw [pickSplit]
    split
    · next h => rw [ih, firstMax_cons_cons_of_lt h]
    · next h => rw [ih, firstMax_cons_cons_of_le (not_lt.1 h)]

/-- R148: the search takes the first candidate of greatest gain, if that gain is above 0. -/
theorem pickSplit_none_iff {l : List (Split β)} {c : Split β} :
    pickSplit l none = some c ↔ 0 < c.gain ∧ FirstMax l c := by
  induction l with
  | nil => simp [pickSplit, not_firstMax_nil]
  | cons a l ih =>
    rw [pickSplit]
    split
    · next h =>
      rw [pickSplit_some_iff]
      exact ⟨fun hc => ⟨h.trans_le (hc.le List.mem_cons_self), hc⟩, And.right⟩
    · next h =>
      rw [ih, firstMax_cons_iff]
      constructor
      · exact fun ⟨hpos, hc⟩ => ⟨hpos, .inr ⟨(not_lt.1 h).trans_lt hpos, hc⟩⟩
      · rintro ⟨hpos, ⟨rfl, _⟩ | ⟨_, hc⟩⟩
        · exact absurd hpos h
        · exact ⟨hpos, hc⟩

theorem pickSplit_some_ne_none (l : List (Split β)) (b : Split β) :
    pickSplit l (some b) ≠ none := by
  induction l generalizing b with
  | nil => exact Option.some_ne_none b
  | cons a l ih =>
    rw [pickSplit]
    split
    · exact ih a
    · exact ih b

/-- R148: the search takes nothing exactly when no candidate has a gain above 0. -/
theorem pickSplit_eq_none_iff {l : List (Split β)} :
    pickSplit l none = none ↔ ∀ c ∈ l, c.gain ≤ 0 := by
  induction l with
  | nil => simp [pickSplit]
  | cons a l ih =>
    rw [pickSplit, List.forall_mem_cons]
    split
    · next h =>
      exact ⟨fun hn => absurd hn (pickSplit_some_ne_none l a), fun hn => absurd h (not_lt.2 hn.1)⟩
    · next h => rw [ih]; exact (and_iff_right (not_lt.1 h)).symm

end

/-! ### One pass of the loop -/

/-- The boxes after a split: the lower child in the parent's place, the upper child at the end (R148). -/
def splitBox {β : Type} (boxes : List β) (c : Split β) : List β :=
  boxes.set c.at_ c.lower ++ [c.upper]

section
variable {κ β : Type} {D : Domain κ β} {samples : List (κ × Rgb)}

theorem mem_allSplits {boxes : List β} {c : Split β} :
    c ∈ allSplits D samples boxes ↔ ∃ X, boxes[c.at_]? = some X ∧ (c.lower, c.upper) ∈ D.cuts X ∧
      c.gain = gainOf D samples X c.lower c.upper := by
  simp only [allSplits, List.mem_flatMap, List.mem_map, Prod.exists,
    List.mem_zipIdx_iff_getElem?]
  constructor
  · rintro ⟨X, _, hX, A, B, hcut, rfl⟩
    exact ⟨X, hX, hcut, rfl⟩
  · rintro ⟨X, hX, hcut, hgain⟩
    exact ⟨X, c.at_, hX, c.lower, c.upper, hcut, by rw [← hgain]⟩

theorem splitLoop_succ_of_none {boxes : List β} (n : Nat)
    (h : pickSplit (allSplits D samples boxes) none = none) :
    splitLoop D samples (n + 1) boxes = boxes := by
  rw [splitLoop, h]

theorem splitLoop_succ_of_some {boxes : List β} {c : Split β} (n : Nat)
    (h : pickSplit (allSplits D samples boxes) none = some c) :
    splitLoop D samples (n + 1) boxes = splitLoop D samples n (splitBox boxes c) := by
  rw [splitLoop, h]
  rfl

theorem splitBox_length (boxes : List β) (c : Split β) :
    (splitBox boxes c).length = boxes.length + 1 := by
  simp [splitBox]

/-- What the search takes is a cut of a listed box, with a gain above 0. -/
theorem pickSplit_allSplits {boxes : List β} {c : Split β}
    (h : pickSplit (allSplits D samples boxes) none = some c) :
    ∃ X, boxes[c.at_]? = some X ∧ (c.lower, c.upper) ∈ D.cuts X ∧
      0 < gainOf D samples X c.lower c.upper := by
  obtain ⟨hpos, hmax⟩ := pickSplit_none_iff.1 h
  obtain ⟨X, hX, hcut, hgain⟩ := mem_allSplits.1 hmax.mem
  exact ⟨X, hX, hcut, hgain ▸ hpos⟩

/-- The children stand in their places and every other box stays (R148). -/
theorem splitBox_getElem? {boxes : List β} {c : Split β} (h : c.at_ < boxes.length) :
    (splitBox boxes c)[c.at_]? = some c.lower ∧ (splitBox boxes c)[boxes.length]? = some c.upper ∧
      ∀ j < boxes.length, j ≠ c.at_ → (splitBox boxes c)[j]? = boxes[j]? := by
  have hset : (boxes.set c.at_ c.lower).length = boxes.length := List.length_set
  unfold splitBox
  refine ⟨?_, ?_, fun j hj hne => ?_⟩
  · rw [List.getElem?_append_left (hset ▸ h), List.getElem?_set_self h]
  · rw [List.getElem?_append_right hset.le, hset, Nat.sub_self]
    rfl
  · rw [List.getElem?_append_left (hset ▸ hj), List.getElem?_set_ne hne.symm]

/-- The loop ends by its count of passes or because nothing more can be split (R148). -/
theorem splitLoop_stop (n : Nat) (boxes : List β) :
    (splitLoop D samples n boxes).length = boxes.length + n ∨
      pickSplit (allSplits D samples (splitLoop D samples n boxes)) none = none := by
  induction n generalizing boxes with
  | zero => exact .inl rfl
  | succ n ih =>
    cases h : pickSplit (allSplits D samples boxes) none with
    | none =>
      rw [splitLoop_succ_of_none n h]
      exact .inr h
    | some c =>
      rw [splitLoop_succ_of_some n h]
      refine (ih (splitBox boxes c)).imp_left fun hlen => ?_
      rw [hlen, splitBox_length]
      omega

theorem allSplits_append (boxes : List β) (X : β) :
    allSplits D samples (boxes ++ [X]) = allSplits D samples boxes ++
      (D.cuts X).map fun c => ⟨boxes.length, c.1, c.2, gainOf D samples X c.1 c.2⟩ := by
  simp [allSplits, List.zipIdx_append]

end

/-- The default axis by the lengths the ranges have (R146). -/
theorem defaultAxis_eq {X : GenBox} (hr : X.r0 ≤ X.r1) (hg : X.g0 ≤ X.g1) (hb : X.b0 ≤ X.b1) :
    defaultAxis X = if X.g1 - X.g0 ≤ X.r1 - X.r0 ∧ X.b1 - X.b0 ≤ X.r1 - X.r0 then .red
      else if X.b1 - X.b0 ≤ X.g1 - X.g0 then .green else .blue := by
  have hlen : ∀ {lo hi lo' hi'}, lo ≤ hi → lo' ≤ hi' →
      (rangeLen lo hi ≥ rangeLen lo' hi' ↔ hi' - lo' ≤ hi - lo) := by
    unfold rangeLen
    omega
  simp only [defaultAxis, hlen hr hg, hlen hr hb, hlen hg hb]

/-- Settles O41: the search by induction on the candidates, the loop by its passes, the cuts by their
equations. -/
theorem splitSearchTakesTheFirstMaximum : Obligations.SplitSearchTakesTheFirstMaximum := by
  refine ⟨fun β l => ⟨pickSplit_eq_none_iff, fun c => pickSplit_none_iff⟩,
    fun κ β D samples => ⟨⟨rfl, allSplits_append⟩, fun n boxes c h => ?_, fun first => ?_⟩,
    latCuts_eq, fun p X hr hg hb => ⟨⟨_, genCuts_eq_cutsAlong p X⟩, fun htable => ?_⟩⟩
  · obtain ⟨X, hX, _⟩ := pickSplit_allSplits h
    have hat : c.at_ < boxes.length := (List.getElem?_eq_some_iff.1 hX).1
    obtain ⟨hlower, hupper, hrest⟩ := splitBox_getElem? hat
    exact ⟨_, splitLoop_succ_of_some n h, splitBox_length boxes c, hat, hlower, hupper, hrest⟩
  · exact splitLoop_stop 15 [first]
  · rw [genCuts_eq_cutsAlong, axisOf, htable]
    exact congrArg (cutsAlong X) (defaultAxis_eq hr hg hb)

/-! ### The boxes partition the samples -/

/-- Every box holds a sample, and every sample lies in exactly one box (R154 (a), (b)). -/
structure BoxesPartition {κ β : Type} (D : Domain κ β) (samples : List (κ × Rgb))
    (boxes : List β) : Prop where
  held : ∀ X ∈ boxes, ∃ x ∈ samples, D.contains X x.1 = true
  once : ∀ x ∈ samples, (boxes.filter fun X => D.contains X x.1).length = 1

section
variable {κ β : Type} {D : Domain κ β} {samples : List (κ × Rgb)}

/-- Cutting a box keeps in how many boxes a bin lies. -/
theorem IsCut.filter_splitBox_length {boxes : List β} {c : Split β} {X : β}
    (hX : boxes[c.at_]? = some X) (hcut : IsCut D X c.lower c.upper) (k : κ) :
    ((splitBox boxes c).filter fun Y => D.contains Y k).length =
      (boxes.filter fun Y => D.contains Y k).length := by
  obtain ⟨hat, rfl⟩ := List.getElem?_eq_some_iff.1 hX
  have hle := List.boole_getElem_le_countP (p := fun Y => D.contains Y k) hat
  have hset := List.countP_set (p := fun Y => D.contains Y k) (a := c.lower) hat
  have hsum := hcut.boole_eq k
  simp only [splitBox, ← List.countP_eq_length_filter, List.countP_append, List.countP_singleton]
  omega

/-- One split keeps the partition (R154): what is taken has a gain, so both children hold a sample. -/
theorem BoxesPartition.splitBox (hD : CutsDisjoint D) {boxes : List β} {c : Split β}
    (h : BoxesPartition D samples boxes)
    (hc : pickSplit (allSplits D samples boxes) none = some c) :
    BoxesPartition D samples (splitBox boxes c) := by
  obtain ⟨X, hX, hmem, hgain⟩ := pickSplit_allSplits hc
  have hcut := hD X c.lower c.upper hmem
  obtain ⟨hlower, hupper, _⟩ := (hcut.gainOf_pos_iff samples).1 hgain
  refine ⟨fun Y hY => ?_, fun x hx => ?_⟩
  · rcases List.mem_append.1 hY with hY | hY
    · rcases List.mem_or_eq_of_mem_set hY with hY | rfl
      · exact h.held Y hY
      · exact momentsOf_n_pos_iff.1 hlower
    · rw [List.mem_singleton.1 hY]
      exact momentsOf_n_pos_iff.1 hupper
  · rw [hcut.filter_splitBox_length hX]
    exact h.once x hx

/-- So the whole loop keeps it. -/
theorem BoxesPartition.splitLoop (hD : CutsDisjoint D) (n : Nat) {boxes : List β}
    (h : BoxesPartition D samples boxes) :
    BoxesPartition D samples (splitLoop D samples n boxes) := by
  induction n generalizing boxes with
  | zero => exact h
  | succ n ih =>
    cases hc : pickSplit (allSplits D samples boxes) none with
    | none =>
      rw [splitLoop_succ_of_none n hc]
      exact h
    | some c =>
      rw [splitLoop_succ_of_some n hc]
      exact ih (h.splitBox hD hc)

/-- From a first box that contains every sample the loop ends with a partition (R154). -/
theorem finalBoxes_partition (hD : CutsDisjoint D) (hne : samples ≠ []) {first : β}
    (hfirst : ∀ x ∈ samples, D.contains first x.1 = true) :
    BoxesPartition D samples (finalBoxes D samples first) := by
  refine BoxesPartition.splitLoop hD 15 ⟨fun X hX => ?_, fun x hx => ?_⟩
  · obtain ⟨x, hx⟩ := List.exists_mem_of_ne_nil samples hne
    rw [List.mem_singleton.1 hX]
    exact ⟨x, hx, hfirst x hx⟩
  · simp [hfirst x hx]

end

/-- The first box of QGEN contains the bin of every byte colour (R144). -/
theorem genFirst_contains {c : Rgb} (h : c.r < 256 ∧ c.g < 256 ∧ c.b < 256) :
    genContains genFirst (genSample c).1 = true := by
  rw [genContains_eq_true_iff]
  simp only [genFirst, genSample]
  omega

/-- The first box of QLAT contains every lattice index (R145). -/
theorem latFirst_contains {i : Nat} (h : i < 4096) : latDomain.contains latFirst i = true :=
  latContains_eq_true_iff.2 ⟨Nat.zero_le i, Nat.le_of_lt_succ h⟩

/-- Settles O39: the first box contains every pixel, and every split keeps the partition. -/
theorem boxesPartitionTheImage : Obligations.BoxesPartitionTheImage := by
  refine ⟨fun p image hne hbyte => ?_, fun samples hne hlt => ?_⟩
  · obtain ⟨hmin, hmax⟩ := finalBoxes_length (genDomain p) (image.map genSample) genFirst
    obtain ⟨held, once⟩ := finalBoxes_partition (genDomain_cutsDisjoint p)
      (mt List.map_eq_nil_iff.1 hne)
      (List.forall_mem_map.2 fun c hc => genFirst_contains (hbyte c hc))
    exact ⟨hmin, hmax, fun X hX => by
      simpa only [List.mem_map, exists_exists_and_eq_and, genDomain_contains]
        using held X hX, List.forall_mem_map.1 once⟩
  · obtain ⟨hmin, hmax⟩ := finalBoxes_length latDomain samples latFirst
    obtain ⟨held, once⟩ := finalBoxes_partition latDomain_cutsDisjoint hne
      fun x hx => latFirst_contains (hlt x hx)
    exact ⟨hmin, hmax, fun X hX => (held X hX).imp fun x hx =>
      hx.imp_right latContains_eq_true_iff.1, once⟩

/-! ### One bin -/

section
variable {κ β : Type} {D : Domain κ β} {samples : List (κ × Rgb)}

/-- Where all samples share a bin, a cut leaves a child empty and gains nothing. -/
theorem IsCut.gainOf_of_one_bin {X A B : β} (h : IsCut D X A B) {k : κ}
    (hone : ∀ x ∈ samples, x.1 = k) : gainOf D samples X A B = 0 := by
  refine h.gainOf_of_empty ?_
  by_contra hboth
  obtain ⟨hA, hB⟩ := not_or.1 hboth
  obtain ⟨x, hx, hxA⟩ := momentsOf_n_pos_iff.1 (Nat.pos_of_ne_zero hA)
  obtain ⟨y, hy, hyB⟩ := momentsOf_n_pos_iff.1 (Nat.pos_of_ne_zero hB)
  rw [hone x hx] at hxA
  rw [hone y hy] at hyB
  exact h.2 k ⟨hxA, hyB⟩

/-- So the loop stops at its first pass. -/
theorem finalBoxes_of_one_bin (hD : CutsDisjoint D) {k : κ} (hone : ∀ x ∈ samples, x.1 = k)
    (first : β) : finalBoxes D samples first = [first] := by
  refine splitLoop_succ_of_none 14 (pickSplit_eq_none_iff.2 fun c hc => ?_)
  obtain ⟨X, _, hmem, hgain⟩ := mem_allSplits.1 hc
  rw [hgain, (hD X _ _ hmem).gainOf_of_one_bin hone]

theorem meanColor_replicate {n : Nat} (hn : 0 < n) (c : Rgb) :
    meanColor (List.replicate n c) = c := by
  simp only [meanColor, List.map_replicate, List.sum_replicate, List.length_replicate, smul_eq_mul,
    Nat.mul_div_cancel_left _ hn]

/-- One sample repeated: one box, whose ideal colour is the sample's colour. -/
theorem idealsOf_replicate (hD : CutsDisjoint D) {n : Nat} (hn : 0 < n) {x : κ × Rgb} {first : β}
    (hfirst : D.contains first x.1 = true) : idealsOf D (List.replicate n x) first = [x.2] := by
  have hone : ∀ y ∈ List.replicate n x, y.1 = x.1 := fun y hy => by
    rw [List.eq_of_mem_replicate hy]
  rw [idealsOf, finalBoxes_of_one_bin hD hone, List.map_singleton, idealOf_momentsOf,
    List.filter_replicate_of_pos (p := fun y => D.contains first y.1) (a := x) hfirst,
    List.map_replicate, meanColor_replicate hn]

end

/-- A traversal in which every element has an answer is a map. -/
theorem mapM_eq_some_map {α β : Type} {f : α → Option β} {g : α → β} {l : List α}
    (h : ∀ a ∈ l, f a = some (g a)) : l.mapM f = some (l.map g) := by
  induction l with
  | nil => rfl
  | cons a l ih =>
    obtain ⟨ha, hl⟩ := List.forall_mem_cons.1 h
    simp [List.mapM_cons, ha, ih hl]

/-- Settles O42: all pixels share one bin, so no cut gains and the first box is the only one. -/
theorem oneColourImageGivesOneBox : Obligations.OneColourImageGivesOneBox := by
  intro p c n i hn hbyte hsnap
  constructor
  · rw [genIdeals, List.map_replicate]
    exact idealsOf_replicate (genDomain_cutsDisjoint p) hn (genFirst_contains hbyte)
  · have hsample : latSample p c = some (i, lat p i) := by
      rw [latSample, show noneUsed = fun _ => false from rfl, hsnap]
      rfl
    have hsamples : (List.replicate n c).mapM (latSample p) =
        some (List.replicate n (i, lat p i)) := by
      rw [mapM_eq_some_map (g := fun _ => (i, lat p i)) fun a ha => by
        rw [List.eq_of_mem_replicate ha, hsample], List.map_replicate]
    rw [latIdeals, hsamples]
    exact congrArg some (idealsOf_replicate latDomain_cutsDisjoint hn
      (latFirst_contains (snap_some hsnap).1))

end Sys2Proof.Machine

/-! From colours to the palette (spec/42_snapper.md R171, R180, R181; spec/41_quantizer.md R149 to R155): the
snap is the least nearest index, the entries of PAL are the picks in order, and USED holds exactly them. -/

namespace Sys2Proof.Machine

/-! ### The snap is the least nearest index -/

/-- `i` is the least among the unused indices of `l` that are nearest to `t`: R171 over a part of the
lattice. -/
def LeastAmong (p : Params) (t : Rgb) (used : Nat → Bool) (l : List Nat) (i : Nat) : Prop :=
  i ∈ l ∧ used i = false ∧ ∀ j ∈ l, used j = false →
    dist t (lat p i) ≤ dist t (lat p j) ∧ (j < i → dist t (lat p i) < dist t (lat p j))

section
variable {p : Params} {t : Rgb} {used : Nat → Bool}

/-- Another candidate changes nothing if it is used, or no nearer and on the right side of `i`. -/
theorem LeastAmong.insert {l l' : List Nat} {i j : Nat} (h : LeastAmong p t used l i)
    (hsub : ∀ k ∈ l, k ∈ l') (hsup : ∀ k ∈ l', k = j ∨ k ∈ l)
    (hj : used j = false →
      dist t (lat p i) ≤ dist t (lat p j) ∧ (j < i → dist t (lat p i) < dist t (lat p j))) :
    LeastAmong p t used l' i := by
  obtain ⟨hmem, hu, hleast⟩ := h
  refine ⟨hsub i hmem, hu, fun k hk => ?_⟩
  rcases hsup k hk with rfl | hk
  · exact hj
  · exact hleast k hk

/-- The scan over rising candidates from a best so far that is below them all. -/
theorem snapScan_some_leastAmong {l : List Nat} {b i : Nat} (hb : used b = false)
    (hlt : (b :: l).Pairwise (· < ·))
    (h : snapScan p t used l (some (b, dist t (lat p b))) = some i) :
    LeastAmong p t used (b :: l) i := by
  induction l generalizing b with
  | nil =>
    cases h
    exact ⟨List.mem_cons_self, hb, fun j hj _ => by
      rw [List.mem_singleton.1 hj]
      exact ⟨le_rfl, fun hlt => absurd hlt (lt_irrefl _)⟩⟩
  | cons j js ih =>
    obtain ⟨hbl, hjl⟩ := List.pairwise_cons.1 hlt
    have hbj : b < j := hbl j List.mem_cons_self
    have hskip : (b :: js).Pairwise (· < ·) := hlt.sublist (by simp)
    have hkeep : ∀ {k}, LeastAmong p t used (b :: js) k →
        (used j = false → dist t (lat p b) ≤ dist t (lat p j)) →
        LeastAmong p t used (b :: j :: js) k := by
      intro k hk hle
      refine hk.insert (j := j) (by simp; tauto) (by simp; tauto) fun hu => ?_
      obtain ⟨hmem, _, hleast⟩ := hk
      obtain ⟨hkb, hkb'⟩ := hleast b List.mem_cons_self hb
      refine ⟨hkb.trans (hle hu), fun hjk => ?_⟩
      exact (hkb' (hbj.trans hjk)).trans_le (hle hu)
    cases hu : used j with
    | true =>
      simp only [snapScan, hu, if_true] at h
      exact hkeep (ih hb hskip h) fun hu' => by simp [hu] at hu'
    | false =>
      simp only [snapScan, hu, Bool.false_eq_true, if_false] at h
      split at h
      · next hnear =>
        have hi := ih hu hjl h
        obtain ⟨_, _, hleast⟩ := id hi
        have hij := (hleast j List.mem_cons_self hu).1.trans_lt hnear
        exact hi.insert (j := b) (fun k hk => List.mem_cons_of_mem b hk)
          (fun k hk => List.mem_cons.1 hk) fun _ => ⟨hij.le, fun _ => hij⟩
      · next hfar => exact hkeep (ih hb hskip h) fun _ => not_lt.1 hfar

/-- The scan over rising candidates takes the least nearest of them (R171). -/
theorem snapScan_none_leastAmong {l : List Nat} {i : Nat} (hlt : l.Pairwise (· < ·))
    (h : snapScan p t used l none = some i) : LeastAmong p t used l i := by
  induction l with
  | nil => cases h
  | cons j js ih =>
    cases hu : used j with
    | true =>
      simp only [snapScan, hu, if_true] at h
      exact (ih hlt.of_cons h).insert (j := j) (fun k hk => List.mem_cons_of_mem j hk)
        (fun k hk => List.mem_cons.1 hk) fun hu' => by simp [hu] at hu'
    | false =>
      simp only [snapScan, hu, Bool.false_eq_true, if_false] at h
      exact snapScan_some_leastAmong hu hlt h

/-- R171: what `snap` answers is the least nearest unused index. -/
theorem leastNearest_of_snap {i : Nat} (h : snap p t used = some i) : leastNearest p t used i := by
  rw [snap] at h
  obtain ⟨hmem, hu, hleast⟩ := snapScan_none_leastAmong List.pairwise_lt_range h
  have hi := List.mem_range.1 hmem
  exact ⟨hi, hu, fun j hj huj => (hleast j (List.mem_range.2 hj) huj).1,
    fun j hji huj => (hleast j (List.mem_range.2 (hji.trans hi)) huj).2 hji⟩

/-- Only the used set's answers on lattice indices count. -/
theorem leastNearest_congr {used' : Nat → Bool} {i : Nat} (hsame : ∀ j < 4096, used j = used' j)
    (h : leastNearest p t used i) : leastNearest p t used' i := by
  obtain ⟨hi, hu, hnear, hleast⟩ := h
  exact ⟨hi, hsame i hi ▸ hu, fun j hj huj => hnear j hj ((hsame j hj).trans huj),
    fun j hji huj => hleast j hji ((hsame j (hji.trans hi)).trans huj)⟩

/-- In a sequence of snaps each pick is the least nearest to its target that was not picked before
(R150, R180). -/
theorem snapAll_leastNearest {ts : List Rgb} {picks out : List Nat}
    (h : snapAll p ts picks = some out) {k : Nat} {c : Rgb} (hk : ts[k]? = some c) :
    ∃ v, out[picks.length + k]? = some v ∧
      leastNearest p c (out.take (picks.length + k)).contains v := by
  induction ts generalizing picks k with
  | nil => cases hk
  | cons t ts ih =>
    rw [snapAll] at h
    obtain ⟨i, hi, hrest⟩ := Option.bind_eq_some_iff.1 h
    cases k with
    | zero =>
      cases hk
      obtain ⟨new, rfl, _⟩ := snapAll_some hrest
      have htake : (picks ++ [i] ++ new).take (picks.length + 0) = picks := by simp
      refine ⟨i, by simp, ?_⟩
      rw [htake]
      exact leastNearest_of_snap hi
    | succ k =>
      have := ih hrest hk
      rwa [List.length_append, List.length_singleton, Nat.add_assoc, Nat.add_comm 1 k] at this

end

/-! ### The picks in PAL and USED -/

theorem bufGet_writePal (b : Buf 12) (picks : List Nat) (k : Nat) :
    bufGet (bufWriteRun b 0 (palCells picks)) k =
      if k < picks.length then picks[k]?.map (BitVec.ofNat 12) else bufGet b k := by
  simp [bufGet_bufWriteRun, palCells]

theorem bufGet_writeUsed (b : Buf 1) (picks : List Nat) (i : Nat) :
    bufGet (bufWriteRun b 0 (usedCells picks)) i =
      if i < 4096 then some (if picks.contains i then 1 else 0) else bufGet b i := by
  rw [bufGet_bufWriteRun, usedCells_length]
  by_cases hi : i < 4096 <;> simp [usedCells, hi]

/-- A lattice index is known by its 12 bits. -/
theorem ofNat12_inj {i j : Nat} (hi : i < 4096) (hj : j < 4096) :
    BitVec.ofNat 12 i = BitVec.ofNat 12 j ↔ i = j := by
  rw [← BitVec.toNat_inj, BitVec.toNat_ofNat, BitVec.toNat_ofNat, Nat.mod_eq_of_lt hi,
    Nat.mod_eq_of_lt hj]

/-- `t` is `s` with 16 different lattice indices written to PAL and USED (R153, R181). -/
structure WritesPalette (s t : State) (picks : List Nat) : Prop where
  cfg : t.cfg = s.cfg
  pal : t.pal = bufWriteRun s.pal 0 (palCells picks)
  used : t.used = bufWriteRun s.used 0 (usedCells picks)
  length : picks.length = 16
  nodup : picks.Nodup
  lattice : ∀ i ∈ picks, i < 4096

namespace WritesPalette

variable {s t : State} {picks : List Nat}

theorem bufGet_pal (h : WritesPalette s t picks) (k : Nat) :
    bufGet t.pal k = if k < 16 then picks[k]?.map (BitVec.ofNat 12) else bufGet s.pal k := by
  rw [h.pal, bufGet_writePal, h.length]

theorem bufGet_used (h : WritesPalette s t picks) (i : Nat) :
    bufGet t.used i = if i < 4096 then some (if picks.contains i then 1 else 0)
      else bufGet s.used i := by
  rw [h.used, bufGet_writeUsed]

/-- Entry `k` of PAL is pick `k`. -/
theorem entry (h : WritesPalette s t picks) {k : Nat} (hk : k < 16) :
    ∃ i, picks[k]? = some i ∧ i < 4096 ∧ bufGet t.pal k = some (BitVec.ofNat 12 i) := by
  have hlen : k < picks.length := h.length ▸ hk
  have hget := List.getElem?_eq_getElem hlen
  exact ⟨picks[k], hget, h.lattice _ (List.getElem_mem hlen), by
    rw [h.bufGet_pal, if_pos hk, hget]; rfl⟩

/-- An entry of PAL is a lattice index exactly when the pick is. -/
theorem bufGet_pal_eq_iff (h : WritesPalette s t picks) {k i : Nat} (hk : k < 16) (hi : i < 4096) :
    bufGet t.pal k = some (BitVec.ofNat 12 i) ↔ picks[k]? = some i := by
  obtain ⟨j, hj, hlt, hpal⟩ := h.entry hk
  rw [hpal, hj, Option.some.injEq, Option.some.injEq, ofNat12_inj hlt hi]

/-- The entries before entry `k` are the picks before pick `k`. -/
theorem earlierEntries_eq (h : WritesPalette s t picks) {k i : Nat} (hk : k ≤ 16) (hi : i < 4096) :
    earlierEntries t.pal k i = (picks.take k).contains i := by
  rw [Bool.eq_iff_iff, List.contains_iff_mem, List.mem_iff_getElem?, earlierEntries,
    List.any_eq_true]
  simp only [List.mem_range, beq_iff_eq, List.getElem?_take, Option.ite_none_right_eq_some]
  exact exists_congr fun j => and_congr_right fun hj => h.bufGet_pal_eq_iff (hj.trans_le hk) hi

/-- The entries of PAL are different from one another. -/
theorem entries_ne (h : WritesPalette s t picks) {j k : Nat} (hj : j < 16) (hk : k < 16)
    (hne : j ≠ k) : bufGet t.pal j ≠ bufGet t.pal k := by
  obtain ⟨i, hi, hlt, hpal⟩ := h.entry hk
  rw [hpal]
  intro heq
  have hji := (h.bufGet_pal_eq_iff hj hlt).1 heq
  exact hne ((List.getElem?_inj (h.length ▸ hj) h.nodup).1 (hji.trans hi.symm))

/-- No entry is among the earlier ones. -/
theorem entry_not_earlier (h : WritesPalette s t picks) {k : Nat} (hk : k < 16) :
    ∃ v : BitVec 12, bufGet t.pal k = some v ∧ earlierEntries t.pal k v.toNat = false := by
  obtain ⟨i, _, _, hpal⟩ := h.entry hk
  refine ⟨_, hpal, ?_⟩
  rw [earlierEntries, List.any_eq_false]
  intro j hj hji
  rw [BitVec.ofNat_toNat, BitVec.setWidth_eq] at hji
  have hjk : j < k := List.mem_range.1 hj
  exact h.entries_ne (hjk.trans hk) hk hjk.ne ((beq_iff_eq.1 hji).trans hpal.symm)

/-- Where the picks begin with the snaps of some colours, each of these entries is the least nearest to
its colour that is not among the earlier ones (R150, R180). -/
theorem entry_of_snapAll {ideals : List Rgb} {snapped more : List Nat}
    (h : WritesPalette s t (snapped ++ more)) (hsnap : snapAll s.cfg ideals [] = some snapped)
    {k : Nat} {c : Rgb} (hc : ideals[k]? = some c) :
    ∃ v : BitVec 12, bufGet t.pal k = some v ∧
      leastNearest s.cfg c (earlierEntries t.pal k) v.toNat := by
  obtain ⟨i, hi, hleast⟩ := snapAll_leastNearest hsnap hc
  rw [List.length_nil, Nat.zero_add] at hi hleast
  have hk : k < snapped.length := (List.getElem?_eq_some_iff.1 hi).1
  have hpick : (snapped ++ more)[k]? = some i := by rw [List.getElem?_append_left hk, hi]
  have hk16 : k < 16 := h.length ▸ (List.getElem?_eq_some_iff.1 hpick).1
  have hlt : i < 4096 := h.lattice i (List.mem_of_getElem? hpick)
  refine ⟨_, (h.bufGet_pal_eq_iff hk16 hlt).2 hpick, ?_⟩
  rw [BitVec.toNat_ofNat, Nat.mod_eq_of_lt hlt]
  refine leastNearest_congr (fun j hj => ?_) hleast
  rw [h.earlierEntries_eq hk16.le hj, List.take_append_of_le_length hk.le]

/-- USED holds exactly the indices of PAL (R153, R181). -/
theorem usedExactly (h : WritesPalette s t picks) : usedIsPalette t := by
  intro i hi
  rw [h.bufGet_used, if_pos hi]
  refine ⟨rfl, ?_⟩
  have hpal : (∃ k < 16, bufGet t.pal k = some (BitVec.ofNat 12 i)) ↔ i ∈ picks := by
    rw [List.mem_iff_getElem?]
    constructor
    · rintro ⟨k, hk, hpal⟩
      exact ⟨k, (h.bufGet_pal_eq_iff hk hi).1 hpal⟩
    · rintro ⟨k, hget⟩
      have hk : k < 16 := h.length ▸ (List.getElem?_eq_some_iff.1 hget).1
      exact ⟨k, hk, (h.bufGet_pal_eq_iff hk hi).2 hget⟩
  rw [hpal]
  by_cases hmem : i ∈ picks <;> simp [hmem]

/-- With lawful level tables the entries have different colours (R137). -/
theorem colours_ne (h : WritesPalette s t picks) (hp : s.cfg.Lawful) {j k : Nat} (hj : j < 16)
    (hk : k < 16) (hne : j ≠ k) : paletteRgb t j ≠ paletteRgb t k := by
  obtain ⟨a, _, _, hpj⟩ := h.entry hj
  obtain ⟨b, _, _, hpk⟩ := h.entry hk
  intro heq
  rw [paletteRgb, paletteRgb, h.cfg, hpj, hpk] at heq
  have hab := lat_inj hp (BitVec.isLt _) (BitVec.isLt _) heq
  refine h.entries_ne hj hk hne ?_
  rw [hpj, hpk]
  exact congrArg some (BitVec.eq_of_toNat_eq hab)

end WritesPalette

/-! ### The commands that make a palette -/

/-- QLAT finds ideal colours for every image, since a snap with no used set always answers (R145). -/
theorem exists_latIdeals (p : Params) (image : List Rgb) :
    ∃ bins : List Nat, bins.length = image.length ∧
      (∀ (k : Nat) (c : Rgb) (i : Nat), image[k]? = some c → bins[k]? = some i →
        leastNearest p c (fun _ => false) i) ∧
      latIdeals p image = some (idealsOf latDomain (bins.map fun i => (i, lat p i)) latFirst) := by
  choose nearest hnearest using fun c : Rgb =>
    exists_snap (p := p) c (used := noneUsed) (i := 0) (by omega) rfl
  refine ⟨image.map nearest, List.length_map .., fun k c i hc hi => ?_, ?_⟩
  · rw [List.getElem?_map, hc] at hi
    exact Option.some.inj hi ▸ leastNearest_of_snap (hnearest c)
  · have hsamples : image.mapM (latSample p) =
        some (image.map fun c => (nearest c, lat p (nearest c))) :=
      mapM_eq_some_map fun c _ => by rw [latSample, hnearest]; rfl
    rw [latIdeals, hsamples, List.map_map]
    rfl

/-- QLAT past its checks is a synthesis from the ideal colours of its boxes (R160). -/
theorem exec_qlat_eq {s : State} {image ideals : List Rgb} (hf : s.fault = false)
    (hg : geomOk s = true) (himg : readImage s = some image)
    (hideals : latIdeals s.cfg image = some ideals) :
    exec .qlat s = synthesize (encode .qlat) s ideals := by
  simp only [exec, execQlat, gated_of_clear hf, hg, himg, needs_true, needsRead_some, hideals]

/-- A synthesis from at most 16 ideal colours writes a palette that begins with their snaps, and sets the
registers of R155. -/
theorem synthesize_next_writesPalette (w : Word) (s : State) {ideals : List Rgb}
    (hl : ideals.length ≤ 16) :
    ∃ t snapped more, synthesize w s ideals = .next t ∧ WritesPalette s t (snapped ++ more) ∧
      snapAll s.cfg ideals [] = some snapped ∧
      t = { s with
        pal := t.pal, used := t.used, ncube := t.ncube, wfill := t.wfill, palv := true,
        draws := t.draws } ∧
      t.ncube = BitVec.ofNat 5 ideals.length ∧ t.wfill = decide (ideals.length < 16) := by
  obtain ⟨snapped, picks, hsnap, hfill, hlen, hnodup, hlt, he⟩ := synthesize_next w s hl
  have hsnaplen : snapped.length = ideals.length := by
    obtain ⟨new, rfl, hnew, _⟩ := snapAll_some hsnap
    exact hnew
  obtain ⟨more, hmore, _⟩ := fillSlots_spec (16 - ideals.length) s.draws snapped (by omega)
  obtain rfl := hfill.trans hmore
  exact ⟨_, snapped, more, he, ⟨rfl, rfl, rfl, hlen, hnodup, hlt⟩, hsnap, rfl, rfl, rfl⟩

/-- A synthesis writes a palette (R153). -/
theorem synthesize_writesPalette {w : Word} {s t : State} {ideals : List Rgb}
    (hl : ideals.length ≤ 16) (h : synthesize w s ideals = .next t) :
    ∃ picks, WritesPalette s t picks := by
  obtain ⟨_, _, _, he, hw, _⟩ := synthesize_next_writesPalette w s hl
  obtain rfl := Host.Outcome.next.inj (he.symm.trans h)
  exact ⟨_, hw⟩

/-- What QGEN and QLAT do before the synthesis: the checks, and reading the image. -/
theorem synthesis_checks_next {s t : State} {w : Word} {k : List Rgb → Out} (hf : s.fault = false)
    (h : gated s (needs (geomOk s) .badgeom w s (needsRead (readImage s) .img k)) = .next t)
    (ht : t.fault = false) : ∃ image, k image = .next t := by
  rw [gated_of_clear hf] at h
  rcases needs_next h with ⟨_, rfl⟩ | ⟨_, h⟩
  · cases ht
  · obtain ⟨image, _, h⟩ := needsRead_next h
    exact ⟨image, h⟩

theorem exec_qgen_writesPalette {s t : State} (hf : s.fault = false) (h : exec .qgen s = .next t)
    (ht : t.fault = false) : ∃ picks, WritesPalette s t picks := by
  obtain ⟨image, h⟩ := synthesis_checks_next hf h ht
  exact synthesize_writesPalette (idealsOf_length _ _ _).2 h

theorem exec_qlat_writesPalette {s t : State} (hf : s.fault = false) (h : exec .qlat s = .next t)
    (ht : t.fault = false) : ∃ picks, WritesPalette s t picks := by
  obtain ⟨image, h⟩ := synthesis_checks_next hf h ht
  obtain ⟨_, _, _, hideals⟩ := exists_latIdeals s.cfg image
  rw [hideals] at h
  exact synthesize_writesPalette (idealsOf_length _ _ _).2 h

theorem exec_psnapu_writesPalette {s t : State} (hf : s.fault = false)
    (h : exec .psnapu s = .next t) : ∃ picks, WritesPalette s t picks := by
  rw [exec, execPsnapu, gated_of_clear hf] at h
  obtain ⟨colors, hcolors, h⟩ := needsRead_next h
  have hlen := readExt_length hcolors
  obtain ⟨picks, hpicks⟩ := exists_snapAll (p := s.cfg) colors [] (by simp [hlen])
  obtain ⟨new, rfl, hnew, hlt, hnodup⟩ := snapAll_some hpicks
  simp only [hpicks] at h
  obtain rfl := Host.Outcome.next.inj h
  exact ⟨_, rfl, rfl, rfl, hnew.trans hlen, hnodup List.nodup_nil, hlt⟩

/-- Settles O36: all three commands write 16 different picks to PAL and USED. -/
theorem paletteIsUnique : Obligations.PaletteIsUnique := by
  intro i s t hi hf h ht
  have hpicks : ∃ picks, WritesPalette s t picks := by
    rcases hi with rfl | rfl | rfl
    · exact exec_qgen_writesPalette hf h ht
    · exact exec_qlat_writesPalette hf h ht
    · exact exec_psnapu_writesPalette hf h
  obtain ⟨picks, hw⟩ := hpicks
  refine ⟨fun k hk => ?_, fun j hj k hk => hw.entries_ne hj hk, hw.usedExactly,
    fun hp j hj k hk => hw.colours_ne hp hj hk⟩
  obtain ⟨_, _, _, hpal⟩ := hw.entry hk
  rw [hpal]
  rfl

/-! ### QGEN and QLAT complete -/

/-- A synthesis from 1 to 16 ideal colours completes as R149 to R151 and R155 say. -/
theorem synthesize_synthesisOf (w : Word) (s : State) {ideals : List Rgb}
    (hl : 1 ≤ ideals.length ∧ ideals.length ≤ 16) :
    ∃ t, synthesize w s ideals = .next t ∧ SynthesisOf s ideals t := by
  obtain ⟨t, snapped, more, he, hw, hsnap, hframe, hcube, hfill⟩ :=
    synthesize_next_writesPalette w s hl.2
  exact ⟨t, he,
    { boxes := hl
      frame := hframe
      count := by rw [hcube, BitVec.toNat_ofNat]; omega
      warning := hfill
      snapped := fun k c hc => hw.entry_of_snapAll hsnap hc
      drawn := fun k _ hk => hw.entry_not_earlier hk
      palBeyond := fun k hk => by rw [hw.bufGet_pal, if_neg (not_lt.2 hk)]
      usedExactly := hw.usedExactly
      usedBeyond := fun i hi => by rw [hw.bufGet_used, if_neg (not_lt.2 hi)] }⟩

/-- The ideal colour of box `k` is the mean of the colours it holds, rounded down (R149). -/
theorem idealsOf_getElem? {κ β : Type} {D : Domain κ β} {samples : List (κ × Rgb)} {first : β}
    {k : Nat} {X : β} (h : (finalBoxes D samples first)[k]? = some X) :
    (idealsOf D samples first)[k]? =
      some (meanColor ((samples.filter fun x => D.contains X x.1).map (·.2))) := by
  rw [idealsOf, List.getElem?_map, h, ← idealOf_momentsOf]
  rfl

theorem idealsOf_length_eq {κ β : Type} (D : Domain κ β) (samples : List (κ × Rgb)) (first : β) :
    (idealsOf D samples first).length = (finalBoxes D samples first).length := List.length_map ..

/-- The pixels whose bin a box of QGEN contains (R144). -/
theorem genSample_filter (X : GenBox) (image : List Rgb) :
    ((image.map genSample).filter fun x => genContains X x.1).map (·.2) =
      image.filter fun c => decide
        ((X.r0 ≤ c.r / 16 ∧ c.r / 16 ≤ X.r1) ∧ (X.g0 ≤ c.g / 16 ∧ c.g / 16 ≤ X.g1) ∧
          (X.b0 ≤ c.b / 16 ∧ c.b / 16 ≤ X.b1)) := by
  rw [List.filter_map, List.map_map]
  refine (List.map_id'' (fun _ => rfl) _).trans (List.filter_congr fun c _ => ?_)
  rw [Bool.eq_iff_iff, decide_eq_true_iff]
  exact genContains_eq_true_iff

/-- Settles O37: past its checks QGEN is a synthesis from the means of its boxes. -/
theorem qgenCompletes : Obligations.QgenCompletes := by
  intro s image hf hg himg boxes
  refine ⟨idealsOf_length_eq _ _ _, fun k X hX => ?_, ?_⟩
  · rw [← genSample_filter]
    exact idealsOf_getElem? hX
  · rw [exec_qgen_eq hf hg himg]
    exact synthesize_synthesisOf _ s (idealsOf_length _ _ _)

/-- Settles O38: past its checks QLAT is a synthesis from the means of its boxes, a pixel's bin being its
snap. -/
theorem qlatCompletes : Obligations.QlatCompletes := by
  intro s image hf hg himg
  obtain ⟨bins, hlen, hbins, hideals⟩ := exists_latIdeals s.cfg image
  obtain ⟨t, hnext, hsynth⟩ := synthesize_synthesisOf (encode .qlat) s (latIdeals_length hideals)
  refine ⟨bins, _, t, hlen, hbins, ⟨idealsOf_length_eq _ _ _, fun k X hX => ?_⟩, hideals,
    (exec_qlat_eq hf hg himg hideals).trans hnext, hsynth⟩
  rw [idealsOf_getElem? hX, List.filter_map, List.map_map]
  rfl

end Sys2Proof.Machine

/-! The snapper (spec/42_snapper.md R171 to R183): `snap` is known by the one index that is least nearest, and
each command of the snapper is a snap, a run of snaps, or a write to USED. -/

namespace Sys2Proof.Machine

/-! ### The snap and the least nearest index -/

section
variable {p : Params} {t : Rgb} {used : Nat → Bool}

/-- Of two least nearest indices neither is below the other. -/
theorem leastNearest_unique {i j : Nat} (hi : leastNearest p t used i)
    (hj : leastNearest p t used j) : i = j := by
  obtain ⟨hilt, hiu, hinear, hileast⟩ := hi
  obtain ⟨hjlt, hju, hjnear, hjleast⟩ := hj
  rcases lt_trichotomy i j with hij | heq | hji
  · exact absurd (hjleast i hij hiu) (not_lt.2 (hinear j hjlt hju))
  · exact heq
  · exact absurd (hileast j hji hju) (not_lt.2 (hjnear i hilt hiu))

/-- R171: `snap` answers exactly the least nearest unused index. -/
theorem snap_eq_some_iff {i : Nat} : snap p t used = some i ↔ leastNearest p t used i := by
  refine ⟨leastNearest_of_snap, fun hi => ?_⟩
  obtain ⟨hlt, hu, _⟩ := id hi
  obtain ⟨k, hk⟩ := exists_snap (p := p) t hlt hu
  rw [hk, leastNearest_unique (leastNearest_of_snap hk) hi]

/-- R171, R291: `snap` has no answer exactly when every index is used. -/
theorem snap_eq_none_iff : snap p t used = none ↔ ∀ i < 4096, used i = true := by
  simp [snap, snapScan_eq_none]

/-- With no used set there is always an answer (R173, R183). -/
theorem exists_snap_noneUsed (p : Params) (t : Rgb) : ∃ i, snap p t noneUsed = some i :=
  exists_snap t (i := 0) (by omega) rfl

end

/-- Settles O29: the scan keeps the first minimum, and that index is the only least nearest one. -/
theorem snapIsTheLeastNearest : Obligations.SnapIsTheLeastNearest :=
  fun _ _ _ => ⟨fun _ => snap_eq_some_iff, snap_eq_none_iff⟩

/-! ### Distances in the lattice -/

/-- The squared distance of a value to a level of a level table (R172 (b)). -/
def levelDist (l : List Nat) (v k : Nat) : Int := ((v : Int) - levelOf l k) ^ 2

theorem leastLevel_iff {l : List Nat} {v k : Nat} : leastLevel l v k ↔
    k < 16 ∧ (∀ j < 16, levelDist l v k ≤ levelDist l v j) ∧
      ∀ j < k, levelDist l v k < levelDist l v j := Iff.rfl

/-- A distance is a sum of one term per channel (R170, R172 (b)). -/
theorem dist_lat (p : Params) (t : Rgb) (i : Nat) :
    dist t (lat p i) = levelDist p.levelR t.r (i % 16) + levelDist p.levelG t.g (i / 16 % 16) +
      levelDist p.levelB t.b (i / 256 % 16) := rfl

theorem dist_nonneg (t c : Rgb) : 0 ≤ dist t c :=
  add_nonneg (add_nonneg (sq_nonneg _) (sq_nonneg _)) (sq_nonneg _)

@[simp] theorem dist_self (t : Rgb) : dist t t = 0 := by simp [dist]

/-- Only a colour itself is at distance 0 (R170). -/
theorem eq_of_dist_eq_zero {t c : Rgb} (h : dist t c = 0) : t = c := by
  obtain ⟨tr, tg, tb⟩ := t
  obtain ⟨cr, cg, cb⟩ := c
  rw [dist, add_eq_zero_iff_of_nonneg (by positivity) (by positivity),
    add_eq_zero_iff_of_nonneg (by positivity) (by positivity)] at h
  obtain ⟨⟨hr, hg⟩, hb⟩ := h
  rw [sq_eq_zero_iff, sub_eq_zero, Nat.cast_inj] at hr hg hb
  obtain rfl : tr = cr := hr
  obtain rfl : tg = cg := hg
  obtain rfl : tb = cb := hb
  rfl

/-- R172 (a): a lattice colour is at distance 0 from its own index alone. -/
theorem leastNearest_lat {p : Params} {used : Nat → Bool} {i : Nat} (hp : p.Lawful) (hi : i < 4096)
    (hu : used i = false) : leastNearest p (lat p i) used i := by
  refine ⟨hi, hu, fun j _ _ => ?_, fun j hji _ => ?_⟩ <;> rw [dist_self]
  · exact dist_nonneg _ _
  · refine (dist_nonneg _ _).lt_of_ne fun h => hji.ne ?_
    exact (lat_inj hp hi (hji.trans hi) (eq_of_dist_eq_zero h.symm)).symm

/-- R172 (b): the index of the least nearest levels is the least nearest index, since a lower index has
a lower level in some channel. -/
theorem leastNearest_of_leastLevel {p : Params} {t : Rgb} {a b c : Nat}
    (hr : leastLevel p.levelR t.r a) (hg : leastLevel p.levelG t.g b)
    (hb : leastLevel p.levelB t.b c) : leastNearest p t noneUsed (latIndex a b c) := by
  obtain ⟨ha16, hrnear, hrleast⟩ := leastLevel_iff.1 hr
  obtain ⟨hb16, hgnear, hgleast⟩ := leastLevel_iff.1 hg
  obtain ⟨hc16, hbnear, hbleast⟩ := leastLevel_iff.1 hb
  have hi : latIndex a b c = a + 16 * b + 256 * c := rfl
  have hred : latIndex a b c % 16 = a := by omega
  have hgreen : latIndex a b c / 16 % 16 = b := by omega
  have hblue : latIndex a b c / 256 % 16 = c := by omega
  have hdist : dist t (lat p (latIndex a b c)) =
      levelDist p.levelR t.r a + levelDist p.levelG t.g b + levelDist p.levelB t.b c := by
    rw [dist_lat, hred, hgreen, hblue]
  have hler (j : Nat) := hrnear (j % 16) (by omega)
  have hleg (j : Nat) := hgnear (j / 16 % 16) (by omega)
  have hleb (j : Nat) := hbnear (j / 256 % 16) (by omega)
  refine ⟨by omega, rfl, fun j _ _ => ?_, fun j hj _ => ?_⟩ <;> rw [hdist, dist_lat]
  · exact add_le_add (add_le_add (hler j) (hleg j)) (hleb j)
  · have hlower : j / 256 % 16 < c ∨ j / 16 % 16 < b ∨ j % 16 < a := by omega
    rcases hlower with h | h | h
    · exact add_lt_add_of_le_of_lt (add_le_add (hler j) (hleg j)) (hbleast _ h)
    · exact add_lt_add_of_lt_of_le (add_lt_add_of_le_of_lt (hler j) (hgleast _ h)) (hleb j)
    · exact add_lt_add_of_lt_of_le (add_lt_add_of_lt_of_le (hrleast _ h) (hleg j)) (hleb j)

/-- Settles O30: both indices are the least nearest ones. -/
theorem snapSeparatesByChannel : Obligations.SnapSeparatesByChannel :=
  ⟨fun _ _ _ hp hi hu => snap_eq_some_iff.2 (leastNearest_lat hp hi hu),
    fun _ _ _ _ _ hr hg hb => snap_eq_some_iff.2 (leastNearest_of_leastLevel hr hg hb)⟩

/-! ### SNAP and SNAPU -/

/-- SNAP with the answer of its snap (R173). -/
theorem exec_snap_eq {r g b : BitVec 8} {s : State} {i : Nat} (hf : s.fault = false)
    (hi : snap s.cfg (targetColor r g b) noneUsed = some i) :
    exec (.snap r g b) s = .next { s with res := BitVec.ofNat 32 i } := by
  rw [exec, execSnap, gated_of_clear hf, hi]

/-- Settles O31: with no used set the snap always answers. -/
theorem snapCompletes : Obligations.SnapCompletes := by
  intro r g b s hf
  obtain ⟨i, hi⟩ := exists_snap_noneUsed s.cfg (targetColor r g b)
  exact ⟨i, leastNearest_of_snap hi, exec_snap_eq hf hi⟩

/-- SNAPU, all of USED written, with the answer of its snap (R174). -/
theorem exec_snapu_of_some {r g b : BitVec 8} {s : State} {i : Nat} (hf : s.fault = false)
    (hw : written s.used 4096)
    (hi : snap s.cfg (targetColor r g b) (usedSet s.used) = some i) :
    exec (.snapu r g b) s = .next { s with res := BitVec.ofNat 32 i } := by
  obtain ⟨_, hread⟩ := bufReadRun_of_written hw
  rw [exec, execSnapu, gated_of_clear hf, hread, needsRead_some, hi]

/-- SNAPU, all of USED written, with no answer of its snap (R291). -/
theorem exec_snapu_of_none {r g b : BitVec 8} {s : State} (hf : s.fault = false)
    (hw : written s.used 4096) (hn : snap s.cfg (targetColor r g b) (usedSet s.used) = none) :
    exec (.snapu r g b) s = .next (raiseFault .nocand (encode (.snapu r g b)) s) := by
  obtain ⟨_, hread⟩ := bufReadRun_of_written hw
  rw [exec, execSnapu, gated_of_clear hf, hread, needsRead_some, hn]

/-- The used set is that of the elements of USED that are 1 (R174). -/
theorem usedSet_eq_decide (u : Buf 1) (i : Nat) : usedSet u i = decide (bufGet u i = some 1) :=
  beq_eq_decide ..

/-- Settles O32: an element 0 of USED leaves the snap an answer, and 4096 elements 1 leave none. -/
theorem snapuCompletes : Obligations.SnapuCompletes := by
  intro r g b s hf hw
  constructor
  · rintro ⟨k, hk, hzero⟩
    have hunused : usedSet s.used k = false := by rw [usedSet, hzero]; rfl
    obtain ⟨i, hi⟩ := exists_snap (p := s.cfg) (targetColor r g b) hk hunused
    exact ⟨i, leastNearest_congr (fun j _ => usedSet_eq_decide s.used j) (leastNearest_of_snap hi),
      exec_snapu_of_some hf hw hi⟩
  · intro hall
    have hused : ∀ i < 4096, usedSet s.used i = true := fun i hi => by rw [usedSet, hall i hi]; rfl
    exact exec_snapu_of_none hf hw (snap_eq_none_iff.2 hused)

/-! ### UCLR and UMARK -/

/-- A run of one value stored from the first element on. -/
theorem bufGet_bufWriteRun_replicate {w : Nat} (b : Buf w) (n : Nat) (v : BitVec w) (i : Nat) :
    bufGet (bufWriteRun b 0 (List.replicate n v)) i = if i < n then some v else bufGet b i := by
  rw [bufGet_bufWriteRun, List.length_replicate]
  by_cases hi : i < n <;> simp [hi]

/-- Settles O33: UCLR stores a run of 4096 zeros, UMARK stores one element. -/
theorem usedSetCommandsComplete : Obligations.UsedSetCommandsComplete :=
  ⟨fun s hf => ⟨_, gated_of_clear hf _, rfl, bufGet_bufWriteRun_replicate s.used 4096 0⟩,
    fun idx s hf => ⟨_, gated_of_clear hf _, rfl, bufGet_bufSet s.used idx.toNat 1⟩⟩

/-! ### The 16 colours of EXT -/

/-- Colour `k` of a list of bytes is its bytes `3k`, `3k + 1` and `3k + 2` (R37, R38). -/
theorem colorsOf_getElem? {n k : Nat} {l : List Byte} (hl : l.length = 3 * n) (hk : k < n) :
    (colorsOf l)[k]? = some ⟨(l[3 * k]?.getD 0).toNat, (l[3 * k + 1]?.getD 0).toNat,
      (l[3 * k + 2]?.getD 0).toNat⟩ := by
  induction n generalizing k l with
  | zero => omega
  | succ n ih =>
    match l, hl with
    | r :: g :: b :: rest, hl =>
      cases k with
      | zero => rfl
      | succ k =>
        have hrest : rest.length = 3 * n := by simp only [List.length_cons] at hl; omega
        rw [colorsOf, List.getElem?_cons_succ, ih hrest (by omega)]
        rfl

/-- EXT, all of it written, reads as its 16 colours (R38). -/
theorem readExt_of_written {s : State} (h : written s.ext 48) :
    ∃ colors, readExt s = some colors ∧
      ∀ k < 16, colors[k]? = some (colorOfTriple s.ext k) := by
  obtain ⟨bytes, hbytes⟩ := bufReadRun_of_written h
  obtain ⟨hlen, hget⟩ := bufReadRun_eq_some.1 hbytes
  simp only [Nat.zero_add] at hget
  refine ⟨colorsOf bytes, by rw [readExt, hbytes]; rfl, fun k hk => ?_⟩
  rw [colorsOf_getElem? (n := 16) hlen hk, colorOfTriple, hget _ (by omega), hget _ (by omega),
    hget _ (by omega)]

/-! ### PSNAPU and PSNAPN -/

/-- PSNAPU with its colours and the answer of its sequence of snaps (R180). -/
theorem exec_psnapu_eq {s : State} {colors : List Rgb} {picks : List Nat} (hf : s.fault = false)
    (hc : readExt s = some colors) (hpicks : snapAll s.cfg colors [] = some picks) :
    exec .psnapu s = .next { s with
      pal := bufWriteRun s.pal 0 (palCells picks)
      used := bufWriteRun s.used 0 (usedCells picks)
      palv := true } := by
  rw [exec, execPsnapu, gated_of_clear hf, hc, needsRead_some, hpicks]

/-- PSNAPU, EXT given, writes the sequence of its snaps to PAL and USED and nothing else (R180). -/
theorem exec_psnapu_next {s : State} {colors : List Rgb} (hf : s.fault = false)
    (hc : readExt s = some colors) :
    ∃ t picks, exec .psnapu s = .next t ∧ snapAll s.cfg colors [] = some picks ∧
      WritesPalette s t picks ∧ t = { s with pal := t.pal, used := t.used, palv := true } := by
  have hlen := readExt_length hc
  obtain ⟨picks, hpicks⟩ := exists_snapAll (p := s.cfg) colors [] (by simp [hlen])
  obtain ⟨new, rfl, hnew, hlt, hnodup⟩ := snapAll_some hpicks
  exact ⟨_, _, exec_psnapu_eq hf hc hpicks, hpicks,
    ⟨rfl, rfl, rfl, hnew.trans hlen, hnodup List.nodup_nil, hlt⟩, rfl⟩

/-- Settles O34: the picks are a sequence of snaps, and PAL and USED are written from them. -/
theorem psnapuCompletes : Obligations.PsnapuCompletes := by
  intro s hf hw
  obtain ⟨colors, hc, hget⟩ := readExt_of_written hw
  obtain ⟨t, picks, hexec, hsnap, hwrites, hframe⟩ := exec_psnapu_next hf hc
  refine ⟨t, hexec, hframe, fun k hk => ?_, hwrites.usedExactly, fun k hk => ?_, fun i hi => ?_⟩
  · rw [← List.append_nil picks] at hwrites
    exact hwrites.entry_of_snapAll hsnap (hget k hk)
  · rw [hwrites.bufGet_pal, if_neg (not_lt.2 hk)]
  · rw [hwrites.bufGet_used, if_neg (not_lt.2 hi)]

/-- PSNAPN, EXT given, writes a snap of each colour to PAL (R183). -/
theorem exec_psnapn_eq {s : State} {colors : List Rgb} {nearest : Rgb → Nat} (hf : s.fault = false)
    (hc : readExt s = some colors)
    (hnearest : ∀ c ∈ colors, snap s.cfg c noneUsed = some (nearest c)) :
    exec .psnapn s = .next { s with
      pal := bufWriteRun s.pal 0 (palCells (colors.map nearest)), palv := true } := by
  rw [exec, execPsnapn, gated_of_clear hf, hc, needsRead_some, mapM_eq_some_map hnearest]

/-- Settles O35: each of the 16 snaps answers, and entry `k` of PAL is the snap of colour `k`. -/
theorem psnapnCompletes : Obligations.PsnapnCompletes := by
  intro s hf hw
  obtain ⟨colors, hc, hget⟩ := readExt_of_written hw
  choose nearest hnearest using exists_snap_noneUsed s.cfg
  have hpal (k : Nat) : bufGet (bufWriteRun s.pal 0 (palCells (colors.map nearest))) k =
      if k < 16 then (colors.map nearest)[k]?.map (BitVec.ofNat 12) else bufGet s.pal k := by
    rw [bufGet_writePal, List.length_map, readExt_length hc]
  refine ⟨_, exec_psnapn_eq hf hc fun c _ => hnearest c, rfl, fun k hk => ?_,
    fun k hk => (hpal k).trans (if_neg (not_lt.2 hk))⟩
  have hsnap := hnearest (colorOfTriple s.ext k)
  refine ⟨BitVec.ofNat 12 (nearest (colorOfTriple s.ext k)), ?_, ?_⟩
  · rw [hpal, if_pos hk, List.getElem?_map, hget k hk]
    rfl
  · rw [BitVec.toNat_ofNat, Nat.mod_eq_of_lt (snap_some hsnap).1]
    exact leastNearest_of_snap hsnap

end Sys2Proof.Machine

/-! The pass of DISP (spec/43_disperser.md R196 to R201) as a fold over pixels and cells: what every pixel
keeps, what a pixel and a cell leave in IDX, and what DISP has read where it ends. -/

namespace Sys2Proof.Machine

/-! ### Folds that can stop -/

section Folds

variable {α β : Type} {P : α → Prop} {f : α → β → Except α α} {l : List β} {a : α}

/-- What every step of a fold keeps holds where it ends, completed or stopped. -/
theorem onEither_foldlM (h : ∀ b ∈ l, ∀ a, P a → onEither P (f a b)) (ha : P a) :
    onEither P (l.foldlM f a) := by
  induction l generalizing a with
  | nil => exact ha
  | cons b l ih =>
    have hstep := h b List.mem_cons_self a ha
    rw [List.foldlM_cons]
    cases hf : f a b with
    | error a' => exact hstep.of_error hf
    | ok a' => exact ih (fun b hb => h b (List.mem_cons_of_mem _ hb)) (hstep.of_ok hf)

/-- A fold none of whose steps stops completes. -/
theorem exists_foldlM_ok (h : ∀ b ∈ l, ∀ a, P a → ∃ a', f a b = .ok a' ∧ P a') (ha : P a) :
    ∃ a', l.foldlM f a = .ok a' ∧ P a' := by
  induction l generalizing a with
  | nil => exact ⟨a, rfl, ha⟩
  | cons b l ih =>
    obtain ⟨a', hf, ha'⟩ := h b List.mem_cons_self a ha
    rw [List.foldlM_cons, hf]
    exact ih (fun b hb => h b (List.mem_cons_of_mem _ hb)) ha'

/-- A fold that completes over `b :: l` does the step of `b` and completes over `l`. -/
theorem foldlM_cons_ok {b : β} {a' : α} (h : (b :: l).foldlM f a = .ok a') :
    ∃ m, f a b = .ok m ∧ l.foldlM f m = .ok a' := by
  rw [List.foldlM_cons] at h
  cases hf : f a b with
  | error m => rw [hf] at h; cases h
  | ok m => rw [hf] at h; exact ⟨m, rfl, h⟩

/-- A fold that completes reaches every element of its list. -/
theorem foldlM_ok_reaches {pre post : List β} {b : β} {a' : α}
    (h : (pre ++ b :: post).foldlM f a = .ok a') :
    ∃ m m', pre.foldlM f a = .ok m ∧ f m b = .ok m' ∧ post.foldlM f m' = .ok a' := by
  induction pre generalizing a with
  | nil =>
    obtain ⟨m', hb, hpost⟩ := foldlM_cons_ok h
    exact ⟨a, m', rfl, hb, hpost⟩
  | cons c pre ih =>
    obtain ⟨m₀, hc, hrest⟩ := foldlM_cons_ok h
    obtain ⟨m, m', hpre, hb, hpost⟩ := ih hrest
    exact ⟨m, m', by rw [List.foldlM_cons, hc]; exact hpre, hb, hpost⟩

end Folds

/-- One addition of R200: the element it names is stored, or the pass stops (R201 (b)). -/
def addError (err : Buf 64) (u : Nat × F64 × F64) : Except (Buf 64) (Buf 64) :=
  if f64Finite (f64Add (errGet err u.1) (f64Mul u.2.1 u.2.2)) then
    .ok (bufSet err u.1 (f64Add (errGet err u.1) (f64Mul u.2.1 u.2.2)))
  else .error err

theorem addErrors_eq_foldlM (err : Buf 64) (us : List (Nat × F64 × F64)) :
    addErrors err us = us.foldlM addError err := by
  induction us generalizing err with
  | nil => rfl
  | cons u us ih =>
    rw [addErrors, List.foldlM_cons, addError]
    split
    · exact ih _
    · rfl

theorem dispPixels_eq_foldlM (c : DispInput) (ab : Nat × Nat) (y : Nat) (xs : List Nat)
    (wk : DispWork) :
    dispPixels c ab y xs wk = xs.foldlM (fun wk x => dispPixel c ab y x wk) wk := by
  induction xs generalizing wk with
  | nil => rfl
  | cons x xs ih =>
    rw [dispPixels, List.foldlM_cons]
    cases dispPixel c ab y x wk with
    | ok wk' => exact ih wk'
    | error wk' => rfl

theorem dispCells_eq_foldlM (c : DispInput) (cells : List (Nat × Nat)) (wk : DispWork) :
    dispCells c cells wk = cells.foldlM (fun wk cell => dispCell c cell wk) wk := by
  induction cells generalizing wk with
  | nil => rfl
  | cons cell cells ih =>
    rw [dispCells, List.foldlM_cons]
    cases dispCell c cell wk with
    | ok wk' => exact ih wk'
    | error wk' => rfl

/-! ### What every pixel keeps -/

/-- The pair of a cell (R197). -/
def cellPair (c : DispInput) (cell : Nat × Nat) (wk : DispWork) : Nat × Nat :=
  choosePair c.cfg c.colors ((cellXs c.width cell.1).map fun x => effective wk.err c.width x cell.2)

/-- The index a pixel gets (R199). -/
def pixelChoice (c : DispInput) (ab : Nat × Nat) (x y : Nat) (wk : DispWork) : Nat :=
  chooseIndex c.colors ab (effective wk.err c.width x y)

/-- The error a pixel spreads: effective minus chosen (R200). -/
def pixelError (c : DispInput) (ab : Nat × Nat) (x y : Nat) (wk : DispWork) : Color64 :=
  let e := effective wk.err c.width x y
  let P := colorAt c.colors (pixelChoice c ab x y wk)
  ⟨f64Sub e.r P.r, f64Sub e.g P.g, f64Sub e.b P.b⟩

/-- IDX with a pixel's index recorded (R199). -/
def recordIndex (c : DispInput) (ab : Nat × Nat) (x y : Nat) (wk : DispWork) : Buf 4 :=
  bufSet wk.idx (y * c.width + x) (BitVec.ofNat 4 (pixelChoice c ab x y wk))

theorem dispCell_eq_foldlM (c : DispInput) (cell : Nat × Nat) (wk : DispWork) :
    dispCell c cell wk = (cellXs c.width cell.1).foldlM
      (fun wk' x => dispPixel c (cellPair c cell wk) cell.2 x wk') wk :=
  dispPixels_eq_foldlM c _ _ _ _

/-- What a pixel can do: its index is recorded, and its additions complete or stop. -/
theorem dispPixel_cases (c : DispInput) (ab : Nat × Nat) (y x : Nat) (wk : DispWork) :
    (∃ err, addErrors wk.err (pixelUpdates c x y (pixelError c ab x y wk)) = .ok err ∧
      dispPixel c ab y x wk = .ok ⟨err, recordIndex c ab x y wk⟩) ∨
    (∃ err, addErrors wk.err (pixelUpdates c x y (pixelError c ab x y wk)) = .error err ∧
      dispPixel c ab y x wk = .error ⟨err, recordIndex c ab x y wk⟩) := by
  have hadd : ∀ r, addErrors wk.err (pixelUpdates c x y (pixelError c ab x y wk)) = r →
      dispPixel c ab y x wk =
        (r.map (DispWork.mk · (recordIndex c ab x y wk))).mapError
          (DispWork.mk · (recordIndex c ab x y wk)) := fun r hr => by
    simp only [pixelError, pixelChoice] at hr
    simp only [dispPixel, hr]
    cases r <;> rfl
  cases hr : addErrors wk.err (pixelUpdates c x y (pixelError c ab x y wk)) with
  | ok err => exact .inl ⟨err, rfl, hadd _ hr⟩
  | error err => exact .inr ⟨err, rfl, hadd _ hr⟩

/-- Where its additions complete, so does the pixel. -/
theorem dispPixel_of_ok {c : DispInput} {ab : Nat × Nat} {y x : Nat} {wk : DispWork} {err : Buf 64}
    (h : addErrors wk.err (pixelUpdates c x y (pixelError c ab x y wk)) = .ok err) :
    dispPixel c ab y x wk = .ok ⟨err, recordIndex c ab x y wk⟩ := by
  rcases dispPixel_cases c ab y x wk with ⟨err', he, hp⟩ | ⟨err', he, _⟩
  · rw [hp, Except.ok.inj (h.symm.trans he)]
  · cases h.symm.trans he

section Kept

variable {c : DispInput} {P : DispWork → Prop} {Q : Buf 64 → Prop}

/-- A property of ERR that every finite value stored on the canvas keeps is kept by additions. -/
theorem onEither_addErrors {n : Nat} {us : List (Nat × F64 × F64)} {err : Buf 64}
    (hQ : ∀ err, Q err → ∀ j < n, ∀ v, f64Finite v = true → Q (bufSet err j v))
    (hus : ∀ u ∈ us, u.1 < n) (h : Q err) : onEither Q (addErrors err us) := by
  rw [addErrors_eq_foldlM]
  refine onEither_foldlM (fun u hu err herr => ?_) h
  unfold addError
  split
  · next hfin => exact hQ err herr u.1 (hus u hu) _ hfin
  · exact herr

/-- A pixel keeps a property of ERR that every finite value stored on the canvas keeps. -/
theorem onEither_err_dispPixel
    (hQ : ∀ err, Q err → ∀ j < 3 * c.width * c.height, ∀ v, f64Finite v = true → Q (bufSet err j v))
    (ab : Nat × Nat) (y x : Nat) {wk : DispWork} (h : Q wk.err) :
    onEither (fun wk' => Q wk'.err) (dispPixel c ab y x wk) := by
  have hadd := onEither_addErrors (us := pixelUpdates c x y (pixelError c ab x y wk)) hQ
    (fun u hu => pixelUpdates_lt hu) h
  rcases dispPixel_cases c ab y x wk with ⟨err, he, hp⟩ | ⟨err, he, hp⟩
  · rw [hp]; exact hadd.of_ok he
  · rw [hp]; exact hadd.of_error he

/-- A pixel leaves every other element of IDX as it was, completed or stopped. -/
theorem onEither_idx_dispPixel (c : DispInput) (ab : Nat × Nat) (y x : Nat) (wk : DispWork) {j : Nat}
    (hj : j ≠ y * c.width + x) :
    onEither (fun wk' => bufGet wk'.idx j = bufGet wk.idx j) (dispPixel c ab y x wk) := by
  have hset : bufGet (recordIndex c ab x y wk) j = bufGet wk.idx j := by
    rw [recordIndex, bufGet_bufSet, if_neg hj]
  rcases dispPixel_cases c ab y x wk with ⟨err, _, hp⟩ | ⟨err, _, hp⟩ <;> rw [hp] <;> exact hset

/-- What every pixel of a cell keeps, the cell keeps. -/
theorem onEither_dispCell {cell : Nat × Nat} {wk : DispWork}
    (hP : ∀ x ∈ cellXs c.width cell.1, ∀ ab wk, P wk → onEither P (dispPixel c ab cell.2 x wk))
    (h : P wk) : onEither P (dispCell c cell wk) := by
  rw [dispCell_eq_foldlM]
  exact onEither_foldlM (fun x hx wk' hwk' => hP x hx _ wk' hwk') h

/-- What every pixel keeps, the cells keep. -/
theorem onEither_dispCells {cells : List (Nat × Nat)} {wk : DispWork}
    (hP : ∀ cell ∈ cells, ∀ x ∈ cellXs c.width cell.1, ∀ ab wk, P wk →
      onEither P (dispPixel c ab cell.2 x wk))
    (h : P wk) : onEither P (dispCells c cells wk) := by
  rw [dispCells_eq_foldlM]
  exact onEither_foldlM (fun cell hcell wk' hwk' => onEither_dispCell (hP cell hcell) hwk') h

end Kept

/-! ### What a completed cell leaves in IDX -/

/-- Two pixels of the canvas at one index are one pixel. -/
theorem pixel_index_inj {W x x' y y' : Nat} (hx : x < W) (hx' : x' < W)
    (h : y * W + x = y' * W + x') : y = y' ∧ x = x' := by
  have hdiv : ∀ a b, b < W → (a * W + b) / W = a := fun a b hb => by
    rw [Nat.add_comm, Nat.add_mul_div_right b a (by omega), Nat.div_eq_of_lt hb, Nat.zero_add]
  have hy : y = y' := by rw [← hdiv y x hx, h, hdiv y' x' hx']
  subst hy
  exact ⟨rfl, by omega⟩

/-- Different cells share no pixel. -/
theorem cell_index_ne {W x x' : Nat} {cell cell' : Nat × Nat} (hne : cell ≠ cell')
    (hx : x ∈ cellXs W cell.1) (hx' : x' ∈ cellXs W cell'.1) :
    cell.2 * W + x ≠ cell'.2 * W + x' := fun he => by
  rw [mem_cellXs] at hx hx'
  obtain ⟨hy, rfl⟩ := pixel_index_inj hx.2.2 hx'.2.2 he
  exact hne (Prod.ext (by omega) hy)

/-- Every pixel of a completed cell holds the index it was given from a work that keeps what the cell's
pixels keep. -/
theorem dispCell_ok_idx {c : DispInput} {P : DispWork → Prop} {cell : Nat × Nat} {wk wk' : DispWork}
    (hP : ∀ x ∈ cellXs c.width cell.1, ∀ m, P m →
      onEither P (dispPixel c (cellPair c cell wk) cell.2 x m))
    (h : P wk) (hok : dispCell c cell wk = .ok wk') {x : Nat} (hx : x ∈ cellXs c.width cell.1) :
    ∃ m, P m ∧ bufGet wk'.idx (cell.2 * c.width + x) =
      some (BitVec.ofNat 4 (pixelChoice c (cellPair c cell wk) x cell.2 m)) := by
  rw [dispCell_eq_foldlM] at hok
  obtain ⟨pre, post, hsplit⟩ := List.append_of_mem hx
  have hnodup : (pre ++ x :: post).Nodup := hsplit ▸ List.nodup_range'
  have hmem : ∀ x' ∈ pre ++ x :: post, x' ∈ cellXs c.width cell.1 := fun x' hx' => hsplit ▸ hx'
  rw [hsplit] at hok
  obtain ⟨m, m', hpre, hpix, hpost⟩ := foldlM_ok_reaches hok
  have hm : P m := (onEither_foldlM (fun x' hx' wk'' hwk'' =>
    hP x' (hmem x' (List.mem_append_left _ hx')) wk'' hwk'') h).of_ok hpre
  have hset : bufGet m'.idx (cell.2 * c.width + x) =
      some (BitVec.ofNat 4 (pixelChoice c (cellPair c cell wk) x cell.2 m)) := by
    rcases dispPixel_cases c (cellPair c cell wk) cell.2 x m with ⟨err, _, hp⟩ | ⟨err, _, hp⟩
    · rw [hp] at hpix
      cases hpix
      rw [recordIndex, bufGet_bufSet, if_pos rfl]
    · rw [hp] at hpix; cases hpix
  have hkeep : bufGet wk'.idx (cell.2 * c.width + x) = bufGet m'.idx (cell.2 * c.width + x) := by
    refine (onEither_foldlM (P := fun wk => bufGet wk.idx (cell.2 * c.width + x) =
      bufGet m'.idx (cell.2 * c.width + x)) (fun x' hx' wk'' hwk'' => ?_) rfl).of_ok hpost
    have hne : x ≠ x' := by
      rintro rfl
      exact (List.nodup_cons.1 (List.nodup_append.1 hnodup).2.1).1 hx'
    have hkept := onEither_idx_dispPixel c (cellPair c cell wk) cell.2 x' wk''
      (j := cell.2 * c.width + x) (by omega)
    rwa [hwk''] at hkept
  exact ⟨m, hm, hkeep.trans hset⟩

theorem cellList_nodup (W H : Nat) : (cellList W H).Nodup := by
  refine List.nodup_flatMap.2 ⟨fun y _ => List.nodup_range.map fun a b hab => (Prod.mk.inj hab).1,
    List.nodup_range.imp fun {y y'} hne => ?_⟩
  simp only [Function.onFun, List.disjoint_left, List.mem_map]
  rintro _ ⟨cx, _, rfl⟩ ⟨cx', _, he⟩
  exact hne (Prod.mk.inj he).2.symm

/-- A completed pass reaches every cell of its list, and what the cell leaves in IDX at its pixels is
there at the end. -/
theorem dispCells_ok_reaches {c : DispInput} {pre post : List (Nat × Nat)} {cell : Nat × Nat}
    {wk wk' : DispWork} (hcell : cell ∉ post)
    (hok : dispCells c (pre ++ cell :: post) wk = .ok wk') :
    ∃ m m', dispCells c pre wk = .ok m ∧ dispCell c cell m = .ok m' ∧
      ∀ x ∈ cellXs c.width cell.1,
        bufGet wk'.idx (cell.2 * c.width + x) = bufGet m'.idx (cell.2 * c.width + x) := by
  rw [dispCells_eq_foldlM] at hok
  obtain ⟨m, m', hpre, hc, hpost⟩ := foldlM_ok_reaches hok
  rw [← dispCells_eq_foldlM] at hpre hpost
  refine ⟨m, m', hpre, hc, fun x hx => ?_⟩
  refine (onEither_dispCells (P := fun wk => bufGet wk.idx (cell.2 * c.width + x) =
    bufGet m'.idx (cell.2 * c.width + x)) (fun cell' hcell' x' hx' ab wk'' hwk'' => ?_) rfl).of_ok
    hpost
  have hne : cell ≠ cell' := fun he => hcell (he ▸ hcell')
  have hkept := onEither_idx_dispPixel c ab cell'.2 x' wk'' (cell_index_ne hne hx hx')
  rwa [hwk''] at hkept

/-- A completed pass over the canvas reaches each of its cells from a work that keeps what all pixels
keep. -/
theorem dispCells_ok_cell {c : DispInput} {P : DispWork → Prop} {cell : Nat × Nat}
    {wk wk' : DispWork} (hcell : cell ∈ cellList c.width c.height)
    (hP : ∀ cell ∈ cellList c.width c.height, ∀ x ∈ cellXs c.width cell.1, ∀ ab wk, P wk →
      onEither P (dispPixel c ab cell.2 x wk))
    (h : P wk) (hok : dispCells c (cellList c.width c.height) wk = .ok wk') :
    ∃ m m', P m ∧ dispCell c cell m = .ok m' ∧
      ∀ x ∈ cellXs c.width cell.1,
        bufGet wk'.idx (cell.2 * c.width + x) = bufGet m'.idx (cell.2 * c.width + x) := by
  obtain ⟨pre, post, hsplit⟩ := List.append_of_mem hcell
  have hnodup := hsplit ▸ cellList_nodup c.width c.height
  have hnotin : cell ∉ post := (List.nodup_cons.1 (List.nodup_append.1 hnodup).2.1).1
  rw [hsplit] at hok
  obtain ⟨m, m', hpre, hc, hidx⟩ := dispCells_ok_reaches hnotin hok
  refine ⟨m, m', (onEither_dispCells (fun cell' hcell' => hP cell' ?_) h).of_ok hpre, hc, hidx⟩
  rw [hsplit]
  exact List.mem_append_left _ hcell'

end Sys2Proof.Machine

/-! What DISP has read where it ends (spec/43_disperser.md R190, R191, R195, R205), and from that what ERR
holds then (R201) and what a cell of IDX holds (R207). -/

namespace Sys2Proof.Machine

/-! ### The checks and the inputs -/

/-- DISP's checks held and these are its inputs (R205). -/
structure DispReads (s : State) (weights : List F64) (offsets : List (Int × Int))
    (pal : List (BitVec 12)) (image : List Rgb) : Prop where
  geom : geomOk s = true
  palv : s.palv = true
  klen : s.klen.toNat ≤ s.cfg.kmax
  weightsRead : readWeights s.krn 0 s.klen.toNat = some weights
  weightsFinite : weights.all f64Finite = true
  offsetsRead : readOffsets s.krn 0 s.klen.toNat = some offsets
  palRead : readPal s = some pal
  imageRead : readImage s = some image

/-- A check of DISP that could only raise another cause than the one the run ended with held. -/
theorem needs_held {ok : Bool} {c : Cause} {w : Word} {s t : State} {k : Out}
    (hend : t.fault = false ∨ t.fcause = causeCode .numeric) (hc : c ≠ .numeric)
    (h : needs ok c w s k = .next t) : ok = true ∧ k = .next t := by
  rcases needs_next h with ⟨_, rfl⟩ | hok
  · rcases hend with hf | hcause
    · cases hf
    · exact absurd (causeCode_injective hcause) hc
  · exact hok

/-- Where DISP completes or ends with NUMERIC, its checks held and its inputs were written. -/
theorem exec_disp_next {s t : State} (hf : s.fault = false) (h : exec .disp s = .next t)
    (hend : t.fault = false ∨ t.fcause = causeCode .numeric) :
    ∃ weights offsets pal image, DispReads s weights offsets pal image ∧
      dispRun s (dispInputOf s pal offsets weights) image = .next t := by
  rw [exec, execDisp, gated_of_clear hf] at h
  obtain ⟨hgeom, h⟩ := needs_held hend (by decide) h
  obtain ⟨hpalv, h⟩ := needs_held hend (by decide) h
  obtain ⟨hklen, h⟩ := needs_held hend (by decide) h
  obtain ⟨weights, hweights, h⟩ := needsRead_next h
  obtain ⟨hfinite, h⟩ := needs_held hend (by decide) h
  obtain ⟨offsets, hoffsets, h⟩ := needsRead_next h
  obtain ⟨pal, hpal, h⟩ := needsRead_next h
  obtain ⟨image, himage, h⟩ := needsRead_next h
  exact ⟨weights, offsets, pal, image,
    ⟨hgeom, hpalv, of_decide_eq_true hklen, hweights, hfinite, hoffsets, hpal, himage⟩, h⟩

/-- ERR and IDX as the pass starts (R195). -/
def dispStart (s : State) (image : List Rgb) : DispWork :=
  ⟨bufWriteRun s.err 0 (seedValues image), s.idx⟩

/-- Where DISP completes, so does its pass. -/
theorem exec_disp_completes {s t : State} (hf : s.fault = false) (h : exec .disp s = .next t)
    (ht : t.fault = false) :
    ∃ weights offsets pal image wk, DispReads s weights offsets pal image ∧
      dispCells (dispInputOf s pal offsets weights) (cellList (canvasW s) (canvasH s))
        (dispStart s image) = .ok wk ∧
      t = { s with err := wk.err, idx := wk.idx, idxv := true } := by
  obtain ⟨weights, offsets, pal, image, hreads, hrun⟩ := exec_disp_next hf h (.inl ht)
  rcases dispRun_cases s (dispInputOf s pal offsets weights) image with
    ⟨wk, hpass, he⟩ | ⟨wk, _, he⟩
  · exact ⟨weights, offsets, pal, image, wk, hreads, hpass,
      (Host.Outcome.next.inj (he.symm.trans hrun)).symm⟩
  · rw [← Host.Outcome.next.inj (he.symm.trans hrun)] at ht
    cases ht

/-! ### The seeded ERR -/

theorem seedValues_colorsOf {n : Nat} {l : List Byte} (hl : l.length = 3 * n) :
    seedValues (colorsOf l) = l.map fun v => f64OfNat v.toNat := by
  induction n generalizing l with
  | zero =>
    rw [List.length_eq_zero_iff.1 hl]
    rfl
  | succ n ih =>
    match l, hl with
    | r :: g :: b :: rest, hl =>
      have hrest : rest.length = 3 * n := by
        simp only [List.length_cons] at hl
        omega
      have := ih hrest
      simp only [seedValues] at this ⊢
      simp [colorsOf, this]

/-- Every live element of ERR starts as its byte of the image; the others are kept (R195). -/
theorem bufGet_dispStart {s : State} {image : List Rgb} (h : readImage s = some image) (j : Nat) :
    bufGet (dispStart s image).err j = if j < 3 * canvasW s * canvasH s
      then some (f64OfNat ((bufGet s.img j).getD 0).toNat) else bufGet s.err j := by
  obtain ⟨l, hl, rfl⟩ := Option.map_eq_some_iff.1 h
  obtain ⟨hlen, hget⟩ := bufReadRun_eq_some.1 hl
  rw [dispStart, seedValues_colorsOf (hlen.trans (Nat.mul_assoc ..)), bufGet_bufWriteRun,
    List.length_map, hlen, Nat.zero_add]
  by_cases hj : j < 3 * canvasW s * canvasH s
  · have hbyte := hget j hj
    rw [Nat.zero_add] at hbyte
    rw [if_pos ⟨Nat.zero_le j, hj⟩, if_pos hj, Nat.sub_zero, List.getElem?_map, hbyte,
      List.getElem?_eq_getElem (hlen ▸ hj)]
    rfl
  · rw [if_neg (fun hc => hj hc.2), if_neg hj]

theorem holdsInt_byte (v : Byte) : HoldsInt (f64OfNat v.toNat) v.toNat :=
  holdsInt_f64OfNat (v.isLt.trans (by decide))

/-! ### ERR stays finite -/

/-- The first `n` elements of ERR hold finite numbers. -/
def ErrFinite (n : Nat) (err : Buf 64) : Prop :=
  ∀ j < n, ∃ v, bufGet err j = some v ∧ f64Finite v = true

theorem ErrFinite.bufSet {n : Nat} {err : Buf 64} (h : ErrFinite n err) {v : F64}
    (hv : f64Finite v = true) (i : Nat) : ErrFinite n (bufSet err i v) := fun j hj => by
  rw [bufGet_bufSet]
  split
  · exact ⟨v, rfl, hv⟩
  · exact h j hj

theorem ErrFinite.errGet {n : Nat} {err : Buf 64} (h : ErrFinite n err) {j : Nat} (hj : j < n) :
    f64Finite (errGet err j) = true := by
  obtain ⟨v, hv, hfin⟩ := h j hj
  rw [Machine.errGet, hv]
  exact hfin

theorem errFinite_dispStart {s : State} {image : List Rgb} (h : readImage s = some image) :
    ErrFinite (3 * canvasW s * canvasH s) (dispStart s image).err := fun j hj => by
  rw [bufGet_dispStart h, if_pos hj]
  exact ⟨_, rfl, (holdsInt_byte _).finite⟩

/-- Settles O51: ERR starts with bytes, and only finite values are ever stored in it. -/
theorem errorBufferStaysFinite : Obligations.ErrorBufferStaysFinite := by
  intro s t hf h hend
  obtain ⟨weights, offsets, pal, image, hreads, hrun⟩ := exec_disp_next hf h hend
  have hpass : onEither (fun wk => ErrFinite (3 * canvasW s * canvasH s) wk.err)
      (dispPass (dispInputOf s pal offsets weights) image s.err s.idx) :=
    onEither_dispCells
      (fun _ _ x _ ab wk hwk => onEither_err_dispPixel
        (fun err herr j _ v hv => herr.bufSet hv j) ab _ x hwk)
      (errFinite_dispStart hreads.imageRead)
  rcases dispRun_cases s (dispInputOf s pal offsets weights) image with
    ⟨wk, hk, he⟩ | ⟨wk, hk, he⟩
  · rw [← Host.Outcome.next.inj (he.symm.trans hrun)]
    exact hpass.of_ok hk
  · rw [← Host.Outcome.next.inj (he.symm.trans hrun)]
    exact hpass.of_error hk

/-! ### At most two indices in a cell -/

theorem chooseIndex_eq (colors : List Color64) (ab : Nat × Nat) (e : Color64) :
    chooseIndex colors ab e = ab.1 ∨ chooseIndex colors ab e = ab.2 := by
  unfold chooseIndex
  split
  · exact .inl rfl
  · exact .inr rfl

/-- The cell's pixels in IDX hold the one or the other of two indices (R207). -/
def TwoIndices (W : Nat) (idx : Buf 4) (cell : Nat × Nat) : Prop :=
  ∃ a b : BitVec 4, ∀ x ∈ cellXs W cell.1,
    bufGet idx (cell.2 * W + x) = some a ∨ bufGet idx (cell.2 * W + x) = some b

theorem twoIndices_of_dispCells {c : DispInput} {wk wk' : DispWork}
    (h : dispCells c (cellList c.width c.height) wk = .ok wk') {cell : Nat × Nat}
    (hcell : cell ∈ cellList c.width c.height) : TwoIndices c.width wk'.idx cell := by
  have hkeep : ∀ (cell : Nat × Nat), ∀ x ∈ cellXs c.width cell.1, ∀ ab wk, True →
      onEither (fun _ => True) (dispPixel c ab cell.2 x wk) := fun cell x _ ab wk _ => by
    cases dispPixel c ab cell.2 x wk <;> exact trivial
  obtain ⟨m, m', _, hok, hidx⟩ := dispCells_ok_cell hcell (fun cell _ => hkeep cell) trivial h
  refine ⟨BitVec.ofNat 4 (cellPair c cell m).1, BitVec.ofNat 4 (cellPair c cell m).2,
    fun x hx => ?_⟩
  obtain ⟨m₀, _, hset⟩ := dispCell_ok_idx (fun x hx => hkeep cell x hx _) trivial hok hx
  rw [hidx x hx, hset, pixelChoice]
  rcases chooseIndex_eq c.colors (cellPair c cell m) (effective m₀.err c.width x cell.2) with he | he
  · exact .inl (by rw [he])
  · exact .inr (by rw [he])

/-- A cell with two indices is no violation (R215). -/
theorem TwoIndices.card_le {W : Nat} {idx : Buf 4} {cell : Nat × Nat} (h : TwoIndices W idx cell) :
    ((cellXs W cell.1).map fun x => bufGet idx (cell.2 * W + x)).toFinset.card ≤ 2 := by
  obtain ⟨a, b, hab⟩ := h
  refine (Finset.card_le_card (t := {some a, some b}) fun v hv => ?_).trans Finset.card_le_two
  obtain ⟨x, hx, rfl⟩ := List.mem_map.1 (List.mem_toFinset.1 hv)
  rw [Finset.mem_insert, Finset.mem_singleton]
  exact hab x hx

/-- The column and the row of the pixel at a live index of IDX, with its cell. -/
theorem cell_of_index {W H j : Nat} (hj : j < W * H) :
    (j % W / 8, j / W) ∈ cellList W H ∧ j % W ∈ cellXs W (j % W / 8) ∧ j / W * W + j % W = j := by
  have hW : 0 < W := Nat.pos_of_ne_zero fun hW => by rw [hW, Nat.zero_mul] at hj; omega
  obtain ⟨hcol, hx⟩ := cell_of_column (Nat.mod_lt j hW)
  exact ⟨mem_cellList.2 ⟨hcol, Nat.div_lt_of_lt_mul hj⟩, hx, Nat.div_add_mod' j W⟩

/-- Where every cell has its two indices, the live part of IDX is written. -/
theorem written_of_twoIndices {W H : Nat} {idx : Buf 4}
    (h : ∀ cell ∈ cellList W H, TwoIndices W idx cell) : written idx (W * H) := fun j hj => by
  obtain ⟨hcell, hx, he⟩ := cell_of_index hj
  obtain ⟨a, b, hab⟩ := h _ hcell
  have := hab _ hx
  rw [he] at this
  rcases this with hv | hv <;> rw [hv] <;> rfl

/-- Where every cell has at most two indices, VERIFY counts nothing (R216). -/
theorem exec_verify_of_twoIndices {t : State} (hf : t.fault = false) (hg : geomOk t = true)
    (hv : t.idxv = true)
    (h : ∀ cell ∈ cellList (canvasW t) (canvasH t), TwoIndices (canvasW t) t.idx cell) :
    ∃ u, exec .verify t = .next u ∧ u.vcount = 0 := by
  obtain ⟨l, hl⟩ := bufReadRun_of_written (written_of_twoIndices h)
  have hread : readIndices t = some (l.map BitVec.toNat) := by rw [readIndices, hl]; rfl
  have hnone : violations (canvasW t) (canvasH t) (l.map BitVec.toNat) = [] := by
    rw [violations_eq_map fun c hc => distinctCount_cellIndices hl hc,
      List.filter_eq_nil_iff.2 fun c hc => ?_, List.map_nil]
    have := (h c hc).card_le
    simp only [decide_eq_true_eq]
    omega
  exact ⟨_, exec_verify_eq hf hg hv hread, by simp only [hnone]; rfl⟩

/-- Settles O48: a cell's pixels get the one or the other index of its pair, and no other cell writes
them. -/
theorem clashInvariant : Obligations.ClashInvariant := by
  intro s t hf h ht
  obtain ⟨weights, offsets, pal, image, wk, hreads, hpass, rfl⟩ := exec_disp_completes hf h ht
  have htwo : ∀ cell ∈ cellList (canvasW s) (canvasH s), TwoIndices (canvasW s) wk.idx cell :=
    fun cell hcell => twoIndices_of_dispCells hpass hcell
  exact ⟨fun cx y hx hy => htwo (cx, y) (mem_cellList.2 ⟨hx, hy⟩),
    exec_verify_of_twoIndices (t := { s with err := wk.err, idx := wk.idx, idxv := true })
      hf hreads.geom rfl htwo⟩

end Sys2Proof.Machine

/-! DISP on byte colours (spec/43_disperser.md R193, R197, R199, R202 (b)): pair costs and choices are
those over exact integers, and with an empty kernel every cell is reached with its source colours. -/

namespace Sys2Proof.Machine

/-! ### Costs of byte colours -/

/-- A colour whose channels are bytes (R37, R132). -/
abbrev IsByteColor (c : Rgb) : Prop := c.r < 256 ∧ c.g < 256 ∧ c.b < 256

theorem mul_two_pow_le_iff {x y : Int} (k : Nat) : x * 2 ^ k ≤ y * 2 ^ k ↔ x ≤ y :=
  mul_le_mul_iff_of_pos_right (pow_pos two_pos k)

theorem mul_two_pow_lt_iff {x y : Int} (k : Nat) : x * 2 ^ k < y * 2 ^ k ↔ x < y :=
  mul_lt_mul_iff_of_pos_right (pow_pos two_pos k)

theorem HoldsInt.f64Le_iff {a b : F64} {x y : Int} (ha : HoldsInt a x) (hb : HoldsInt b y) :
    f64Le a b = true ↔ x ≤ y := by
  rw [Machine.f64Le_iff (f64Nan_of_finite ha.finite) (f64Nan_of_finite hb.finite), ha.value,
    hb.value, mul_two_pow_le_iff]

theorem HoldsInt.f64Lt_iff {a b : F64} {x y : Int} (ha : HoldsInt a x) (hb : HoldsInt b y) :
    f64Lt a b = true ↔ x < y := by
  rw [Machine.f64Lt_iff (f64Nan_of_finite ha.finite) (f64Nan_of_finite hb.finite), ha.value,
    hb.value, mul_two_pow_lt_iff]

/-- The lesser of two numbers, as R197 takes it. -/
theorem HoldsInt.lesser {a b : F64} {x y : Int} (ha : HoldsInt a x) (hb : HoldsInt b y) :
    HoldsInt (if f64Le a b then a else b) (min x y) := by
  by_cases hle : x ≤ y
  · rwa [if_pos ((ha.f64Le_iff hb).2 hle), min_eq_left hle]
  · rwa [if_neg (mt (ha.f64Le_iff hb).1 hle), min_eq_right (le_of_not_ge hle)]

theorem dist_le_of_bytes {c d : Rgb} (hc : IsByteColor c) (hd : IsByteColor d) :
    dist c d ≤ 3 * 255 ^ 2 := by
  have hr := (byte_sub_sq_le hc.1 hd.1).2
  have hg := (byte_sub_sq_le hc.2.1 hd.2.1).2
  have hb := (byte_sub_sq_le hc.2.2 hd.2.2).2
  unfold dist
  linarith

/-- The 16 colours that DISP computes with are byte colours (R190). -/
structure BytePalette (colors : List Color64) (P : Nat → Rgb) : Prop where
  byte : ∀ k < 16, IsByteColor (P k)
  colorAt : ∀ k < 16, colorAt colors k = color64Of (P k)

theorem BytePalette.holdsInt_distance {colors : List Color64} {P : Nat → Rgb}
    (h : BytePalette colors P) {c : Rgb} (hc : IsByteColor c) {k : Nat} (hk : k < 16) :
    HoldsInt (distance64 (color64Of c) (Machine.colorAt colors k)) (dist c (P k)) := by
  rw [h.colorAt k hk]
  exact holdsInt_distance64 hc (h.byte k hk)

/-- The cost of a pair over byte colours in exact integers (R202 (b)). -/
def byteCost (P : Nat → Rgb) (cs : List Rgb) (q : Nat × Nat) : Int :=
  (cs.map fun c => min (dist c (P q.1)) (dist c (P q.2))).sum

theorem byteCost_nonneg (P : Nat → Rgb) (cs : List Rgb) (q : Nat × Nat) : 0 ≤ byteCost P cs q :=
  List.sum_nonneg fun v hv => by
    obtain ⟨c, _, rfl⟩ := List.mem_map.1 hv
    exact le_min (dist_nonneg _ _) (dist_nonneg _ _)

theorem byteCost_append_singleton (P : Nat → Rgb) (cs : List Rgb) (c : Rgb) (q : Nat × Nat) :
    byteCost P (cs ++ [c]) q = byteCost P cs q + min (dist c (P q.1)) (dist c (P q.2)) := by
  simp [byteCost]

theorem byteCost_le {P : Nat → Rgb} {cs : List Rgb} (hcs : ∀ c ∈ cs, IsByteColor c) {q : Nat × Nat}
    (hq : IsByteColor (P q.1)) : byteCost P cs q ≤ cs.length * (3 * 255 ^ 2) := by
  induction cs using List.reverseRecOn with
  | nil => simp [byteCost]
  | append_singleton cs c ih =>
    have htail := ih fun d hd => hcs d (List.mem_append_left _ hd)
    have hlast : min (dist c (P q.1)) (dist c (P q.2)) ≤ 3 * 255 ^ 2 :=
      (min_le_left _ _).trans (dist_le_of_bytes (hcs c (by simp)) hq)
    rw [byteCost_append_singleton, List.length_append, List.length_singleton]
    push_cast
    linarith

theorem mem_allPairs {q : Nat × Nat} : q ∈ allPairs ↔ q.1 ≤ q.2 ∧ q.2 < 16 := by
  obtain ⟨a, b⟩ := q
  simp only [allPairs, List.mem_flatMap, List.mem_range, List.mem_map, List.mem_range'_1,
    Prod.mk.injEq]
  constructor
  · rintro ⟨i, hi, j, hj, rfl, rfl⟩
    omega
  · rintro ⟨hab, hb⟩
    exact ⟨a, by omega, b, by omega, rfl, rfl⟩

theorem lt_sixteen_of_mem_allPairs {q : Nat × Nat} (hq : q ∈ allPairs) : q.1 < 16 ∧ q.2 < 16 := by
  rw [mem_allPairs] at hq
  omega

/-- Over the at most 8 byte colours of a cell every cost is exact (R202 (b)). -/
theorem BytePalette.holdsInt_pairCost {colors : List Color64} {P : Nat → Rgb}
    (h : BytePalette colors P) {cs : List Rgb} (hcs : ∀ c ∈ cs, IsByteColor c) (hlen : cs.length ≤ 8)
    {q : Nat × Nat} (hq : q ∈ allPairs) :
    HoldsInt (pairCost colors (cs.map color64Of) q) (byteCost P cs q) := by
  obtain ⟨hq1, hq2⟩ := lt_sixteen_of_mem_allPairs hq
  induction cs using List.reverseRecOn with
  | nil => exact holdsInt_f64OfNat (n := 0) (by omega)
  | append_singleton cs c ih =>
    have hc : IsByteColor c := hcs c (by simp)
    have hmem : ∀ d ∈ cs, IsByteColor d := fun d hd => hcs d (List.mem_append_left _ hd)
    have hstep := (h.holdsInt_distance hc hq1).lesser (h.holdsInt_distance hc hq2)
    have hle := byteCost_le (q := q) hcs (h.byte _ hq1)
    have hnonneg := byteCost_nonneg P (cs ++ [c]) q
    have hlen' : ((cs ++ [c]).length : Int) ≤ 8 := by exact_mod_cast hlen
    rw [byteCost_append_singleton] at hle hnonneg ⊢
    rw [pairCost, List.map_append, List.foldl_append]
    refine (ih hmem (by simp at hlen; omega)).add hstep (abs_lt.2 ⟨?_, ?_⟩) <;> linarith

/-! ### The search over byte colours -/

/-- The search looks at the first 16 colours alone. -/
theorem choosePair_congr (p : Params) {colors colors' : List Color64}
    (h : ∀ k < 16, colorAt colors k = colorAt colors' k) (es : List Color64) :
    choosePair p colors es = choosePair p colors' es := by
  have hcosts : pairCosts colors es = pairCosts colors' es :=
    List.map_congr_left fun q hq => by
      obtain ⟨hq1, hq2⟩ := lt_sixteen_of_mem_allPairs hq
      simp only [pairCost, h q.1 hq1, h q.2 hq2]
  unfold choosePair
  rw [hcosts]

/-- The 16 colours of a byte palette and nothing else. -/
def exactColors (P : Nat → Rgb) : List Color64 := (List.range 16).map fun k => color64Of (P k)

theorem colorAt_exactColors (P : Nat → Rgb) {k : Nat} (hk : k < 16) :
    colorAt (exactColors P) k = color64Of (P k) := by
  simp [colorAt, exactColors, hk]

theorem finite_color64Of {c : Rgb} (hc : IsByteColor c) : (color64Of c).Finite :=
  ⟨(holdsInt_f64OfNat (hc.1.trans (by omega))).finite,
    (holdsInt_f64OfNat (hc.2.1.trans (by omega))).finite,
    (holdsInt_f64OfNat (hc.2.2.trans (by omega))).finite⟩

section ByteChoice

variable (p : Params) {colors : List Color64} {P : Nat → Rgb} {cs : List Rgb}
  (h : BytePalette colors P) (hcs : ∀ c ∈ cs, IsByteColor c)

include h

theorem BytePalette.exact : BytePalette (exactColors P) P :=
  ⟨h.byte, fun _ hk => colorAt_exactColors P hk⟩

theorem BytePalette.choosePair_eq (es : List Color64) :
    choosePair p colors es = choosePair p (exactColors P) es :=
  choosePair_congr p (fun k hk => by rw [h.colorAt k hk, h.exact.colorAt k hk]) es

include hcs

theorem BytePalette.cost_not_nan (q : Nat × Nat) :
    f64Nan (pairCost (exactColors P) (cs.map color64Of) q) = false := by
  refine (nonNeg_pairCost (fun c hc => ?_) (fun e he => ?_) q).notNan
  · obtain ⟨k, hk, rfl⟩ := List.mem_map.1 hc
    exact finite_color64Of (h.byte k (List.mem_range.1 hk))
  · obtain ⟨c, hc, rfl⟩ := List.mem_map.1 he
    exact finite_color64Of (hcs c hc)

variable (hne : cs ≠ []) (hlen : cs.length ≤ 8)

include hne hlen

/-- The chosen pair of a cell of byte colours has the least integer cost (R197, R202 (b)). -/
theorem BytePalette.choosePair_least :
    choosePair p colors (cs.map color64Of) ∈ allPairs ∧ ∀ q ∈ allPairs,
      byteCost P cs (choosePair p colors (cs.map color64Of)) ≤ byteCost P cs q := by
  rw [h.choosePair_eq]
  obtain ⟨hmem, hle⟩ := Machine.choosePair_least p (h.cost_not_nan hcs) (by simpa using hne)
  refine ⟨hmem, fun q hq => ?_⟩
  have := hle q hq
  rwa [(h.exact.holdsInt_pairCost hcs hlen hmem).value,
    (h.exact.holdsInt_pairCost hcs hlen hq).value, mul_two_pow_le_iff] at this

/-- With the default tie-break every pair before the chosen one has a greater integer cost (R197). -/
theorem BytePalette.choosePair_first (ht : p.tieTable = []) {k j : Nat} {q : Nat × Nat}
    (hk : allPairs[k]? = some (choosePair p colors (cs.map color64Of))) (hj : j < k)
    (hq : allPairs[j]? = some q) :
    byteCost P cs (choosePair p colors (cs.map color64Of)) < byteCost P cs q := by
  rw [h.choosePair_eq] at hk ⊢
  have := Machine.choosePair_first p (h.cost_not_nan hcs) (by simpa using hne) ht hk hj hq
  rwa [(h.exact.holdsInt_pairCost hcs hlen (List.mem_of_getElem? hk)).value,
    (h.exact.holdsInt_pairCost hcs hlen (List.mem_of_getElem? hq)).value,
    mul_two_pow_lt_iff] at this

end ByteChoice

/-- A pixel of a byte colour gets the nearer index of its pair, the first on a tie (R199). -/
theorem BytePalette.chooseIndex_eq {colors : List Color64} {P : Nat → Rgb}
    (h : BytePalette colors P) {c : Rgb} (hc : IsByteColor c) {q : Nat × Nat} (hq1 : q.1 < 16)
    (hq2 : q.2 < 16) :
    chooseIndex colors q (color64Of c) =
      if dist c (P q.1) ≤ dist c (P q.2) then q.1 else q.2 := by
  have hle := (h.holdsInt_distance hc hq1).f64Le_iff (h.holdsInt_distance hc hq2)
  rw [chooseIndex]
  by_cases hd : dist c (P q.1) ≤ dist c (P q.2)
  · rw [if_pos hd, if_pos (hle.2 hd)]
  · rw [if_neg hd, if_neg (mt hle.1 hd)]

/-! ### What DISP computes with -/

theorem readPal_getElem? {s : State} {pal : List (BitVec 12)} (h : readPal s = some pal) :
    pal.length = 16 ∧ ∀ k < 16, bufGet s.pal k = pal[k]? := by
  obtain ⟨hlen, hget⟩ := bufReadRun_eq_some.1 h
  exact ⟨hlen, fun k hk => by rw [← hget k hk, Nat.zero_add]⟩

/-- The palette DISP computes with is that of PAL, entry by entry (R190). -/
theorem paletteColors_eq {s : State} {pal : List (BitVec 12)} (h : readPal s = some pal) :
    paletteColors s.cfg pal = exactColors (paletteRgb s) := by
  obtain ⟨hlen, hget⟩ := readPal_getElem? h
  refine List.ext_getElem? fun k => ?_
  rw [paletteColors, exactColors, List.getElem?_map, List.getElem?_map]
  by_cases hk : k < 16
  · rw [List.getElem?_range hk, Option.map_some, paletteRgb, hget k hk,
      List.getElem?_eq_getElem (hlen ▸ hk)]
    rfl
  · rw [List.getElem?_eq_none (by omega), List.getElem?_eq_none (by simp; omega)]
    rfl

theorem bytePalette_of_readPal {s : State} (hp : s.cfg.Lawful) {weights : List F64}
    {offsets : List (Int × Int)} {pal : List (BitVec 12)} (h : readPal s = some pal) :
    BytePalette (dispInputOf s pal offsets weights).colors (paletteRgb s) :=
  ⟨fun _ _ => lat_lt hp _, fun k hk =>
    (congrArg (colorAt · k) (paletteColors_eq h)).trans (colorAt_exactColors _ hk)⟩

theorem isByteColor_pixelAt (s : State) (x y : Nat) : IsByteColor (pixelAt s x y) :=
  ⟨BitVec.isLt _, BitVec.isLt _, BitVec.isLt _⟩

/-- A byte lies in the range that R194 clamps to. -/
theorem f64Clamp_byte {n : Nat} (hn : n < 256) : f64Clamp (f64OfNat n) = f64OfNat n := by
  have hv : HoldsInt (f64OfNat n) n := holdsInt_f64OfNat (by omega)
  have hzero : HoldsInt (f64OfNat 0) 0 := holdsInt_f64OfNat (n := 0) (by omega)
  have hmax : HoldsInt (f64OfNat 255) 255 := holdsInt_f64OfNat (n := 255) (by omega)
  rw [f64Clamp, if_neg (mt (hv.f64Lt_iff hzero).1 (by omega)),
    if_neg (mt (hmax.f64Lt_iff hv).1 (by omega))]

/-- ERR starts as the source colours (R195). -/
theorem errGet_dispStart {s : State} {image : List Rgb} (h : readImage s = some image) {x y ch : Nat}
    (hx : x < canvasW s) (hy : y < canvasH s) (hch : ch < 3) :
    errGet (dispStart s image).err (errIndex (canvasW s) x y + ch) =
      f64OfNat ((bufGet s.img (errIndex (canvasW s) x y + ch)).getD 0).toNat := by
  rw [errGet, bufGet_dispStart h, if_pos (errIndex_lt hx hy hch)]
  rfl

/-- At the start every effective colour is the source colour (R195, R197). -/
theorem effective_dispStart {s : State} {image : List Rgb} (h : readImage s = some image) {x y : Nat}
    (hx : x < canvasW s) (hy : y < canvasH s) :
    effective (dispStart s image).err (canvasW s) x y = color64Of (pixelAt s x y) := by
  have hch : ∀ ch < 3, f64Clamp (errGet (dispStart s image).err (errIndex (canvasW s) x y + ch)) =
      f64OfNat ((bufGet s.img (errIndex (canvasW s) x y + ch)).getD 0).toNat := fun ch hch => by
    rw [errGet_dispStart h hx hy hch, f64Clamp_byte (BitVec.isLt _)]
  exact congr (congr (congrArg Color64.mk (hch 0 (by omega))) (hch 1 (by omega))) (hch 2 (by omega))

/-- With an empty kernel no pixel changes ERR (R193). -/
theorem onEither_err_dispPixel_of_kernel_nil {c : DispInput} (hk : c.kernel = []) {err : Buf 64}
    (ab : Nat × Nat) (y x : Nat) {wk : DispWork} (h : wk.err = err) :
    onEither (fun wk' => wk'.err = err) (dispPixel c ab y x wk) := by
  unfold dispPixel
  simp only [pixelUpdates_no_kernel hk, addErrors]
  exact h

theorem cellXs_ne_nil {W cx : Nat} (h : cx < cellCols W) : cellXs W cx ≠ [] := by
  refine List.ne_nil_of_mem (a := 8 * cx) (mem_cellXs.2 ?_)
  unfold cellCols ceilDiv at h
  omega

/-- Written inputs and an empty kernel let DISP read what it needs. -/
theorem dispReads_of_written {s : State} (hg : geomOk s = true) (hv : s.palv = true)
    (hk : s.klen = 0) (hpal : written s.pal 16) (himg : written s.img (3 * canvasW s * canvasH s)) :
    ∃ pal image, DispReads s [] [] pal image := by
  obtain ⟨pal, hpal⟩ := bufReadRun_of_written hpal
  obtain ⟨bytes, hbytes⟩ := bufReadRun_of_written himg
  refine ⟨pal, colorsOf bytes, hg, hv, ?_, ?_, rfl, ?_, hpal, by rw [readImage, hbytes]; rfl⟩ <;>
    rw [hk]
  · exact Nat.zero_le _
  · rfl
  · rfl

section Reads

variable {s : State} {weights : List F64} {offsets : List (Int × Int)} {pal : List (BitVec 12)}
  {image : List Rgb} (h : DispReads s weights offsets pal image)

include h

/-- With KLEN 0 the kernel is empty (R191). -/
theorem DispReads.kernel_nil (hk : s.klen = 0) :
    (dispInputOf s pal offsets weights).kernel = [] := by
  have hw := h.weightsRead
  rw [hk] at hw
  cases hw
  exact List.zipWith_nil_right

/-- DISP with its inputs read is its pass (R205). -/
theorem DispReads.exec_eq (hf : s.fault = false) :
    exec .disp s = dispRun s (dispInputOf s pal offsets weights) image :=
  exec_disp_eq hf h.geom h.palv h.klen h.weightsRead h.weightsFinite h.offsetsRead h.palRead
    h.imageRead

/-- DISP completes on a pass that does (R205). -/
theorem DispReads.exec_of_ok (hf : s.fault = false) {wk : DispWork}
    (hok : dispPass (dispInputOf s pal offsets weights) image s.err s.idx = .ok wk) :
    exec .disp s = .next { s with err := wk.err, idx := wk.idx, idxv := true } := by
  rw [h.exec_eq hf, dispRun, hok]

/-- DISP ends with NUMERIC on a pass that stops (R293). -/
theorem DispReads.exec_of_error (hf : s.fault = false) {wk : DispWork}
    (hstop : dispPass (dispInputOf s pal offsets weights) image s.err s.idx = .error wk) :
    exec .disp s = .next (raiseFault .numeric (encode .disp)
      { s with err := wk.err, idx := wk.idx, idxv := false }) := by
  rw [h.exec_eq hf, dispRun, hstop]

end Reads

/-- The pass leaves the elements of IDX beyond the canvas as they were. -/
theorem onEither_idx_beyond {c : DispInput} (wk : DispWork) {j : Nat}
    (hj : c.width * c.height ≤ j) :
    onEither (fun wk' => bufGet wk'.idx j = bufGet wk.idx j)
      (dispCells c (cellList c.width c.height) wk) := by
  refine onEither_dispCells (P := fun wk' => bufGet wk'.idx j = bufGet wk.idx j)
    (fun cell hcell x hx ab wk' hwk' => ?_) rfl
  have hlt := pixelIndex_lt (mem_cellXs.1 hx).2.2 (mem_cellList.1 hcell).2
  have hkept := onEither_idx_dispPixel c ab cell.2 x wk' (j := j) (by omega)
  rwa [hwk'] at hkept

/-- With an empty kernel the work of a pass keeps its ERR. -/
theorem keeps_err_of_kernel_nil {c : DispInput} (hk : c.kernel = []) (err : Buf 64)
    (cell : Nat × Nat) : ∀ x ∈ cellXs c.width cell.1, ∀ ab wk, wk.err = err →
      onEither (fun wk => wk.err = err) (dispPixel c ab cell.2 x wk) :=
  fun x _ ab _ h => onEither_err_dispPixel_of_kernel_nil hk ab cell.2 x h

/-- A cell reached with byte colours, with no error propagated: its pair has the least integer cost, and
each pixel gets the nearer of the two (R193, R197, R199). -/
theorem BytePalette.dispCell_ok {c : DispInput} {P : Nat → Rgb} (h : BytePalette c.colors P)
    (hk : c.kernel = []) {cell : Nat × Nat} {wk wk' : DispWork} {px : Nat → Rgb}
    (hpx : ∀ x, IsByteColor (px x))
    (hsource : ∀ x ∈ cellXs c.width cell.1, effective wk.err c.width x cell.2 = color64Of (px x))
    (hne : cellXs c.width cell.1 ≠ []) (hok : dispCell c cell wk = .ok wk') :
    ∃ q ∈ allPairs,
      (∀ q' ∈ allPairs, byteCost P ((cellXs c.width cell.1).map px) q ≤
        byteCost P ((cellXs c.width cell.1).map px) q') ∧
      ∀ x ∈ cellXs c.width cell.1, bufGet wk'.idx (cell.2 * c.width + x) = some (BitVec.ofNat 4
        (if dist (px x) (P q.1) ≤ dist (px x) (P q.2) then q.1 else q.2)) := by
  have hpair : cellPair c cell wk =
      choosePair c.cfg c.colors (((cellXs c.width cell.1).map px).map color64Of) := by
    rw [cellPair, List.map_map]
    exact congrArg _ (List.map_congr_left hsource)
  obtain ⟨hmem, hleast⟩ := h.choosePair_least c.cfg (cs := (cellXs c.width cell.1).map px)
    (fun d hd => by
      obtain ⟨x, _, rfl⟩ := List.mem_map.1 hd
      exact hpx x)
    (mt List.map_eq_nil_iff.1 hne) (by rw [List.length_map]; exact cellXs_length_le _ _)
  rw [← hpair] at hmem hleast
  obtain ⟨hq1, hq2⟩ := lt_sixteen_of_mem_allPairs hmem
  refine ⟨cellPair c cell wk, hmem, hleast, fun x hx => ?_⟩
  obtain ⟨m, hm, hset⟩ :=
    dispCell_ok_idx (fun x hx => keeps_err_of_kernel_nil hk wk.err cell x hx _) rfl hok hx
  rwa [pixelChoice, hm, hsource x hx, h.chooseIndex_eq (hpx x) hq1 hq2] at hset

/-- Settles O46: with no kernel every cell is reached with its source colours, which are bytes. -/
theorem dispWithoutKernelIsExact : Obligations.DispWithoutKernelIsExact := by
  intro s hp hf hg hv hk hpal himg
  obtain ⟨pal, image, hreads⟩ := dispReads_of_written hg hv hk hpal himg
  have hkernel := hreads.kernel_nil hk
  have hbyte : BytePalette (dispInputOf s pal [] []).colors (paletteRgb s) :=
    bytePalette_of_readPal hp hreads.palRead
  obtain ⟨wk, hok⟩ := dispCells_inert (pixelUpdates_no_kernel hkernel)
    (cellList (canvasW s) (canvasH s)) (dispStart s image)
  refine ⟨_, hreads.exec_of_ok hf hok, rfl,
    fun j hj => (onEither_idx_beyond (dispStart s image) hj).of_ok hok, fun cx y hx hy => ?_⟩
  obtain ⟨m, m', hm, hcok, hidx⟩ := dispCells_ok_cell (cell := (cx, y))
    (mem_cellList.2 ⟨hx, hy⟩) (fun cell _ => keeps_err_of_kernel_nil hkernel _ cell) rfl hok
  obtain ⟨⟨a, b⟩, hmem, hleast, hset⟩ := hbyte.dispCell_ok hkernel (px := (pixelAt s · y))
    (isByteColor_pixelAt s · y)
    (fun x hx' => by
      rw [hm]
      exact effective_dispStart hreads.imageRead (mem_cellXs.1 hx').2.2 hy)
    (cellXs_ne_nil hx) hcok
  have hcost : ∀ q, exactCost s cx y q =
      byteCost (paletteRgb s) ((cellXs (canvasW s) cx).map (pixelAt s · y)) q := fun q => by
    rw [byteCost, List.map_map]
    rfl
  obtain ⟨hab, hb⟩ := mem_allPairs.1 hmem
  refine ⟨a, b, hab, hb, fun i j hij hj => ?_, fun x hx' => (hidx x hx').trans (hset x hx')⟩
  rw [hcost, hcost]
  exact hleast (i, j) (mem_allPairs.2 ⟨hij, hj⟩)

end Sys2Proof.Machine

/-! A cell reached with one palette colour (spec/43_disperser.md R208): it keeps that colour, its errors are
0, and adding a multiple of 0 changes no value of ERR. -/

namespace Sys2Proof.Machine

/-! ### Adding a zero -/

/-- Rounding a magnitude gives its own pattern. -/
theorem roundIndex_magAt (k : Nat) : roundIndex (magAt k * 2 ^ 1074) = k := by
  obtain ⟨hle, _⟩ := roundIndex_nearest (magAt k * 2 ^ 1074) k
  rw [Nat.dist_self, Nat.le_zero] at hle
  exact magAt_strictMono.injective
    (Nat.eq_of_mul_eq_mul_right (pow_pos two_pos 1074) (Nat.eq_of_dist_eq_zero hle))

theorem f64_toNat_eq (a : F64) : a.toNat = (f64Neg a).toNat * 2 ^ 63 + a.toNat % 2 ^ 63 := by
  have hlt := a.isLt
  rw [f64Neg, BitVec.getLsbD, Nat.testBit_eq_decide_div_mod_eq]
  by_cases h : a.toNat / 2 ^ 63 % 2 = 1 <;> simp only [h, decide_true, decide_false, Bool.toNat_true,
    Bool.toNat_false] <;> omega

/-- A finite number rounded is itself. -/
theorem f64Round_self {a : F64} (h : f64Finite a = true) :
    f64Round (f64Neg a) (f64Mag a * 2 ^ 1074) = a := by
  rw [f64Finite_iff] at h
  refine BitVec.eq_of_toNat_eq ?_
  rw [f64Round_toNat, f64_toNat_eq a, f64Mag_eq, roundBits_eq, roundIndex_magAt, min_eq_left h.le]

theorem holdsInt_f64Round_zero (neg : Bool) : HoldsInt (f64Round neg 0) 0 :=
  IsRoundOf.holdsInt ⟨neg, 0, rfl, by rw [signed_zero, Int.zero_mul]⟩ (by norm_num)

theorem f64Add_of_finite {a b : F64} (ha : f64Finite a = true) (hb : f64Finite b = true) :
    f64Add a b = if f64Int a + f64Int b = 0 then f64Round (f64Neg a && f64Neg b) 0
      else f64Round (decide (f64Int a + f64Int b < 0)) ((f64Int a + f64Int b).natAbs * 2 ^ 1074) := by
  simp only [f64Add, f64Nan_of_finite ha, f64Nan_of_finite hb, ha, hb, Bool.or_self, Bool.not_true,
    Bool.false_eq_true, if_false]

theorem f64Int_eq_zero_iff {a : F64} : f64Int a = 0 ↔ f64Mag a = 0 := by
  rw [f64Int_eq_signed, ← Int.natAbs_eq_zero, natAbs_signed]

theorem f64Neg_eq_decide {a : F64} (h : f64Int a ≠ 0) : f64Neg a = decide (f64Int a < 0) := by
  rw [f64Int] at h ⊢
  cases f64Neg a
  · simp
  · simp only [if_true] at h ⊢
    exact (decide_eq_true (by omega)).symm

/-- A number that is not -0 is unchanged when a zero is added (R12). -/
theorem f64Add_zero {a z : F64} (ha : f64Finite a = true) (hz : HoldsInt z 0)
    (hsign : f64Int a ≠ 0 ∨ f64Neg a = false) : f64Add a z = a := by
  have hzero : f64Int z = 0 := by rw [hz.value, Int.zero_mul]
  rw [f64Add_of_finite ha hz.finite, hzero, Int.add_zero]
  by_cases h : f64Int a = 0
  · have hneg := hsign.resolve_left (not_not_intro h)
    have hself := f64Round_self ha
    rw [hneg, f64Int_eq_zero_iff.1 h, Nat.zero_mul] at hself
    rw [if_pos h, hneg, Bool.false_and, hself]
  · rw [if_neg h, ← f64Neg_eq_decide h, f64Int_eq_signed, natAbs_signed, f64Round_self ha]

/-- Adding a zero changes no value (R12). -/
theorem f64Add_zero_value {a z : F64} (ha : f64Finite a = true) (hz : HoldsInt z 0) :
    f64Finite (f64Add a z) = true ∧ f64Int (f64Add a z) = f64Int a := by
  by_cases h : f64Int a = 0
  · have hround := holdsInt_f64Round_zero (f64Neg a && f64Neg z)
    have hzero : f64Int z = 0 := by rw [hz.value, Int.zero_mul]
    rw [f64Add_of_finite ha hz.finite, hzero, Int.add_zero, if_pos h, h, hround.value, Int.zero_mul]
    exact ⟨hround.finite, rfl⟩
  · rw [f64Add_zero ha hz (.inl h)]
    exact ⟨ha, rfl⟩

theorem f64Round_zero : f64Round false 0 = 0 := by
  have hneg : f64Neg 0 = false := by decide
  have hmag : f64Mag 0 = 0 := by decide
  have hself := f64Round_self (a := 0) (by decide)
  rwa [hneg, hmag, Nat.zero_mul] at hself

theorem f64Sub_self {a : F64} (h : f64Finite a = true) : f64Sub a a = 0 := by
  rw [f64Sub, f64Add_of_finite h ((f64Finite_f64Negate a).trans h), f64Int_f64Negate,
    if_pos (Int.add_right_neg _), f64Neg_f64Negate, Bool.and_not_self, f64Round_zero]

theorem holdsInt_f64Mul_zero {w : F64} (hw : f64Finite w = true) : HoldsInt (f64Mul 0 w) 0 := by
  have hround := isRoundOf_f64Mul (a := 0) (by decide) hw
  have hzero : f64Int 0 = 0 := f64Int_eq_zero_iff.2 (by decide)
  rw [hzero, Int.zero_mul, ← Int.zero_mul (2 ^ 2148)] at hround
  exact hround.holdsInt (by norm_num)

theorem f64OfNat_inj {m n : Nat} (hm : m < 256) (hn : n < 256) (h : f64OfNat m = f64OfNat n) :
    m = n := by
  have hval := (holdsInt_f64OfNat (n := m) (by omega)).value
  rw [h, (holdsInt_f64OfNat (n := n) (by omega)).value] at hval
  exact_mod_cast (mul_right_cancel₀ (pow_pos two_pos _).ne' hval).symm

theorem color64Of_inj {c d : Rgb} (hc : IsByteColor c) (hd : IsByteColor d)
    (h : color64Of c = color64Of d) : c = d := by
  obtain ⟨cr, cg, cb⟩ := c
  obtain ⟨dr, dg, db⟩ := d
  simp only [color64Of, Color64.mk.injEq] at h
  exact congr (congr (congrArg Rgb.mk (f64OfNat_inj hc.1 hd.1 h.1))
    (f64OfNat_inj hc.2.1 hd.2.1 h.2.1)) (f64OfNat_inj hc.2.2 hd.2.2 h.2.2)

/-! ### ERR unchanged in value -/

/-- ERR holds the same values as `err₀`, finite on the canvas; a pattern can differ only where it was
-0. -/
structure SameErr (n : Nat) (err₀ err : Buf 64) : Prop where
  value : ∀ j, f64Int (errGet err j) = f64Int (errGet err₀ j)
  finite : ∀ j < n, f64Finite (errGet err j) = true
  exact : ∀ j, f64Neg (errGet err₀ j) = false → errGet err j = errGet err₀ j

theorem errGet_bufSet (err : Buf 64) (i : Nat) (v : F64) (j : Nat) :
    errGet (bufSet err i v) j = if j = i then v else errGet err j := by
  rw [errGet, bufGet_bufSet]
  split <;> rfl

/-- Adding a multiple of 0 completes and changes no value of ERR (R200). -/
theorem SameErr.addError {n : Nat} {err₀ err : Buf 64} (h : SameErr n err₀ err)
    {u : Nat × F64 × F64} (hu : u.1 < n) (hq : u.2.1 = 0) (hw : f64Finite u.2.2 = true) :
    ∃ err', addError err u = .ok err' ∧ SameErr n err₀ err' := by
  have hz : HoldsInt (f64Mul u.2.1 u.2.2) 0 := hq ▸ holdsInt_f64Mul_zero hw
  obtain ⟨hfin, hval⟩ := f64Add_zero_value (h.finite u.1 hu) hz
  refine ⟨_, if_pos hfin, fun j => ?_, fun j hj => ?_, fun j hj => ?_⟩ <;> rw [errGet_bufSet]
  · split
    · next he => rw [he, hval, h.value]
    · exact h.value j
  · split
    · exact hfin
    · exact h.finite j hj
  · split
    · next he =>
      subst he
      rw [f64Add_zero (h.finite u.1 hu) hz (.inr (by rw [h.exact u.1 hj, hj])), h.exact u.1 hj]
    · exact h.exact j hj

/-- The three elements of a pixel in ERR are the channels of a colour. -/
def HasColor (W x y : Nat) (color : Rgb) (err : Buf 64) : Prop :=
  errGet err (errIndex W x y) = f64OfNat color.r ∧
  errGet err (errIndex W x y + 1) = f64OfNat color.g ∧
  errGet err (errIndex W x y + 2) = f64OfNat color.b

theorem HasColor.effective_eq {W x y : Nat} {color : Rgb} {err : Buf 64}
    (h : HasColor W x y color err) (hc : IsByteColor color) :
    effective err W x y = color64Of color := by
  obtain ⟨hr, hg, hb⟩ := h
  rw [effective, hr, hg, hb, f64Clamp_byte hc.1, f64Clamp_byte hc.2.1, f64Clamp_byte hc.2.2]
  rfl

theorem SameErr.hasColor {n W x y : Nat} {color : Rgb} {err₀ err : Buf 64} (h : SameErr n err₀ err)
    (hcolor : HasColor W x y color err₀) : HasColor W x y color err := by
  have hbyte : ∀ j v, errGet err₀ j = f64OfNat v → errGet err j = f64OfNat v := fun j v hv =>
    (h.exact j (by rw [hv]; exact f64Neg_f64Round false _)).trans hv
  exact ⟨hbyte _ _ hcolor.1, hbyte _ _ hcolor.2.1, hbyte _ _ hcolor.2.2⟩

theorem mem_pixelUpdates {c : DispInput} {x y : Nat} {q : Color64} {u : Nat × F64 × F64}
    (h : u ∈ pixelUpdates c x y q) : u.1 < 3 * c.width * c.height ∧
      (u.2.1 = q.r ∨ u.2.1 = q.g ∨ u.2.1 = q.b) ∧ ∃ e ∈ c.kernel, u.2.2 = e.weight := by
  refine ⟨pixelUpdates_lt h, ?_⟩
  obtain ⟨e, he, hu⟩ := List.mem_flatMap.1 h
  have hmem := (List.mem_filter.1 he).1
  simp only [entryUpdates, List.mem_cons, List.not_mem_nil, or_false] at hu
  rcases hu with rfl | rfl | rfl
  · exact ⟨.inl rfl, e, hmem, rfl⟩
  · exact ⟨.inr (.inl rfl), e, hmem, rfl⟩
  · exact ⟨.inr (.inr rfl), e, hmem, rfl⟩

/-- A pixel whose effective colour is the one it gets completes and changes no value of ERR. -/
theorem SameErr.dispPixel {c : DispInput} {err₀ : Buf 64} {wk : DispWork}
    (h : SameErr (3 * c.width * c.height) err₀ wk.err)
    (hker : ∀ e ∈ c.kernel, f64Finite e.weight = true) {ab : Nat × Nat} {x y : Nat} {color : Rgb}
    (hc : IsByteColor color) (heff : effective wk.err c.width x y = color64Of color)
    (hchoice : colorAt c.colors (pixelChoice c ab x y wk) = color64Of color) :
    ∃ wk', dispPixel c ab y x wk = .ok wk' ∧ SameErr (3 * c.width * c.height) err₀ wk'.err := by
  have hfin := finite_color64Of hc
  have hq : pixelError c ab x y wk = ⟨0, 0, 0⟩ := by
    simp only [pixelError, heff, hchoice, f64Sub_self hfin.r, f64Sub_self hfin.g, f64Sub_self hfin.b]
  have hadd : ∃ err, addErrors wk.err (pixelUpdates c x y (pixelError c ab x y wk)) = .ok err ∧
      SameErr (3 * c.width * c.height) err₀ err := by
    rw [addErrors_eq_foldlM, hq]
    refine exists_foldlM_ok (fun u hu err herr => ?_) h
    obtain ⟨hlt, hzero, e, he, hw⟩ := mem_pixelUpdates hu
    exact herr.addError hlt (by simpa using hzero) (hw ▸ hker e he)
  obtain ⟨err, hok, hsame⟩ := hadd
  exact ⟨_, dispPixel_of_ok hok, hsame⟩

/-! ### The index of a cell of one palette colour -/

/-- The search order starts with the pairs of entry 0 (R197). -/
theorem allPairs_getElem?_of_lt : ∀ k < 16, allPairs[k]? = some (0, k) := by decide

section OneColour

variable {colors : List Color64} {P : Nat → Rgb} {color : Rgb} {q : Nat × Nat}

/-- The nearer index of a pair, the first on a tie (R199). -/
def nearer (P : Nat → Rgb) (color : Rgb) (q : Nat × Nat) : Nat :=
  if dist color (P q.1) ≤ dist color (P q.2) then q.1 else q.2

theorem dist_nearer (P : Nat → Rgb) (color : Rgb) (q : Nat × Nat) :
    dist color (P (nearer P color q)) = min (dist color (P q.1)) (dist color (P q.2)) := by
  unfold nearer
  split
  · next h => rw [min_eq_left h]
  · next h => rw [min_eq_right (le_of_not_ge h)]

theorem nearer_eq (P : Nat → Rgb) (color : Rgb) (q : Nat × Nat) :
    nearer P color q = q.1 ∨ nearer P color q = q.2 := by
  unfold nearer
  split
  · exact .inl rfl
  · exact .inr rfl

theorem byteCost_replicate (P : Nat → Rgb) (n : Nat) (color : Rgb) (q : Nat × Nat) :
    byteCost P (List.replicate n color) q = n * dist color (P (nearer P color q)) := by
  rw [byteCost, dist_nearer, List.map_replicate, List.sum_replicate, nsmul_eq_mul]

variable (p : Params) (h : BytePalette colors P) {n : Nat} (hn : 0 < n) (hle : n ≤ 8) {c : Nat}
  (hc : c < 16) (hPc : P c = color)

include h hn hle hc hPc

/-- The pair of a cell of one palette colour gives that colour (R197). -/
theorem BytePalette.nearer_choosePair :
    choosePair p colors (List.replicate n (color64Of color)) ∈ allPairs ∧
    P (nearer P color (choosePair p colors (List.replicate n (color64Of color)))) = color := by
  have hmem : ∀ d ∈ List.replicate n color, IsByteColor d := fun d hd => by
    rw [List.eq_of_mem_replicate hd, ← hPc]
    exact h.byte c hc
  obtain ⟨hpair, hleast⟩ := h.choosePair_least p hmem (by simpa using hn.ne')
    (by rwa [List.length_replicate])
  rw [List.map_replicate] at hpair hleast
  refine ⟨hpair, (eq_of_dist_eq_zero (le_antisymm ?_ (dist_nonneg _ _))).symm⟩
  have hself : dist color (P (nearer P color (c, c))) = 0 := by
    rw [dist_nearer, hPc, dist_self, min_self]
  have := hleast (c, c) (mem_allPairs.2 ⟨le_rfl, hc⟩)
  rw [byteCost_replicate, byteCost_replicate, hself, mul_zero] at this
  exact nonpos_of_mul_nonpos_right this (by exact_mod_cast hn)

/-- With the default tie-break the index is the lowest of the cell's colour (R197, R208). -/
theorem BytePalette.nearer_choosePair_default (ht : p.tieTable = []) (hmin : ∀ k < c, P k ≠ color) :
    nearer P color (choosePair p colors (List.replicate n (color64Of color))) = c := by
  have hmem : ∀ d ∈ List.replicate n color, IsByteColor d := fun d hd => by
    rw [List.eq_of_mem_replicate hd, ← hPc]
    exact h.byte c hc
  obtain ⟨hpair, hcolor⟩ := h.nearer_choosePair p hn hle hc hPc
  obtain ⟨k, hlt, hk⟩ := List.getElem_of_mem hpair
  have hk' := (List.getElem?_eq_getElem hlt).trans (congrArg some hk)
  have hkc : k ≤ c := by
    by_contra hgt
    have := h.choosePair_first p hmem (by simpa using hn.ne') (by rwa [List.length_replicate]) ht
      (by rwa [List.map_replicate]) (Nat.lt_of_not_le hgt) (allPairs_getElem?_of_lt c hc)
    rw [List.map_replicate, byteCost_replicate, byteCost_replicate, hcolor, dist_self, mul_zero,
      dist_nearer, hPc, dist_self, min_eq_right (dist_nonneg _ _), mul_zero] at this
    exact lt_irrefl _ this
  have hq : choosePair p colors (List.replicate n (color64Of color)) = (0, k) :=
    Option.some.inj (hk'.symm.trans (allPairs_getElem?_of_lt k (by omega)))
  have hbound : nearer P color (choosePair p colors (List.replicate n (color64Of color))) ≤ c := by
    rcases nearer_eq P color (choosePair p colors (List.replicate n (color64Of color))) with he | he
      <;> rw [he, hq]
    · exact Nat.zero_le c
    · exact hkc
  exact le_antisymm hbound (not_lt.1 fun hlt => hmin _ hlt hcolor)

end OneColour

section UniformCell

variable {d : DispInput} {P : Nat → Rgb} (h : BytePalette d.colors P) {cell : Nat × Nat}
  {wk : DispWork} {c : Nat} (hc : c < 16)
  (hsource : ∀ x ∈ cellXs d.width cell.1, HasColor d.width x cell.2 (P c) wk.err)

/-- The index of a cell reached with the colour of palette entry `c`: the nearer one of its pair. -/
def uniformIndex (d : DispInput) (P : Nat → Rgb) (cell : Nat × Nat) (wk : DispWork) (c : Nat) : Nat :=
  nearer P (P c) (cellPair d cell wk)

include h hc hsource

theorem SameErr.effective_uniform {m : DispWork}
    (hm : SameErr (3 * d.width * d.height) wk.err m.err) {x : Nat} (hx : x ∈ cellXs d.width cell.1) :
    effective m.err d.width x cell.2 = color64Of (P c) :=
  (hm.hasColor (hsource x hx)).effective_eq (h.byte c hc)

theorem cellPair_uniform : cellPair d cell wk = choosePair d.cfg d.colors
    (List.replicate (cellXs d.width cell.1).length (color64Of (P c))) := by
  rw [cellPair, ← List.map_const']
  exact congrArg _ (List.map_congr_left fun x hx => (hsource x hx).effective_eq (h.byte c hc))

variable (hne : cellXs d.width cell.1 ≠ [])

include hne

theorem cellPair_uniform_mem :
    cellPair d cell wk ∈ allPairs ∧ P (uniformIndex d P cell wk c) = P c := by
  rw [uniformIndex, cellPair_uniform h hc hsource]
  exact h.nearer_choosePair d.cfg (List.length_pos_iff.2 hne) (cellXs_length_le _ _) hc rfl

theorem uniformIndex_lt : uniformIndex d P cell wk c < 16 := by
  obtain ⟨hq1, hq2⟩ := lt_sixteen_of_mem_allPairs (cellPair_uniform_mem h hc hsource hne).1
  rcases nearer_eq P (P c) (cellPair d cell wk) with he | he <;> rw [uniformIndex, he] <;> assumption

/-- With the default tie-break, or where no other entry has the colour, the index is `c` (R208). -/
theorem uniformIndex_eq (hmin : ∀ k < c, P k ≠ P c)
    (htie : d.cfg.tieTable = [] ∨ ∀ i < 16, i ≠ c → P i ≠ P c) : uniformIndex d P cell wk c = c := by
  rcases htie with ht | hunique
  · rw [uniformIndex, cellPair_uniform h hc hsource]
    exact h.nearer_choosePair_default d.cfg (List.length_pos_iff.2 hne) (cellXs_length_le _ _) hc rfl
      ht hmin
  · by_contra hkc
    exact hunique _ (uniformIndex_lt h hc hsource hne) hkc (cellPair_uniform_mem h hc hsource hne).2

theorem SameErr.pixelChoice_uniform {m : DispWork}
    (hm : SameErr (3 * d.width * d.height) wk.err m.err) {x : Nat} (hx : x ∈ cellXs d.width cell.1) :
    pixelChoice d (cellPair d cell wk) x cell.2 m = uniformIndex d P cell wk c := by
  obtain ⟨hq1, hq2⟩ := lt_sixteen_of_mem_allPairs (cellPair_uniform_mem h hc hsource hne).1
  rw [pixelChoice, hm.effective_uniform h hc hsource hx, h.chooseIndex_eq (h.byte c hc) hq1 hq2]
  rfl

/-- A cell reached with the colour of palette entry `c` at every pixel completes, every pixel gets its
one index, and ERR is changed nowhere in value (R208). -/
theorem BytePalette.dispCell_uniform (hker : ∀ e ∈ d.kernel, f64Finite e.weight = true)
    (hfin : ∀ j < 3 * d.width * d.height, f64Finite (errGet wk.err j) = true) :
    ∃ wk', dispCell d cell wk = .ok wk' ∧ SameErr (3 * d.width * d.height) wk.err wk'.err ∧
      ∀ x ∈ cellXs d.width cell.1, bufGet wk'.idx (cell.2 * d.width + x) =
        some (BitVec.ofNat 4 (uniformIndex d P cell wk c)) := by
  have hstep : ∀ x ∈ cellXs d.width cell.1, ∀ m : DispWork,
      SameErr (3 * d.width * d.height) wk.err m.err →
      ∃ m', dispPixel d (cellPair d cell wk) cell.2 x m = .ok m' ∧
        SameErr (3 * d.width * d.height) wk.err m'.err := fun x hx m hm =>
    hm.dispPixel hker (h.byte c hc) (hm.effective_uniform h hc hsource hx) (by
      rw [hm.pixelChoice_uniform h hc hsource hne hx,
        h.colorAt _ (uniformIndex_lt h hc hsource hne), (cellPair_uniform_mem h hc hsource hne).2])
  have hstart : SameErr (3 * d.width * d.height) wk.err wk.err :=
    ⟨fun _ => rfl, hfin, fun _ _ => rfl⟩
  obtain ⟨wk', hok, hsame⟩ := exists_foldlM_ok hstep hstart
  rw [← dispCell_eq_foldlM] at hok
  refine ⟨wk', hok, hsame, fun x hx => ?_⟩
  obtain ⟨m, hm, hset⟩ := dispCell_ok_idx
    (P := fun m => SameErr (3 * d.width * d.height) wk.err m.err)
    (fun x hx m hm => by
      obtain ⟨m', hm', hsame'⟩ := hstep x hx m hm
      rw [hm']
      exact hsame') hstart hok hx
  rw [hset, hm.pixelChoice_uniform h hc hsource hne hx]

end UniformCell

/-! ### The state after DISP -/

theorem cellList_eq_cons {W H : Nat} (hW : 0 < cellCols W) (hH : 0 < H) :
    ∃ rest, cellList W H = (0, 0) :: rest := by
  obtain ⟨n, hn⟩ := Nat.exists_eq_add_of_lt hW
  obtain ⟨m, rfl⟩ := Nat.exists_eq_add_of_lt hH
  rw [Nat.zero_add] at hn ⊢
  rw [cellList, hn, List.range_succ_eq_map (n := m), List.flatMap_cons,
    List.range_succ_eq_map (n := n), List.map_cons, List.cons_append]
  exact ⟨_, rfl⟩

section Reads

variable {s : State} {weights : List F64} {offsets : List (Int × Int)} {pal : List (BitVec 12)}
  {image : List Rgb} (h : DispReads s weights offsets pal image)

include h

theorem DispReads.kernel_finite :
    ∀ e ∈ (dispInputOf s pal offsets weights).kernel, f64Finite e.weight = true := fun e he => by
  obtain ⟨k, hk, rfl⟩ := List.getElem_of_mem he
  have hw : weights[k]'(by simp [dispInputOf, kernelOf] at hk; omega) ∈ weights :=
    List.getElem_mem _
  simpa [dispInputOf, kernelOf] using List.all_eq_true.1 h.weightsFinite _ hw

/-- Every cell without a kernel, and the first cell with any, is reached with its source colours
(R193, R196). -/
theorem DispReads.cell_from_source {cx y : Nat} (hfirst : s.klen = 0 ∨ (cx = 0 ∧ y = 0))
    (hx : cx < cellCols (canvasW s)) (hy : y < canvasH s) {wk : DispWork}
    (hok : dispCells (dispInputOf s pal offsets weights) (cellList (canvasW s) (canvasH s))
      (dispStart s image) = .ok wk) :
    ∃ m m', m.err = (dispStart s image).err ∧
      dispCell (dispInputOf s pal offsets weights) (cx, y) m = .ok m' ∧
      ∀ x ∈ cellXs (canvasW s) cx,
        bufGet wk.idx (y * canvasW s + x) = bufGet m'.idx (y * canvasW s + x) := by
  rcases hfirst with hk | ⟨rfl, rfl⟩
  · exact dispCells_ok_cell (cell := (cx, y)) (mem_cellList.2 ⟨hx, hy⟩)
      (fun cell _ => keeps_err_of_kernel_nil (h.kernel_nil hk) _ cell) rfl hok
  · obtain ⟨rest, hrest⟩ := cellList_eq_cons hx hy
    have hnodup := hrest ▸ cellList_nodup (canvasW s) (canvasH s)
    rw [hrest] at hok
    obtain ⟨m, m', hpre, hc, hidx⟩ :=
      dispCells_ok_reaches (pre := []) (List.nodup_cons.1 hnodup).1 hok
    cases hpre
    exact ⟨_, m', rfl, hc, hidx⟩

end Reads

theorem hasColor_dispStart {s : State} {image : List Rgb} (h : readImage s = some image) {x y : Nat}
    (hx : x < canvasW s) (hy : y < canvasH s) :
    HasColor (canvasW s) x y (pixelAt s x y) (dispStart s image).err :=
  ⟨errGet_dispStart h hx hy (ch := 0) (by omega), errGet_dispStart h hx hy (ch := 1) (by omega),
    errGet_dispStart h hx hy (ch := 2) (by omega)⟩

/-- R208 of one cell of the pass, in the palette's own patterns. -/
theorem uniformCell_of_pass (d : DispInput) (wk : DispWork) (cell : Nat × Nat) (color : Rgb) (c : Nat)
    (hcolor : IsByteColor color)
    (hcolors : ∀ k < 16, ∃ e : Rgb, e.r < 256 ∧ e.g < 256 ∧ e.b < 256 ∧
      colorAt d.colors k = color64Of e)
    (hker : ∀ e ∈ d.kernel, f64Finite e.weight = true)
    (hfin : ∀ j < 3 * d.width * d.height, f64Finite (errGet wk.err j) = true) (hc : c < 16)
    (hPc : colorAt d.colors c = color64Of color)
    (hmin : ∀ k < c, colorAt d.colors k ≠ color64Of color)
    (hsource : ∀ x ∈ cellXs d.width cell.1, HasColor d.width x cell.2 color wk.err) :
    ∃ (wk' : DispWork) (k : Nat), dispCell d cell wk = .ok wk' ∧ k < 16 ∧
      (cellXs d.width cell.1 ≠ [] → colorAt d.colors k = color64Of color) ∧
      (∀ x ∈ cellXs d.width cell.1,
        bufGet wk'.idx (cell.2 * d.width + x) = some (BitVec.ofNat 4 k)) ∧
      (∀ x ∈ cellXs d.width cell.1,
        let e := effective wk'.err d.width x cell.2
        let P := colorAt d.colors k
        f64Sub e.r P.r = 0 ∧ f64Sub e.g P.g = 0 ∧ f64Sub e.b P.b = 0) ∧
      (∀ j, f64Int (errGet wk'.err j) = f64Int (errGet wk.err j)) ∧
      (cellXs d.width cell.1 ≠ [] →
        d.cfg.tieTable = [] ∨ (∀ i < 16, i ≠ c → colorAt d.colors i ≠ color64Of color) → k = c) := by
  by_cases hne : cellXs d.width cell.1 = []
  · refine ⟨wk, 0, by rw [dispCell_eq_foldlM, hne]; rfl, by omega, fun h => absurd hne h, ?_, ?_,
      fun _ => rfl, fun h => absurd hne h⟩ <;> rw [hne] <;> simp
  choose! P hr hg hb hP using hcolors
  have h : BytePalette d.colors P := ⟨fun k hk => ⟨hr k hk, hg k hk, hb k hk⟩, hP⟩
  have hiff : ∀ k < 16, P k = color ↔ colorAt d.colors k = color64Of color := fun k hk => by
    rw [h.colorAt k hk]
    exact ⟨congrArg _, color64Of_inj (h.byte k hk) hcolor⟩
  obtain rfl : P c = color := (hiff c hc).2 hPc
  obtain ⟨wk', hok, hsame, hidx⟩ := h.dispCell_uniform hc hsource hne hker hfin
  have hlt := uniformIndex_lt h hc hsource hne
  have hcolor_k := (hiff _ hlt).1 (cellPair_uniform_mem h hc hsource hne).2
  have hfinite := finite_color64Of hcolor
  refine ⟨wk', _, hok, hlt, fun _ => hcolor_k, hidx, fun x hx => ?_, hsame.value,
    fun _ htie => uniformIndex_eq h hc hsource hne
      (fun k hk => mt (hiff k (hk.trans hc)).1 (hmin k hk))
      (htie.imp_right fun hu i hi hic => mt (hiff i hi).1 (hu i hi hic))⟩
  dsimp only
  rw [(hsame.hasColor (hsource x hx)).effective_eq hcolor, hcolor_k]
  exact ⟨f64Sub_self hfinite.r, f64Sub_self hfinite.g, f64Sub_self hfinite.b⟩

/-- Settles O50: the pair search gives a pair of cost 0, so every error of the cell is 0; and both kinds of
cell are reached with their source colours in ERR. -/
theorem uniformCellIsStable : Obligations.UniformCellIsStable := by
  refine ⟨fun d wk cell color c hcolor hcolors hker hfin hc hPc hmin hsource =>
    uniformCell_of_pass d wk cell color c hcolor hcolors hker hfin hc hPc hmin
      fun x hx => (hsource x hx).2, ?_⟩
  intro s t cx y c hp hf hfirst h ht hx hy hc hpix hmin htie
  obtain ⟨weights, offsets, pal, image, wk, hreads, hpass, rfl⟩ := exec_disp_completes hf h ht
  have hbyte : BytePalette (dispInputOf s pal offsets weights).colors (paletteRgb s) :=
    bytePalette_of_readPal hp hreads.palRead
  obtain ⟨m, m', hm, hcok, hidx⟩ := hreads.cell_from_source hfirst hx hy hpass
  have hsource : ∀ x ∈ cellXs (canvasW s) cx, HasColor (canvasW s) x y (paletteRgb s c) m.err :=
    fun x hx' => by
      rw [hm, ← hpix x hx']
      exact hasColor_dispStart hreads.imageRead (mem_cellXs.1 hx').2.2 hy
  have hfin : ∀ j < 3 * canvasW s * canvasH s, f64Finite (errGet m.err j) = true := fun j hj => by
    rw [hm]
    exact (errFinite_dispStart hreads.imageRead).errGet hj
  obtain ⟨m'', hok, -, hset⟩ := hbyte.dispCell_uniform (cell := (cx, y)) hc hsource
    (cellXs_ne_nil hx) hreads.kernel_finite hfin
  cases hcok.symm.trans hok
  have hindex : uniformIndex _ _ (cx, y) m c = c :=
    uniformIndex_eq hbyte hc hsource (cellXs_ne_nil hx) hmin htie
  intro x hx'
  exact (hidx x hx').trans ((hset x hx').trans (by rw [hindex]))

end Sys2Proof.Machine

/-! DISP's pass follows the pass on coordinates (spec/43_disperser.md R191 to R201): the kernel words, then
one addition, one entry, one pixel, one cell and the whole canvas, each as a fold that stops where the
other stops. -/

namespace Sys2Proof.Machine

/-! ### The kernel words -/

theorem toInt_half (v : BitVec 16) : v.toInt = signedHalf v.toNat := by
  have hlt := v.isLt
  rw [BitVec.toInt_eq_toNat_cond, signedHalf, Nat.mod_eq_of_lt (by omega)]
  split <;> split <;> omega

theorem low_half_toInt (o : Word) : (o.extractLsb' 0 16).toInt = signedHalf o.toNat := by
  rw [toInt_half, BitVec.extractLsb'_toNat, Nat.shiftRight_zero, signedHalf, signedHalf, Nat.mod_mod]

theorem high_half_toInt (o : Word) : (o.extractLsb' 16 16).toInt = signedHalf (o.toNat / 65536) := by
  rw [toInt_half, BitVec.extractLsb'_toNat, Nat.shiftRight_eq_div_pow, signedHalf, signedHalf,
    Nat.mod_mod]

theorem append_words (hi lo : Word) : hi ++ lo = BitVec.ofNat 64 (hi.toNat * 2 ^ 32 + lo.toNat) := by
  refine BitVec.eq_of_toNat_eq ?_
  rw [BitVec.toNat_append, ← Nat.shiftLeft_add_eq_or_of_lt lo.isLt, Nat.shiftLeft_eq,
    BitVec.toNat_ofNat, Nat.mod_eq_of_lt (by omega)]

theorem kernelWord_of_get {krn : Buf 32} {k i : Nat} {v : Word} (h : bufGet krn (4 * k + i) = some v) :
    kernelWord krn k i = v.toNat := by
  rw [kernelWord, h]
  rfl

/-- The three words of the entries `t .. t + n - 1` that R191 reads were written. -/
def KernelWritten (krn : Buf 32) (t n : Nat) : Prop :=
  ∀ k, t ≤ k → k < t + n → ∀ i < 3, ∃ v, bufGet krn (4 * k + i) = some v

theorem KernelWritten.tail {krn : Buf 32} {t n : Nat} (h : KernelWritten krn t (n + 1)) :
    KernelWritten krn (t + 1) n := fun k hlo hhi => h k (by omega) (by omega)

theorem KernelWritten.readOffsets_eq {krn : Buf 32} {t n : Nat} (h : KernelWritten krn t n) :
    readOffsets krn t n = some ((List.range' t n).map fun k =>
      ((kernelEntryAt krn k).dx, (kernelEntryAt krn k).dy)) := by
  induction n generalizing t with
  | zero => rfl
  | succ n ih =>
    obtain ⟨o, ho⟩ := h t le_rfl (by omega) 0 (by omega)
    have hget : bufGet krn (4 * t) = some o := ho
    rw [readOffsets, hget]
    simp only [ih h.tail, Option.map_some, List.range'_succ, List.map_cons, kernelEntryAt,
      kernelWord_of_get ho, low_half_toInt, high_half_toInt]

theorem KernelWritten.readWeights_eq {krn : Buf 32} {t n : Nat} (h : KernelWritten krn t n) :
    readWeights krn t n = some ((List.range' t n).map fun k => (kernelEntryAt krn k).weight) := by
  induction n generalizing t with
  | zero => rfl
  | succ n ih =>
    obtain ⟨lo, hlo⟩ := h t le_rfl (by omega) 1 (by omega)
    obtain ⟨hi, hhi⟩ := h t le_rfl (by omega) 2 (by omega)
    rw [readWeights, hlo, hhi]
    simp only [ih h.tail, Option.map_some, List.range'_succ, List.map_cons, kernelEntryAt,
      kernelWord_of_get hlo, kernelWord_of_get hhi, append_words]

/-- The kernel DISP computes with is that of KRN, entry by entry (R191). -/
def kernelAt (s : State) : List KernelEntry :=
  (List.range s.klen.toNat).map (kernelEntryAt s.krn)

/-- With its inputs written and its kernel finite DISP reads them, and computes with the kernel of KRN. -/
theorem dispReads_of_kernel {s : State} (hg : geomOk s = true) (hv : s.palv = true)
    (hk : s.klen.toNat ≤ s.cfg.kmax) (hpal : written s.pal 16)
    (himg : written s.img (3 * canvasW s * canvasH s))
    (hkrn : ∀ k < s.klen.toNat, (∀ i < 3, (bufGet s.krn (4 * k + i)).isSome = true) ∧
      f64Finite (kernelEntryAt s.krn k).weight = true) :
    ∃ weights offsets pal image, DispReads s weights offsets pal image ∧
      (dispInputOf s pal offsets weights).kernel = kernelAt s := by
  have hwritten : KernelWritten s.krn 0 s.klen.toNat := fun k _ hlt i hi =>
    Option.isSome_iff_exists.1 ((hkrn k (by omega)).1 i hi)
  obtain ⟨pal, hpal⟩ := bufReadRun_of_written hpal
  obtain ⟨bytes, hbytes⟩ := bufReadRun_of_written himg
  refine ⟨_, _, pal, colorsOf bytes, ⟨hg, hv, hk, hwritten.readWeights_eq, ?_,
    hwritten.readOffsets_eq, hpal, by rw [readImage, hbytes]; rfl⟩, ?_⟩
  · rw [List.all_eq_true]
    intro w hw
    obtain ⟨k, hmem, rfl⟩ := List.mem_map.1 hw
    rw [← List.range_eq_range'] at hmem
    exact (hkrn k (List.mem_range.1 hmem)).2
  · simp only [dispInputOf, kernelOf, kernelAt, ← List.range_eq_range', List.zipWith_map,
      List.zipWith_self]

/-! ### A fold that stops where the view stops -/

/-- A pass's answer against the view: completed while the view has not stopped, stopped where it has, and
`R` between what they hold. -/
def Follows {α : Type} (R : α → PassView → Prop) : Except α α → PassView → Prop
  | .ok a, v => v.stopped = false ∧ R a v
  | .error a, v => v.stopped = true ∧ R a v

theorem foldl_of_stopped {β : Type} {g : PassView → β → PassView}
    (hstop : ∀ v b, v.stopped = true → g v b = v) {v : PassView} (hv : v.stopped = true) (l : List β) :
    l.foldl g v = v := by
  induction l with
  | nil => rfl
  | cons b l ih => rw [List.foldl_cons, hstop v b hv, ih]

/-- Where every step of a fold follows the view's step, the fold follows the view's fold. -/
theorem follows_foldlM {α β : Type} {R : α → PassView → Prop} {f : α → β → Except α α}
    {g : PassView → β → PassView} {l : List β} (hstop : ∀ v b, v.stopped = true → g v b = v)
    (hstep : ∀ b ∈ l, ∀ a v, v.stopped = false → R a v → Follows R (f a b) (g v b)) {a : α}
    {v : PassView} (hv : v.stopped = false) (hR : R a v) :
    Follows R (l.foldlM f a) (l.foldl g v) := by
  induction l generalizing a v with
  | nil => exact ⟨hv, hR⟩
  | cons b l ih =>
    have hb := hstep b List.mem_cons_self a v hv hR
    rw [List.foldlM_cons, List.foldl_cons]
    cases hf : f a b with
    | ok a' =>
      rw [hf] at hb
      exact ih (fun b hb => hstep b (List.mem_cons_of_mem _ hb)) hb.1 hb.2
    | error a' =>
      rw [hf] at hb
      rw [foldl_of_stopped hstop hb.1]
      exact hb

theorem add_of_stopped {v : PassView} (h : v.stopped = true) (y x ch : Nat) (amount : F64) :
    v.add y x ch amount = v := by rw [PassView.add, if_pos h]

theorem spread_of_stopped {v : PassView} (h : v.stopped = true) (W H x y : Nat) (q : Color64)
    (e : KernelEntry) : v.spread W H x y q e = v := by
  unfold PassView.spread
  simp only [add_of_stopped h, ite_self]

theorem add_idx (v : PassView) (y x ch : Nat) (amount : F64) : (v.add y x ch amount).idx = v.idx := by
  unfold PassView.add
  split
  · rfl
  · split <;> rfl

theorem foldl_spread_idx (W H x y : Nat) (q : Color64) (l : List KernelEntry) (v : PassView) :
    (l.foldl (PassView.spread W H x y q) v).idx = v.idx := by
  induction l generalizing v with
  | nil => rfl
  | cons e l ih =>
    rw [List.foldl_cons, ih]
    unfold PassView.spread
    split
    · simp only [add_idx]
    · rfl

/-! ### One addition, one entry, all entries -/

/-- ERR holds the view's values on the canvas. -/
def ShowsErr (W H : Nat) (err : Buf 64) (v : PassView) : Prop :=
  ∀ x y ch, x < W → y < H → ch < 3 → bufGet err (errIndex W x y + ch) = some (v.err y x ch)

theorem ShowsErr.errGet {W H : Nat} {err : Buf 64} {v : PassView} (h : ShowsErr W H err v) {x y ch : Nat}
    (hx : x < W) (hy : y < H) (hch : ch < 3) :
    errGet err (errIndex W x y + ch) = v.err y x ch := by
  rw [Machine.errGet, h x y ch hx hy hch]
  rfl

theorem errIndex_inj {W x x' y y' ch ch' : Nat} (hx : x < W) (hx' : x' < W) (hch : ch < 3)
    (hch' : ch' < 3) :
    errIndex W x' y' + ch' = errIndex W x y + ch ↔ y' = y ∧ x' = x ∧ ch' = ch := by
  unfold errIndex
  constructor
  · intro h
    obtain ⟨hy, hx⟩ := pixel_index_inj hx' hx (show y' * W + x' = y * W + x by omega)
    exact ⟨hy, hx, by omega⟩
  · rintro ⟨rfl, rfl, rfl⟩
    rfl

/-- One addition (R200, R201 (b)). -/
theorem ShowsErr.follows_add {W H : Nat} {err : Buf 64} {v : PassView} (h : ShowsErr W H err v)
    (hv : v.stopped = false) {x y ch : Nat} (hx : x < W) (hy : y < H) (hch : ch < 3) (q w : F64) :
    Follows (ShowsErr W H) (addError err (errIndex W x y + ch, q, w)) (v.add y x ch (f64Mul q w)) := by
  unfold addError PassView.add
  simp only [h.errGet hx hy hch, hv, Bool.false_eq_true, if_false]
  split
  · refine ⟨rfl, fun x' y' ch' hx' hy' hch' => ?_⟩
    simp only [bufGet_bufSet, errIndex_inj hx hx' hch hch']
    split
    · rfl
    · exact h x' y' ch' hx' hy' hch'
  · exact ⟨rfl, h⟩

/-- The channels of an error with their values (R200). -/
def channels (q : Color64) : List (Nat × F64) := [(0, q.r), (1, q.g), (2, q.b)]

theorem lt_three_of_mem_channels {q : Color64} {b : Nat × F64} (h : b ∈ channels q) : b.1 < 3 := by
  simp only [channels, List.mem_cons, List.not_mem_nil, or_false] at h
  rcases h with rfl | rfl | rfl <;> simp

theorem entryApplies_iff {W H x y : Nat} {e : KernelEntry} : entryApplies W H x y e = true ↔
    0 ≤ e.dy ∧ 0 ≤ (x : Int) + e.dx ∧ (x : Int) + e.dx < W ∧ (y : Int) + e.dy < H := by
  simp [entryApplies, and_assoc]

/-- The additions that an entry asks for at a pixel, none where it does not apply (R192, R200). -/
def appliedUpdates (W H x y : Nat) (q : Color64) (e : KernelEntry) : List (Nat × F64 × F64) :=
  if entryApplies W H x y e then entryUpdates W x y q e else []

theorem pixelUpdates_eq_flatMap (c : DispInput) (x y : Nat) (q : Color64) :
    pixelUpdates c x y q = c.kernel.flatMap (appliedUpdates c.width c.height x y q) := by
  rw [pixelUpdates]
  induction c.kernel with
  | nil => rfl
  | cons e l ih =>
    rw [List.flatMap_cons, ← ih, List.filter_cons, appliedUpdates]
    split <;> rfl

/-- One entry (R192, R200). -/
theorem ShowsErr.follows_spread {W H : Nat} {err : Buf 64} {v : PassView} (h : ShowsErr W H err v)
    (hv : v.stopped = false) (x y : Nat) (q : Color64) (e : KernelEntry) :
    Follows (ShowsErr W H) (addErrors err (appliedUpdates W H x y q e)) (v.spread W H x y q e) := by
  by_cases happ : entryApplies W H x y e = true
  · obtain ⟨hx, hy⟩ := entryApplies_bounds happ
    have hupdates : addErrors err (appliedUpdates W H x y q e) = (channels q).foldlM
        (fun err b => addError err (errIndex W ((x : Int) + e.dx).toNat ((y : Int) + e.dy).toNat + b.1,
          b.2, e.weight)) err := by
      rw [appliedUpdates, if_pos happ, addErrors_eq_foldlM]
      rfl
    have hspread : v.spread W H x y q e = (channels q).foldl (fun v b =>
        v.add ((y : Int) + e.dy).toNat ((x : Int) + e.dx).toNat b.1 (f64Mul b.2 e.weight)) v := by
      rw [PassView.spread, if_pos (entryApplies_iff.1 happ)]
      rfl
    rw [hupdates, hspread]
    exact follows_foldlM (fun v b hstop => add_of_stopped hstop _ _ _ _)
      (fun b hb err v hv h => h.follows_add hv hx hy (lt_three_of_mem_channels hb) _ _) hv h
  · rw [appliedUpdates, if_neg happ, PassView.spread, if_neg (mt entryApplies_iff.2 happ)]
    exact ⟨hv, h⟩

theorem addErrors_flatMap {β : Type} (f : β → List (Nat × F64 × F64)) (l : List β) (err : Buf 64) :
    addErrors err (l.flatMap f) = l.foldlM (fun err b => addErrors err (f b)) err := by
  induction l generalizing err with
  | nil => rfl
  | cons b l ih =>
    rw [List.flatMap_cons, addErrors_eq_foldlM, List.foldlM_append, List.foldlM_cons,
      ← addErrors_eq_foldlM]
    refine bind_congr fun err' => ?_
    rw [← addErrors_eq_foldlM, ih]

/-- All entries at a pixel, in list order (R200). -/
theorem ShowsErr.follows_entries {c : DispInput} {err : Buf 64} {v : PassView}
    (h : ShowsErr c.width c.height err v) (hv : v.stopped = false) (x y : Nat) (q : Color64) :
    Follows (ShowsErr c.width c.height) (addErrors err (pixelUpdates c x y q))
      (c.kernel.foldl (PassView.spread c.width c.height x y q) v) := by
  rw [pixelUpdates_eq_flatMap, addErrors_flatMap]
  exact follows_foldlM (fun v e hstop => spread_of_stopped hstop _ _ _ _ _ _)
    (fun e _ err v hv h => h.follows_spread hv x y q e) hv h

/-! ### One pixel, one cell, the canvas -/

/-- ERR and IDX hold the view's values on the canvas. -/
structure Shows (W H : Nat) (wk : DispWork) (v : PassView) : Prop where
  err : ShowsErr W H wk.err v
  idx : ∀ x y, x < W → y < H → bufGet wk.idx (y * W + x) = v.idx y x

theorem ShowsErr.effective_eq {W H : Nat} {err : Buf 64} {v : PassView} (h : ShowsErr W H err v)
    {x y : Nat} (hx : x < W) (hy : y < H) : effective err W x y = v.effectiveAt y x := by
  rw [PassView.effectiveAt, ← h.errGet hx hy (ch := 0) (by omega),
    ← h.errGet hx hy (ch := 1) (by omega), ← h.errGet hx hy (ch := 2) (by omega)]
  rfl

/-- The view with a pixel's index recorded (R199). -/
def recordView (v : PassView) (y x k : Nat) : PassView :=
  { v with idx := fun y' x' => if y' = y ∧ x' = x then some (BitVec.ofNat 4 k) else v.idx y' x' }

theorem pixel_of_stopped {v : PassView} (h : v.stopped = true) (s : State) (ab : Nat × Nat)
    (y x : Nat) : PassView.pixel s ab y v x = v := by rw [PassView.pixel, if_pos h]

theorem cell_of_stopped {v : PassView} (h : v.stopped = true) (s : State) (y cx : Nat) :
    PassView.cell s y v cx = v := by rw [PassView.cell, if_pos h]

section Canvas

variable {s : State} {c : DispInput} (hwidth : c.width = canvasW s) (hheight : c.height = canvasH s)
  (hcolors : c.colors = paletteColors64 s) (hkernel : c.kernel = kernelAt s)

include hwidth hheight hcolors hkernel

/-- One pixel (R199, R200). -/
theorem Shows.follows_pixel {wk : DispWork} {v : PassView} (h : Shows c.width c.height wk v)
    (hv : v.stopped = false) (ab : Nat × Nat) {x y : Nat} (hx : x < c.width) (hy : y < c.height) :
    Follows (Shows c.width c.height) (dispPixel c ab y x wk) (PassView.pixel s ab y v x) := by
  have heff := h.err.effective_eq hx hy
  have hview : PassView.pixel s ab y v x =
      c.kernel.foldl (PassView.spread c.width c.height x y (pixelError c ab x y wk))
        (recordView v y x (pixelChoice c ab x y wk)) := by
    rw [hwidth] at heff
    rw [PassView.pixel, if_neg (by simp [hv]), hkernel]
    simp only [pixelError, pixelChoice, chooseIndex, heff, hwidth, hheight, hcolors]
    rfl
  have hidx : ∀ x' y', x' < c.width → y' < c.height →
      bufGet (recordIndex c ab x y wk) (y' * c.width + x') =
        (c.kernel.foldl (PassView.spread c.width c.height x y (pixelError c ab x y wk))
          (recordView v y x (pixelChoice c ab x y wk))).idx y' x' := fun x' y' hx' hy' => by
    rw [foldl_spread_idx, recordIndex, bufGet_bufSet, recordView]
    by_cases hpix : y' = y ∧ x' = x
    · obtain ⟨rfl, rfl⟩ := hpix
      simp
    · rw [if_neg (fun he => hpix (pixel_index_inj hx' hx he)), h.idx x' y' hx' hy']
      exact (if_neg hpix).symm
  have herr : ShowsErr c.width c.height wk.err (recordView v y x (pixelChoice c ab x y wk)) := h.err
  have hfollows := herr.follows_entries hv x y (pixelError c ab x y wk)
  rw [hview]
  rcases dispPixel_cases c ab y x wk with ⟨err, he, hp⟩ | ⟨err, he, hp⟩
  · rw [he] at hfollows
    rw [hp]
    exact ⟨hfollows.1, hfollows.2, hidx⟩
  · rw [he] at hfollows
    rw [hp]
    exact ⟨hfollows.1, hfollows.2, hidx⟩

/-- One cell (R196, R197). -/
theorem Shows.follows_cell {wk : DispWork} {v : PassView} (h : Shows c.width c.height wk v)
    (hv : v.stopped = false) (hcfg : c.cfg = s.cfg) {cell : Nat × Nat} (hy : cell.2 < c.height) :
    Follows (Shows c.width c.height) (dispCell c cell wk) (PassView.cell s cell.2 v cell.1) := by
  have hpair : cellPair c cell wk = choosePair s.cfg (paletteColors64 s)
      ((cellXs (canvasW s) cell.1).map (v.effectiveAt cell.2)) := by
    rw [cellPair, hcfg, hcolors, ← hwidth]
    exact congrArg _ (List.map_congr_left fun x hx =>
      h.err.effective_eq (mem_cellXs.1 hx).2.2 hy)
  rw [dispCell_eq_foldlM, hpair, PassView.cell, if_neg (by simp [hv]), ← hwidth]
  exact follows_foldlM (fun v x hstop => pixel_of_stopped hstop s _ _ x)
    (fun x hx wk v hv h => h.follows_pixel hwidth hheight hcolors hkernel hv _
      (mem_cellXs.1 hx).2.2 hy) hv h

/-- The canvas (R196). -/
theorem Shows.follows_passEnd {wk : DispWork} (h : Shows c.width c.height wk (passStart s))
    (hcfg : c.cfg = s.cfg) :
    Follows (Shows c.width c.height) (dispCells c (cellList c.width c.height) wk) (passEnd s) := by
  have hend : passEnd s = (cellList c.width c.height).foldl
      (fun v cell => PassView.cell s cell.2 v cell.1) (passStart s) := by
    rw [passEnd, cellList, List.foldl_flatMap, hwidth, hheight]
    simp only [List.foldl_map]
  rw [dispCells_eq_foldlM, hend]
  exact follows_foldlM (fun v cell hstop => cell_of_stopped hstop s cell.2 cell.1)
    (fun cell hcell wk v hv h => h.follows_cell hwidth hheight hcolors hkernel hv hcfg
      (mem_cellList.1 hcell).2) rfl h

end Canvas

section Reads

variable {s : State} {weights : List F64} {offsets : List (Int × Int)} {pal : List (BitVec 12)}
  {image : List Rgb} (h : DispReads s weights offsets pal image)

include h

theorem DispReads.shows_start :
    Shows (canvasW s) (canvasH s) (dispStart s image) (passStart s) :=
  ⟨fun x y ch hx hy hch => by
    rw [bufGet_dispStart h.imageRead, if_pos (errIndex_lt hx hy hch)]
    rfl, fun _ _ _ _ => rfl⟩

theorem DispReads.follows_passEnd (hkernel : (dispInputOf s pal offsets weights).kernel = kernelAt s) :
    Follows (Shows (canvasW s) (canvasH s))
      (dispPass (dispInputOf s pal offsets weights) image s.err s.idx) (passEnd s) :=
  Shows.follows_passEnd (c := dispInputOf s pal offsets weights) rfl rfl
    (paletteColors_eq h.palRead) hkernel h.shows_start rfl

/-- The pass leaves the elements of ERR beyond the canvas as they were. -/
theorem DispReads.onEither_err_beyond {j : Nat} (hj : 3 * canvasW s * canvasH s ≤ j) :
    onEither (fun wk => bufGet wk.err j = bufGet s.err j)
      (dispPass (dispInputOf s pal offsets weights) image s.err s.idx) := by
  refine onEither_dispCells (P := fun wk => bufGet wk.err j = bufGet s.err j)
    (fun _ _ x _ ab wk hwk => onEither_err_dispPixel (Q := fun err => bufGet err j = bufGet s.err j)
      (fun err herr i hi v _ => ?_) ab _ x hwk) ?_
  · have hne : j ≠ i := fun he => absurd (he ▸ hi) (not_lt.2 hj)
    rw [bufGet_bufSet, if_neg hne, herr]
  · exact (bufGet_dispStart h.imageRead j).trans (if_neg (not_lt.2 hj))

end Reads

end Sys2Proof.Machine

/-! A kernel with weights of magnitude at most 1 (spec/43_disperser.md R194, R200, R201): no addition changes
an element of ERR past 2^62, where a last place is greater than the error added, so none overflows. -/

namespace Sys2Proof.Machine

/-! ### Rounding below a bound -/

/-- What lies nearer to a magnitude than to the next one, or below it, is not rounded above it. -/
theorem roundIndex_le {m k : Nat} (h : 2 * m < (magAt k + magAt (k + 1)) * 2 ^ 1074) :
    roundIndex m ≤ k := by
  by_contra hlt
  obtain ⟨hnear, _⟩ := roundIndex_nearest m k
  have hup : magAt (k + 1) * 2 ^ 1074 ≤ magAt (roundIndex m) * 2 ^ 1074 :=
    Nat.mul_le_mul_right _ (magAt_strictMono.monotone (by omega))
  have hstep : magAt k * 2 ^ 1074 < magAt (k + 1) * 2 ^ 1074 :=
    Nat.mul_lt_mul_of_pos_right (magAt_strictMono (Nat.lt_succ_self k)) (pow_pos two_pos _)
  rw [Nat.add_mul] at h
  unfold Nat.dist at hnear
  omega

/-- A finite number of magnitude at most `n`. -/
structure Within (n : Nat) (a : F64) : Prop where
  finite : f64Finite a = true
  bound : |f64Int a| ≤ n * 2 ^ 1074

/-- A number whose exact value lies nearer to `n` than to the next greater number, or below `n`. -/
theorem IsRoundOf.within {r : F64} {x : Int} {k n : Nat} (h : IsRoundOf r x)
    (hn : magAt k = n * 2 ^ 1074) (hk : k < 0x7FF * 2 ^ 52)
    (hx : 2 * |x| < ((magAt k + magAt (k + 1)) * 2 ^ 1074 : Nat)) : Within n r := by
  obtain ⟨neg, m, rfl, rfl⟩ := h
  rw [← Int.natCast_natAbs, natAbs_signed] at hx
  have hle : roundIndex m ≤ k := roundIndex_le (by exact_mod_cast hx)
  have hfin : f64Finite (f64Round neg m) = true := by
    rw [f64Finite_f64Round, ← roundIndex_lt_iff]
    omega
  refine ⟨hfin, ?_⟩
  rw [f64Int_eq_signed, ← Int.natCast_natAbs, natAbs_signed, f64Mag_eq, f64Round_bits_of_finite hfin]
  calc ((magAt (roundIndex m) : Nat) : Int) ≤ (magAt k : Nat) :=
        Nat.cast_le.2 (magAt_strictMono.monotone hle)
    _ = n * 2 ^ 1074 := by rw [hn, Nat.cast_mul, Nat.cast_pow, Nat.cast_ofNat]

/-- Rounding does not pass an integer. -/
theorem IsRoundOf.within_of_le {r : F64} {x : Int} {n : Nat} (h : IsRoundOf r x) (hn : n < 2 ^ 53)
    (hx : |x| ≤ n * 2 ^ 2148) : Within n r := by
  have hexact : magAt (roundIndex (n * 2 ^ 2148)) * 2 ^ 1074 = n * 2 ^ 2148 :=
    magAt_roundIndex_exact hn (by omega)
  have hmag : magAt (roundIndex (n * 2 ^ 2148)) = n * 2 ^ 1074 := by
    refine Nat.eq_of_mul_eq_mul_right (pow_pos two_pos 1074) (hexact.trans ?_)
    rw [Nat.mul_assoc, ← pow_add]
  refine h.within hmag ((roundIndex_lt_iff _).2 (lt_overflowBound hn)) ?_
  have hlt := lt_of_eq_of_lt hexact.symm (Nat.mul_lt_mul_of_pos_right (magAt_strictMono
    (Nat.lt_succ_self (roundIndex (n * 2 ^ 2148)))) (pow_pos two_pos 1074))
  have hx' : |x| ≤ ((n * 2 ^ 2148 : Nat) : Int) := by
    rwa [Nat.cast_mul, Nat.cast_pow, Nat.cast_ofNat]
  rw [Nat.add_mul, hexact, Nat.cast_add]
  rw [two_mul]
  exact add_lt_add_of_le_of_lt hx' (hx'.trans_lt (Nat.cast_lt.2 hlt))

/-- At 2^62 a last place is 2^10: adding 255 or less does not lead past it. -/
theorem Within.add {a b : F64} (ha : Within (2 ^ 62) a) (hb : Within 255 b) :
    Within (2 ^ 62) (f64Add a b) := by
  have hmag : magAt (1084 * 2 ^ 52 + 2 ^ 52) = 2 ^ 52 * 2 ^ 1084 :=
    magAt_scaled (.inr le_rfl) (by omega)
  have hnext : magAt (1084 * 2 ^ 52 + 2 ^ 52 + 1) = (2 ^ 52 + 1) * 2 ^ 1084 := by
    rw [Nat.add_assoc]
    exact magAt_scaled (.inr (by omega)) (by omega)
  have hpow : (2 : Nat) ^ 1084 = 2 ^ 10 * 2 ^ 1074 := by rw [← pow_add]
  have hU : (0 : Int) < 2 ^ 1074 := pow_pos two_pos _
  have hsum := (abs_add_le (f64Int a) (f64Int b)).trans (add_le_add ha.bound hb.bound)
  refine (isRoundOf_f64Add ha.finite hb.finite).within (k := 1084 * 2 ^ 52 + 2 ^ 52) ?_ (by omega) ?_
  · rw [hmag, hpow, ← Nat.mul_assoc, ← pow_add]
  rw [abs_mul_two_pow, hmag, hnext, hpow, Nat.cast_mul, Nat.cast_pow, Nat.cast_ofNat, ← mul_assoc,
    ← Nat.add_mul, ← Nat.mul_assoc, Nat.cast_mul, Nat.cast_pow, Nat.cast_ofNat]
  refine mul_lt_mul_of_pos_right ?_ hU
  generalize (2 : Int) ^ 1074 = U at *
  push_cast at hsum ⊢
  linarith

/-! ### The error of a pixel and what an entry adds -/

/-- A clamped number lies in `[0, 255]` (R194). -/
theorem f64Clamp_range {a : F64} (h : f64Finite a = true) :
    f64Finite (f64Clamp a) = true ∧ 0 ≤ f64Int (f64Clamp a) ∧
      f64Int (f64Clamp a) ≤ 255 * 2 ^ 1074 := by
  have hzero : HoldsInt (f64OfNat 0) 0 := holdsInt_f64OfNat (n := 0) (by omega)
  have hmax : HoldsInt (f64OfNat 255) 255 := holdsInt_f64OfNat (n := 255) (by omega)
  have hpos : (0 : Int) < 2 ^ 1074 := pow_pos two_pos _
  have hnan := f64Nan_of_finite h
  have hlow := f64Lt_iff hnan (f64Nan_of_finite hzero.finite)
  have hhigh := f64Lt_iff (f64Nan_of_finite hmax.finite) hnan
  rw [hzero.value, Int.zero_mul] at hlow
  rw [hmax.value] at hhigh
  unfold f64Clamp
  split
  · rw [hzero.value, Int.zero_mul]
    exact ⟨hzero.finite, le_rfl, (mul_pos (by norm_num) hpos).le⟩
  · next hge =>
    rw [hlow, not_lt] at hge
    split
    · rw [hmax.value]
      exact ⟨hmax.finite, (mul_pos (by norm_num) hpos).le, le_rfl⟩
    · next hle =>
      rw [hhigh, not_lt] at hle
      exact ⟨h, hge, hle⟩

/-- An effective channel minus a palette channel has magnitude at most 255 (R200). -/
theorem within_sub_byte {a : F64} (h : f64Finite a = true) {n : Nat} (hn : n < 256) :
    Within 255 (f64Sub (f64Clamp a) (f64OfNat n)) := by
  obtain ⟨hfin, hlow, hhigh⟩ := f64Clamp_range h
  have hbyte : HoldsInt (f64OfNat n) n := holdsInt_f64OfNat (by omega)
  have hround := isRoundOf_f64Add hfin ((f64Finite_f64Negate _).trans hbyte.finite)
  refine hround.within_of_le (by omega) ?_
  have hpow : (2 : Int) ^ 2148 = 2 ^ 1074 * 2 ^ 1074 := by rw [← pow_add]
  have hpos : (0 : Int) < 2 ^ 1074 := pow_pos two_pos _
  have hn0 : (0 : Int) ≤ n * 2 ^ 1074 := mul_nonneg (Nat.cast_nonneg n) hpos.le
  have hn255 : (n : Int) * 2 ^ 1074 ≤ 255 * 2 ^ 1074 :=
    mul_le_mul_of_nonneg_right (by omega) hpos.le
  rw [f64Int_f64Negate, hbyte.value, abs_mul_two_pow, hpow, ← mul_assoc]
  refine mul_le_mul_of_nonneg_right ?_ hpos.le
  generalize (2 : Int) ^ 1074 = U at *
  exact abs_le.2 ⟨by push_cast; linarith, by push_cast; linarith⟩

/-- A product with a weight of magnitude at most 1 has no greater magnitude. -/
theorem Within.mul {n : Nat} {a w : F64} (ha : Within n a) (hn : n < 2 ^ 53)
    (hw : f64Finite w = true) (hmag : f64Mag w ≤ 2 ^ 1074) : Within n (f64Mul a w) := by
  have hround := isRoundOf_f64Mul ha.finite hw
  have hweight : |f64Int w| ≤ 2 ^ 1074 := by
    rw [f64Int_eq_signed, ← Int.natCast_natAbs, natAbs_signed]
    calc ((f64Mag w : Nat) : Int) ≤ ((2 ^ 1074 : Nat) : Int) := Nat.cast_le.2 hmag
      _ = 2 ^ 1074 := by rw [Nat.cast_pow, Nat.cast_ofNat]
  refine hround.within_of_le hn ?_
  calc |f64Int a * f64Int w| = |f64Int a| * |f64Int w| := abs_mul _ _
    _ ≤ n * 2 ^ 1074 * 2 ^ 1074 := mul_le_mul ha.bound hweight (abs_nonneg _)
        (mul_nonneg (Nat.cast_nonneg n) (pow_pos two_pos _).le)
    _ = n * 2 ^ 2148 := by rw [mul_assoc, ← pow_add]

/-! ### The pass with a tame kernel -/

/-- The weights are finite and of magnitude at most 1. -/
def TameKernel (c : DispInput) : Prop :=
  ∀ e ∈ c.kernel, f64Finite e.weight = true ∧ f64Mag e.weight ≤ 2 ^ 1074

/-- Every element of ERR on the canvas is of magnitude at most 2^62. -/
def TameErr (n : Nat) (err : Buf 64) : Prop := ∀ j < n, Within (2 ^ 62) (errGet err j)

theorem TameErr.addError {n : Nat} {err : Buf 64} (h : TameErr n err) {u : Nat × F64 × F64}
    (hu : u.1 < n) (hamount : Within 255 (f64Mul u.2.1 u.2.2)) :
    ∃ err', addError err u = .ok err' ∧ TameErr n err' := by
  have hsum := (h u.1 hu).add hamount
  refine ⟨_, if_pos hsum.finite, fun j hj => ?_⟩
  rw [errGet_bufSet]
  split
  · exact hsum
  · exact h j hj

theorem exists_byte_colorAt {P : Nat → Rgb} (h : ∀ k < 16, IsByteColor (P k)) (k : Nat) :
    ∃ color, IsByteColor color ∧ colorAt (exactColors P) k = color64Of color := by
  by_cases hk : k < 16
  · exact ⟨P k, h k hk, colorAt_exactColors P hk⟩
  · refine ⟨⟨0, 0, 0⟩, ⟨by decide, by decide, by decide⟩, ?_⟩
    rw [colorAt, List.getD_eq_default _ _ (by simp [exactColors]; omega)]
    rfl

section Tame

variable {c : DispInput} {P : Nat → Rgb} (hbyte : ∀ k < 16, IsByteColor (P k))
  (hcolors : c.colors = exactColors P) (hker : TameKernel c)

include hbyte hcolors hker

/-- A pixel of the canvas completes, and the elements of ERR stay within 2^62. -/
theorem TameErr.dispPixel {wk : DispWork} (herr : TameErr (3 * c.width * c.height) wk.err)
    (ab : Nat × Nat) {x y : Nat} (hx : x < c.width) (hy : y < c.height) :
    ∃ wk', dispPixel c ab y x wk = .ok wk' ∧ TameErr (3 * c.width * c.height) wk'.err := by
  obtain ⟨color, hcb, hcolor⟩ := exists_byte_colorAt hbyte (pixelChoice c ab x y wk)
  rw [← hcolors] at hcolor
  have hfin : ∀ ch < 3, f64Finite (errGet wk.err (errIndex c.width x y + ch)) = true :=
    fun ch hch => (herr _ (errIndex_lt hx hy hch)).finite
  have hr : Within 255 (pixelError c ab x y wk).r := by
    rw [pixelError, hcolor]
    exact within_sub_byte (hfin 0 (by omega)) hcb.1
  have hg : Within 255 (pixelError c ab x y wk).g := by
    rw [pixelError, hcolor]
    exact within_sub_byte (hfin 1 (by omega)) hcb.2.1
  have hb : Within 255 (pixelError c ab x y wk).b := by
    rw [pixelError, hcolor]
    exact within_sub_byte (hfin 2 (by omega)) hcb.2.2
  have hadd : ∃ err, addErrors wk.err (pixelUpdates c x y (pixelError c ab x y wk)) = .ok err ∧
      TameErr (3 * c.width * c.height) err := by
    rw [addErrors_eq_foldlM]
    refine exists_foldlM_ok (fun u hu err herr => ?_) herr
    obtain ⟨hlt, hq, e, he, hw⟩ := mem_pixelUpdates hu
    have hq' : Within 255 u.2.1 := by rcases hq with hq | hq | hq <;> rw [hq] <;> assumption
    obtain ⟨hwfin, hwmag⟩ := hker e he
    exact herr.addError hlt (hw ▸ hq'.mul (by omega) hwfin hwmag)
  obtain ⟨err, hok, htame⟩ := hadd
  exact ⟨_, dispPixel_of_ok hok, htame⟩

theorem TameErr.dispCell {wk : DispWork} (herr : TameErr (3 * c.width * c.height) wk.err)
    {cell : Nat × Nat} (hy : cell.2 < c.height) :
    ∃ wk', dispCell c cell wk = .ok wk' ∧ TameErr (3 * c.width * c.height) wk'.err := by
  rw [dispCell_eq_foldlM]
  exact exists_foldlM_ok (P := fun wk : DispWork => TameErr (3 * c.width * c.height) wk.err)
    (fun x hx wk hwk => hwk.dispPixel hbyte hcolors hker _ (mem_cellXs.1 hx).2.2 hy) herr

/-- The pass completes. -/
theorem TameErr.dispCells {wk : DispWork} (herr : TameErr (3 * c.width * c.height) wk.err) :
    ∃ wk', dispCells c (cellList c.width c.height) wk = .ok wk' := by
  rw [dispCells_eq_foldlM]
  obtain ⟨wk', hok, -⟩ := exists_foldlM_ok (l := cellList c.width c.height)
    (P := fun wk : DispWork => TameErr (3 * c.width * c.height) wk.err)
    (fun cell hcell wk hwk => hwk.dispCell hbyte hcolors hker (mem_cellList.1 hcell).2) herr
  exact ⟨wk', hok⟩

end Tame

theorem tameErr_dispStart {s : State} {image : List Rgb} (h : readImage s = some image) :
    TameErr (3 * canvasW s * canvasH s) (dispStart s image).err := fun j hj => by
  have hbyte := holdsInt_byte ((bufGet s.img j).getD 0)
  rw [errGet, bufGet_dispStart h, if_pos hj]
  refine ⟨hbyte.finite, ?_⟩
  rw [Option.getD_some, hbyte.value, abs_mul_two_pow, Nat.abs_cast]
  refine mul_le_mul_of_nonneg_right (Nat.cast_le.2 ?_) (pow_pos two_pos _).le
  have := ((bufGet s.img j).getD 0).isLt
  omega

/-- What DISP leaves in IDX and ERR against the view `v` (R199, R200). -/
structure LeavesView (s : State) (v : PassView) (wk : DispWork) : Prop where
  shows : Shows (canvasW s) (canvasH s) wk v
  idxBeyond : ∀ j, canvasW s * canvasH s ≤ j → bufGet wk.idx j = bufGet s.idx j
  errBeyond : ∀ j, 3 * canvasW s * canvasH s ≤ j → bufGet wk.err j = bufGet s.err j

section Reads

variable {s : State} {weights : List F64} {offsets : List (Int × Int)} {pal : List (BitVec 12)}
  {image : List Rgb} (h : DispReads s weights offsets pal image)

include h

/-- With a tame kernel DISP completes and every live element of IDX is written. -/
theorem DispReads.exec_of_tame (hf : s.fault = false) (hp : s.cfg.Lawful)
    (hker : TameKernel (dispInputOf s pal offsets weights)) :
    ∃ t, exec .disp s = .next t ∧ t = { s with idx := t.idx, err := t.err, idxv := true } ∧
      ∀ j < canvasW s * canvasH s, (bufGet t.idx j).isSome = true := by
  obtain ⟨wk, hok⟩ := TameErr.dispCells (c := dispInputOf s pal offsets weights)
    (P := paletteRgb s) (fun _ _ => lat_lt hp _) (paletteColors_eq h.palRead) hker
    (tameErr_dispStart h.imageRead)
  exact ⟨_, h.exec_of_ok hf hok, rfl,
    written_of_twoIndices fun cell hcell => twoIndices_of_dispCells hok hcell⟩

theorem DispReads.pass_cases
    (hkernel : (dispInputOf s pal offsets weights).kernel = kernelAt s) :
    ∃ wk, LeavesView s (passEnd s) wk ∧
      (((passEnd s).stopped = false ∧
          dispPass (dispInputOf s pal offsets weights) image s.err s.idx = .ok wk) ∨
        ((passEnd s).stopped = true ∧
          dispPass (dispInputOf s pal offsets weights) image s.err s.idx = .error wk)) := by
  have hfollows := h.follows_passEnd hkernel
  have hidx : ∀ j, canvasW s * canvasH s ≤ j → onEither (fun wk => bufGet wk.idx j = bufGet s.idx j)
      (dispPass (dispInputOf s pal offsets weights) image s.err s.idx) := fun j hj =>
    onEither_idx_beyond (c := dispInputOf s pal offsets weights) (dispStart s image) hj
  cases hpass : dispPass (dispInputOf s pal offsets weights) image s.err s.idx with
  | ok wk =>
    rw [hpass] at hfollows
    exact ⟨wk, ⟨hfollows.2, fun j hj => (hidx j hj).of_ok hpass,
      fun j hj => (h.onEither_err_beyond hj).of_ok hpass⟩, .inl ⟨hfollows.1, rfl⟩⟩
  | error wk =>
    rw [hpass] at hfollows
    exact ⟨wk, ⟨hfollows.2, fun j hj => (hidx j hj).of_error hpass,
      fun j hj => (h.onEither_err_beyond hj).of_error hpass⟩, .inr ⟨hfollows.1, rfl⟩⟩

end Reads

/-- Settles O47: the pass follows the view step by step, and with a tame kernel no addition overflows. -/
theorem dispRunsItsKernel : Obligations.DispRunsItsKernel := by
  intro s hf hg hv hk hpal himg hkrn
  obtain ⟨weights, offsets, pal, image, hreads, hkernel⟩ :=
    dispReads_of_kernel hg hv hk hpal himg hkrn
  refine ⟨?_, fun hp hmag => hreads.exec_of_tame hf hp fun e he => ?_⟩
  · obtain ⟨wk, hleaves, hend⟩ := hreads.pass_cases hkernel
    rcases hend with ⟨hrun, hok⟩ | ⟨hstop, herror⟩
    · exact ⟨_, hreads.exec_of_ok hf hok, by rw [hrun]; rfl, hleaves.shows.idx,
        hleaves.idxBeyond, hleaves.shows.err, hleaves.errBeyond⟩
    · exact ⟨_, hreads.exec_of_error hf herror, by rw [hstop]; rfl, hleaves.shows.idx,
        hleaves.idxBeyond, hleaves.shows.err, hleaves.errBeyond⟩
  · rw [hkernel] at he
    obtain ⟨k, hlt, rfl⟩ := List.mem_map.1 he
    exact ⟨(hkrn k (List.mem_range.1 hlt)).2, hmag k (List.mem_range.1 hlt)⟩

end Sys2Proof.Machine

/-! VERIFY after DISP (spec/44_verifier.md R217): what a completed DISP leaves in IDX is a fact about
IDX, CANVAS and the hardware alone, and where it holds VERIFY logs no cell. -/

namespace Sys2Proof.Machine

/-- The canvas is in range and each of its cells holds at most two indices in IDX (R207). -/
structure ClashFree (s : State) : Prop where
  geom : geomOk s = true
  cells : ∀ cell ∈ cellList (canvasW s) (canvasH s), TwoIndices (canvasW s) s.idx cell

/-- It stays while IDX, CANVAS and the hardware do. -/
theorem ClashFree.of_same {s t : State} (h : ClashFree s) (hidx : t.idx = s.idx)
    (hcanvas : t.canvas = s.canvas) (hcfg : t.cfg = s.cfg) : ClashFree t := by
  have hW : canvasW t = canvasW s := congrArg (fun v => (v.extractLsb' 0 16).toNat) hcanvas
  have hH : canvasH t = canvasH s := congrArg (fun v => (v.extractLsb' 16 16).toNat) hcanvas
  constructor
  · rw [geomOk, hW, hH, hcfg]
    exact h.geom
  · rw [hW, hH, hidx]
    exact h.cells

/-- A DISP that completed leaves at most two indices in each cell (R207). -/
theorem clashFree_of_exec_disp {s t : State} (hf : s.fault = false) (h : exec .disp s = .next t)
    (ht : t.fault = false) : ClashFree t := by
  obtain ⟨weights, offsets, pal, image, wk, hreads, hpass, rfl⟩ := exec_disp_completes hf h ht
  exact ⟨hreads.geom, fun _ hcell => twoIndices_of_dispCells hpass hcell⟩

/-- No cell of such a canvas is logged, whatever VERIFY reads of IDX (R216). -/
theorem ClashFree.violations_eq_nil {s : State} (h : ClashFree s) {indices : List Nat}
    (hi : readIndices s = some indices) : violations (canvasW s) (canvasH s) indices = [] := by
  obtain ⟨l, hl, rfl⟩ := Option.map_eq_some_iff.1 hi
  rw [violations_eq_map fun c hc => distinctCount_cellIndices hl hc, List.map_eq_nil_iff,
    List.filter_eq_nil_iff]
  intro c hc
  rw [decide_eq_true_eq, not_lt]
  exact (h.cells c hc).card_le

/-- VERIFY can read the whole IDX of such a canvas. -/
theorem ClashFree.exists_readIndices {s : State} (h : ClashFree s) :
    ∃ indices, readIndices s = some indices := by
  obtain ⟨l, hl⟩ := bufReadRun_of_written (written_of_twoIndices h.cells)
  exact ⟨l.map BitVec.toNat, by rw [readIndices, hl]; rfl⟩

/-- Settles O49: IDX still holds at most two indices in each cell, so the log is empty. -/
theorem verifyAfterDispFindsNothing : Obligations.VerifyAfterDispFindsNothing := by
  intro s t later hf hdisp ht hidx hcanvas hcfg hv hlater
  have hfree : ClashFree later := (clashFree_of_exec_disp hf hdisp ht).of_same hidx hcanvas hcfg
  obtain ⟨indices, hread⟩ := hfree.exists_readIndices
  refine ⟨_, exec_verify_eq hlater hfree.geom hv hread, ?_, ?_, hlater⟩
  · simp only [hfree.violations_eq_nil hread]
    rfl
  · simp only [hfree.violations_eq_nil hread]
    rfl

end Sys2Proof.Machine

/-! The block encoder (spec/45_block_encoder.md R221 to R227): what the shape byte and the two
colour bytes of a cell hold, that they give the cell back, and that BLKENC writes them for every cell. -/

namespace Sys2Proof.Machine

/-! ### The foreground of a cell -/

/-- A cell has a foreground of its own, the first index that is not the background, or it has one
colour and `UNIFORM_FG` chooses (R221). -/
theorem cellFg_cases (p : Params) (q : List Nat) :
    (∃ i : Nat, q[i]? = some (cellFg p q) ∧ cellFg p q ≠ cellBg q ∧
      ∀ j : Nat, j < i → q[j]? = some (cellBg q)) ∨
    ((∀ k ∈ q, k = cellBg q) ∧
      ((p.uniformFg = .bg ∧ cellFg p q = cellBg q) ∨ (p.uniformFg = .zero ∧ cellFg p q = 0))) := by
  unfold cellFg
  cases hfind : q.find? (fun k => k != cellBg q) with
  | some fg =>
    obtain ⟨hne, i, hi, hget, hbefore⟩ := List.find?_eq_some_iff_getElem.1 hfind
    refine .inl ⟨i, List.getElem?_eq_some_iff.2 ⟨hi, hget⟩, by simpa using hne, fun j hj => ?_⟩
    exact List.getElem?_eq_some_iff.2 ⟨hj.trans hi, by simpa using hbefore j hj⟩
  | none =>
    refine .inr ⟨fun k hk => by simpa using List.find?_eq_none.1 hfind k hk, ?_⟩
    cases hu : p.uniformFg with
    | bg => exact .inl ⟨rfl, rfl⟩
    | zero => exact .inr ⟨rfl, rfl⟩

/-- The background is the first pixel's index (R221). -/
theorem getElem?_zero_cellBg {q : List Nat} (h : q ≠ []) : q[0]? = some (cellBg q) := by
  cases q with
  | nil => exact absurd rfl h
  | cons k q => rfl

/-- Both colours of a cell are palette indices. -/
theorem cell_colors_lt {p : Params} {q : List Nat} (h : ∀ k ∈ q, k < 16) :
    cellBg q < 16 ∧ cellFg p q < 16 := by
  have hbg : cellBg q < 16 := by
    cases q with
    | nil => decide
    | cons k q => exact h k List.mem_cons_self
  refine ⟨hbg, ?_⟩
  rcases cellFg_cases p q with ⟨_, hget, _⟩ | ⟨_, ⟨_, hfg⟩ | ⟨_, hfg⟩⟩
  · exact h _ (List.mem_of_getElem? hget)
  · rw [hfg]
    exact hbg
  · rw [hfg]
    decide

/-- In a cell with at most two indices a pixel that is not the foreground is the background. -/
theorem eq_cellBg_of_ne_cellFg {p : Params} {q : List Nat} {a b k : Nat}
    (htwo : ∀ k ∈ q, k = a ∨ k = b) (hk : k ∈ q) (hne : k ≠ cellFg p q) : k = cellBg q := by
  rcases cellFg_cases p q with ⟨_, hget, hfg, _⟩ | ⟨hall, _⟩
  · have hbg : cellBg q ∈ q := List.mem_of_getElem? (getElem?_zero_cellBg (List.ne_nil_of_mem hk))
    have h1 := htwo _ hk
    have h2 := htwo _ hbg
    have h3 := htwo _ (List.mem_of_getElem? hget)
    omega
  · exact hall k hk

/-! ### The shape byte -/

/-- The sum behind the shape byte (R104), for the pixels `q` from position `k` on. -/
def shapeSum (fg k : Nat) (q : List Nat) : Nat :=
  ((q.zipIdx k).map fun e => if e.1 = fg then 2 ^ (7 - e.2) else 0).sum

theorem shapeByte_eq_shapeSum (fg : Nat) (q : List Nat) :
    shapeByte fg q = BitVec.ofNat 8 (shapeSum fg 0 q) := rfl

theorem shapeSum_nil (fg k : Nat) : shapeSum fg k [] = 0 := rfl

theorem shapeSum_cons (fg k a : Nat) (q : List Nat) :
    shapeSum fg k (a :: q) = (if a = fg then 2 ^ (7 - k) else 0) + shapeSum fg (k + 1) q := by
  rw [shapeSum, List.zipIdx_cons, List.map_cons, List.sum_cons, shapeSum]

/-- The pixels from position `k` on have the bits below `8 - k`. -/
theorem shapeSum_lt (fg : Nat) {k : Nat} {q : List Nat} (h : k + q.length ≤ 8) :
    shapeSum fg k q < 2 ^ (8 - k) := by
  induction q generalizing k with
  | nil => exact Nat.two_pow_pos _
  | cons a q ih =>
    rw [List.length_cons] at h
    have htail := ih (k := k + 1) (by omega)
    have hhead : (if a = fg then 2 ^ (7 - k) else 0) ≤ 2 ^ (7 - k) := by
      split
      · exact le_rfl
      · exact Nat.zero_le _
    have hpow : 2 ^ (8 - k) = 2 ^ (7 - k) + 2 ^ (7 - k) := by
      rw [← Nat.two_mul, ← Nat.pow_succ', show (7 - k).succ = 8 - k by omega]
    rw [shapeSum_cons]
    rw [show 8 - (k + 1) = 7 - k by omega] at htail
    omega

/-- Each pixel has its own bit: the summands do not carry. -/
theorem testBit_shapeSum (fg : Nat) {k i : Nat} {q : List Nat} (h : k + q.length ≤ 8)
    (hki : k + i < 8) : (shapeSum fg k q).testBit (7 - (k + i)) = decide (q[i]? = some fg) := by
  induction q generalizing k i with
  | nil => simp [shapeSum_nil]
  | cons a q ih =>
    rw [List.length_cons] at h
    have htail := shapeSum_lt fg (k := k + 1) (q := q) (by omega)
    rw [show 8 - (k + 1) = 7 - k by omega] at htail
    rw [shapeSum_cons]
    cases i with
    | zero =>
      have hclear := Nat.testBit_lt_two_pow htail
      split
      · next ha => simp [ha, Nat.testBit_two_pow_add_eq, hclear]
      · next ha => simp [ha, hclear]
    | succ i =>
      have hih := ih (k := k + 1) (i := i) (by omega) (by omega)
      rw [show k + 1 + i = k + (i + 1) by omega] at hih
      rw [List.getElem?_cons_succ, ← hih]
      split
      · exact Nat.testBit_two_pow_add_gt (by omega) _
      · rw [Nat.zero_add]

/-- R104, R222: a pixel's bit, the leftmost in bit 7, is set exactly where the pixel is there and is
the foreground. -/
theorem shapeByte_getLsbD (fg : Nat) {q : List Nat} (h : q.length ≤ 8) {i : Nat} (hi : i < 8) :
    (shapeByte fg q).getLsbD (7 - i) = decide (q[i]? = some fg) := by
  have hbit := testBit_shapeSum fg (k := 0) (i := i) (q := q) (by omega) (by omega)
  rw [Nat.zero_add] at hbit
  rw [shapeByte_eq_shapeSum, BitVec.getLsbD_ofNat, hbit, decide_eq_true (by omega : 7 - i < 8),
    Bool.true_and]

/-! ### The colour bytes -/

theorem pastelFlag_getLsbD (p : Params) (k : Nat) :
    (pastelFlag p k).getLsbD 0 = if p.pastelHigh then k.testBit 3 else !k.testBit 3 :=
  BitVec.getLsbD_ofBool _ 0 |>.trans (Bool.true_and _)

/-- An active-high flag and the three low bits are the index (R105). -/
theorem pastelFlag_add_lowBits {p : Params} (hp : p.pastelHigh = true) {k : Nat} (hk : k < 16) :
    8 * (pastelFlag p k).toNat + (BitVec.ofNat 3 k).toNat = k := by
  rw [pastelFlag, if_pos hp, BitVec.toNat_ofBool, Nat.testBit_eq_decide_div_mod_eq,
    BitVec.toNat_ofNat]
  by_cases h : k / 2 ^ 3 % 2 = 1
  · rw [decide_eq_true h, Bool.toNat_true]; omega
  · rw [decide_eq_false h, Bool.toNat_false]; omega

/-- The four fields of variant A (R105). -/
theorem colorByteA_fields (p : Params) (fg bg : Nat) :
    (colorByteA p fg bg).extractLsb' 7 1 = pastelFlag p fg ∧
    (colorByteA p fg bg).extractLsb' 6 1 = pastelFlag p bg ∧
    (colorByteA p fg bg).extractLsb' 3 3 = BitVec.ofNat 3 fg ∧
    (colorByteA p fg bg).extractLsb' 0 3 = BitVec.ofNat 3 bg := by
  unfold colorByteA
  refine ⟨?_, ?_, ?_, BitVec.extractLsb'_append_eq_right⟩
  · rw [BitVec.extractLsb'_append_eq_of_le (by decide),
      BitVec.extractLsb'_append_eq_of_le (by decide)]
    exact BitVec.extractLsb'_append_eq_left
  · rw [BitVec.extractLsb'_append_eq_of_le (by decide),
      BitVec.extractLsb'_append_eq_of_le (by decide)]
    exact BitVec.extractLsb'_append_eq_right
  · rw [BitVec.extractLsb'_append_eq_of_le (by decide)]
    exact BitVec.extractLsb'_append_eq_right

/-- The pastel flags are bits 7 and 6 (R105). -/
theorem colorByteA_flags (p : Params) (fg bg : Nat) :
    (colorByteA p fg bg).getLsbD 7 = (pastelFlag p fg).getLsbD 0 ∧
    (colorByteA p fg bg).getLsbD 6 = (pastelFlag p bg).getLsbD 0 := by
  obtain ⟨h7, h6, _⟩ := colorByteA_fields p fg bg
  rw [← h7, ← h6, BitVec.getLsbD_extractLsb', BitVec.getLsbD_extractLsb']
  exact ⟨rfl, rfl⟩

/-- The two nibbles of variant B (R106). -/
theorem colorByteB_fields (fg bg : Nat) :
    (colorByteB fg bg).extractLsb' 4 4 = BitVec.ofNat 4 fg ∧
    (colorByteB fg bg).extractLsb' 0 4 = BitVec.ofNat 4 bg :=
  ⟨BitVec.extractLsb'_append_eq_left, BitVec.extractLsb'_append_eq_right⟩

theorem colorByteB_toNat {fg bg : Nat} (hf : fg < 16) (hb : bg < 16) :
    (colorByteB fg bg).toNat = fg * 16 + bg := by
  rw [colorByteB, BitVec.toNat_append, BitVec.toNat_ofNat, BitVec.toNat_ofNat,
    Nat.mod_eq_of_lt hf, Nat.mod_eq_of_lt hb, ← Nat.shiftLeft_add_eq_or_of_lt hb, Nat.shiftLeft_eq]

/-- Settles O54: a pixel's shape bit says whether it is the foreground, else it is the background,
and each variant holds both. -/
theorem cellsAreDecodable : Obligations.CellsAreDecodable := by
  intro p q a b _ hlen hq
  dsimp only
  intro i k hk
  obtain ⟨h7, h6, h3, h0⟩ := colorByteA_fields p (cellFg p q) (cellBg q)
  obtain ⟨hhi, hlo⟩ := colorByteB_fields (cellFg p q) (cellBg q)
  have hmem : k ∈ q := List.mem_of_getElem? hk
  have hk16 : k < 16 := (hq k hmem).1
  have hi : i < 8 := (List.getElem?_eq_some_iff.1 hk).1.trans_le hlen
  have hbit : (shapeByte (cellFg p q) q).getLsbD (7 - i) = decide (k = cellFg p q) := by
    rw [shapeByte_getLsbD _ hlen hi, hk]
    simp only [Option.some.injEq]
  have hnibble : (BitVec.ofNat 4 k).toNat = k := Nat.mod_eq_of_lt hk16
  by_cases hfg : k = cellFg p q
  · rw [decide_eq_true hfg] at hbit
    rw [if_pos hbit, if_pos hbit, hhi, h7, h3, ← hfg]
    exact ⟨hnibble, fun hp => pastelFlag_add_lowBits hp hk16⟩
  · have hbg : k = cellBg q := eq_cellBg_of_ne_cellFg (fun j hj => (hq j hj).2) hmem hfg
    have hclear : ¬ (shapeByte (cellFg p q) q).getLsbD (7 - i) = true := by
      rw [hbit]
      exact hfg ∘ of_decide_eq_true
    rw [if_neg hclear, if_neg hclear, hlo, h6, h0, ← hbg]
    exact ⟨hnibble, fun hp => pastelFlag_add_lowBits hp hk16⟩

/-! ### BLKENC -/

theorem cellList_succ (W H : Nat) :
    cellList W (H + 1) = cellList W H ++ (List.range (cellCols W)).map fun cx => (cx, H) := by
  rw [cellList, List.range_succ, List.flatMap_append, List.flatMap_singleton, cellList]

/-- Where a cell stands in the order of the planes (R43). -/
theorem cellList_getElem? {W H cx y : Nat} (hx : cx < cellCols W) (hy : y < H) :
    (cellList W H)[y * cellCols W + cx]? = some (cx, y) := by
  induction H with
  | zero => exact absurd hy (Nat.not_lt_zero y)
  | succ H ih =>
    have hlen := cellList_length W H
    rw [cellList_succ]
    rcases Nat.lt_succ_iff_lt_or_eq.1 hy with hlt | rfl
    · rw [List.getElem?_append_left (by rw [hlen]; exact pixelIndex_lt hx hlt), ih hlt]
    · have hskip : y * cellCols W + cx - (cellList W y).length = cx := by
        rw [hlen, Nat.mul_comm, Nat.add_sub_cancel_left]
      rw [List.getElem?_append_right (by rw [hlen, Nat.mul_comm]; exact Nat.le_add_right ..), hskip,
        List.getElem?_map, List.getElem?_range hx]
      rfl

/-- The indices of a cell as they stand in IDX (R220). -/
theorem cellIndices_eq_bufGet {b : Buf 4} {W H : Nat} {l : List (BitVec 4)}
    (h : bufReadRun b 0 (W * H) = some l) {cx y : Nat} (hy : y < H) :
    cellIndices W (l.map BitVec.toNat) (cx, y) =
      (cellXs W cx).map fun x => ((bufGet b (y * W + x)).getD 0).toNat := by
  refine List.map_congr_left fun x hx => ?_
  have hget := (bufReadRun_eq_some.1 h).2 _ (pixelIndex_lt (mem_cellXs.1 hx).2.2 hy)
  rw [Nat.zero_add] at hget
  rw [hget, ← List.getD_eq_getElem?_getD]
  exact List.getD_map l 0 BitVec.toNat

/-- A plane written cell by cell (R43): the byte of a cell. -/
theorem bufGet_writePlane (b : Buf 8) (f : List Nat → Byte) {W H cx y : Nat} (indices : List Nat)
    (hx : cx < cellCols W) (hy : y < H) :
    bufGet (bufWriteRun b 0 ((planeCells W H indices).map f)) (y * cellCols W + cx) =
      some (f (cellIndices W indices (cx, y))) := by
  have hlt := pixelIndex_lt hx hy
  rw [bufGet_bufWriteRun, List.length_map, planeCells_length, if_pos (by omega), Nat.sub_zero,
    List.getElem?_map, planeCells, List.getElem?_map, cellList_getElem? hx hy]
  rfl

/-- A plane written cell by cell: elements beyond the live part are kept. -/
theorem bufGet_writePlane_of_le (b : Buf 8) (f : List Nat → Byte) {W H j : Nat} (indices : List Nat)
    (h : cellCols W * H ≤ j) :
    bufGet (bufWriteRun b 0 ((planeCells W H indices).map f)) j = bufGet b j := by
  rw [bufGet_bufWriteRun, List.length_map, planeCells_length, if_neg (by omega)]

/-- What BLKENC leaves, its checks and its input given (R223). -/
theorem exec_blkenc_eq {s : State} {indices : List Nat} (hf : s.fault = false)
    (hg : geomOk s = true) (hv : s.idxv = true) (hi : readIndices s = some indices) :
    exec .blkenc s = .next { s with
      shp := bufWriteRun s.shp 0 ((planeCells (canvasW s) (canvasH s) indices).map
        fun q => shapeByte (cellFg s.cfg q) q)
      cola := bufWriteRun s.cola 0 ((planeCells (canvasW s) (canvasH s) indices).map
        fun q => colorByteA s.cfg (cellFg s.cfg q) (cellBg q))
      colb := bufWriteRun s.colb 0 ((planeCells (canvasW s) (canvasH s) indices).map
        fun q => colorByteB (cellFg s.cfg q) (cellBg q))
      plnv := true } := by
  rw [exec, execBlkenc, gated_of_clear hf, hg, needs_true, hv, needs_true, hi, needsRead_some]

/-- Settles O53: each plane is written cell by cell, and each cell's bytes are those of R221 and
R222. -/
theorem blkencCompletes : Obligations.BlkencCompletes := by
  intro s hf hg hv hw
  obtain ⟨l, hl⟩ := bufReadRun_of_written hw
  have hread : readIndices s = some (l.map BitVec.toNat) := by rw [readIndices, hl]; rfl
  refine ⟨_, exec_blkenc_eq hf hg hv hread, rfl, fun cx y hx hy => ?_, fun j hj =>
    ⟨bufGet_writePlane_of_le _ _ _ hj, bufGet_writePlane_of_le _ _ _ hj,
      bufGet_writePlane_of_le _ _ _ hj⟩⟩
  intro q at_
  have hq : cellIndices (canvasW s) (l.map BitVec.toNat) (cx, y) = q := cellIndices_eq_bufGet hl hy
  have hlen : q.length ≤ 8 := (List.length_map _).trans_le (cellXs_length_le _ _)
  have hne : q ≠ [] := fun h => cellXs_ne_nil hx (List.map_eq_nil_iff.1 h)
  have hq16 : ∀ k ∈ q, k < 16 := fun k hk => by
    obtain ⟨x, _, rfl⟩ := List.mem_map.1 hk
    exact BitVec.isLt _
  obtain ⟨hbg, hfg⟩ := cell_colors_lt (p := s.cfg) hq16
  obtain ⟨h7, h6⟩ := colorByteA_flags s.cfg (cellFg s.cfg q) (cellBg q)
  obtain ⟨_, _, h3, h0⟩ := colorByteA_fields s.cfg (cellFg s.cfg q) (cellBg q)
  refine ⟨cellBg q, cellFg s.cfg q, shapeByte (cellFg s.cfg q) q,
    colorByteA s.cfg (cellFg s.cfg q) (cellBg q), colorByteB (cellFg s.cfg q) (cellBg q),
    getElem?_zero_cellBg hne, cellFg_cases s.cfg q, ?_, ?_, ?_,
    fun i hi => shapeByte_getLsbD _ hlen hi, ?_, ?_, ?_, ?_, colorByteB_toNat hfg hbg⟩
  · rw [bufGet_writePlane _ _ _ hx hy, hq]
  · rw [bufGet_writePlane _ _ _ hx hy, hq]
  · rw [bufGet_writePlane _ _ _ hx hy, hq]
  · rw [h7, pastelFlag_getLsbD]
  · rw [h6, pastelFlag_getLsbD]
  · rw [h3, BitVec.toNat_ofNat]
  · rw [h0, BitVec.toNat_ofNat]

end Sys2Proof.Machine

/-! Run-length streams (spec/46_rle_container.md R255, R257 to R259): what the decoder of R258 makes of one
token and of a whole stream, and the streams that are made of tokens. -/

namespace Sys2Proof.Machine

/-! ### The decoder -/

/-- Any fuel that covers the stream decodes it alike: every token takes at least two bytes. -/
theorem rleDecodeLoop_eq_of_length_le {j k : Nat} {s : List Byte} (hj : s.length ≤ j)
    (hk : s.length ≤ k) : rleDecodeLoop j s = rleDecodeLoop k s := by
  induction j generalizing k s with
  | zero =>
    obtain rfl := List.eq_nil_of_length_eq_zero (Nat.le_zero.1 hj)
    cases k <;> rfl
  | succ j ih =>
    match k, s with
    | 0, [] => rfl
    | _ + 1, [] => rfl
    | _ + 1, [_] => rfl
    | k + 1, c :: d :: rest =>
      simp only [List.length_cons] at hj hk
      have hdrop := (List.drop_sublist d.toNat rest).length_le
      rw [rleDecodeLoop, rleDecodeLoop, ih (s := rest) (k := k) (by omega) (by omega),
        ih (s := rest.drop d.toNat) (k := k) (by omega) (by omega)]

/-- The decoder by its next token (R258). -/
theorem rleDecode_cons (c d : Byte) (rest : List Byte) :
    rleDecode (c :: d :: rest) =
      if c ≠ 0 then List.replicate c.toNat d ++ rleDecode rest
      else if d = 0 then []
      else rest.take d.toNat ++ rleDecode (rest.drop d.toNat) := by
  have hdrop := (List.drop_sublist d.toNat rest).length_le
  rw [rleDecode, List.length_cons, rleDecodeLoop, rleDecode, rleDecode,
    rleDecodeLoop_eq_of_length_le (j := (d :: rest).length) (s := rest) (Nat.le_succ _) le_rfl,
    rleDecodeLoop_eq_of_length_le (j := (d :: rest).length) (s := rest.drop d.toNat)
      (hdrop.trans (Nat.le_succ _)) le_rfl]

/-- A terminator ends the decoding, whatever follows it (R111). -/
theorem rleDecode_terminator (rest : List Byte) : rleDecode (0 :: 0 :: rest) = [] :=
  rleDecode_cons 0 0 rest

theorem rleDecode_rleTerminator (t : Bool) : rleDecode (rleTerminator t) = [] := by
  cases t with
  | false => rfl
  | true => exact rleDecode_terminator []

theorem rleDecode_repeats {c : Byte} (hc : c ≠ 0) (v : Byte) (rest : List Byte) :
    rleDecode (c :: v :: rest) = List.replicate c.toNat v ++ rleDecode rest := by
  rw [rleDecode_cons, if_pos hc]

/-- A literal token's length byte is not 0, so it is no terminator (R110). -/
theorem rleDecode_literals {d : List Byte} (hlo : 1 ≤ d.length) (hhi : d.length ≤ 254)
    (rest : List Byte) :
    rleDecode (0 :: BitVec.ofNat 8 d.length :: (d ++ rest)) = d ++ rleDecode rest := by
  have hlen : (BitVec.ofNat 8 d.length).toNat = d.length :=
    Nat.mod_eq_of_lt (hhi.trans_lt (by decide))
  have hne : BitVec.ofNat 8 d.length ≠ 0 := fun h => by
    rw [h] at hlen
    exact absurd hlen.symm (Nat.one_le_iff_ne_zero.1 hlo)
  rw [rleDecode_cons, if_neg (not_not.2 rfl), if_neg hne, hlen, List.take_left, List.drop_left]

/-- A stream of tokens decodes to what it stands for, and decoding goes on behind it (R258). -/
theorem TokenStream.rleDecode_append {pre x : List Byte} (h : TokenStream pre x) (rest : List Byte) :
    rleDecode (pre ++ rest) = x ++ rleDecode rest := by
  induction h with
  | done => rfl
  | repeats c v s x hc _ ih =>
    rw [List.append_assoc, ← ih]
    exact rleDecode_repeats hc v (s ++ rest)
  | literals d s x hlo hhi _ ih =>
    rw [List.append_assoc, ← ih, ← rleDecode_literals hlo hhi, ← List.append_assoc]
    rfl

/-! ### Tokens -/

/-- No token stands for nothing (R255). -/
theorem tokenExpansion_ne_nil {maxRun : Nat} {k : RleToken} (h : tokenInBounds maxRun k) :
    tokenExpansion k ≠ [] := by
  cases k with
  | run count v =>
    obtain ⟨hlo, _⟩ := h
    exact fun he => Nat.one_le_iff_ne_zero.1 hlo (List.replicate_eq_nil_iff v |>.1 he)
  | segment bytes =>
    obtain ⟨hlo, _⟩ := h
    exact List.ne_nil_of_length_pos (Nat.zero_lt_of_lt hlo)

/-- A token is at most twice as long as what it stands for (R257). -/
theorem tokenBytes_length_le {maxRun : Nat} {k : RleToken} (h : tokenInBounds maxRun k) :
    (tokenBytes k).length ≤ 2 * (tokenExpansion k).length := by
  cases k with
  | run count v =>
    obtain ⟨hlo, _⟩ := h
    simp only [tokenBytes, tokenExpansion, List.length_cons, List.length_nil, List.length_replicate]
    omega
  | segment bytes =>
    obtain ⟨hlo, _⟩ := h
    simp only [tokenBytes, tokenExpansion, List.length_cons]
    omega

theorem flatMap_tokenBytes_length_le {maxRun : Nat} {tokens : List RleToken}
    (h : ∀ k ∈ tokens, tokenInBounds maxRun k) :
    (tokens.flatMap tokenBytes).length ≤ 2 * (tokens.flatMap tokenExpansion).length := by
  induction tokens with
  | nil => exact le_rfl
  | cons k ks ih =>
    obtain ⟨hk, hks⟩ := List.forall_mem_cons.1 h
    have hhead := tokenBytes_length_le hk
    have htail := ih hks
    rw [List.flatMap_cons, List.flatMap_cons, List.length_append, List.length_append]
    omega

/-- Tokens within the bounds of R255, one after another, are a stream (R109, R110). -/
theorem tokenStream_flatMap {maxRun : Nat} (hmax : maxRun ≤ 255) {tokens : List RleToken}
    (h : ∀ k ∈ tokens, tokenInBounds maxRun k) :
    TokenStream (tokens.flatMap tokenBytes) (tokens.flatMap tokenExpansion) := by
  induction tokens with
  | nil => exact .done
  | cons k ks ih =>
    obtain ⟨hk, hks⟩ := List.forall_mem_cons.1 h
    cases k with
    | run count v =>
      obtain ⟨hlo, hhi⟩ := hk
      have hcount : (BitVec.ofNat 8 count).toNat = count :=
        Nat.mod_eq_of_lt ((hhi.trans hmax).trans_lt (by decide))
      have hne : BitVec.ofNat 8 count ≠ 0 := fun he => by
        rw [he] at hcount
        exact absurd hcount.symm (Nat.one_le_iff_ne_zero.1 hlo)
      have := TokenStream.repeats (BitVec.ofNat 8 count) v _ _ hne (ih hks)
      rwa [hcount] at this
    | segment bytes =>
      obtain ⟨hlo, hhi⟩ := hk
      exact .literals bytes _ _ ((Nat.le_succ 1).trans hlo) hhi (ih hks)

end Sys2Proof.Machine

/-! The greedy sequence of tokens (spec/46_rle_container.md R246, R250, R255): a token is determined by the
bytes from its place on, so an input has at most one greedy sequence; and the loop of R250 emits one. -/

namespace Sys2Proof.Machine

/-! ### Bytes that start no run -/

/-- No byte of `l` equals the byte after it, where `rest` follows `l`. -/
def Runless (l rest : List Byte) : Prop := (l ++ rest.take 1).IsChain (· ≠ ·)

theorem runless_nil (rest : List Byte) : Runless [] rest := by
  cases rest with
  | nil => exact .nil
  | cons v rest => exact .singleton v

theorem Runless.right {l m rest : List Byte} (h : Runless (l ++ m) rest) : Runless m rest := by
  rw [Runless, List.append_assoc] at h
  exact h.right_of_append

theorem Runless.isChain {l rest : List Byte} (h : Runless l rest) : l.IsChain (· ≠ ·) :=
  (List.isChain_append.1 h).1

theorem Runless.getLast?_ne_head? {l rest : List Byte} (h : Runless l rest) (hl : l ≠ []) :
    l.getLast? ≠ rest.head? := by
  intro he
  have hlast := List.getLast?_eq_some_getLast hl
  have hhead : (rest.take 1).head? = some (l.getLast hl) := by
    rw [← hlast, he]
    cases rest <;> rfl
  exact (List.isChain_append.1 h).2.2 _ hlast _ hhead rfl

theorem runless_of_isChain {l rest : List Byte} (h : l.IsChain (· ≠ ·))
    (hne : l.getLast? ≠ rest.head?) : Runless l rest := by
  refine List.isChain_append.2 ⟨h, ?_, fun x hx y hy hxy => hne ?_⟩
  · exact runless_nil rest
  · subst hxy
    rw [hx, ← hy]
    cases rest <;> rfl

/-- Two equal bytes in front are a run. -/
theorem Runless.ne_pair {l rest : List Byte} (h : Runless l rest) (hl : l ≠ []) (v : Byte)
    (r : List Byte) : l ++ rest ≠ v :: v :: r := by
  intro he
  match l, hl with
  | [a], _ =>
    obtain ⟨rfl, rfl⟩ := List.cons.inj he
    exact (List.isChain_cons_cons.1 h).1 rfl
  | a :: b :: l, _ =>
    obtain ⟨rfl, he⟩ := List.cons.inj he
    obtain ⟨rfl, _⟩ := List.cons.inj he
    exact (List.isChain_cons_cons.1 h).1 rfl

/-- The next byte joins a pending segment when the byte after it is another one (R246 (d)). -/
theorem Runless.snoc {l rest : List Byte} {v : Byte} (h : Runless l (v :: rest))
    (hne : rest.head? ≠ some v) : Runless (l ++ [v]) rest :=
  runless_of_isChain h (by simpa using hne.symm)

/-! ### The token at a place -/

/-- The bytes left are none, or start with a run: a pending segment ends here (R246 (a)). -/
def EndsSegment (rest : List Byte) : Prop := rest = [] ∨ ∃ v r, rest = v :: v :: r

/-- The token `k` is the greedy one where `rest` is left after it (R246, R255). -/
structure GreedyBefore (maxRun : Nat) (k : RleToken) (rest : List Byte) : Prop where
  bounds : tokenInBounds maxRun k
  noRun : segmentHasNoRun k
  differs : (tokenExpansion k).getLast? = rest.head? → ∃ v, k = .run maxRun v
  full : isLiteral k = true → (tokenExpansion k).length = 254 ∨ EndsSegment rest

/-- A token that is no literal segment carries a run of two bytes or more. -/
theorem eq_run_of_isLiteral_eq_false {maxRun : Nat} {k : RleToken} (hb : tokenInBounds maxRun k)
    (hk : isLiteral k = false) : ∃ c v, k = .run (c + 2) v ∧ c + 2 ≤ maxRun := by
  cases k with
  | segment bytes => cases hk
  | run count v =>
    obtain ⟨hlo, hhi⟩ := hb
    have hne : count ≠ 1 := beq_eq_false_iff_ne.1 hk
    exact ⟨count - 2, v, by rw [Nat.sub_add_cancel (by omega)], by omega⟩

/-- The bytes of a literal segment start no run, its last one neither. -/
theorem GreedyBefore.runless {maxRun : Nat} {k : RleToken} {rest : List Byte} (hmax : 2 ≤ maxRun)
    (h : GreedyBefore maxRun k rest) (hk : isLiteral k = true) : Runless (tokenExpansion k) rest := by
  cases k with
  | segment bytes =>
    exact runless_of_isChain h.noRun fun he => by obtain ⟨v, hv⟩ := h.differs he; cases hv
  | run count v =>
    obtain rfl : count = 1 := beq_iff_eq.1 hk
    refine runless_of_isChain (.singleton v) fun he => ?_
    obtain ⟨w, hw⟩ := h.differs he
    cases hw
    exact absurd hmax (by decide)

/-- A greedy token carries a run exactly when two equal bytes stand at its place (R246 (d)). -/
theorem GreedyBefore.isLiteral_eq_false_iff {maxRun : Nat} {k : RleToken} {rest : List Byte}
    (hmax : 2 ≤ maxRun) (h : GreedyBefore maxRun k rest) :
    isLiteral k = false ↔ ∃ v r, tokenExpansion k ++ rest = v :: v :: r := by
  constructor
  · intro hk
    obtain ⟨c, v, rfl, _⟩ := eq_run_of_isLiteral_eq_false h.bounds hk
    exact ⟨v, List.replicate c v ++ rest, rfl⟩
  · rintro ⟨v, r, he⟩
    refine Bool.eq_false_iff.2 fun hk => ?_
    exact (h.runless hmax hk).ne_pair (tokenExpansion_ne_nil h.bounds) v r he

theorem literal_length_le {maxRun : Nat} {k : RleToken} (hb : tokenInBounds maxRun k)
    (hk : isLiteral k = true) : (tokenExpansion k).length ≤ 254 := by
  cases k with
  | segment bytes => exact hb.2
  | run count v =>
    obtain rfl : count = 1 := beq_iff_eq.1 hk
    exact (by decide : 1 ≤ 254)

/-- Of two greedy tokens at one place neither stands for more than the other. -/
theorem GreedyBefore.extension_eq_nil {maxRun : Nat} {k k' : RleToken} {m rest : List Byte}
    (hmax : 2 ≤ maxRun) (h : GreedyBefore maxRun k (m ++ rest)) (h' : GreedyBefore maxRun k' rest)
    (he : tokenExpansion k' = tokenExpansion k ++ m) : m = [] := by
  by_contra hm
  have hsame : tokenExpansion k' ++ rest = tokenExpansion k ++ (m ++ rest) := by
    rw [he, List.append_assoc]
  have hkind : isLiteral k' = false ↔ isLiteral k = false := by
    rw [h.isLiteral_eq_false_iff hmax, h'.isLiteral_eq_false_iff hmax, hsame]
  cases hk : isLiteral k with
  | true =>
    have hk' : isLiteral k' = true := by
      rw [← Bool.not_eq_false, hkind, hk]
      exact Bool.noConfusion
    rcases h.full hk with hlen | hnil | ⟨v, r, hpair⟩
    · have hle := literal_length_le h'.bounds hk'
      rw [he, List.length_append, hlen] at hle
      have := List.length_pos_iff.2 hm
      omega
    · exact hm (List.append_eq_nil_iff.1 hnil).1
    · have hchain := h'.runless hmax hk'
      rw [he] at hchain
      exact hchain.right.ne_pair hm v r hpair
  | false =>
    obtain ⟨c, v, rfl, _⟩ := eq_run_of_isLiteral_eq_false h.bounds hk
    obtain ⟨c', v', rfl, hc'⟩ := eq_run_of_isLiteral_eq_false h'.bounds (hkind.2 hk)
    obtain ⟨b, m, rfl⟩ := List.exists_cons_of_ne_nil hm
    have hlen := congrArg List.length he
    simp only [tokenExpansion, List.length_append, List.length_replicate, List.length_cons] at hlen
    have hall : ∀ w ∈ tokenExpansion (.run (c + 2) v) ++ b :: m, w = v' := fun w hw => by
      rw [← he] at hw
      exact List.eq_of_mem_replicate hw
    have hv : v = v' := hall v (List.mem_append_left _ List.mem_cons_self)
    have hb : b = v' := hall b (List.mem_append_right _ List.mem_cons_self)
    obtain ⟨w, hw⟩ := h.differs (by
      rw [hb, ← hv, tokenExpansion, List.getLast?_replicate, if_neg (by omega)]; rfl)
    cases hw
    omega

/-- What a token stands for, and which kind it is, determine it. -/
theorem token_ext {maxRun : Nat} {k k' : RleToken} (hb : tokenInBounds maxRun k)
    (hb' : tokenInBounds maxRun k') (hkind : isLiteral k = isLiteral k')
    (he : tokenExpansion k = tokenExpansion k') : k = k' := by
  have hlen := congrArg List.length he
  cases k with
  | run c v =>
    obtain ⟨hlo, _⟩ := hb
    cases k' with
    | run c' v' =>
      obtain ⟨rfl, hv⟩ := List.replicate_inj.1 he
      rw [hv.resolve_left (Nat.one_le_iff_ne_zero.1 hlo)]
    | segment bytes =>
      obtain ⟨hlo', _⟩ := hb'
      obtain rfl : c = 1 := beq_iff_eq.1 hkind
      simp only [tokenExpansion, List.length_replicate] at hlen
      omega
  | segment bytes =>
    cases k' with
    | run c' v' =>
      obtain ⟨hlo, _⟩ := hb
      obtain rfl : c' = 1 := beq_iff_eq.1 hkind.symm
      simp only [tokenExpansion, List.length_replicate] at hlen
      omega
    | segment bytes' => exact congrArg RleToken.segment he

/-- The greedy token at a place is the only one. -/
theorem GreedyBefore.unique {maxRun : Nat} {k k' : RleToken} {rest rest' : List Byte}
    (hmax : 2 ≤ maxRun) (h : GreedyBefore maxRun k rest) (h' : GreedyBefore maxRun k' rest')
    (he : tokenExpansion k ++ rest = tokenExpansion k' ++ rest') : k = k' ∧ rest = rest' := by
  have hkind : isLiteral k = isLiteral k' := by
    rw [Bool.eq_iff_iff, ← not_iff_not, Bool.not_eq_true, Bool.not_eq_true,
      h.isLiteral_eq_false_iff hmax, h'.isLiteral_eq_false_iff hmax, he]
  have hexp : tokenExpansion k = tokenExpansion k' := by
    rcases List.append_eq_append_iff.1 he with ⟨m, hm, rfl⟩ | ⟨m, hm, rfl⟩
    · rw [hm, h.extension_eq_nil hmax h' hm, List.append_nil]
    · rw [hm, h'.extension_eq_nil hmax h hm, List.append_nil]
  exact ⟨token_ext h.bounds h'.bounds hkind hexp, List.append_cancel_left (hexp ▸ he)⟩

/-! ### The sequence of an input -/

/-- Each token is the greedy one at its place, and together they stand for the input (R246, R255). -/
inductive GreedyTokens (maxRun : Nat) : List RleToken → List Byte → Prop where
  | nil : GreedyTokens maxRun [] []
  | cons {k : RleToken} {ks : List RleToken} {rest : List Byte} (hk : GreedyBefore maxRun k rest)
    (hks : GreedyTokens maxRun ks rest) :
    GreedyTokens maxRun (k :: ks) (tokenExpansion k ++ rest)

/-- An input has one greedy sequence at most. -/
theorem GreedyTokens.unique {maxRun : Nat} (hmax : 2 ≤ maxRun) {ks ks' : List RleToken}
    {input : List Byte} (h : GreedyTokens maxRun ks input) (h' : GreedyTokens maxRun ks' input) :
    ks = ks' := by
  induction h generalizing ks' with
  | nil =>
    generalize he : ([] : List Byte) = input at h'
    cases h' with
    | nil => rfl
    | cons hk _ =>
      exact absurd (List.append_eq_nil_iff.1 he.symm).1 (tokenExpansion_ne_nil hk.bounds)
  | @cons k ks rest hk _ ih =>
    generalize he : tokenExpansion k ++ rest = input at h'
    cases h' with
    | nil => exact absurd (List.append_eq_nil_iff.1 he).1 (tokenExpansion_ne_nil hk.bounds)
    | cons hk' hks' =>
      obtain ⟨rfl, rfl⟩ := hk.unique hmax hk' he
      rw [ih hks']

theorem head?_tokenExpansion_append {maxRun : Nat} {k : RleToken} (hb : tokenInBounds maxRun k)
    (rest : List Byte) : (tokenExpansion k ++ rest).head? = (tokenExpansion k).head? :=
  List.head?_append_of_ne_nil _ (tokenExpansion_ne_nil hb)

/-- Greedy at a place is R246 between one token and the next. -/
theorem greedyNext_iff {maxRun : Nat} (hmax : 2 ≤ maxRun) {k next : RleToken} {rest : List Byte}
    (hb : tokenInBounds maxRun k) (hs : segmentHasNoRun k) (hnext : GreedyBefore maxRun next rest) :
    greedyNext maxRun k next ↔ GreedyBefore maxRun k (tokenExpansion next ++ rest) := by
  have hhead := head?_tokenExpansion_append hnext.bounds rest
  have hends : EndsSegment (tokenExpansion next ++ rest) ↔ isLiteral next = false := by
    rw [hnext.isLiteral_eq_false_iff hmax]
    exact or_iff_right fun hnil =>
      tokenExpansion_ne_nil hnext.bounds (List.append_eq_nil_iff.1 hnil).1
  constructor
  · rintro ⟨hdiffers, hfull⟩
    refine ⟨hb, hs, hhead ▸ hdiffers, fun hk => ?_⟩
    cases hl : isLiteral next with
    | true => exact .inl (hfull hk hl)
    | false => exact .inr (hends.2 hl)
  · intro h
    refine ⟨hhead ▸ h.differs, fun hk hl => (h.full hk).resolve_right fun he => ?_⟩
    rw [hends.1 he] at hl
    cases hl

/-- The last token is greedy when nothing is left: it has a last byte. -/
theorem greedyBefore_nil {maxRun : Nat} {k : RleToken} (hb : tokenInBounds maxRun k)
    (hs : segmentHasNoRun k) : GreedyBefore maxRun k [] where
  bounds := hb
  noRun := hs
  differs he := absurd (List.getLast?_eq_none_iff.1 he) (tokenExpansion_ne_nil hb)
  full _ := .inr (.inl rfl)

/-- The greedy sequence of an input, token by token and by neighbours (R246, R255). -/
theorem greedyTokens_iff {maxRun : Nat} (hmax : 2 ≤ maxRun) {tokens : List RleToken}
    {input : List Byte} :
    GreedyTokens maxRun tokens input ↔
      (∀ k ∈ tokens, tokenInBounds maxRun k ∧ segmentHasNoRun k) ∧
      tokens.IsChain (greedyNext maxRun) ∧ tokens.flatMap tokenExpansion = input := by
  constructor
  · intro h
    induction h with
    | nil => exact ⟨nofun, .nil, rfl⟩
    | @cons k ks rest hk hks ih =>
      obtain ⟨hall, hchain, hexp⟩ := ih
      refine ⟨List.forall_mem_cons.2 ⟨⟨hk.bounds, hk.noRun⟩, hall⟩, ?_, ?_⟩
      · cases hks with
        | nil => exact .singleton k
        | cons hnext _ =>
          exact .cons_cons ((greedyNext_iff hmax hk.bounds hk.noRun hnext).2 hk) hchain
      · rw [List.flatMap_cons, hexp]
  · rintro ⟨hall, hchain, rfl⟩
    induction tokens with
    | nil => exact .nil
    | cons k ks ih =>
      obtain ⟨⟨hb, hs⟩, hall⟩ := List.forall_mem_cons.1 hall
      have hks := ih hall hchain.tail
      rw [List.flatMap_cons]
      refine .cons ?_ hks
      cases ks with
      | nil => exact greedyBefore_nil hb hs
      | cons next ks =>
        rw [List.flatMap_cons] at hks ⊢
        generalize tokenExpansion next ++ ks.flatMap tokenExpansion = input at hks ⊢
        cases hks with
        | cons hnext _ =>
          exact (greedyNext_iff hmax hb hs hnext).1 (List.isChain_cons_cons.1 hchain).1

theorem GreedyTokens.bounds {maxRun : Nat} (hmax : 2 ≤ maxRun) {tokens : List RleToken}
    {input : List Byte} (h : GreedyTokens maxRun tokens input) :
    ∀ k ∈ tokens, tokenInBounds maxRun k := fun k hk =>
  (((greedyTokens_iff hmax).1 h).1 k hk).1

/-! ### The loop emits it -/

/-- The tokens that a pending segment is flushed as (R246 (b)). -/
def flushTokens : List Byte → List RleToken
  | [] => []
  | [b] => [.run 1 b]
  | a :: b :: seg => [.segment (a :: b :: seg)]

theorem flatMap_tokenBytes_flushTokens (seg : List Byte) :
    (flushTokens seg).flatMap tokenBytes = flushSegment seg :=
  match seg with
  | [] => rfl
  | [_] => rfl
  | _ :: _ :: _ => List.flatMap_singleton ..

/-- A pending segment flushed in front of a greedy sequence: at 254 bytes, at the end of the input, or
where a run begins (R246 (a), R250). -/
theorem GreedyTokens.flush {maxRun : Nat} (hmax : 2 ≤ maxRun) {ks : List RleToken}
    {seg rest : List Byte} (h : GreedyTokens maxRun ks rest) (hlen : seg.length ≤ 254)
    (hseg : Runless seg rest) (hfull : seg.length = 254 ∨ EndsSegment rest) :
    GreedyTokens maxRun (flushTokens seg ++ ks) (seg ++ rest) :=
  match seg with
  | [] => h
  | [b] => .cons (k := .run 1 b)
      { bounds := ⟨le_rfl, (Nat.le_succ 1).trans hmax⟩
        noRun := trivial
        differs := fun he => absurd he (hseg.getLast?_ne_head? (List.cons_ne_nil _ _))
        full := fun _ => hfull } h
  | a :: b :: seg => .cons (k := .segment (a :: b :: seg))
      { bounds := ⟨Nat.le_add_left _ _, hlen⟩
        noRun := hseg.isChain
        differs := fun he => absurd he (hseg.getLast?_ne_head? (List.cons_ne_nil _ _))
        full := fun _ => hfull } h

/-- The bytes equal to `v` in front, and what is left after them. -/
theorem eq_replicate_append_dropWhile (v : Byte) (rest : List Byte) :
    ∃ tail, rest = List.replicate (rest.takeWhile (· == v)).length v ++ tail ∧
      tail.head? ≠ some v := by
  have hall : rest.takeWhile (· == v) = List.replicate (rest.takeWhile (· == v)).length v :=
    List.eq_replicate_iff.2 ⟨rfl, fun b hb => beq_iff_eq.1 (List.mem_takeWhile_imp (p := (· == v)) hb)⟩
  refine ⟨rest.dropWhile (· == v), ?_, fun hhead => ?_⟩
  · rw [← hall, List.takeWhile_append_dropWhile]
  · have := List.head?_dropWhile_not (· == v) rest
    rw [hhead] at this
    simp at this

/-- The run at the head of `v :: rest`: its bytes, and that it ends at `RLE_MAX_RUN` or before another
byte (R246 (c), (d)). -/
theorem runLength_spec {maxRun : Nat} (hmax : 1 ≤ maxRun) (v : Byte) (rest : List Byte) :
    1 ≤ runLength maxRun v rest ∧ runLength maxRun v rest ≤ maxRun ∧
    v :: rest = List.replicate (runLength maxRun v rest) v ++ rest.drop (runLength maxRun v rest - 1) ∧
    ((rest.drop (runLength maxRun v rest - 1)).head? = some v → runLength maxRun v rest = maxRun) := by
  obtain ⟨tail, hrest, htail⟩ := eq_replicate_append_dropWhile v rest
  generalize hn : runLength maxRun v rest = n
  rw [runLength] at hn
  generalize (rest.takeWhile (· == v)).length = a at hrest hn
  obtain ⟨n, rfl⟩ : ∃ j, n = j + 1 := ⟨n - 1, by omega⟩
  have hdrop : rest.drop n = List.replicate (a - n) v ++ tail := by
    rw [hrest, List.drop_append_of_le_length (by rw [List.length_replicate]; omega),
      List.drop_replicate]
  rw [Nat.add_sub_cancel, hdrop]
  refine ⟨by omega, by omega, ?_, fun hhead => ?_⟩
  · rw [List.replicate_succ, List.cons_append, ← List.append_assoc, List.replicate_append_replicate,
      Nat.add_sub_cancel' (by omega), ← hrest]
  · by_contra hlt
    rw [show a - n = 0 by omega] at hhead
    exact htail hhead

/-- The repeat token of a run is the greedy one (R246 (c), (d)). -/
theorem greedyBefore_run {maxRun : Nat} (hmax : 2 ≤ maxRun) {v : Byte} {rest : List Byte}
    (h : 2 ≤ runLength maxRun v rest) :
    GreedyBefore maxRun (.run (runLength maxRun v rest) v)
      (rest.drop (runLength maxRun v rest - 1)) := by
  obtain ⟨hlo, hhi, _, hcut⟩ := runLength_spec ((Nat.le_succ 1).trans hmax) v rest
  refine ⟨⟨hlo, hhi⟩, trivial, fun he => ⟨v, ?_⟩, fun hk => ?_⟩
  · rw [tokenExpansion, List.getLast?_replicate, if_neg (by omega)] at he
    rw [hcut he.symm]
  · have : runLength maxRun v rest = 1 := beq_iff_eq.1 hk
    omega

/-- From any pending segment the loop emits the greedy sequence of the segment and the input left. -/
theorem rleLoop_greedy {maxRun : Nat} (hmax : 2 ≤ maxRun) {k : Nat} {input seg : List Byte}
    (hk : input.length ≤ k) (hlen : seg.length < 254) (hseg : Runless seg input) :
    ∃ tokens, GreedyTokens maxRun tokens (seg ++ input) ∧
      rleLoop maxRun k input seg = tokens.flatMap tokenBytes := by
  induction k generalizing input seg with
  | zero =>
    obtain rfl := List.eq_nil_of_length_eq_zero (Nat.le_zero.1 hk)
    exact ⟨_, GreedyTokens.nil.flush hmax hlen.le hseg (.inr (.inl rfl)), by
      rw [List.append_nil, flatMap_tokenBytes_flushTokens, rleLoop]⟩
  | succ k ih =>
    cases input with
    | nil =>
      exact ⟨_, GreedyTokens.nil.flush hmax hlen.le hseg (.inr (.inl rfl)), by
        rw [List.append_nil, flatMap_tokenBytes_flushTokens, rleLoop]⟩
    | cons v rest =>
      have hrest : rest.length ≤ k := Nat.le_of_succ_le_succ hk
      obtain ⟨hlo, _, hrun, hcut⟩ := runLength_spec ((Nat.le_succ 1).trans hmax) v rest
      rw [rleLoop]
      by_cases hpair : 2 ≤ runLength maxRun v rest
      · obtain ⟨tokens, htokens, hbytes⟩ := ih (seg := []) ((List.drop_sublist _ _).length_le.trans hrest)
          (by decide) (runless_nil _)
        have hcons := GreedyTokens.cons (greedyBefore_run hmax hpair) htokens
        have hends : EndsSegment (v :: rest) := by
          obtain ⟨c, hc⟩ := Nat.exists_eq_add_of_le' hpair
          rw [hrun, hc]
          exact .inr ⟨v, _, rfl⟩
        rw [tokenExpansion, ← hrun] at hcons
        refine ⟨_, hcons.flush hmax hlen.le hseg (.inr hends), ?_⟩
        rw [if_pos hpair, hbytes, List.flatMap_append, flatMap_tokenBytes_flushTokens,
          List.append_assoc]
        rfl
      · have hne : rest.head? ≠ some v := fun hhead => by
          have hone : runLength maxRun v rest = 1 := by omega
          rw [hone] at hcut
          have := hcut hhead
          omega
        have hsnoc := hseg.snoc hne
        rw [if_neg hpair, List.append_cons]
        by_cases hfull : (seg ++ [v]).length = 254
        · obtain ⟨tokens, htokens, hbytes⟩ := ih (seg := []) hrest (by decide) (runless_nil _)
          refine ⟨_, htokens.flush hmax hfull.le hsnoc (.inl hfull), ?_⟩
          rw [if_pos hfull, hbytes, List.flatMap_append, flatMap_tokenBytes_flushTokens]
        · have hlt : (seg ++ [v]).length < 254 := by
            rw [List.length_append, List.length_singleton] at hfull ⊢
            omega
          rw [if_neg hfull]
          exact ih hrest hlt hsnoc

/-- What RLE emits for an input is its greedy sequence of tokens. -/
theorem rleTokens_greedy {maxRun : Nat} (hmax : 2 ≤ maxRun) (input : List Byte) :
    ∃ tokens, GreedyTokens maxRun tokens input ∧
      rleTokens maxRun input = tokens.flatMap tokenBytes :=
  rleLoop_greedy hmax le_rfl (by decide) (runless_nil input)

/-- RLE emits at most two bytes for each byte of its input (R257). -/
theorem rleTokens_length_le {maxRun : Nat} (hmax : 2 ≤ maxRun) (input : List Byte) :
    (rleTokens maxRun input).length ≤ 2 * input.length := by
  obtain ⟨tokens, hgreedy, hbytes⟩ := rleTokens_greedy hmax input
  obtain ⟨_, _, hexp⟩ := (greedyTokens_iff hmax).1 hgreedy
  rw [hbytes, ← hexp]
  exact flatMap_tokenBytes_length_le (hgreedy.bounds hmax)

/-- What RLE emits is a stream that stands for the input (R255). -/
theorem tokenStream_rleTokens {maxRun : Nat} (hmax : 2 ≤ maxRun) (hbyte : maxRun ≤ 255)
    (input : List Byte) : TokenStream (rleTokens maxRun input) input := by
  obtain ⟨tokens, hgreedy, hbytes⟩ := rleTokens_greedy hmax input
  obtain ⟨_, _, hexp⟩ := (greedyTokens_iff hmax).1 hgreedy
  have hstream := tokenStream_flatMap hbyte (hgreedy.bounds hmax)
  rwa [← hbytes, hexp] at hstream

/-- Settles O58: the loop emits a greedy sequence, and an input has only one. -/
theorem rleOutputShape : Obligations.RleOutputShape := by
  intro maxRun input hmax _
  obtain ⟨tokens, hgreedy, hbytes⟩ := rleTokens_greedy hmax input
  refine ⟨rleTokens_length_le hmax input, tokens, (greedyTokens_iff hmax).1 hgreedy, hbytes,
    fun others hall hchain hexp => ?_⟩
  exact ((greedyTokens_iff hmax).2 ⟨hall, hchain, hexp⟩).unique hmax hgreedy

end Sys2Proof.Machine

/-! RLE (spec/46_rle_container.md R250, R257, R259): what it leaves in CBUF, as a replacement and behind an
earlier stream, and that decoding it gives TBUF back. -/

namespace Sys2Proof.Machine

/-! ### The output -/

theorem rleTerminator_length_le (t : Bool) : (rleTerminator t).length ≤ 2 := by
  cases t <;> decide

theorem rleOutput_length_le {maxRun : Nat} (hmax : 2 ≤ maxRun) (t : Bool) (input : List Byte) :
    (rleOutput maxRun t input).length ≤ 2 * input.length + 2 := by
  rw [rleOutput, List.length_append]
  exact Nat.add_le_add (rleTokens_length_le hmax input) (rleTerminator_length_le t)

/-- Behind an earlier stream the output decodes to that stream's bytes and then the input (R259). -/
theorem rleDecode_append_rleOutput {maxRun : Nat} (hmax : 2 ≤ maxRun) (hbyte : maxRun ≤ 255)
    {pre x : List Byte} (h : TokenStream pre x) (t : Bool) (input : List Byte) :
    rleDecode (pre ++ rleOutput maxRun t input) = x ++ input := by
  rw [h.rleDecode_append, rleOutput, (tokenStream_rleTokens hmax hbyte input).rleDecode_append,
    rleDecode_rleTerminator, List.append_nil]

/-! ### The command -/

/-- What RLE leaves, its checks and its input given and the output fitting CBUF (R250). -/
theorem exec_rle_eq {t a : Bool} {s : State} {input : List Byte} (hf : s.fault = false)
    (htlen : s.tlen.toNat ≤ s.cfg.tcap) (hinput : bufReadRun s.tbuf 0 s.tlen.toNat = some input)
    (hfit : rleStart a s + (rleOutput s.cfg.rleMaxRun t input).length ≤ s.cfg.ccap) :
    exec (.rle t a) s = .next { s with
      cbuf := bufWriteRun s.cbuf (rleStart a s) (rleOutput s.cfg.rleMaxRun t input)
      clen := BitVec.ofNat 32
        (rleStart a s + (rleOutput s.cfg.rleMaxRun t input).length) } := by
  rw [exec, execRle, gated_of_clear hf, decide_eq_true htlen, needs_true,
    decide_eq_true ((Nat.le_add_right _ _).trans hfit), needs_true, hinput, needsRead_some,
    emitToCbuf, if_pos hfit]

/-- RLE that answers without a fault has met its checks and its output fits CBUF. -/
theorem exec_rle_completed {t a : Bool} {s u : State} (hf : s.fault = false)
    (h : exec (.rle t a) s = .next u) (hu : u.fault = false) :
    ∃ input, bufReadRun s.tbuf 0 s.tlen.toNat = some input ∧
      rleStart a s + (rleOutput s.cfg.rleMaxRun t input).length ≤ s.cfg.ccap ∧
      u = { s with
        cbuf := bufWriteRun s.cbuf (rleStart a s) (rleOutput s.cfg.rleMaxRun t input)
        clen := BitVec.ofNat 32
          (rleStart a s + (rleOutput s.cfg.rleMaxRun t input).length) } := by
  have hclear : ∀ (c : Cause) (w : Word) (v : State), u ≠ raiseFault c w v := fun c w v he => by
    rw [he, raiseFault_fault] at hu
    cases hu
  rw [exec, execRle, gated_of_clear hf] at h
  rcases needs_next h with ⟨_, he⟩ | ⟨_, h⟩
  · exact absurd he (hclear _ _ _)
  rcases needs_next h with ⟨_, he⟩ | ⟨_, h⟩
  · exact absurd he (hclear _ _ _)
  obtain ⟨input, hinput, h⟩ := needsRead_next h
  rcases emitToCbuf_cases (encode (.rle t a)) (rleStart a s) (rleOutput s.cfg.rleMaxRun t input) s
    with ⟨hfit, he⟩ | ⟨_, he⟩
  · exact ⟨input, hinput, hfit, (Host.Outcome.next.inj (he.symm.trans h)).symm⟩
  · exact absurd (Host.Outcome.next.inj (he.symm.trans h)).symm (hclear _ _ _)

/-- A run stored behind another one: both stand in the buffer, one after the other. -/
theorem holdsRun_bufWriteRun_append {w : Nat} {b : Buf w} {pre : List (BitVec w)}
    (h : HoldsRun b 0 pre) (out : List (BitVec w)) :
    HoldsRun (bufWriteRun b pre.length out) 0 (pre ++ out) := by
  refine holdsRun_append.2 ⟨holdsRun_iff.2 fun k v hv => ?_, ?_⟩
  · have hk := (List.getElem?_eq_some_iff.1 hv).1
    rw [bufGet_bufWriteRun, if_neg (by omega)]
    exact holdsRun_iff.1 h k v hv
  · rw [Nat.zero_add]
    exact bufReadRun_bufWriteRun b pre.length out

/-- After RLE, CBUF up to CLEN is what stood before the output's place and then the output. -/
theorem exec_rle_stream {t a : Bool} {s u : State} {pre : List Byte} (hlaw : s.cfg.Lawful)
    (hf : s.fault = false) (hpre : bufReadRun s.cbuf 0 (rleStart a s) = some pre)
    (h : exec (.rle t a) s = .next u) (hu : u.fault = false) :
    ∃ input, bufReadRun s.tbuf 0 s.tlen.toNat = some input ∧
      bufReadRun u.cbuf 0 u.clen.toNat = some (pre ++ rleOutput s.cfg.rleMaxRun t input) := by
  obtain ⟨_, _, _, _, _, _, _, ⟨_, hccap⟩, _⟩ := hlaw
  obtain ⟨input, hinput, hfit, rfl⟩ := exec_rle_completed hf h hu
  have hlen : pre.length = rleStart a s := bufReadRun_length hpre
  rw [← hlen] at hpre hfit ⊢
  refine ⟨input, hinput, ?_⟩
  rw [BitVec.toNat_ofNat, Nat.mod_eq_of_lt (hfit.trans_lt hccap), ← List.length_append]
  exact holdsRun_bufWriteRun_append hpre _

/-- Settles O56: the output is at most `2 * TLEN + 2` bytes, so it fits, and it is stored whole. -/
theorem rleCompletes : Obligations.RleCompletes := by
  intro t a s hlaw hf htlen hw hroom
  obtain ⟨_, _, _, _, _, _, _, ⟨_, hccap⟩, _, _, hmax, hbyte⟩ := hlaw
  obtain ⟨input, hinput⟩ := bufReadRun_of_written hw
  have hlen : input.length = s.tlen.toNat := bufReadRun_length hinput
  have hout := rleOutput_length_le hmax t input
  have hfit : rleStart a s + (rleOutput s.cfg.rleMaxRun t input).length ≤ s.cfg.ccap := by omega
  refine ⟨_, input, rleTokens s.cfg.rleMaxRun input, exec_rle_eq hf htlen hinput hfit, rfl, hinput,
    tokenStream_rleTokens hmax hbyte input, hlen ▸ rleTokens_length_le hmax input, rfl,
    rleDecode_append_rleOutput hmax hbyte .done t input, ?_, fun j => bufGet_bufWriteRun _ _ _ j⟩
  exact (BitVec.toNat_ofNat ..).trans (Nat.mod_eq_of_lt (hfit.trans_lt hccap))

/-- Settles O57: CBUF holds the earlier stream and then the output, which decode one after the other. -/
theorem rleRoundTrip : Obligations.RleRoundTrip := by
  refine ⟨fun t s u hlaw hf h hu => ?_, fun t s u pre x hlaw hf hpre hx h hu => ?_,
    fun pre x rest hx => ?_⟩
  · obtain ⟨input, hinput, hstream⟩ := exec_rle_stream hlaw hf (pre := []) rfl h hu
    obtain ⟨_, _, _, _, _, _, _, _, _, _, hmax, hbyte⟩ := hlaw
    exact ⟨input, _, hinput, hstream, rleDecode_append_rleOutput hmax hbyte .done t input⟩
  · obtain ⟨input, hinput, hstream⟩ := exec_rle_stream (a := true) hlaw hf hpre h hu
    obtain ⟨_, _, _, _, _, _, _, _, _, _, hmax, hbyte⟩ := hlaw
    exact ⟨input, _, hinput, hstream, rleDecode_append_rleOutput hmax hbyte hx t input⟩
  · rw [List.append_assoc, hx.rleDecode_append]
    exact (congrArg (x ++ ·) (rleDecode_terminator rest)).trans (List.append_nil x)

end Sys2Proof.Machine

/-! Fault entry and the way out (spec/60_exceptions.md R283 to R300). What a command can end in is said once:
it completes, or it raises one of the causes of R283 and leaves what R297 names. -/

namespace Sys2Proof.Machine

/-! ### Words written to CMD -/

theorem hostAct_cmdWrite (w : Word) (s : State) : hostAct (cmdWrite w) s = runCommand w s := rfl

/-- Settles O5: the decoder rejects the word, and fault entry writes the three registers. -/
theorem illegalWordFaults : Obligations.IllegalWordFaults := fun s w _ hd hf => by
  rw [hostAct_cmdWrite, runCommand, gated_of_clear hf, hd]
  rfl

/-- Settles O6: the gate stands before decoding and in every command. -/
theorem faultedBlockIgnoresCommands : Obligations.FaultedBlockIgnoresCommands :=
  ⟨fun _ _ hf => gated_of_faulted hf _, fun i _ hf => exec_of_faulted i hf⟩

/-! ### A fault stays -/

/-- The three registers of R284 read the same in both states. -/
structure SameFault (s t : State) : Prop where
  fault : t.fault = s.fault
  fcause : t.fcause = s.fcause
  finfo : t.finfo = s.finfo

theorem hostRead_sameFault (off : Nat) (s : State) : SameFault s (hostRead off s) := by
  rcases hostRead_cases off s with ⟨_, h⟩ | ⟨v, h⟩
  · rw [h]
    rcases windowRead_cases s with ⟨_, h⟩ | ⟨_, _, _, _, h⟩ | ⟨_, _, _, h⟩ <;>
      rw [h] <;> exact ⟨rfl, rfl, rfl⟩
  · rw [h]
    exact ⟨rfl, rfl, rfl⟩

theorem regWrite_sameFault (r : Reg) (v : Word) (s : State) : SameFault s (regWrite r v s) := by
  obtain ⟨hfault, hcause, hinfo, _⟩ := regWrite_frame r v s
  exact ⟨hfault, hcause, hinfo⟩

/-- In a faulted block no host write meets the fault registers: a command word is ignored (R285). -/
theorem hostWrite_sameFault {off : Nat} {v : Word} {s t : State} (hf : s.fault = true)
    (h : hostWrite off v s = .next t) : SameFault s t := by
  rcases hostWrite_next h with ⟨_, rfl⟩ | ⟨_, hrun⟩ | ⟨r, _, _, rfl⟩
  · exact ⟨rfl, rfl, rfl⟩
  · obtain rfl := Host.Outcome.next.inj ((gated_of_faulted hf _).symm.trans hrun)
    exact ⟨rfl, rfl, rfl⟩
  · exact regWrite_sameFault r v s

theorem hostAct_sameFault {a : HostAction} {s t : State} (hf : s.fault = true) (ha : a ≠ .reset)
    (h : hostAct a s = .next t) : SameFault s t := by
  rcases hostAct_next h with ⟨off, _, rfl⟩ | ⟨off, v, _, hwrite⟩ | ⟨hreset, _⟩
  · exact hostRead_sameFault off s
  · exact hostWrite_sameFault hf hwrite
  · exact absurd hreset ha

/-- Settles O7: no other action of the host meets the fault registers of a faulted block. -/
theorem faultStaysUntilReset : Obligations.FaultStaysUntilReset := by
  refine ⟨fun s t a rest hf hhost ha h => ?_, fun s rest hhost => ?_⟩
  · rw [step_of_host hhost] at h
    obtain ⟨hfault, hcause, hinfo⟩ := hostAct_sameFault (s := { s with host := rest }) hf ha h
    exact ⟨hfault.trans hf, hcause, hinfo⟩
  · exact ⟨_, step_of_host hhost, rfl, rfl, rfl⟩

/-! ### What a command can end in -/

/-- The causes that are found before anything has changed (R296, R297). -/
def isEarly : Cause → Bool
  | .alloc => false
  | .sizeovf => false
  | .numeric => false
  | .illcmd => true
  | .notready => true
  | .badgeom => true
  | .nocand => true
  | .kernel => true
  | .badlen => true

/-- What a command that faults has changed beside the three registers of R284 (R297): nothing, or what
goes with an output that does not fit, a size that overflows, a value that is not finite. -/
inductive FaultLeaves (s : State) : Instr → Cause → State → Prop where
  | unchanged {i : Instr} {c : Cause} (hraise : mayRaise i c = true) (hearly : isEarly c = true) :
    FaultLeaves s i c s
  | tbufTooSmall (p : BitVec 2) : FaultLeaves s (.xpose p) .alloc { s with tlen := 0 }
  | cbufTooSmall (t a : Bool) (out : List Byte) (hfit : rleStart a s + out.length ≤ s.cfg.ccap) :
    FaultLeaves s (.rle t a) .alloc
      { s with cbuf := bufWriteRun s.cbuf (rleStart a s) out, clen := 0 }
  | fbufTooSmall {i : Instr} (hi : i = .cont ∨ ∃ p, i = .rawf p) :
    FaultLeaves s i .alloc { s with flen := 0 }
  | sizeTooLarge (hlarge : 65535 < sizeField s.clen.toNat) :
    FaultLeaves s .cont .sizeovf { s with flen := 0 }
  | notFinite (wk : DispWork)
    (hidx : ∀ j, canvasW s * canvasH s ≤ j → bufGet wk.idx j = bufGet s.idx j)
    (herr : ∀ j, 3 * canvasW s * canvasH s ≤ j → bufGet wk.err j = bufGet s.err j) :
    FaultLeaves s .disp .numeric { s with err := wk.err, idx := wk.idx, idxv := false }

/-- A length register a command may write stays as it was or ends within its capacity (R295). -/
structure LengthsFit (s t : State) : Prop where
  tlen : t.tlen = s.tlen ∨ t.tlen.toNat ≤ s.cfg.tcap
  clen : t.clen = s.clen ∨ t.clen.toNat ≤ s.cfg.ccap

/-- A next state of command `i`: it completed, or it faulted. -/
inductive Ends (i : Instr) (s : State) : State → Prop where
  | completed {t : State} (hfault : t.fault = s.fault) (hfit : LengthsFit s t) : Ends i s t
  | faulted {c : Cause} {u : State} (hleaves : FaultLeaves s i c u) :
    Ends i s (raiseFault c (encode i) u)

/-- Where the outcome is a next state, it is one of command `i`. -/
def OutEnds (i : Instr) (s : State) (o : Out) : Prop := ∀ t, o = .next t → Ends i s t

theorem outEnds_next {i : Instr} {s t : State} (h : Ends i s t) : OutEnds i s (.next t) :=
  fun _ ht => Host.Outcome.next.inj ht ▸ h

/-- A completion that meets neither TLEN nor CLEN. -/
theorem outEnds_completed {i : Instr} {s t : State} (hfault : t.fault = s.fault)
    (htlen : t.tlen = s.tlen) (hclen : t.clen = s.clen) : OutEnds i s (.next t) :=
  outEnds_next (.completed hfault ⟨.inl htlen, .inl hclen⟩)

theorem outEnds_gated {i : Instr} {s : State} {k : Out} (hk : OutEnds i s k) :
    OutEnds i s (gated s k) := fun t ht => by
  rcases gated_next ht with ⟨_, rfl⟩ | ⟨_, hkt⟩
  · exact .completed rfl ⟨.inl rfl, .inl rfl⟩
  · exact hk t hkt

/-- A check whose failure zeroes a length register (R296, R297). -/
theorem outEnds_needs {i : Instr} {s u : State} {ok : Bool} {c : Cause} {k : Out}
    (hleaves : ok = false → FaultLeaves s i c u) (hk : ok = true → OutEnds i s k) :
    OutEnds i s (needs ok c (encode i) u k) := fun t ht => by
  rcases needs_next ht with ⟨hno, rfl⟩ | ⟨hok, hkt⟩
  · exact .faulted (hleaves hno)
  · exact hk hok t hkt

/-- A check before anything changes (R296). -/
theorem outEnds_check {i : Instr} {s : State} {ok : Bool} {c : Cause} {k : Out}
    (hraise : mayRaise i c = true) (hearly : isEarly c = true) (hk : ok = true → OutEnds i s k) :
    OutEnds i s (needs ok c (encode i) s k) :=
  outEnds_needs (fun _ => .unchanged hraise hearly) hk

theorem outEnds_needsRead {α : Type} {i : Instr} {s : State} {r : Option α} {b : BufId} {k : α → Out}
    (hk : ∀ a, r = some a → OutEnds i s (k a)) : OutEnds i s (needsRead r b k) := fun t ht => by
  obtain ⟨a, ha, hkt⟩ := needsRead_next ht
  exact hk a ha t hkt

/-! ### Each command -/

theorem execSnap_ends (r g b : BitVec 8) (s : State) : OutEnds (.snap r g b) s (execSnap r g b s) := by
  obtain ⟨i, hi⟩ := exists_snap_noneUsed s.cfg (targetColor r g b)
  refine outEnds_gated ?_
  rw [hi]
  exact outEnds_completed rfl rfl rfl

theorem execSnapu_ends (r g b : BitVec 8) (s : State) :
    OutEnds (.snapu r g b) s (execSnapu r g b s) := by
  refine outEnds_gated (outEnds_needsRead fun _ _ => ?_)
  cases snap s.cfg (targetColor r g b) (usedSet s.used) with
  | none => exact outEnds_next (.faulted (.unchanged rfl rfl))
  | some i => exact outEnds_completed rfl rfl rfl

theorem execPsnapu_ends (s : State) : OutEnds .psnapu s (execPsnapu s) := by
  refine outEnds_gated (outEnds_needsRead fun colors hc => ?_)
  obtain ⟨picks, hpicks⟩ := exists_snapAll (p := s.cfg) colors [] (by simp [readExt_length hc])
  simp only [hpicks]
  exact outEnds_completed rfl rfl rfl

theorem execPsnapn_ends (s : State) : OutEnds .psnapn s (execPsnapn s) := by
  refine outEnds_gated (outEnds_needsRead fun colors _ => ?_)
  choose nearest hnearest using exists_snap_noneUsed s.cfg
  simp only [mapM_eq_some_map fun c (_ : c ∈ colors) => hnearest c]
  exact outEnds_completed rfl rfl rfl

theorem synthesize_ends {i : Instr} {s : State} {ideals : List Rgb} (hl : ideals.length ≤ 16) :
    OutEnds i s (synthesize (encode i) s ideals) := by
  obtain ⟨_, _, _, _, _, _, _, he⟩ := synthesize_next (encode i) s hl
  rw [he]
  exact outEnds_completed rfl rfl rfl

theorem execQgen_ends (s : State) : OutEnds .qgen s (execQgen s) :=
  outEnds_gated <| outEnds_check rfl rfl fun _ => outEnds_needsRead fun _ _ =>
    synthesize_ends (idealsOf_length _ _ _).2

theorem execQlat_ends (s : State) : OutEnds .qlat s (execQlat s) := by
  refine outEnds_gated <| outEnds_check rfl rfl fun _ => outEnds_needsRead fun image _ => ?_
  obtain ⟨_, _, _, hideals⟩ := exists_latIdeals s.cfg image
  rw [hideals]
  exact synthesize_ends (idealsOf_length _ _ _).2

/-- Beyond the canvas a pass of DISP changes neither IDX nor ERR (R297). -/
theorem DispReads.run_ends {s : State} {weights : List F64} {offsets : List (Int × Int)}
    {pal : List (BitVec 12)} {image : List Rgb} (h : DispReads s weights offsets pal image) :
    OutEnds .disp s (dispRun s (dispInputOf s pal offsets weights) image) := by
  rcases dispRun_cases s (dispInputOf s pal offsets weights) image with
    ⟨wk, _, he⟩ | ⟨wk, hstop, he⟩
  · rw [he]
    exact outEnds_completed rfl rfl rfl
  · rw [he]
    exact outEnds_next (.faulted (.notFinite wk
      (fun _ hj => (onEither_idx_beyond (dispStart s image) hj).of_error hstop)
      (fun _ hj => (h.onEither_err_beyond hj).of_error hstop)))

theorem execDisp_ends (s : State) : OutEnds .disp s (execDisp s) :=
  outEnds_gated <| outEnds_check rfl rfl fun hgeom => outEnds_check rfl rfl fun hpalv =>
    outEnds_check rfl rfl fun hklen => outEnds_needsRead fun _ hweights =>
      outEnds_check rfl rfl fun hfinite => outEnds_needsRead fun _ hoffsets =>
        outEnds_needsRead fun _ hpal => outEnds_needsRead fun _ himage =>
          DispReads.run_ends ⟨hgeom, hpalv, of_decide_eq_true hklen, hweights, hfinite, hoffsets,
            hpal, himage⟩

theorem execVerify_ends (s : State) : OutEnds .verify s (execVerify s) :=
  outEnds_gated <| outEnds_check rfl rfl fun _ => outEnds_check rfl rfl fun _ =>
    outEnds_needsRead fun _ _ => outEnds_completed rfl rfl rfl

theorem execBlkenc_ends (s : State) : OutEnds .blkenc s (execBlkenc s) :=
  outEnds_gated <| outEnds_check rfl rfl fun _ => outEnds_check rfl rfl fun _ =>
    outEnds_needsRead fun _ _ => outEnds_completed rfl rfl rfl

/-- A register that takes a length within the capacity stays within it. -/
theorem toNat_ofNat_le {w n cap : Nat} (h : n ≤ cap) : (BitVec.ofNat w n).toNat ≤ cap :=
  (BitVec.toNat_ofNat n w).trans_le ((Nat.mod_le _ _).trans h)

theorem execXpose_ends (p : BitVec 2) (s : State) : OutEnds (.xpose p) s (execXpose p s) :=
  outEnds_gated <| outEnds_check rfl rfl fun _ => outEnds_check rfl rfl fun _ => outEnds_check rfl rfl fun _ =>
    outEnds_needs (fun _ => .tbufTooSmall p) fun hfit => outEnds_needsRead fun _ _ =>
      outEnds_next (.completed rfl ⟨.inr (toNat_ofNat_le (of_decide_eq_true hfit)), .inl rfl⟩)

theorem execRle_ends (t a : Bool) (s : State) : OutEnds (.rle t a) s (execRle t a s) := by
  refine outEnds_gated <| outEnds_check rfl rfl fun _ => outEnds_check rfl rfl fun hstart =>
    outEnds_needsRead fun input _ => ?_
  have hroom : rleStart a s ≤ s.cfg.ccap := of_decide_eq_true hstart
  rcases emitToCbuf_cases (encode (.rle t a)) (rleStart a s) (rleOutput s.cfg.rleMaxRun t input) s
    with ⟨hfit, he⟩ | ⟨_, he⟩
  · rw [he]
    exact outEnds_next (.completed rfl ⟨.inl rfl, .inr (toNat_ofNat_le hfit)⟩)
  · rw [he]
    exact outEnds_next (.faulted (.cbufTooSmall t a _ (by rw [List.length_take]; omega)))

theorem execCont_ends (s : State) : OutEnds .cont s (execCont s) :=
  outEnds_gated <| outEnds_check rfl rfl fun _ => outEnds_check rfl rfl fun _ => outEnds_check rfl rfl fun _ =>
    outEnds_needs (fun hlarge => .sizeTooLarge (not_le.1 (of_decide_eq_false hlarge))) fun _ =>
      outEnds_needs (fun _ => .fbufTooSmall (.inl rfl)) fun _ => outEnds_needsRead fun _ _ =>
        outEnds_needsRead fun _ _ => outEnds_completed rfl rfl rfl

theorem execRawf_ends (p : BitVec 2) (s : State) : OutEnds (.rawf p) s (execRawf p s) :=
  outEnds_gated <| outEnds_check rfl rfl fun _ => outEnds_check rfl rfl fun _ => outEnds_check rfl rfl fun _ =>
    outEnds_needs (fun _ => .fbufTooSmall (.inr ⟨p, rfl⟩)) fun _ => outEnds_needsRead fun _ _ =>
      outEnds_completed rfl rfl rfl

/-- What a command can end in (R283, R297). -/
theorem exec_ends (i : Instr) (s : State) : OutEnds i s (exec i s) :=
  match i with
  | .nop => outEnds_gated (outEnds_completed rfl rfl rfl)
  | .latrd _ => outEnds_gated (outEnds_completed rfl rfl rfl)
  | .snap r g b => execSnap_ends r g b s
  | .snapu r g b => execSnapu_ends r g b s
  | .uclr => outEnds_gated (outEnds_completed rfl rfl rfl)
  | .umark _ => outEnds_gated (outEnds_completed rfl rfl rfl)
  | .qgen => execQgen_ends s
  | .qlat => execQlat_ends s
  | .psnapu => execPsnapu_ends s
  | .psnapn => execPsnapn_ends s
  | .disp => execDisp_ends s
  | .verify => execVerify_ends s
  | .blkenc => execBlkenc_ends s
  | .xpose p => execXpose_ends p s
  | .rle t a => execRle_ends t a s
  | .cont => execCont_ends s
  | .rawf p => execRawf_ends p s

/-- A command that faults has entered one fault, on what R297 leaves. -/
theorem exec_faults {i : Instr} {s t : State} (hf : s.fault = false) (h : exec i s = .next t)
    (ht : t.fault = true) : ∃ c u, FaultLeaves s i c u ∧ t = raiseFault c (encode i) u := by
  cases exec_ends i s t h with
  | completed hfault _ =>
    rw [hfault, hf] at ht
    cases ht
  | faulted hleaves => exact ⟨_, _, hleaves, rfl⟩

end Sys2Proof.Machine

/-! The single causes of R283: what each command answers where a check fails, and that nothing else raises
the cause. -/

namespace Sys2Proof.Machine

/-! ### What a fault leaves, register by register -/

section Leaves

variable {s u : State} {i : Instr} {c : Cause}

theorem FaultLeaves.mayRaise (h : FaultLeaves s i c u) : mayRaise i c = true := by
  cases h with
  | unchanged hraise => exact hraise
  | fbufTooSmall hi => rcases hi with rfl | ⟨p, rfl⟩ <;> rfl
  | _ => rfl

theorem FaultLeaves.frame (h : FaultLeaves s i c u) :
    u = { s with
      tlen := u.tlen, clen := u.clen, flen := u.flen, cbuf := u.cbuf,
      idx := u.idx, err := u.err, idxv := u.idxv } := by
  cases h <;> rfl

/-- Only ALLOC and SIZEOVF meet a length register or CBUF. -/
theorem FaultLeaves.lengths_kept (h : FaultLeaves s i c u) (halloc : c ≠ .alloc)
    (hsize : c ≠ .sizeovf) :
    u.tlen = s.tlen ∧ u.clen = s.clen ∧ u.flen = s.flen ∧ u.cbuf = s.cbuf := by
  cases h with
  | unchanged => exact ⟨rfl, rfl, rfl, rfl⟩
  | notFinite => exact ⟨rfl, rfl, rfl, rfl⟩
  | sizeTooLarge => exact absurd rfl hsize
  | _ => exact absurd rfl halloc

/-- Only NUMERIC meets IDX, ERR or IDXV. -/
theorem FaultLeaves.pass_kept (h : FaultLeaves s i c u) (hnumeric : c ≠ .numeric) :
    u.idx = s.idx ∧ u.err = s.err ∧ u.idxv = s.idxv := by
  cases h with
  | notFinite => exact absurd rfl hnumeric
  | _ => exact ⟨rfl, rfl, rfl⟩

theorem FaultLeaves.of_numeric (h : FaultLeaves s i .numeric u) :
    u.idxv = false ∧
    (∀ j, canvasW s * canvasH s ≤ j → bufGet u.idx j = bufGet s.idx j) ∧
    ∀ j, 3 * canvasW s * canvasH s ≤ j → bufGet u.err j = bufGet s.err j := by
  cases h with
  | unchanged _ hearly => cases hearly
  | notFinite _ hidx herr => exact ⟨rfl, hidx, herr⟩

/-- An output of XPOSE that does not fit zeroes TLEN. -/
theorem FaultLeaves.of_xpose {p : BitVec 2} (h : FaultLeaves s (.xpose p) c u)
    (hc : c = .alloc ∨ c = .sizeovf) :
    u.tlen = 0 ∧ u.clen = s.clen ∧ u.flen = s.flen ∧ u.cbuf = s.cbuf := by
  cases h with
  | unchanged _ hearly => rcases hc with rfl | rfl <;> cases hearly
  | tbufTooSmall => exact ⟨rfl, rfl, rfl, rfl⟩
  | fbufTooSmall hi => simp at hi

/-- An output of RLE that does not fit zeroes CLEN, and CBUF is written from the start position on. -/
theorem FaultLeaves.of_rle {b a : Bool} (h : FaultLeaves s (.rle b a) c u)
    (hc : c = .alloc ∨ c = .sizeovf) :
    u.clen = 0 ∧ u.tlen = s.tlen ∧ u.flen = s.flen ∧
      ∀ j, j < rleStart a s ∨ s.cfg.ccap ≤ j → bufGet u.cbuf j = bufGet s.cbuf j := by
  cases h with
  | unchanged _ hearly => rcases hc with rfl | rfl <;> cases hearly
  | cbufTooSmall _ _ out hfit =>
    refine ⟨rfl, rfl, rfl, fun j hj => ?_⟩
    rw [bufGet_bufWriteRun, if_neg (by omega)]
  | fbufTooSmall hi => simp at hi

/-- A file that does not fit, or whose size overflows, zeroes FLEN. -/
theorem FaultLeaves.of_file (h : FaultLeaves s i c u) (hi : i = .cont ∨ ∃ p, i = .rawf p)
    (hc : c = .alloc ∨ c = .sizeovf) :
    u.flen = 0 ∧ u.tlen = s.tlen ∧ u.clen = s.clen ∧ u.cbuf = s.cbuf := by
  cases h with
  | unchanged _ hearly => rcases hc with rfl | rfl <;> cases hearly
  | fbufTooSmall => exact ⟨rfl, rfl, rfl, rfl⟩
  | sizeTooLarge => exact ⟨rfl, rfl, rfl, rfl⟩
  | _ => simp at hi

end Leaves

/-- Settles O8: a command that faults has entered one fault, on what R297 leaves. -/
theorem faultEntryIsPrecise : Obligations.FaultEntryIsPrecise := by
  intro i s t hf h ht
  obtain ⟨c, u, hleaves, rfl⟩ := exec_faults hf h ht
  refine ⟨c, hleaves.mayRaise, congrArg (raiseFault c (encode i)) hleaves.frame,
    hleaves.lengths_kept, hleaves.pass_kept, ?_, fun hc => ⟨?_, ?_, fun hi => hleaves.of_file hi hc⟩⟩
  · rintro rfl
    exact hleaves.of_numeric
  · rintro p rfl
    exact hleaves.of_xpose hc
  · rintro b a rfl
    exact hleaves.of_rle hc

/-- The cause register of a command that faults holds a cause of its own. -/
theorem exec_cause {i : Instr} {s t : State} {c : Cause} (hf : s.fault = false)
    (h : exec i s = .next t) (ht : t.fault = true) (hc : t.fcause = causeCode c) :
    ∃ u, FaultLeaves s i c u := by
  obtain ⟨d, u, hleaves, rfl⟩ := exec_faults hf h ht
  exact ⟨u, causeCode_injective hc ▸ hleaves⟩

/-! ### BADGEOM and NOTREADY -/

/-- A command that uses the canvas checks the geometry first, and then its validity flag (R288, R289). -/
theorem exec_canvas_checks {i : Instr} {s : State} (hwf : i.wellFormed = true)
    (hcanvas : usesCanvas i = true) (hf : s.fault = false) :
    ∃ k, exec i s = needs (geomOk s) .badgeom (encode i) s
      (needs (requiredFlag s i) .notready (encode i) s k) := by
  cases i with
  | qgen => exact ⟨_, gated_of_clear hf _⟩
  | qlat => exact ⟨_, gated_of_clear hf _⟩
  | disp => exact ⟨_, gated_of_clear hf _⟩
  | verify => exact ⟨_, gated_of_clear hf _⟩
  | blkenc => exact ⟨_, gated_of_clear hf _⟩
  | cont => exact ⟨_, gated_of_clear hf _⟩
  | xpose p =>
    have hp : planeSelOk p = true := hwf
    exact ⟨_, (gated_of_clear hf _).trans (by rw [hp, needs_true]; rfl)⟩
  | rawf p =>
    have hp : planeSelOk p = true := hwf
    exact ⟨_, (gated_of_clear hf _).trans (by rw [hp, needs_true]; rfl)⟩
  | _ => cases hcanvas

theorem usesCanvas_of_mayRaise_badgeom {i : Instr} (h : mayRaise i .badgeom = true) :
    usesCanvas i = true := by
  revert h
  cases i <;> simp [mayRaise, usesCanvas]

/-- Every command that requires a validity flag uses the canvas (R289). -/
theorem usesCanvas_of_requiredFlag {i : Instr} {s : State} (h : requiredFlag s i = false) :
    usesCanvas i = true := by
  revert h
  cases i <;> simp [requiredFlag, usesCanvas]

/-- Settles O9: the geometry check stands before every other, and the cause names its command's check. -/
theorem badGeometryFaults : Obligations.BadGeometryFaults := by
  refine ⟨fun i s hwf hcanvas hf hbad => ?_, fun i s t hcanvas hf h ht hc => ?_⟩
  · have hgeom : geomOk s = false := Bool.eq_false_iff.2 fun hg => by
      obtain ⟨hw, hh, hwmax, hhmax⟩ := geomOk_le hg
      exact hbad ⟨hw, hwmax, hh, hhmax⟩
    obtain ⟨k, hk⟩ := exec_canvas_checks hwf hcanvas hf
    rw [hk, hgeom]
    rfl
  · obtain ⟨u, hleaves⟩ := exec_cause (c := .badgeom) hf h ht hc
    cases hcanvas.symm.trans (usesCanvas_of_mayRaise_badgeom hleaves.mayRaise)

/-- Settles O10: the flag is checked right after the geometry. -/
theorem missingInputFaults : Obligations.MissingInputFaults := fun i s hwf hf hgeom hflag => by
  obtain ⟨k, hk⟩ := exec_canvas_checks hwf (usesCanvas_of_requiredFlag hflag) hf
  rw [hk, hgeom, hflag]
  rfl

/-! ### ALLOC -/

/-- RLE past its checks emits to CBUF (R250). -/
theorem exec_rle_emits {t a : Bool} {s : State} {input : List Byte} (hf : s.fault = false)
    (htlen : s.tlen.toNat ≤ s.cfg.tcap) (hstart : rleStart a s ≤ s.cfg.ccap)
    (hinput : bufReadRun s.tbuf 0 s.tlen.toNat = some input) :
    exec (.rle t a) s = emitToCbuf (encode (.rle t a)) (rleStart a s)
      (rleOutput s.cfg.rleMaxRun t input) s := by
  rw [exec, execRle, gated_of_clear hf, decide_eq_true htlen, needs_true, decide_eq_true hstart,
    needs_true, hinput, needsRead_some]

/-- Storing the part of a run that lies below `cap`. -/
theorem bufGet_bufWriteRun_take {w : Nat} (b : Buf w) {o cap : Nat} {vs : List (BitVec w)}
    (ho : o ≤ cap) (hlong : cap < o + vs.length) (j : Nat) :
    bufGet (bufWriteRun b o (vs.take (cap - o))) j =
      if o ≤ j ∧ j < cap then vs[j - o]? else bufGet b j := by
  have hend : o + (vs.take (cap - o)).length = cap := by rw [List.length_take]; omega
  rw [bufGet_bufWriteRun, hend]
  split
  · rw [List.getElem?_take_of_lt (by omega)]
  · rfl

/-- Settles O11: the capacity is the last check of XPOSE, RAWF and CONT, and RLE finds it while emitting. -/
theorem outputThatDoesNotFitFaults : Obligations.OutputThatDoesNotFitFaults := by
  refine ⟨fun p s hp hf hg hv hlong => ?_, fun p s hp hf hg hv hlong => ?_,
    fun s hf hg hv hclen hsize hlong => ?_, fun t a s input hf htlen hstart hinput hlong => ?_⟩
  · rw [exec, execXpose, gated_of_clear hf, planeSelOk_of_ne hp, needs_true, hg, needs_true, hv,
      needs_true, decide_eq_false (not_le.2 hlong), needs_false]
    rfl
  · rw [exec, execRawf, gated_of_clear hf, planeSelOk_of_ne hp, needs_true, hg, needs_true, hv,
      needs_true, decide_eq_false (not_le.2 hlong), needs_false]
    rfl
  · rw [exec, execCont, gated_of_clear hf, hg, needs_true, hv, needs_true, decide_eq_true hclen,
      needs_true, decide_eq_true hsize, needs_true, decide_eq_false (not_le.2 hlong), needs_false]
    rfl
  · rw [exec_rle_emits hf htlen hstart hinput, emitToCbuf, if_neg (not_le.2 hlong)]
    exact ⟨_, rfl, rfl, bufGet_bufWriteRun_take s.cbuf hstart hlong⟩

/-! ### BADLEN -/

theorem LengthsFit.of_faultLeaves {i : Instr} {c : Cause} {s u : State} (h : FaultLeaves s i c u) :
    LengthsFit s u := by
  cases h with
  | tbufTooSmall => exact ⟨.inr (Nat.zero_le _), .inl rfl⟩
  | cbufTooSmall => exact ⟨.inl rfl, .inr (Nat.zero_le _)⟩
  | _ => exact ⟨.inl rfl, .inl rfl⟩

/-- A command completes with lengths that fit, and a fault zeroes them or keeps them (R295, R297). -/
theorem exec_lengthsFit {i : Instr} {s t : State} (h : exec i s = .next t) : LengthsFit s t := by
  cases exec_ends i s t h with
  | completed _ hfit => exact hfit
  | faulted hleaves =>
    obtain ⟨htlen, hclen⟩ := LengthsFit.of_faultLeaves hleaves
    exact ⟨htlen, hclen⟩

/-- RLE's two length checks, one after the other (R295). -/
theorem exec_rle_badlen {t a : Bool} {s : State} (hf : s.fault = false)
    (hlong : s.cfg.tcap < s.tlen.toNat ∨ s.cfg.ccap < rleStart a s) :
    exec (.rle t a) s = .next (raiseFault .badlen (encode (.rle t a)) s) := by
  rw [exec, execRle, gated_of_clear hf]
  by_cases htlen : s.tlen.toNat ≤ s.cfg.tcap
  · have hstart : ¬ rleStart a s ≤ s.cfg.ccap := not_le.2 (hlong.resolve_left (not_lt.2 htlen))
    rw [decide_eq_true htlen, needs_true, decide_eq_false hstart, needs_false]
  · rw [decide_eq_false htlen, needs_false]

/-- Settles O12: the lengths are checked before anything is read, and no command ends with a bad one. -/
theorem badLengthFaults : Obligations.BadLengthFaults := by
  refine ⟨fun t a s hf hlong => ?_, fun s hf hg hv hlong => ?_, fun i s t h => ?_⟩
  · refine exec_rle_badlen hf (hlong.imp_right fun ⟨ha, hclen⟩ => ?_)
    rw [ha]
    exact hclen
  · change exec .cont s = .next (raiseFault .badlen (encode .cont) s)
    rw [exec, execCont, gated_of_clear hf, hg, needs_true, hv, needs_true,
      decide_eq_false (not_le.2 hlong), needs_false]
  · obtain ⟨htlen, hclen⟩ := exec_lengthsFit h
    exact ⟨htlen, hclen⟩

/-! ### KERNEL -/

/-- Where the weight words of some entries were written they are read, each weight among them (R191). -/
theorem exists_readWeights {krn : Buf 32} {t n : Nat}
    (h : ∀ k, t ≤ k → k < t + n → (bufGet krn (4 * k + 1)).isSome = true ∧
      (bufGet krn (4 * k + 2)).isSome = true) :
    ∃ weights, readWeights krn t n = some weights ∧
      ∀ k hi, t ≤ k → k < t + n → bufGet krn (4 * k + 2) = some hi →
        ∃ lo : Word, hi ++ lo ∈ weights := by
  induction n generalizing t with
  | zero => exact ⟨[], rfl, fun k _ hlow hhigh _ => by omega⟩
  | succ n ih =>
    obtain ⟨weights, hweights, hmem⟩ := ih (t := t + 1) fun k _ _ => h k (by omega) (by omega)
    obtain ⟨hlo, hhi⟩ := h t le_rfl (by omega)
    obtain ⟨lo, hlo⟩ := Option.isSome_iff_exists.1 hlo
    obtain ⟨hi, hhi⟩ := Option.isSome_iff_exists.1 hhi
    refine ⟨(hi ++ lo) :: weights, by simp only [readWeights, hlo, hhi, hweights, Option.map_some],
      fun k hi' hlow hhigh hget => ?_⟩
    rcases Nat.eq_or_lt_of_le hlow with rfl | hlt
    · obtain rfl := Option.some.inj (hhi.symm.trans hget)
      exact ⟨lo, List.mem_cons_self⟩
    · obtain ⟨lo', hlo'⟩ := hmem k hi' hlt (by omega) hget
      exact ⟨lo', List.mem_cons_of_mem _ hlo'⟩

/-- A binary64 pattern's exponent field lies in its high word (R41, R103). -/
theorem f64Exp_append (hi lo : Word) : f64Exp (hi ++ lo) = (hi.extractLsb' 20 11).toNat := by
  refine congrArg BitVec.toNat (BitVec.eq_of_getLsbD_eq fun j hj => ?_)
  simp only [BitVec.getLsbD_extractLsb', hj, decide_true, Bool.true_and]
  refine (BitVec.getLsbD_append (x := hi) (y := lo)).trans ?_
  rw [if_neg (by omega), show 52 + j - 32 = 20 + j by omega]

theorem f64Finite_append_eq_false {hi : Word} (h : hi.extractLsb' 20 11 = 0x7FF) (lo : Word) :
    f64Finite (hi ++ lo) = false := by
  rw [f64Finite, f64Exp_append, h]
  rfl

/-- Settles O13: both checks of the kernel stand before the pass, and a weight that is not finite is among
those read. -/
theorem badKernelFaults : Obligations.BadKernelFaults := by
  refine ⟨fun s hf hg hv hlong => ?_, fun s k hi hf hg hv hklen hwritten hk hget hexp => ?_⟩
  · change exec .disp s = .next (raiseFault .kernel (encode .disp) s)
    rw [exec, execDisp, gated_of_clear hf, hg, needs_true, hv, needs_true,
      decide_eq_false (not_le.2 hlong), needs_false]
  · obtain ⟨weights, hweights, hmem⟩ := exists_readWeights (krn := s.krn) (t := 0)
      (n := s.klen.toNat) fun j _ hj => hwritten j (by omega)
    obtain ⟨lo, hlo⟩ := hmem k hi (Nat.zero_le k) (by omega) hget
    have hall : weights.all f64Finite = false :=
      List.all_eq_false.2 ⟨_, hlo, Bool.eq_false_iff.1 (f64Finite_append_eq_false hexp lo)⟩
    change exec .disp s = .next (raiseFault .kernel (encode .disp) s)
    rw [exec, execDisp, gated_of_clear hf, hg, needs_true, hv, needs_true, decide_eq_true hklen,
      needs_true, hweights, needsRead_some, hall, needs_false]

/-! ### SIZEOVF -/

theorem sizeField_overflows_iff (L : Nat) : 65535 < sizeField L ↔ 65493 ≤ L := by
  unfold sizeField
  omega

/-- Settles O14: the size check is the only one that raises SIZEOVF. -/
theorem sizeOverflowFaults : Obligations.SizeOverflowFaults := by
  refine ⟨sizeField_overflows_iff, fun s hf hg hv hclen hlarge => ?_,
    fun s t hf hsmall h ht hc => ?_⟩
  · rw [exec, execCont, gated_of_clear hf, hg, needs_true, hv, needs_true, decide_eq_true hclen,
      needs_true, decide_eq_false (not_le.2 ((sizeField_overflows_iff _).2 hlarge)), needs_false]
    rfl
  · obtain ⟨u, hleaves⟩ := exec_cause (c := .sizeovf) hf h ht hc
    cases hleaves with
    | unchanged _ hearly => cases hearly
    | sizeTooLarge hlarge => exact absurd ((sizeField_overflows_iff _).1 hlarge) (by omega)

end Sys2Proof.Machine
